-- ==== Sys2Proof/Word.lean ====
section
/-! DEFINITION. The words of the OZ416 and its plainest arithmetic: bytes and 16-bit fields (R178), the four ports
(00_scope, "Ports"), one value per port, and the outcomes of the array operations (R101). -/

namespace Sys2Proof

/-- A byte of a frame or of a sector (R163, R178). -/
abbrev Byte := BitVec 8

/-- A two-byte field of a frame: sector, count, signal word value or mask, word set (R178). -/
abbrev Word16 := BitVec 16

/-- The four ports, numbered 0 to 3 and named P0 to P3 (00_scope, "Ports"). -/
inductive Port where
  | p0
  | p1
  | p2
  | p3
deriving DecidableEq, Repr

namespace Port

/-- The port's number. -/
def num : Port → Nat
  | p0 => 0
  | p1 => 1
  | p2 => 2
  | p3 => 3

/-- The port n + 1, counted modulo 4 (R24). -/
def next : Port → Port
  | p0 => p1
  | p1 => p2
  | p2 => p3
  | p3 => p0

/-- The ports in ascending order. -/
def all : List Port := [p0, p1, p2, p3]

/-- The port of a number, if there is one: 0 to 3. -/
def ofNum? : Nat → Option Port
  | 0 => some p0
  | 1 => some p1
  | 2 => some p2
  | 3 => some p3
  | _ => none

/-- The port that the strap pins' binary value names (R179, R180). -/
def ofPins (v : BitVec 2) : Port :=
  match v.toNat with
  | 0 => p0
  | 1 => p1
  | 2 => p2
  | _ => p3

end Port

/-- One value for each of the four ports: four of the blocks exist once per port (00_scope, "Block overview"). -/
structure PortMap (α : Type) where
  atP0 : α
  atP1 : α
  atP2 : α
  atP3 : α
deriving DecidableEq, Repr

namespace PortMap

variable {α : Type}

/-- The same value for every port. -/
def const (a : α) : PortMap α := ⟨a, a, a, a⟩

/-- The value of port `p`. -/
def get (m : PortMap α) : Port → α
  | .p0 => m.atP0
  | .p1 => m.atP1
  | .p2 => m.atP2
  | .p3 => m.atP3

/-- The map with port `p`'s value replaced. -/
def set (m : PortMap α) (p : Port) (a : α) : PortMap α :=
  match p with
  | .p0 => { m with atP0 := a }
  | .p1 => { m with atP1 := a }
  | .p2 => { m with atP2 := a }
  | .p3 => { m with atP3 := a }

/-- The map with port `p`'s value changed by `f`. -/
def modify (m : PortMap α) (p : Port) (f : α → α) : PortMap α := m.set p (f (m.get p))

end PortMap

/-- The outcomes of a read of one physical sector (R101). -/
inductive ReadOutcome where
  | clean
  | corrected
  | uncorrectable
deriving DecidableEq, Repr

/-- The outcomes of a program of a sector or a clear of a block (R101). -/
inductive OpOutcome where
  | ok
  | fault
deriving DecidableEq, Repr

end Sys2Proof
end

