-- ==== Sys2Proof/Config.lean ====
section
/-! DEFINITION. What the part fixes (sizes, capacities, defaults) and the one value the spec leaves open. -/

namespace Sys2Proof.Config

/-- Bytes in a sector (00_scope, "Sectors, blocks and ranges"). -/
def sectorBytes : Nat := 512

/-- Sectors in a block (00_scope). -/
def blockSectors : Nat := 32

/-- User sectors 0 to 32767 (R1). -/
def userSectors : Nat := 32768

/-- Physical blocks 0 to 1040 (00_scope, "The array at a glance"; section 6.1). -/
def physicalBlocks : Nat := 1041

/-- The metadata block, physical block 1040 (R2, R9). -/
def metadataBlock : Nat := 1040

/-- The first of the 16 spares, physical blocks 1024 to 1039 (R115). -/
def firstSpare : Nat := 1024

/-- The 16 spares in ascending order (R115). -/
def spares : List Nat := List.range' firstSpare 16

/-- Slots of the lease table (R20). -/
def leaseSlots : Nat := 64

/-- Staging slots of a port write unit (R80). -/
def stagingSlots : Nat := 8

/-- Records a notice queue holds (R145). -/
def noticeCapacity : Nat := 16

/-- Entries of a watch table (R135) and of the region table (R3). -/
def watchEntries : Nat := 8

/-- Signal words (R155). -/
def signalWords : Nat := 16

/-- Reads of the metadata load (R10). -/
def loadReads : Nat := 32

/-- The high level at reset (R147). -/
def defaultHigh : Nat := 12

/-- The low level at reset (R147). -/
def defaultLow : Nat := 4

/-- The default ATTN mask, RESULT_READY and NOTICE_PENDING (R173, R178). -/
def defaultMask : BitVec 4 := 3#4

/-- Default lease period P (section 1.4, R11). -/
def defaultPeriod : Nat := 50

/-- Default hold limit H (section 1.4, R11). -/
def defaultHold : Nat := 20

/-- Default quota Q (section 1.4, R11). -/
def defaultQuota : Nat := 16

/-- The part code that DEVICE INFO returns (R185). -/
def partCode : Nat := 65

/-- The revision that DEVICE INFO returns (R185). -/
def revision : Nat := 1

/-- FREE VALUE (DESIGN CHOICE, safe, log 16): which of several broken leases a LEASE_LOST completion names, when more
than one lease to which the command is bound was broken after its job was issued. R78 says "the lease id of the broken
lease" and does not say which. Applied to the number of the command and the ids broken, oldest first; the model takes
it modulo their number. -/
opaque brokenChoice : Nat → List Nat → Nat

/-- FREE VALUE (DESIGN CHOICE, safe, log 29): the byte that FETCH NOTICE shifts out at the offset of a field that the
record's presence byte says is absent (source port, watch index, lease id). R178 gives the presence bits and states no
value for an absent field. Applied to the number of notices the port has fetched before, and the offset. -/
opaque absentNoticeField : Nat → Nat → Byte

end Sys2Proof.Config
end

