-- ==== Sys2Proof/Syntax.lean ====
section
/-! DEFINITION. The commands of the OZ416: one constructor per row of spec/opcode_table.json. A frame carries the port
it arrives on, its parameter bytes as the layout of R178 gives them, and `len`, the number of its complete bytes,
the opcode's included (R163). A block event carries the port it concerns; an array outcome carries the outcome the
array gives (R101). -/

namespace Sys2Proof

/-- One command of the block: a row of the table with the row's operands. -/
inductive Instr where
  -- device reset, timers and sweep
  | deviceReset
  | metadataLoadReadOutcome (o : ReadOutcome)
  | rotationExpiry
  | sweep
  | waitDeadlineExpiry (p : Port)
  | holdDeadlineExpiry (p : Port)
  -- immediate frames (R163, R165), and the blocks' taking of a cancel
  | status (p : Port) (len : Nat)
  | result (p : Port) (len : Nat)
  | fetchData (p : Port) (len : Nat)
  | fetchNotice (p : Port) (len : Nat)
  | cancel (p : Port) (len : Nat)
  | cancelParked (p : Port)
  | cancelHeld (p : Port)
  | portReset (p : Port) (len : Nat)
  | unknownOpcodeFrame (p : Port) (opcode : Byte) (len : Nat)
  -- the blocks' taking of a teardown (R176)
  | leTeardown (p : Port)
  | pwuTeardown (p : Port)
  | meTeardown (p : Port)
  | nuTeardown (p : Port)
  | swbTeardown (p : Port)
  -- slot command frames (R167, R178)
  | acquire (p : Port) (first count : Word16) (mode wait : Byte) (len : Nat)
  | upgrade (p : Port) (id wait : Byte) (len : Nat)
  | downgrade (p : Port) (id : Byte) (len : Nat)
  | renew (p : Port) (id : Byte) (len : Nat)
  | renewAll (p : Port) (selector : Byte) (len : Nat)
  | release (p : Port) (id discard : Byte) (len : Nat)
  | queryLease (p : Port) (id : Byte) (len : Nat)
  | read (p : Port) (first : Word16) (count : Byte) (len : Nat)
  | write (p : Port) (first : Word16) (count : Byte) (payload : List Byte) (len : Nat)
  | commit (p : Port) (id : Byte) (len : Nat)
  | commitAll (p : Port) (selector : Byte) (len : Nat)
  | clear (p : Port) (first count : Word16) (len : Nat)
  | querySector (p : Port) (sector : Word16) (len : Nat)
  | setWatch (p : Port) (index target : Byte) (first count wordSet : Word16) (kinds includeSelf hold : Byte) (len : Nat)
  | dropWatch (p : Port) (index : Byte) (len : Nat)
  | setLevels (p : Port) (high low : Byte) (len : Nat)
  | setAttnMask (p : Port) (mask : Byte) (len : Nat)
  | signalRead (p : Port) (word : Byte) (len : Nat)
  | signalModify (p : Port) (word : Byte) (mask value : Word16) (len : Nat)
  | deviceInfo (p : Port) (len : Nat)
  | counterSetup (p : Port) (counter event qualifier : Byte) (len : Nat)
  | counterRead (p : Port) (counter : Byte) (len : Nat)
  | setRegion (p : Port) (index : Byte) (first last : Word16) (access mode : Byte) (len : Nat)
  | setRegionUndefine (p : Port) (index action : Byte) (len : Nat)
  | setLeasePeriod (p : Port) (period : Byte) (len : Nat)
  | setHoldLimit (p : Port) (limit : Byte) (len : Nat)
  | setQuota (p : Port) (quota : Byte) (len : Nat)
  | saveConfig (p : Port) (len : Nat)
  | breakLease (p : Port) (id : Byte) (len : Nat)
  | fence (p : Port) (target : Byte) (len : Nat)
  | unfence (p : Port) (target : Byte) (len : Nat)
  -- the write units' issue and reports, and the array's outcomes
  | jobIssue (p : Port)
  | readSectorOutcome (o : ReadOutcome)
  | programSectorOutcome (o : OpOutcome)
  | drainEndReport (p : Port)
  | clearBlockOutcome (o : OpOutcome)
  | metaProgramOutcome (o : OpOutcome)
  | relocateSpareClearOutcome (o : OpOutcome)
  | relocateCopyReadOutcome (o : ReadOutcome)
  | relocateCopyProgramOutcome (o : OpOutcome)
  | relocateMetadataOutcome (o : OpOutcome)
  | endOfDeviceReset (supsel : BitVec 2)
deriving DecidableEq, Repr

end Sys2Proof
end

