-- ==== Sys2Proof/WellFormed.lean ====
section
/-! DEFINITION. Which commands are well formed: the checks that a command's type does not already make. -/

namespace Sys2Proof

/-- The opcodes that name a frame (R178, "Frames"). -/
def frameOpcodes : List Byte :=
  [0x00#8, 0x01#8, 0x02#8, 0x03#8, 0x04#8, 0x05#8,
   0x10#8, 0x11#8, 0x12#8, 0x13#8, 0x14#8, 0x15#8,
   0x20#8, 0x21#8, 0x22#8, 0x23#8, 0x24#8,
   0x30#8, 0x31#8, 0x32#8, 0x33#8, 0x40#8, 0x41#8,
   0x50#8, 0x51#8, 0x52#8,
   0x60#8, 0x61#8, 0x62#8, 0x63#8, 0x64#8, 0x65#8, 0x66#8, 0x67#8]

/-- The number of complete bytes of a command's frame, for a command that is a frame (R163). -/
def Instr.frameLength? : Instr → Option Nat
  | .status _ n | .result _ n | .fetchData _ n | .fetchNotice _ n | .cancel _ n | .portReset _ n
  | .unknownOpcodeFrame _ _ n | .acquire _ _ _ _ _ n | .upgrade _ _ _ n | .downgrade _ _ n | .renew _ _ n
  | .renewAll _ _ n | .release _ _ _ n | .queryLease _ _ n | .read _ _ _ n | .write _ _ _ _ n | .commit _ _ n
  | .commitAll _ _ n | .clear _ _ _ n | .querySector _ _ n | .setWatch _ _ _ _ _ _ _ _ _ n | .dropWatch _ _ n
  | .setLevels _ _ _ n | .setAttnMask _ _ n | .signalRead _ _ n | .signalModify _ _ _ _ n | .deviceInfo _ n
  | .counterSetup _ _ _ _ n | .counterRead _ _ n | .setRegion _ _ _ _ _ _ n | .setRegionUndefine _ _ _ n
  | .setLeasePeriod _ _ n | .setHoldLimit _ _ n | .setQuota _ _ n | .saveConfig _ n | .breakLease _ _ n
  | .fence _ _ n | .unfence _ _ n => some n
  | .deviceReset | .metadataLoadReadOutcome _ | .rotationExpiry | .sweep | .waitDeadlineExpiry _
  | .holdDeadlineExpiry _ | .cancelParked _ | .cancelHeld _ | .leTeardown _ | .pwuTeardown _ | .meTeardown _
  | .nuTeardown _ | .swbTeardown _ | .jobIssue _ | .readSectorOutcome _ | .programSectorOutcome _
  | .drainEndReport _ | .clearBlockOutcome _ | .metaProgramOutcome _ | .relocateSpareClearOutcome _
  | .relocateCopyReadOutcome _ | .relocateCopyProgramOutcome _ | .relocateMetadataOutcome _
  | .endOfDeviceReset _ => none

/-- A frame has at least one complete byte, or it is not a frame (R163). -/
def Instr.hasOpcodeByte (i : Instr) : Bool :=
  match i.frameLength? with
  | some n => decide (1 ≤ n)
  | none => true

/-- The selector that chooses the row is the row's: ALL and "undefine" are any value but 00h (R178); an unknown opcode
names no frame (R165). -/
def Instr.selectorAgrees : Instr → Bool
  | .renewAll _ s _ => decide (s ≠ 0#8)
  | .commitAll _ s _ => decide (s ≠ 0#8)
  | .setRegionUndefine _ _ a _ => decide (a ≠ 0#8)
  | .unknownOpcodeFrame _ op _ => !frameOpcodes.contains op
  | _ => true

/-- WRITE's payload is the complete bytes of its frame after the two header and three parameter bytes (R163, R178). -/
def Instr.payloadAgrees : Instr → Bool
  | .write _ _ _ payload n => decide (payload.length = n - 5)
  | _ => true

/-- A well-formed command. -/
def Instr.wf (i : Instr) : Bool := i.hasOpcodeByte && i.selectorAgrees && i.payloadAgrees

end Sys2Proof
end

