-- ==== Sys2Proof/Decode.lean ====
section
/-! DEFINITION. The words of the opcode table, none of whose rows gives bits; and the frames of R178: which command the
bytes of a frame are, and the bytes of a command's frame. -/

namespace Sys2Proof

/-- The command that a word spells by the table's bits: no row of spec/opcode_table.json gives bits. -/
def decodeTableWord (_nbits _w : Nat) : Option Instr := none

/-! ### Reading a frame (R163, R178) -/

/-- The parameter byte at an offset from byte 2; 00h where the frame has ended before it. -/
def frameByte (bytes : List Byte) (offset : Nat) : Byte := bytes.getD (2 + offset) 0#8

/-- The two-byte parameter at an offset from byte 2, most significant byte first (R178). -/
def frameWord (bytes : List Byte) (offset : Nat) : Word16 :=
  frameByte bytes offset ++ frameByte bytes (offset + 1)

/-- The command that a frame of port `p` is: byte 0 is the opcode, byte 1 is ignored, parameters begin at byte 2 (R163,
R178). A frame with no complete byte is no command (R163). -/
def decodeFrame (p : Port) (bytes : List Byte) : Option Instr :=
  match bytes with
  | [] => none
  | op :: _ =>
    let n := bytes.length
    let b := frameByte bytes
    let w := frameWord bytes
    some (match op.toNat with
      | 0x00 => .status p n
      | 0x01 => .result p n
      | 0x02 => .fetchData p n
      | 0x03 => .fetchNotice p n
      | 0x04 => .cancel p n
      | 0x05 => .portReset p n
      | 0x10 => .acquire p (w 0) (w 2) (b 4) (b 5) n
      | 0x11 => .upgrade p (b 0) (b 1) n
      | 0x12 => .downgrade p (b 0) n
      | 0x13 => if b 0 = 0#8 then .renew p (b 1) n else .renewAll p (b 0) n
      | 0x14 => .release p (b 0) (b 1) n
      | 0x15 => .queryLease p (b 0) n
      | 0x20 => .read p (w 0) (b 2) n
      | 0x21 => .write p (w 0) (b 2) (bytes.drop 5) n
      | 0x22 => if b 0 = 0#8 then .commit p (b 1) n else .commitAll p (b 0) n
      | 0x23 => .clear p (w 0) (w 2) n
      | 0x24 => .querySector p (w 0) n
      | 0x30 => .setWatch p (b 0) (b 1) (w 2) (w 4) (w 6) (b 8) (b 9) (b 10) n
      | 0x31 => .dropWatch p (b 0) n
      | 0x32 => .setLevels p (b 0) (b 1) n
      | 0x33 => .setAttnMask p (b 0) n
      | 0x40 => .signalRead p (b 0) n
      | 0x41 => .signalModify p (b 0) (w 1) (w 3) n
      | 0x50 => .deviceInfo p n
      | 0x51 => .counterSetup p (b 0) (b 1) (b 2) n
      | 0x52 => .counterRead p (b 0) n
      | 0x60 =>
        if b 1 = 0#8 then .setRegion p (b 0) (w 2) (w 4) (b 6) (b 7) n else .setRegionUndefine p (b 0) (b 1) n
      | 0x61 => .setLeasePeriod p (b 0) n
      | 0x62 => .setHoldLimit p (b 0) n
      | 0x63 => .setQuota p (b 0) n
      | 0x64 => .saveConfig p n
      | 0x65 => .breakLease p (b 0) n
      | 0x66 => .fence p (b 0) n
      | 0x67 => .unfence p (b 0) n
      | _ => .unknownOpcodeFrame p op n)

/-! ### Writing a frame (R163, R178) -/

/-- The two bytes of a two-byte field, most significant first (R178). -/
def wordBytes (w : Word16) : List Byte := [w.extractLsb' 8 8, w.extractLsb' 0 8]

/-- A command's opcode, its parameter and payload bytes, and its defined length without payload (R163, R178). A parameter
that the command ignores is written 00h. -/
def frameLayout : Instr → Option (Port × Byte × List Byte × Nat)
  | .status p n => some (p, 0x00#8, [], n)
  | .result p n => some (p, 0x01#8, [], n)
  | .fetchData p n => some (p, 0x02#8, [], n)
  | .fetchNotice p n => some (p, 0x03#8, [], n)
  | .cancel p n => some (p, 0x04#8, [], n)
  | .portReset p n => some (p, 0x05#8, [], n)
  | .unknownOpcodeFrame p op n => some (p, op, [], n)
  | .acquire p f c m w n => some (p, 0x10#8, wordBytes f ++ wordBytes c ++ [m, w], n)
  | .upgrade p i w n => some (p, 0x11#8, [i, w], n)
  | .downgrade p i n => some (p, 0x12#8, [i], n)
  | .renew p i n => some (p, 0x13#8, [0#8, i], n)
  | .renewAll p x n => some (p, 0x13#8, [x, 0#8], n)
  | .release p i d n => some (p, 0x14#8, [i, d], n)
  | .queryLease p i n => some (p, 0x15#8, [i], n)
  | .read p f c n => some (p, 0x20#8, wordBytes f ++ [c], n)
  | .write p f c d n => some (p, 0x21#8, wordBytes f ++ [c] ++ d, n)
  | .commit p i n => some (p, 0x22#8, [0#8, i], n)
  | .commitAll p x n => some (p, 0x22#8, [x, 0#8], n)
  | .clear p f c n => some (p, 0x23#8, wordBytes f ++ wordBytes c, n)
  | .querySector p x n => some (p, 0x24#8, wordBytes x, n)
  | .setWatch p i t f c ws k self h n =>
    some (p, 0x30#8, [i, t] ++ wordBytes f ++ wordBytes c ++ wordBytes ws ++ [k, self, h], n)
  | .dropWatch p i n => some (p, 0x31#8, [i], n)
  | .setLevels p h l n => some (p, 0x32#8, [h, l], n)
  | .setAttnMask p m n => some (p, 0x33#8, [m], n)
  | .signalRead p w n => some (p, 0x40#8, [w], n)
  | .signalModify p w m v n => some (p, 0x41#8, [w] ++ wordBytes m ++ wordBytes v, n)
  | .deviceInfo p n => some (p, 0x50#8, [], n)
  | .counterSetup p c e q n => some (p, 0x51#8, [c, e, q], n)
  | .counterRead p c n => some (p, 0x52#8, [c], n)
  | .setRegion p i f l a m n => some (p, 0x60#8, [i, 0#8] ++ wordBytes f ++ wordBytes l ++ [a, m], n)
  | .setRegionUndefine p i x n => some (p, 0x60#8, [i, x, 0#8, 0#8, 0#8, 0#8, 0#8, 0#8], n)
  | .setLeasePeriod p x n => some (p, 0x61#8, [x], n)
  | .setHoldLimit p x n => some (p, 0x62#8, [x], n)
  | .setQuota p x n => some (p, 0x63#8, [x], n)
  | .saveConfig p n => some (p, 0x64#8, [], n)
  | .breakLease p i n => some (p, 0x65#8, [i], n)
  | .fence p t n => some (p, 0x66#8, [t], n)
  | .unfence p t n => some (p, 0x67#8, [t], n)
  | _ => none

/-- The port and the bytes of a command's frame, byte 1 and the bytes beyond its parameters sent as 00h; nothing for a
command that is no frame or whose frame ends before its parameters (R163). -/
def encodeFrame (i : Instr) : Option (Port × List Byte) :=
  match frameLayout i with
  | some (p, op, ps, n) =>
    match n with
    | 0 => none
    | 1 => if ps.isEmpty then some (p, [op]) else none
    | m + 2 =>
      if ps.length ≤ m then some (p, op :: 0#8 :: (ps ++ List.replicate (m - ps.length) 0#8)) else none
  | none => none

end Sys2Proof
end

