-- ==== Sys2Proof/Machine/State.lean ====
section
/-! DEFINITION. The state of the OZ416 as plain data, block by block (00_scope, "Block overview"), and the state right
after device reset (11_supervision, "Device reset, by owner"). -/

namespace Sys2Proof.Machine

/-- The 512 bytes of a sector, the byte at the lowest address first. -/
abbrev SectorData := List Byte

/-- A range (first, count) of user sectors (00_scope). -/
structure Range where
  first : Nat
  count : Nat
deriving DecidableEq, Repr

/-! ### Leases (chapters 2 to 4) -/

/-- The mode of a lease or of a request (R20). -/
inductive LeaseMode where
  | shared
  | exclusive
deriving DecidableEq, Repr

/-- Why a lease was ended (R20). -/
inductive EndCause where
  | released
  | expired
  | broken
  | portReset
  | fenced
deriving DecidableEq, Repr

/-- The state of a lease; the ending cause is present in ENDING and absent in HELD (R20). -/
inductive LeaseState where
  | held
  | ending (cause : EndCause)
deriving DecidableEq, Repr

/-- A lease record (R20). -/
structure Lease where
  holder : Port
  mode : LeaseMode
  first : Nat
  count : Nat
  stamp : BitVec 2
  state : LeaseState
deriving DecidableEq, Repr

/-- A slot of the lease table: its reuse tag, and the lease record if it is filled (R20). -/
structure LeaseSlot where
  tag : BitVec 2
  lease : Option Lease
deriving DecidableEq, Repr

/-- The kind of a parked request; an UPGRADE carries the lease id it names (R45). -/
inductive WaitKind where
  | acquire
  | upgrade (id : Nat)
deriving DecidableEq, Repr

/-- An entry of the wait queue (R45). `waitMs` is the length of its deadline in milliseconds from the park (log 4);
`serial` is the number of the command at its port (log 21). -/
structure WaitEntry where
  port : Port
  kind : WaitKind
  range : Range
  mode : LeaseMode
  waitMs : Nat
  serial : Nat
deriving DecidableEq, Repr

/-- A FENCE that waits for its target's teardowns, with the items of its completion's detail (R182). -/
structure FenceRecord where
  target : Port
  serial : Nat
  abandoned : Bool
  ended : Nat
  ending : Nat
deriving DecidableEq, Repr

/-- A DRAIN job's end, as the write unit reports it to the lease engine (R112, R98). -/
structure DrainReport where
  serial : Nat
  okCount : Nat
  firstFault : Option Nat
deriving DecidableEq, Repr

/-- A slot command as its port link unit hands it to the block that owns it: the parameter bytes of R178 (R167). `metaJob` is
the part of a SAVE CONFIG that the access checker, having copied the image, leaves to the write unit: its META job (R8, R18,
R167). -/
inductive SlotCommand where
  | acquire (first count : Word16) (mode wait : Byte)
  | upgrade (id wait : Byte)
  | downgrade (id : Byte)
  | renew (id : Byte)
  | renewAll
  | release (id discard : Byte)
  | queryLease (id : Byte)
  | read (first : Word16) (count : Byte)
  | write (first : Word16) (count : Byte) (payload : List Byte)
  | commit (id : Byte)
  | commitAll
  | clear (first count : Word16)
  | querySector (sector : Word16)
  | setWatch (index target : Byte) (first count wordSet : Word16) (kinds includeSelf hold : Byte)
  | dropWatch (index : Byte)
  | setLevels (high low : Byte)
  | setAttnMask (mask : Byte)
  | signalRead (word : Byte)
  | signalModify (word : Byte) (mask value : Word16)
  | deviceInfo
  | counterSetup (counter event qualifier : Byte)
  | counterRead (counter : Byte)
  | setRegion (index : Byte) (first last : Word16) (access mode : Byte)
  | setRegionUndefine (index : Byte)
  | setLeasePeriod (period : Byte)
  | setHoldLimit (limit : Byte)
  | setQuota (quota : Byte)
  | saveConfig
  | metaJob
  | breakLease (id : Byte)
  | fence (target : Byte)
  | unfence (target : Byte)
deriving DecidableEq, Repr

/-- A request of a port that has been handed to the lease engine and not yet taken (R24): a slot command, which for a
data command is its coverage check; the issue of a drain (R83) and a drain's end report (R98); the CANCEL of a parked
request (R57) and the expiry of its deadline (R55); the teardown of a port reset (R44). A number names the command that
the request is meant for (log 21). -/
inductive LeRequest where
  | command (c : SlotCommand)
  | issue (serial : Nat)
  | report (r : DrainReport)
  | cancel (serial : Nat)
  | expiry (serial : Nat)
  | teardown
deriving DecidableEq, Repr

/-- The lease engine: lease table (R20), wait queue (R45), pending sweeps (R65), round-robin position and each port's
requests that wait to be taken, oldest first (R24), FENCEs in progress (R182). -/
structure LeaseEngine where
  table : List LeaseSlot
  queue : List WaitEntry
  sweepsAsked : Nat
  rrNext : Port
  requests : PortMap (List LeRequest)
  fences : List FenceRecord
deriving DecidableEq, Repr

/-- The epoch unit (R63, R64). `periodLength` is the P with which the running period began. -/
structure EpochUnit where
  epoch : BitVec 2
  period : Nat
  running : Bool
  periodLength : Nat
deriving DecidableEq, Repr

/-! ### Port write units (chapters 5 and 7) -/

/-- The state of a staging slot (R80). -/
inductive StagingState where
  | staged
  | draining
deriving DecidableEq, Repr

/-- A staging slot (R80). -/
structure StagingSlot where
  sector : Nat
  data : SectorData
  leaseId : Nat
  state : StagingState
deriving DecidableEq, Repr

/-- A sector of a WRITE in a LEASED region, with the covering lease that the coverage answer gave (R84). -/
structure LeasedSector where
  sector : Nat
  data : SectorData
  leaseId : Nat
deriving DecidableEq, Repr

/-- A sector with its data: an open sector of a WRITE (R84), or an item of a DRAIN job (R105). -/
structure SectorItem where
  sector : Nat
  data : SectorData
deriving DecidableEq, Repr

/-- The command a port write unit has in flight, with what it keeps of it (R84 to R97, R125 to R131). -/
inductive PwuAction where
  /-- READ: its range, and the sectors not copied from staging (R91). -/
  | read (range : Range) (remaining : List Nat)
  /-- WRITE: the sectors kept, the OVERFLOW mark, whether its plan is a flush, and its payload (R84, R85). -/
  | write (kept : Range) (overflow flush : Bool) (leased : List LeasedSector) (opens : List SectorItem)
  /-- COMMIT of a lease, or COMMIT ALL (R94). -/
  | commit (id : Option Nat)
  /-- RELEASE of a lease that has STAGED slots (R37). -/
  | release (id : Nat)
  /-- DOWNGRADE of a lease that has STAGED slots (R32). -/
  | downgrade (id : Nat)
  /-- CLEAR: its whole blocks, the OVERFLOW mark, and the pending clear range formed at acceptance (R128). -/
  | clear (blocks : List Nat) (overflow : Bool) (formed : Option Range)
  /-- SAVE CONFIG's META job (R18). -/
  | saveConfig
deriving DecidableEq, Repr

/-- Where the job of a write unit's command stands (R82, R83): it waits for an earlier job of its port, it is on the
hold list, its hold has ended and its issue waits for the lease engine, or it is issued. -/
inductive PwuStage where
  | waiting
  | onHold
  | holdEnded
  | issued
deriving DecidableEq, Repr

/-- A write unit's command in flight: the leases it is bound to (R76, R126), whether its hold ended at its deadline
(R83), and the bound leases broken after its job was issued, oldest first (R78). -/
structure PwuCommand where
  serial : Nat
  action : PwuAction
  bound : List Nat
  stage : PwuStage
  holdExpired : Bool
  broken : List Nat
deriving DecidableEq, Repr

/-- A port write unit: staging slots in ascending sector order (R80), pending clear range (R124), command in flight, and
the lease ids of the slots that have left in the DRAIN job whose end report the lease engine has not taken (R39, R98). -/
structure WriteUnit where
  slots : List StagingSlot
  pendingClear : Option Range
  command : Option PwuCommand
  drained : List Nat
deriving DecidableEq, Repr

/-! ### Regions and settings (chapter 1) -/

/-- A port's access level in a region (R3). -/
inductive Access where
  | none
  | read
  | write
deriving DecidableEq, Repr

/-- A region's mode (R3). -/
inductive RegionMode where
  | leased
  | opened
deriving DecidableEq, Repr

/-- A defined region entry (R3). -/
structure Region where
  first : Nat
  last : Nat
  access : PortMap Access
  mode : RegionMode
deriving DecidableEq, Repr

/-- The four settings: region entries, P, H and Q (section 1.4, R8). -/
structure Settings where
  regions : List (Option Region)
  period : Nat
  hold : Nat
  quota : Nat
deriving DecidableEq, Repr

/-- The access checker: live region table, H and Q, saved image, supervisor port, device status flags (R3, R8, R9,
R12, R17). -/
structure AccessChecker where
  regions : List (Option Region)
  holdLimit : Nat
  quota : Nat
  image : Settings
  supervisor : Port
  metaInvalid : Bool
  metaFault : Bool
deriving DecidableEq, Repr

/-! ### Media engine (chapter 6) -/

/-- A metadata record (R9). `checkOk` says that its check word matches the rest of the record (log 14). -/
structure MetaRecord where
  settings : Settings
  remap : List (Nat × Nat)
  retired : List Nat
  checkOk : Bool
deriving DecidableEq, Repr

/-- The issuer of a port job, the number of its command (log 21), and the job's abandoned mark (R105). -/
structure JobOwner where
  issuer : Port
  serial : Nat
  abandoned : Bool
deriving DecidableEq, Repr

/-- What a port job does: READ and DRAIN carry a sector list, DRAIN its data, CLEAR a block list (R105). -/
inductive JobWork where
  | read (sectors : List Nat)
  | drain (items : List SectorItem)
  | clear (blocks : List Nat)
  | metadata
deriving DecidableEq, Repr

/-- A job of the job queue (R105). -/
inductive Job where
  | port (owner : JobOwner) (work : JobWork)
  | relocate (block : Nat)
deriving DecidableEq, Repr

/-- The operation in progress of a RELOCATE job (section 6.7): step 1, step 2's read or program at an index, step 3. -/
inductive RelocateStep where
  | clearSpare
  | copyRead (index : Nat)
  | copyProgram (index : Nat) (data : SectorData)
  | writeRecord (record : MetaRecord)
deriving DecidableEq, Repr

/-- The running job with its progress (R110 to R114, R118 to R120). `todo` begins with the sector or block whose
operation is in progress; `raised` holds the logical blocks the job has raised as candidates (R116). -/
inductive Running where
  | read (owner : JobOwner) (todo : List Nat) (delivered : Nat) (corrected : Bool) (raised : List Nat)
  | drain (owner : JobOwner) (todo : List SectorItem) (done : List Nat) (firstFault : Option Nat) (raised : List Nat)
  | clear (owner : JobOwner) (todo : List Nat) (done : List Nat) (raised : List Nat)
  | metadata (owner : JobOwner) (record : MetaRecord)
  | relocate (block target : Nat) (step : RelocateStep)
deriving DecidableEq, Repr

/-- The media engine (R10, R101 to R105, R115 to R117, R123). `array` lists the bytes that do not read FFh, by
address; `record` is the content of sector 0 of the metadata block, `none` when it is blank (log 14); `unreadable`
lists the physical sectors (32 × block + index) left unreadable, ascending (R103). -/
structure MediaEngine where
  loadReads : Nat
  loadBad : Bool
  array : List Host.Cell
  unreadable : List Nat
  record : Option MetaRecord
  queue : List Job
  running : Option Running
  remap : List (Nat × Nat)
  pool : List Nat
  retired : List Nat
  latch : Option Nat
  sparesOut : Bool
deriving DecidableEq, Repr

/-! ### Notice unit (chapter 8) -/

/-- The kinds a SECTORS watch asks for (R135). -/
structure WatchKinds where
  committed : Bool
  cleared : Bool
  freed : Bool
deriving DecidableEq, Repr

/-- A watch (R135). Bit n of `words` stands for signal word n. -/
inductive Watch where
  | sectors (range : Range) (kinds : WatchKinds) (includeSelf hold : Bool)
  | signals (words : Word16) (includeSelf : Bool)
  | media
deriving DecidableEq, Repr

/-- The kind of a media event (R144). -/
inductive MediaKind where
  | relocated
  | relocateFailed
  | sparesOut
deriving DecidableEq, Repr

/-- What a notice record says (R138). -/
inductive NoticeBody where
  | committed (source : Port) (range : Range)
  | cleared (source : Port) (range : Range)
  | freed (source : Port) (id : Nat) (range : Range)
  | lost (holder : Port) (id : Nat) (range : Range)
  | signal (source : Port) (word : Nat) (value : Word16)
  | media (kind : MediaKind) (block : Nat)
deriving DecidableEq, Repr

/-- A notice record; a LOST record carries no watch index (R138). -/
structure Notice where
  body : NoticeBody
  watch : Option Nat
deriving DecidableEq, Repr

/-- The notice unit's state of one port (R135, R145, R147). `cancel` is a CANCEL handed to the unit and not yet taken
(R172), by the number of the command it is meant for (log 21). -/
structure NuPort where
  watches : List (Option Watch)
  queue : List Notice
  overrun : Bool
  high : Nat
  low : Nat
  congested : Bool
  cancel : Option Nat
deriving DecidableEq, Repr

/-- The kind of change that a hold check is about (R150). -/
inductive ChangeKind where
  | committed
  | cleared
deriving DecidableEq, Repr

/-- An entry of the hold list (R151). `sectors` are the sectors of the waiting job, as ranges; `holdMs` is the length of
its deadline in milliseconds from the entry (log 4). -/
structure HoldEntry where
  port : Port
  kind : ChangeKind
  sectors : List Range
  holdMs : Nat
  serial : Nat
deriving DecidableEq, Repr

/-! ### Port link units (chapters 10 and 11) -/

/-- The state of the command slot (R168). -/
inductive SlotState where
  | idle
  | busy
  | parked
  | held
deriving DecidableEq, Repr

/-- The reject reason (R166). -/
inductive RejectReason where
  | none
  | frameError
  | slotBusy
  | fenced
  | notReady
deriving DecidableEq, Repr

/-- The status codes (R169). -/
inductive Status where
  | done
  | overflow
  | conflict
  | tableFull
  | quota
  | overlapSelf
  | noLease
  | denied
  | openRegion
  | notCovered
  | wouldDeadlock
  | waitTimeout
  | cancelled
  | leaseLost
  | uncorrectable
  | writeFault
  | badParam
  | notSupervisor
  | regionBusy
deriving DecidableEq, Repr

/-- The flags of a completion (R169, section 5.8). -/
structure CompletionFlags where
  staged : Bool := false
  flushed : Bool := false
  corrected : Bool := false
  holdExpired : Bool := false
  pending : Bool := false
deriving DecidableEq, Repr

/-- What a completion says, as its owner hands it to the port link unit (R169). -/
structure Completion where
  status : Status
  flags : CompletionFlags := {}
  leaseId : Option Nat := none
  lastSector : Option Nat := none
  count : Nat := 0
  detail : List Byte := []
deriving DecidableEq, Repr

/-- The completion record: the completed command's opcode and its completion (R169). -/
structure CompletionRecord where
  opcode : Byte
  completion : Completion
deriving DecidableEq, Repr

/-- The events an activity counter may select (R178, R188). -/
inductive CounterEvent where
  | grant
  | park
  | refuse
  | expire
  | stageMerge
  | drainSector
  | readSector
  | corrected
  | noticeDrop
  | relocation
  | relocDropped
deriving DecidableEq, Repr

/-- A counter's qualifier (R186). -/
inductive Qualifier where
  | self
  | any
deriving DecidableEq, Repr

/-- An activity counter (R186). -/
structure Counter where
  event : Option CounterEvent
  qualifier : Qualifier
  value : BitVec 32
deriving DecidableEq, Repr

/-- A port link unit (R163 to R175, R186). `serial` numbers the slot commands the port has accepted (log 21);
`waiting` is a slot command accepted and not yet passed to its owner, behind whose teardown it waits (R176); `sdo` holds
the bytes shifted out in the port's last frame (log 22); `fetches` is the model's own counter of the notices fetched, from
which the free values of absent notice fields are taken (log 29). -/
structure Plu where
  slot : SlotState
  opcode : Byte
  serial : Nat
  record : Option CompletionRecord
  resultReady : Bool
  rejected : Bool
  reason : RejectReason
  buffer : List SectorData
  valid : Nat
  mask : BitVec 4
  fenced : Bool
  counter0 : Counter
  counter1 : Counter
  waiting : Option SlotCommand
  sdo : List Byte
  fetches : Nat
deriving DecidableEq, Repr

/-- The teardowns of a port handed to each block and not yet taken by it (R176); the lease engine's is one of the port's
requests there. -/
structure Teardowns where
  pwu : Bool
  me : Bool
  nu : Bool
  swb : Bool
deriving DecidableEq, Repr

/-- The device state (R10, R12). -/
inductive DeviceState where
  | starting
  | ready
deriving DecidableEq, Repr

/-- The state of the OZ416, and the queue of commands that wait for it. `released` holds the commands, by port and number,
whose hold a re-examination has ended and whose job is not yet issued: one list for each event that released any, in the
order of their release (R152). -/
structure State where
  device : DeviceState
  rstHeld : Bool
  supsel : Port
  plu : PortMap Plu
  teardown : PortMap Teardowns
  le : LeaseEngine
  eu : EpochUnit
  pwu : PortMap WriteUnit
  me : MediaEngine
  ac : AccessChecker
  nu : PortMap NuPort
  holdList : List HoldEntry
  released : List (List (Port × Nat))
  swb : List Word16
  pending : List Instr
deriving DecidableEq, Repr

/-- Why the machine stops with a fault. -/
inductive Fault where
  /-- Raised by the outcome of an array operation whose physical block lies outside the 1041 blocks of the array
  (section 6.1). Safe: the model stops where no part could be; no state that a run from reset reaches raises it. -/
  | outsideArray
deriving DecidableEq, Repr

/-- Why the machine refuses a command. -/
inductive Refusal where
  /-- Raised by an arm of `exec` for a command that has no meaning yet, by the row's mnemonic. Safe. -/
  | notModelled (mnemonic : String)
deriving DecidableEq, Repr

/-! ### Reset values -/

/-- A counter at reset (R186). -/
def Counter.reset : Counter := { event := none, qualifier := .self, value := 0#32 }

/-- The read buffer emptied: four positions holding nothing (R171). -/
def emptyBuffer : List SectorData := [[], [], [], []]

/-- A port link unit after device reset (R177, R186). -/
def Plu.reset : Plu :=
  { slot := .idle, opcode := 0#8, serial := 0, record := none, resultReady := false, rejected := false,
    reason := .none, buffer := emptyBuffer, valid := 0, mask := Config.defaultMask, fenced := false,
    counter0 := Counter.reset, counter1 := Counter.reset, waiting := none, sdo := [], fetches := 0 }

/-- No teardown waits at any block. -/
def Teardowns.clear : Teardowns := { pwu := false, me := false, nu := false, swb := false }

/-- The lease engine after device reset (R20, R24, R60, R65). -/
def LeaseEngine.reset : LeaseEngine :=
  { table := List.replicate Config.leaseSlots { tag := 0#2, lease := none }, queue := [], sweepsAsked := 0,
    rrNext := .p0, requests := PortMap.const [], fences := [] }

/-- The epoch unit after device reset (R63, R64); P until the load ends is log 9's. -/
def EpochUnit.reset : EpochUnit :=
  { epoch := 0#2, period := Config.defaultPeriod, running := false, periodLength := Config.defaultPeriod }

/-- A port write unit after device reset (R100, R124). -/
def WriteUnit.reset : WriteUnit :=
  { slots := [], pendingClear := none, command := none, drained := [] }

/-- The default region entry 0: all sectors, WRITE for every port, LEASED (section 1.4, R11). -/
def defaultRegion : Region :=
  { first := 0, last := 32767, access := PortMap.const .write, mode := .leased }

/-- The default settings (section 1.4, R11). -/
def Settings.default : Settings :=
  { regions := some defaultRegion :: List.replicate 7 none, period := Config.defaultPeriod,
    hold := Config.defaultHold, quota := Config.defaultQuota }

/-- The access checker after device reset: flags clear (R10); the settings and the supervisor port until the load ends
are logs 9 and 10's. -/
def AccessChecker.reset : AccessChecker :=
  { regions := Settings.default.regions, holdLimit := Settings.default.hold, quota := Settings.default.quota,
    image := Settings.default, supervisor := .p0, metaInvalid := false, metaFault := false }

/-- The media engine after a device reset over the array content, unreadable sectors and metadata record given: LOADING,
nothing queued, nothing running (R104, R109); the spare sets until the load ends are log 12's. -/
def MediaEngine.resetOver (array : List Host.Cell) (unreadable : List Nat) (record : Option MetaRecord) : MediaEngine :=
  { loadReads := 0, loadBad := false, array := array, unreadable := unreadable, record := record, queue := [],
    running := none, remap := [], pool := Config.spares, retired := [], latch := none, sparesOut := false }

/-- The notice unit's state of a port after device reset (R145, R147, R149). -/
def NuPort.reset : NuPort :=
  { watches := List.replicate Config.watchEntries none, queue := [], overrun := false, high := Config.defaultHigh,
    low := Config.defaultLow, congested := false, cancel := none }

/-- The state after a device reset over what the array holds, with the queue of commands given: RST asserted,
STARTING, every block in its reset state (R10, R177; 11_supervision, "Device reset, by owner"). -/
def State.resetOver (array : List Host.Cell) (unreadable : List Nat) (record : Option MetaRecord)
    (pending : List Instr) : State :=
  { device := .starting, rstHeld := true, supsel := .p0, plu := PortMap.const Plu.reset,
    teardown := PortMap.const Teardowns.clear, le := LeaseEngine.reset, eu := EpochUnit.reset,
    pwu := PortMap.const WriteUnit.reset, me := MediaEngine.resetOver array unreadable record,
    ac := AccessChecker.reset, nu := PortMap.const NuPort.reset, holdList := [], released := [],
    swb := List.replicate Config.signalWords 0#16, pending := pending }

/-- The machine right after the power-on reset of a part fresh from manufacture: every sector cleared, the metadata
block blank, no spare used (R2, R11; 00_scope), no command waiting. -/
def State.reset : State := State.resetOver [] [] none []

end Sys2Proof.Machine
end

