-- ==== Sys2Proof/Machine/Ops.lean ====
section
/-! DEFINITION. The named operations over the state: the array's bytes (R101), each block's part of the state, the
completion of a command (R168), the command slot, the activity counters (R187). -/

namespace Sys2Proof.Machine

/-! ### The array: bytes and sectors (section 6.1) -/

/-- What a byte reads as that nothing lists: FFh, the content of a cleared sector (R2, R101). -/
def blankByte : Byte := 0xFF#8

/-- Bytes of the array: 1041 blocks of 32 sectors of 512 bytes (section 6.1). -/
def arrayBytes : Nat := Config.physicalBlocks * Config.blockSectors * Config.sectorBytes

/-- The addresses of a list of cells strictly rise. -/
def cellsRise : List Host.Cell → Bool
  | [] => true
  | [_] => true
  | a :: b :: t => decide (a.1 < b.1) && cellsRise (b :: t)

/-- The canonical form of the array's bytes: addresses strictly rising, inside the array, no entry equal to what an
unlisted address reads as. -/
def Memory.wf (m : List Host.Cell) : Bool :=
  cellsRise m && m.all (fun c => decide (c.1 < arrayBytes) && decide (c.2 ≠ blankByte))

/-- The byte at an address. -/
def Memory.read : List Host.Cell → Nat → Byte
  | [], _ => blankByte
  | c :: t, a => if c.1 = a then c.2 else Memory.read t a

/-- The cells that list `data` from address `base` on. -/
def cellsOf (base : Nat) : List Byte → List Host.Cell
  | [] => []
  | b :: t => if b = blankByte then cellsOf (base + 1) t else (base, b) :: cellsOf (base + 1) t

/-- The bytes from `base` on replaced by `data`. -/
def Memory.write (m : List Host.Cell) (base : Nat) (data : List Byte) : List Host.Cell :=
  m.filter (fun c => decide (c.1 < base)) ++ cellsOf base data ++
    m.filter (fun c => decide (base + data.length ≤ c.1))

/-- The `n` bytes from `base` on made blank. -/
def Memory.clear (m : List Host.Cell) (base n : Nat) : List Host.Cell :=
  m.filter (fun c => decide (c.1 < base) || decide (base + n ≤ c.1))

/-- The number of a physical sector: 32 × block + index (section 6.1). -/
def physicalSector (block index : Nat) : Nat := Config.blockSectors * block + index

/-- The 512 bytes of a physical sector. -/
def readSectorData (m : List Host.Cell) (ps : Nat) : SectorData :=
  (List.range Config.sectorBytes).map (fun i => Memory.read m (ps * Config.sectorBytes + i))

/-- Is the operation's physical block one of the array's (section 6.1)? -/
def inArray (block : Nat) : Bool := decide (block < Config.physicalBlocks)

/-! ### Ascending lists of numbers -/

/-- `n` put in its place in an ascending list, once. -/
def insertAsc (n : Nat) : List Nat → List Nat
  | [] => [n]
  | m :: t => if n < m then n :: m :: t else if n = m then m :: t else m :: insertAsc n t

/-- `n` taken out of a list. -/
def eraseNat (n : Nat) (l : List Nat) : List Nat := l.filter (fun m => decide (m ≠ n))

/-- An item put in its place by its sector; an item of the same sector is replaced. -/
def insertItem (x : SectorItem) : List SectorItem → List SectorItem
  | [] => [x]
  | y :: t =>
    if x.sector < y.sector then x :: y :: t
    else if x.sector = y.sector then x :: t
    else y :: insertItem x t

/-- A staging slot put in its place by its sector. No two slots of a port hold one sector (R80): where one does already,
which R81 keeps from arising, it stays and the new one is not put (log 25). -/
def insertSlot (x : StagingSlot) : List StagingSlot → List StagingSlot
  | [] => [x]
  | y :: t =>
    if x.sector < y.sector then x :: y :: t
    else if x.sector = y.sector then y :: t
    else y :: insertSlot x t

/-- A remap entry put in its place by its logical block, replacing that block's entry (R115, R120). -/
def insertRemap (b spare : Nat) : List (Nat × Nat) → List (Nat × Nat)
  | [] => [(b, spare)]
  | e :: t =>
    if b < e.1 then (b, spare) :: e :: t
    else if b = e.1 then (b, spare) :: t
    else e :: insertRemap b spare t

/-! ### One port's part of each block -/

namespace State

/-- The port link unit of `p` changed by `f`. -/
def modPlu (s : State) (p : Port) (f : Plu → Plu) : State := { s with plu := s.plu.modify p f }

/-- The port write unit of `p` changed by `f`. -/
def modPwu (s : State) (p : Port) (f : WriteUnit → WriteUnit) : State := { s with pwu := s.pwu.modify p f }

/-- The notice unit's state of `p` changed by `f`. -/
def modNu (s : State) (p : Port) (f : NuPort → NuPort) : State := { s with nu := s.nu.modify p f }

/-- The waiting teardowns of `p` changed by `f`. -/
def modTeardown (s : State) (p : Port) (f : Teardowns → Teardowns) : State :=
  { s with teardown := s.teardown.modify p f }

/-- The lease engine changed by `f`. -/
def modLe (s : State) (f : LeaseEngine → LeaseEngine) : State := { s with le := f s.le }

/-- The epoch unit changed by `f`. -/
def modEu (s : State) (f : EpochUnit → EpochUnit) : State := { s with eu := f s.eu }

/-- The media engine changed by `f`. -/
def modMe (s : State) (f : MediaEngine → MediaEngine) : State := { s with me := f s.me }

/-- The access checker changed by `f`. -/
def modAc (s : State) (f : AccessChecker → AccessChecker) : State := { s with ac := f s.ac }

/-- The hold list replaced. -/
def setHoldList (s : State) (l : List HoldEntry) : State := { s with holdList := l }

/-- The lists of released commands replaced. -/
def setReleased (s : State) (l : List (List (Port × Nat))) : State := { s with released := l }

/-- The signal words replaced. -/
def setSwb (s : State) (l : List Word16) : State := { s with swb := l }

end State

/-! ### The command slot and completions (R168) -/

/-- Does the port link unit hold the slot command of this number? After a port reset or a FENCE it holds none, and after
a later acceptance it holds another (R168). -/
def Plu.holdsCommand (u : Plu) (serial : Nat) : Bool := decide (u.slot ≠ .idle) && decide (u.serial = serial)

/-- A completion reaches the port link unit: it writes the record, makes the slot IDLE and sets RESULT_READY, or is
discarded when the unit no longer holds the command (R168, R169). -/
def complete (p : Port) (serial : Nat) (c : Completion) (s : State) : State :=
  s.modPlu p (fun u =>
    if u.holdsCommand serial then
      { u with record := some { opcode := u.opcode, completion := c }, slot := .idle, resultReady := true }
    else u)

/-- The completion of a READ that was accepted: it also sets the valid count to its count, whatever its status (R171). -/
def completeRead (p : Port) (serial : Nat) (c : Completion) (s : State) : State :=
  complete p serial c (s.modPlu p (fun u => if u.holdsCommand serial then { u with valid := c.count } else u))

/-- The completion of the slot command that its owner is taking now. -/
def finish (p : Port) (c : Completion) (s : State) : State := complete p (s.plu.get p).serial c s

/-- The slot goes to PARKED, HELD or back to BUSY, for the command of this number (R168). -/
def setSlot (p : Port) (serial : Nat) (st : SlotState) (s : State) : State :=
  s.modPlu p (fun u => if u.holdsCommand serial then { u with slot := st } else u)

/-! ### Activity counters (R186 to R188) -/

/-- A counter of port `q` at one occurrence of an event attributed to `attr` (R187). -/
def Counter.count (c : Counter) (q : Port) (e : CounterEvent) (attr : Option Port) : Counter :=
  if c.event = some e ∧ (c.qualifier = .any ∨ attr = some q) then { c with value := c.value + 1#32 } else c

/-- One occurrence of an event: every counter of every port that selects it counts it, under SELF or ANY (R187). -/
def countEvent (e : CounterEvent) (attr : Option Port) (s : State) : State :=
  Port.all.foldl (fun t q => t.modPlu q (fun u =>
    { u with counter0 := u.counter0.count q e attr, counter1 := u.counter1.count q e attr })) s

/-! ### The lease table as data (R20, R21) -/

/-- The lease id of a slot with its tag: slot + 64 × tag (R21). -/
def leaseIdOf (slot : Nat) (tag : BitVec 2) : Nat := slot + Config.leaseSlots * tag.toNat

/-- The leases of a table with their ids, in ascending slot order; `slot` is the first slot's number. -/
def leasesFrom : Nat → List LeaseSlot → List (Nat × Lease)
  | _, [] => []
  | slot, x :: t =>
    match x.lease with
    | some l => (leaseIdOf slot x.tag, l) :: leasesFrom (slot + 1) t
    | none => leasesFrom (slot + 1) t

/-- The leases in the table with their ids, in ascending slot order. -/
def leases (s : State) : List (Nat × Lease) := leasesFrom 0 s.le.table

/-- The lease that an id names: its slot is filled and the slot's tag equals the id's (R21). -/
def tableLookup (table : List LeaseSlot) (id : Nat) : Option Lease :=
  match table[id % Config.leaseSlots]? with
  | some x => if x.tag.toNat = id / Config.leaseSlots then x.lease else none
  | none => none

/-- The lease that an id names in the state (R21). -/
def findLease (s : State) (id : Nat) : Option Lease := tableLookup s.le.table id

/-- The lease that the id names, if it is a HELD lease of this port (R29, R31, R34, R36, R94). -/
def ownHeldLease (p : Port) (id : Nat) (s : State) : Option Lease :=
  (findLease s id).filter (fun l => decide (l.holder = p) && decide (l.state = .held))

/-- The slot of the lease that `id` names changed by `f`; nothing when `id` names no lease. -/
def tableUpdate (table : List LeaseSlot) (id : Nat) (f : Lease → Option Lease) : List LeaseSlot :=
  table.modify (id % Config.leaseSlots) (fun x =>
    if x.tag.toNat = id / Config.leaseSlots then { x with lease := x.lease.bind f } else x)

/-- The lease that `id` names changed by `f`. -/
def updateLease (id : Nat) (f : Lease → Option Lease) (s : State) : State :=
  s.modLe (fun e => { e with table := tableUpdate e.table id f })

/-- The lease renewed: its stamp is the current epoch; an ENDING lease is not renewed (R70). -/
def renewLease (id : Nat) (s : State) : State :=
  updateLease id (fun l => some (if l.state = .held then { l with stamp := s.eu.epoch } else l)) s

/-- Several leases renewed within one request (R70). -/
def renewLeases (ids : List Nat) (s : State) : State := ids.foldl (fun t id => renewLease id t) s

/-- The lease's mode changed (R30, R31). -/
def setLeaseMode (id : Nat) (m : LeaseMode) (s : State) : State :=
  updateLease id (fun l => some { l with mode := m }) s

/-- The lease becomes ENDING with its cause (R39). -/
def setLeaseEnding (id : Nat) (c : EndCause) (s : State) : State :=
  updateLease id (fun l => some { l with state := .ending c }) s

/-- The lease's record leaves its slot; the tag keeps its value (R41). -/
def emptyLeaseSlot (id : Nat) (s : State) : State := updateLease id (fun _ => none) s

/-- The number of the first empty slot (R26). -/
def firstEmptySlot (table : List LeaseSlot) : Option Nat := table.findIdx? (fun x => x.lease.isNone)

/-- A grant fills the lowest-numbered empty slot, its tag advanced by one: the new table and the new lease's id (R21,
R26). A table with no empty slot is left alone; R22 keeps that from happening (log 25). -/
def fillSlot (table : List LeaseSlot) (l : Lease) : List LeaseSlot × Option Nat :=
  match firstEmptySlot table with
  | none => (table, none)
  | some i =>
    match table[i]? with
    | none => (table, none)
    | some x => (table.set i { tag := x.tag + 1#2, lease := some l }, some (leaseIdOf i (x.tag + 1#2)))

/-- Is this parked entry an ACQUIRE? -/
def WaitEntry.isAcquire (e : WaitEntry) : Bool := decide (e.kind = .acquire)

/-- The lease id that a request names: an UPGRADE's (R45). -/
def WaitEntry.namedId (e : WaitEntry) : Option Nat :=
  match e.kind with
  | .acquire => none
  | .upgrade id => some id

/-- A port's lease count: its lease records in either state, plus one while it has an ACQUIRE parked (R22). -/
def leaseCount (p : Port) (s : State) : Nat :=
  ((leases s).filter (fun x => decide (x.2.holder = p))).length +
    (s.le.queue.filter (fun e => decide (e.port = p) && e.isAcquire)).length

/-- Filled slots plus parked ACQUIRE entries (R22, R27). -/
def occupancy (s : State) : Nat := (leases s).length + (s.le.queue.filter WaitEntry.isAcquire).length

/-- The age of a lease: (epoch − stamp) modulo 4 (R63). -/
def leaseAge (s : State) (l : Lease) : BitVec 2 := s.eu.epoch - l.stamp

end Sys2Proof.Machine
end

