-- ==== Sys2Proof/Machine/Operands.lean ====
section
/-! DEFINITION. The operand forms: ranges and sectors (R1), whole blocks (R128), coded bytes, selectors and sets (R178),
watches (R136), region entries (R14), and the bytes of details (R178). -/

namespace Sys2Proof.Machine

/-! ### Ranges (00_scope, R1) -/

/-- The last sector of a range: first + count − 1 (00_scope). -/
def Range.last (r : Range) : Nat := r.first + r.count - 1

/-- A range is in bounds when its count is at least 1 and its last sector is at most 32767 (R1). -/
def Range.inBounds (r : Range) : Bool := decide (1 ≤ r.count) && decide (r.first + r.count ≤ Config.userSectors)

/-- The sectors of a range, ascending. -/
def Range.sectors (r : Range) : List Nat := List.range' r.first r.count

/-- Does the range contain the sector? -/
def Range.contains (r : Range) (n : Nat) : Bool := decide (r.first ≤ n) && decide (n < r.first + r.count)

/-- Two ranges overlap when they share at least one sector (00_scope). -/
def Range.overlaps (a b : Range) : Bool :=
  decide (max a.first b.first < min (a.first + a.count) (b.first + b.count))

/-- Two ranges adjoin when one ends on the sector immediately before the first of the other (00_scope). -/
def Range.adjoins (a b : Range) : Bool :=
  decide (a.first + a.count = b.first) || decide (b.first + b.count = a.first)

/-- The sectors two ranges share. -/
def Range.common (a b : Range) : Option Range :=
  if a.overlaps b then
    some { first := max a.first b.first,
           count := min (a.first + a.count) (b.first + b.count) - max a.first b.first }
  else none

/-- The smallest range that contains both (R127). -/
def Range.span (a b : Range) : Range :=
  { first := min a.first b.first,
    count := max (a.first + a.count) (b.first + b.count) - min a.first b.first }

/-- The range of one sector. -/
def Range.single (n : Nat) : Range := { first := n, count := 1 }

/-- The 32 sectors of a logical block (00_scope). -/
def blockRange (b : Nat) : Range := { first := Config.blockSectors * b, count := Config.blockSectors }

/-- The logical block of a sector (R1). -/
def blockOf (sector : Nat) : Nat := sector / Config.blockSectors

/-- The index of a sector within its block (section 6.1). -/
def indexOf (sector : Nat) : Nat := sector % Config.blockSectors

/-- A WRITE's or CLEAR's range cut at sector 32767: the sectors kept, and whether it was truncated (R1, R84, R125). -/
def truncateRange (r : Range) : Range × Bool :=
  if r.first + r.count ≤ Config.userSectors then (r, false)
  else ({ first := r.first, count := Config.userSectors - r.first }, true)

/-- The whole blocks of an effective range, ascending: 32b ≥ f and 32b + 31 ≤ l (R128). -/
def wholeBlocks (r : Range) : List Nat :=
  let firstBlock := (r.first + (Config.blockSectors - 1)) / Config.blockSectors
  let endBlock := (r.first + r.count) / Config.blockSectors
  List.range' firstBlock (endBlock - firstBlock)

/-- The new pending clear range that an effective range leaves (R128). -/
def pendingAfter (r : Range) : Option Range :=
  match (wholeBlocks r).getLast? with
  | none => some r
  | some m =>
    let tail := Config.blockSectors * (m + 1)
    if tail < r.first + r.count then some { first := tail, count := r.first + r.count - tail } else none

/-- The effective range of a CLEAR (R127). -/
def effectiveRange (cmd : Range) (pending : Option Range) : Range :=
  match pending with
  | some q => if q.overlaps cmd || q.adjoins cmd then Range.span q cmd else cmd
  | none => cmd

/-- The range of a lease. -/
def Lease.range (l : Lease) : Range := { first := l.first, count := l.count }

/-! ### Coded bytes (R178) -/

/-- A yes/no parameter: no when 00h, yes for any other value (R178). -/
def yes (b : Byte) : Bool := decide (b ≠ 0#8)

/-- A lease mode's byte (R178). -/
def leaseModeOf (b : Byte) : Option LeaseMode :=
  match b.toNat with
  | 0 => some .shared
  | 1 => some .exclusive
  | _ => none

/-- A region mode's byte (R178). -/
def regionModeOf (b : Byte) : Option RegionMode :=
  match b.toNat with
  | 0 => some .leased
  | 1 => some .opened
  | _ => none

/-- An access level's two bits; 3 is none of the defined values (R178). -/
def accessOf (v : Nat) : Option Access :=
  match v with
  | 0 => some .none
  | 1 => some .read
  | 2 => some .write
  | _ => none

/-- SET REGION's access byte: two bits per port, P0 in bits 1 and 0 up to P3 in bits 7 and 6 (R178). -/
def accessMapOf (b : Byte) : Option (PortMap Access) :=
  match accessOf (b.toNat % 4), accessOf (b.toNat / 4 % 4), accessOf (b.toNat / 16 % 4), accessOf (b.toNat / 64 % 4) with
  | some a, some c, some d, some e => some { atP0 := a, atP1 := c, atP2 := d, atP3 := e }
  | _, _, _, _ => none

/-- The event byte of COUNTER SETUP: `some none` is the selection none, `none` a code outside the list (R178, R186). Code
00h is "none" in R178's list of counter events and no event of R188's list, which R186 names; the model accepts it as the
selection none (DESIGN CHOICE, log 47). -/
def counterEventOf (b : Byte) : Option (Option CounterEvent) :=
  match b.toNat with
  | 0 => some none
  | 1 => some (some .grant)
  | 2 => some (some .park)
  | 3 => some (some .refuse)
  | 4 => some (some .expire)
  | 5 => some (some .stageMerge)
  | 6 => some (some .drainSector)
  | 7 => some (some .readSector)
  | 8 => some (some .corrected)
  | 9 => some (some .noticeDrop)
  | 10 => some (some .relocation)
  | 11 => some (some .relocDropped)
  | _ => none

/-- The qualifier byte of COUNTER SETUP (R178, R186). -/
def qualifierOf (b : Byte) : Option Qualifier :=
  match b.toNat with
  | 0 => some .self
  | 1 => some .any
  | _ => none

/-- The set of notice kinds: bit 0 COMMITTED, bit 1 CLEARED, bit 2 FREED; any other bit names another kind (R136,
R178). -/
def watchKindsOf (b : Byte) : Option WatchKinds :=
  if b.toNat < 8 then
    some { committed := b.getLsbD 0, cleared := b.getLsbD 1, freed := b.getLsbD 2 }
  else none

/-- The watch that SET WATCH's parameters give, or `none` when R136 refuses them. -/
def watchOf (target : Byte) (first count wordSet : Word16) (kinds includeSelf hold : Byte) : Option Watch :=
  match target.toNat with
  | 0 =>
    let r : Range := { first := first.toNat, count := count.toNat }
    match watchKindsOf kinds with
    | none => none
    | some k =>
      if !r.inBounds || !(k.committed || k.cleared || k.freed) || (yes hold && !(k.committed || k.cleared)) then none
      else some (.sectors r k (yes includeSelf) (yes hold))
  | 1 => if wordSet = 0#16 || yes hold then none else some (.signals wordSet (yes includeSelf))
  | 2 => if yes hold || yes includeSelf then none else some .media
  | _ => none

/-- The region entry that SET REGION's parameters give, or `none` when a value is none of the defined ones or the
range is not one (R14). -/
def regionOf (first last : Word16) (access mode : Byte) : Option Region :=
  match accessMapOf access, regionModeOf mode with
  | some a, some m =>
    if first.toNat ≤ last.toNat ∧ last.toNat < Config.userSectors then
      some { first := first.toNat, last := last.toNat, access := a, mode := m }
    else none
  | _, _ => none

/-- The sectors of a region entry as a range. -/
def Region.range (g : Region) : Range := { first := g.first, count := g.last + 1 - g.first }

/-- The data of sector `i` of a WRITE's payload (R84). -/
def payloadSector (payload : List Byte) (i : Nat) : SectorData :=
  (payload.drop (i * Config.sectorBytes)).take Config.sectorBytes

/-! ### Bytes of details and responses (R178) -/

/-- A one-byte item. -/
def byteItem (n : Nat) : List Byte := [BitVec.ofNat 8 n]

/-- A two-byte item, most significant byte first (R178). -/
def wordItem (n : Nat) : List Byte := [BitVec.ofNat 8 (n / 256), BitVec.ofNat 8 n]

/-- An absent one-byte item: FFh (R178). -/
def absentByte : List Byte := [0xFF#8]

/-- An absent two-byte item: FFFFh (R178). -/
def absentWord : List Byte := [0xFF#8, 0xFF#8]

/-- A one-byte item that may be absent. -/
def byteItem? : Option Nat → List Byte
  | some n => byteItem n
  | none => absentByte

/-- A yes/no item: 01h for yes, 00h for no (log 19). -/
def boolItem (b : Bool) : List Byte := if b then [1#8] else [0#8]

/-- The four bytes of a counter's value, most significant first (R186). -/
def valueItem (v : BitVec 32) : List Byte :=
  [v.extractLsb' 24 8, v.extractLsb' 16 8, v.extractLsb' 8 8, v.extractLsb' 0 8]

/-- The set of ports: bit n stands for port n (R178). -/
def portSetItem (ps : List Port) : List Byte :=
  byteItem ((Port.all.map (fun p => if p ∈ ps then 2 ^ p.num else 0)).sum)

end Sys2Proof.Machine
end

