-- ==== Sys2Proof/Machine/Flags.lean ====
section
/-! DEFINITION. The codes and layouts a port shows (R178): status byte, reject-reason byte, ATTN (R173), the codes of
enumerated values, the flags byte, RESULT's and FETCH NOTICE's responses. -/

namespace Sys2Proof.Machine

/-! ### Codes in the order of R178's table -/

/-- The code of a status (R178). -/
def Status.code : Status → Nat
  | .done => 0
  | .overflow => 1
  | .conflict => 2
  | .tableFull => 3
  | .quota => 4
  | .overlapSelf => 5
  | .noLease => 6
  | .denied => 7
  | .openRegion => 8
  | .notCovered => 9
  | .wouldDeadlock => 10
  | .waitTimeout => 11
  | .cancelled => 12
  | .leaseLost => 13
  | .uncorrectable => 14
  | .writeFault => 15
  | .badParam => 16
  | .notSupervisor => 17
  | .regionBusy => 18

/-- The code of a lease mode (R178). -/
def LeaseMode.code : LeaseMode → Nat
  | .shared => 0
  | .exclusive => 1

/-- The code of a lease state (R178). -/
def LeaseState.code : LeaseState → Nat
  | .held => 0
  | .ending _ => 1

/-- The code of an ending cause (R178). -/
def EndCause.code : EndCause → Nat
  | .released => 0
  | .expired => 1
  | .broken => 2
  | .portReset => 3
  | .fenced => 4

/-- The ending cause of a lease: absent in HELD (R35). -/
def LeaseState.causeCode? : LeaseState → Option Nat
  | .held => none
  | .ending c => some c.code

/-- The code of an access level (R178). -/
def Access.code : Access → Nat
  | .none => 0
  | .read => 1
  | .write => 2

/-- The code of a region mode (R178). -/
def RegionMode.code : RegionMode → Nat
  | .leased => 0
  | .opened => 1

/-- The code of a counter selection (R178). -/
def counterEventCode : Option CounterEvent → Nat
  | none => 0
  | some .grant => 1
  | some .park => 2
  | some .refuse => 3
  | some .expire => 4
  | some .stageMerge => 5
  | some .drainSector => 6
  | some .readSector => 7
  | some .corrected => 8
  | some .noticeDrop => 9
  | some .relocation => 10
  | some .relocDropped => 11

/-- The code of a qualifier (R178). -/
def Qualifier.code : Qualifier → Nat
  | .self => 0
  | .any => 1

/-- The code of a media kind among the notice kinds (R178). -/
def MediaKind.code : MediaKind → Nat
  | .relocated => 5
  | .relocateFailed => 6
  | .sparesOut => 7

/-- The code of a reject reason (R178). -/
def RejectReason.code : RejectReason → Nat
  | .none => 0
  | .frameError => 1
  | .slotBusy => 2
  | .fenced => 3
  | .notReady => 4

/-- The reject-reason byte (R166, R178). -/
def reasonByte (r : RejectReason) : Byte := BitVec.ofNat 8 r.code

/-! ### Status byte and ATTN (R164, R173) -/

/-- The status byte's state field: STARTING and FENCED come before the slot state (R164, R178). -/
def stateField (p : Port) (s : State) : Nat :=
  if s.device = .starting then 4
  else if (s.plu.get p).fenced then 5
  else match (s.plu.get p).slot with
    | .idle => 0
    | .busy => 1
    | .parked => 2
    | .held => 3

/-- NOTICE_PENDING: the port's notice queue holds at least one record (R145, R164). -/
def noticePending (p : Port) (s : State) : Bool := !(s.nu.get p).queue.isEmpty

/-- The status byte (R164, R178). -/
def statusByte (p : Port) (s : State) : Byte :=
  let u := s.plu.get p
  let n := s.nu.get p
  BitVec.ofNat 8 (stateField p s + (if u.resultReady then 8 else 0) + (if noticePending p s then 16 else 0) +
    (if n.congested then 32 else 0) + (if n.overrun then 64 else 0) + (if u.rejected then 128 else 0))

/-- ATTN is asserted while a cause that the mask enables is set, READY, not fenced, RST released (R173, R177, R179). -/
def attn (p : Port) (s : State) : Bool :=
  let u := s.plu.get p
  let n := s.nu.get p
  !s.rstHeld && decide (s.device = .ready) && !u.fenced &&
    ((u.mask.getLsbD 0 && u.resultReady) || (u.mask.getLsbD 1 && noticePending p s) ||
      (u.mask.getLsbD 2 && n.congested) || (u.mask.getLsbD 3 && n.overrun))

/-! ### Responses (R178) -/

/-- The flags byte of RESULT: bit 0 STAGED to bit 4 PENDING (R178). -/
def CompletionFlags.byte (f : CompletionFlags) : Byte :=
  BitVec.ofNat 8 ((if f.staged then 1 else 0) + (if f.flushed then 2 else 0) + (if f.corrected then 4 else 0) +
    (if f.holdExpired then 8 else 0) + (if f.pending then 16 else 0))

/-- `l` followed by zeros up to `n` bytes. -/
def padTo (n : Nat) (l : List Byte) : List Byte := l ++ List.replicate (n - l.length) 0#8

/-- RESULT's response for a completion record (R178). -/
def recordBytes (r : CompletionRecord) : List Byte :=
  let c := r.completion
  [2#8, r.opcode] ++ byteItem c.status.code ++ [c.flags.byte] ++
    byteItem ((if c.leaseId.isSome then 1 else 0) + (if c.lastSector.isSome then 2 else 0)) ++
    byteItem (c.leaseId.getD 0) ++ wordItem (c.lastSector.getD 0) ++ wordItem c.count ++
    byteItem c.detail.length ++ padTo 12 c.detail

/-- RESULT's response: "in progress", "none" or the record (R170, R178). -/
def resultBytes (u : Plu) : List Byte :=
  if u.slot ≠ .idle then padTo 23 [1#8]
  else match u.record with
    | none => padTo 23 [0#8]
    | some r => recordBytes r

/-- The opcode of READ (R178). -/
def readOpcode : Byte := 0x20#8

/-- The count that FETCH DATA returns: 0 while the slot is BUSY with a READ, and otherwise the valid count (R171). -/
def fetchCount (u : Plu) : Nat := if u.slot ≠ .idle ∧ u.opcode = readOpcode then 0 else u.valid

/-- FETCH DATA's response: the count and then the positions it covers in order (R171). -/
def fetchDataBytes (u : Plu) : List Byte := byteItem (fetchCount u) ++ (u.buffer.take (fetchCount u)).flatten

/-- The notice kind and the fields of a record's body: source port, lease id, and the two words at offsets 8 and 10
(R138, R178). -/
def NoticeBody.fields : NoticeBody → Nat × Option Port × Option Nat × Nat × Nat
  | .committed p r => (0, some p, none, r.first, r.count)
  | .cleared p r => (1, some p, none, r.first, r.count)
  | .freed p id r => (2, some p, some id, r.first, r.count)
  | .lost p id r => (3, some p, some id, r.first, r.count)
  | .signal p w v => (4, some p, none, w, v.toNat)
  | .media k b => (k.code, none, none, b, 0)

/-- A field of a notice that may be absent; what an absent one reads as is a free value, a new one in each fetch
(log 29). -/
def noticeField? (fetches offset : Nat) : Option Nat → List Byte
  | some n => byteItem n
  | none => [Config.absentNoticeField fetches offset]

/-- A notice record at offsets 3 to 11 of FETCH NOTICE's response (R178). -/
def noticeFieldBytes (fetches : Nat) (n : Notice) : List Byte :=
  let (kind, source, id, a, b) := n.body.fields
  byteItem kind ++
    byteItem ((if source.isSome then 1 else 0) + (if n.watch.isSome then 2 else 0) + (if id.isSome then 4 else 0)) ++
    noticeField? fetches 5 (source.map Port.num) ++ noticeField? fetches 6 n.watch ++ noticeField? fetches 7 id ++
    wordItem a ++ wordItem b

/-- FETCH NOTICE's response (R146, R178). -/
def noticeBytes (fetches : Nat) (n : Option Notice) (overrun : Bool) (left : Nat) : List Byte :=
  match n with
  | none => padTo 12 ([0#8] ++ boolItem overrun)
  | some x => [1#8] ++ boolItem overrun ++ byteItem left ++ noticeFieldBytes fetches x

end Sys2Proof.Machine
end

