-- ==== Sys2Proof/Machine/Notices.lean ====
section
/-! DEFINITION. The notice unit: placing records (R145), the events it turns into records (R140 to R144), the hold
check's blocking ports (R150), the congestion state (R147). -/

namespace Sys2Proof.Machine

/-! ### Placing records (R145, R147) -/

/-- A record appended to a queue that has room; reaching the high level makes the port CONGESTED (R145, R147). -/
def NuPort.append (u : NuPort) (n : Notice) : NuPort :=
  { u with queue := u.queue ++ [n], congested := u.congested || decide (u.high ≤ u.queue.length + 1) }

/-- A record placed in a port's queue, or dropped at a full one with the overrun flag set and one NOTICE_DROP (R145). -/
def placeNotice (p : Port) (s : State) (n : Notice) : State :=
  if (s.nu.get p).queue.length < Config.noticeCapacity then s.modNu p (fun u => u.append n)
  else countEvent .noticeDrop (some p) (s.modNu p (fun u => { u with overrun := true }))

/-- The records of one event for one port, in watch order (R139). -/
def placeAll (p : Port) (ns : List Notice) (s : State) : State := ns.foldl (placeNotice p) s

/-- The watches of a table with their indexes, ascending. -/
def watchesFrom : Nat → List (Option Watch) → List (Nat × Watch)
  | _, [] => []
  | i, some w :: t => (i, w) :: watchesFrom (i + 1) t
  | i, none :: t => watchesFrom (i + 1) t

/-- The watches of a port with their indexes, ascending. -/
def watchesOf (p : Port) (s : State) : List (Nat × Watch) := watchesFrom 0 (s.nu.get p).watches

/-- One event delivered to every port: `records p` gives the bodies and watch indexes its records have there. -/
def deliver (records : Port → List Notice) (s : State) : State :=
  Port.all.foldl (fun t p => placeAll p (records p) t) s

/-! ### Events (R140 to R144) -/

/-- The range from the lowest to the highest of some ranges' sectors. -/
def hull : List Range → Option Range
  | [] => none
  | r :: t =>
    match hull t with
    | none => some r
    | some h => some (Range.span r h)

/-- The part of the changed sectors inside a watch's range, from the lowest to the highest (R140). -/
def changedWithin (changed : List Range) (w : Range) : Option Range := hull (changed.filterMap (fun c => c.common w))

/-- Include self: the source is another port, or the watch asks for its own port's changes too (R140). -/
def sourceCounts (p source : Port) (includeSelf : Bool) : Bool := decide (p ≠ source) || includeSelf

/-- The records that a change of sectors gives a port: `wants` picks the kind among the watch's kinds, `body` builds the
record of the sectors inside the watch (R140, R141). -/
def sectorRecords (p source : Port) (wants : WatchKinds → Bool) (changed : List Range) (body : Range → NoticeBody)
    (s : State) : List Notice :=
  (watchesOf p s).filterMap (fun (i, w) =>
    match w with
    | .sectors r k self _ =>
      if wants k && sourceCounts p source self then
        (changedWithin changed r).map (fun c => { body := body c, watch := some i })
      else none
    | _ => none)

/-- A COMMITTED event: a source port and the sectors programmed OK; no record in a fenced port (R140). -/
def committedEvent (source : Port) (sectors : List Nat) (s : State) : State :=
  deliver (fun p => if (s.plu.get p).fenced then [] else
    sectorRecords p source (fun k => k.committed) (sectors.map Range.single) (.committed source) s) s

/-- A CLEARED event: a source port and the range of the blocks cleared OK (R131, R140). -/
def clearedEvent (source : Port) (r : Range) (s : State) : State :=
  deliver (fun p => if (s.plu.get p).fenced then [] else
    sectorRecords p source (fun k => k.cleared) [r] (.cleared source) s) s

/-- A FREED event at a lease's removal, with the holder as source (R43, R141; log 32). -/
def freedEvent (id : Nat) (l : Lease) (s : State) : State :=
  deliver (fun p => sectorRecords p l.holder (fun k => k.freed) [l.range] (.freed l.holder id) s) s

/-- A LOST event: one record in the holder's queue, whatever its watches (R42, R142). -/
def lostEvent (id : Nat) (l : Lease) (s : State) : State :=
  placeNotice l.holder s { body := .lost l.holder id l.range, watch := none }

/-- The records that a changed signal word gives a port (R143, R162). -/
def signalRecords (p source : Port) (word : Nat) (value : Word16) (s : State) : List Notice :=
  (watchesOf p s).filterMap (fun (i, w) =>
    match w with
    | .signals words self =>
      if words.getLsbD word && sourceCounts p source self then
        some { body := .signal source word value, watch := some i }
      else none
    | _ => none)

/-- A SIGNAL event (R143). -/
def signalEvent (source : Port) (word : Nat) (value : Word16) (s : State) : State :=
  deliver (fun p => if (s.plu.get p).fenced then [] else signalRecords p source word value s) s

/-- Is this watch's target MEDIA? -/
def Watch.isMedia : Watch → Bool
  | .media => true
  | _ => false

/-- A media event: one record in the queue of every port that is not fenced and has a MEDIA watch, with the index of
its lowest MEDIA entry (R144). -/
def mediaEvent (k : MediaKind) (block : Nat) (s : State) : State :=
  deliver (fun p => if (s.plu.get p).fenced then [] else
    match (watchesOf p s).find? (fun x => x.2.isMedia) with
    | some (i, _) => [{ body := .media k block, watch := some i }]
    | none => []) s

/-! ### Hold (R150) -/

/-- Does this watch ask for a hold of a change of this kind to these sectors (R150)? -/
def Watch.holds (w : Watch) (k : ChangeKind) (changed : List Range) : Bool :=
  match w with
  | .sectors r kinds _ hold =>
    hold && (match k with | .committed => kinds.committed | .cleared => kinds.cleared) &&
      changed.any (fun c => c.overlaps r)
  | _ => false

/-- Is there a blocking port for port `a`'s job: a port other than `a` that is CONGESTED and has a hold watch for the
job's kind over one of its sectors (R150)? -/
def blocked (a : Port) (k : ChangeKind) (changed : List Range) (s : State) : Bool :=
  Port.all.any (fun b => decide (b ≠ a) && (s.nu.get b).congested &&
    (watchesOf b s).any (fun x => x.2.holds k changed))

/-- A watch with hold yes. -/
def Watch.hasHold : Watch → Bool
  | .sectors _ _ _ hold => hold
  | _ => false

/-! ### Queue and levels (R146 to R149) -/

/-- The head record taken out; the port becomes NORMAL at its low level (R146, R147). -/
def NuPort.removeHead (u : NuPort) : NuPort :=
  match u.queue with
  | [] => u
  | _ :: t => { u with queue := t, congested := u.congested && decide (u.low < t.length) }

/-- New levels, with the congestion state set against the queue's present count (R148). -/
def NuPort.setLevels (u : NuPort) (high low : Nat) : NuPort :=
  { u with high := high, low := low,
           congested := if high ≤ u.queue.length then true
             else if u.queue.length ≤ low then false else u.congested }

end Sys2Proof.Machine
end

