-- ==== Sys2Proof/Machine/Regions.lean ====
section
/-! DEFINITION. The access checker's region checks and the coverage check (R3 to R6, R25, section 1.3). -/

namespace Sys2Proof.Machine

/-- The defined entries of a region table with their indexes, ascending. -/
def regionsFrom : Nat → List (Option Region) → List (Nat × Region)
  | _, [] => []
  | i, some g :: t => (i, g) :: regionsFrom (i + 1) t
  | i, none :: t => regionsFrom (i + 1) t

/-- A sector's region in a table: the defined entry that encloses it, with its index (R4). -/
def regionIn (table : List (Option Region)) (sector : Nat) : Option (Nat × Region) :=
  (regionsFrom 0 table).find? (fun x => decide (x.2.first ≤ sector) && decide (sector ≤ x.2.last))

/-- A sector's region in the live table (R4). -/
def regionAt (s : State) (sector : Nat) : Option Region := (regionIn s.ac.regions sector).map Prod.snd

/-- Is the access level at least READ, or at least WRITE when `write` (R5, R6)? -/
def Access.suffices (a : Access) (write : Bool) : Bool :=
  match a with
  | .none => false
  | .read => !write
  | .write => true

/-- An access failure: no region, or an access level below the one asked for (R5, R6). -/
def accessFails (p : Port) (write : Bool) (s : State) (sector : Nat) : Bool :=
  match regionAt s sector with
  | some g => !(g.access.get p).suffices write
  | none => true

/-- Does the sector lie in a region of this mode? -/
def inMode (m : RegionMode) (s : State) (sector : Nat) : Bool :=
  match regionAt s sector with
  | some g => decide (g.mode = m)
  | none => false

/-- Does this lease cover the sector for port `p`: HELD, of that port, containing the sector, EXCLUSIVE for a WRITE or
CLEAR (R25)? -/
def Lease.covers (l : Lease) (p : Port) (write : Bool) (sector : Nat) : Bool :=
  decide (l.holder = p) && decide (l.state = .held) && (!write || decide (l.mode = .exclusive)) &&
    l.range.contains sector

/-- The covering lease of a sector (R25). -/
def coveringLease (p : Port) (write : Bool) (s : State) (sector : Nat) : Option Nat :=
  ((leases s).find? (fun x => x.2.covers p write sector)).map Prod.fst

/-- A lease failure: a sector in a LEASED region with no covering lease (R5). -/
def leaseFails (p : Port) (write : Bool) (s : State) (sector : Nat) : Bool :=
  inMode .leased s sector && (coveringLease p write s sector).isNone

/-- The check of a READ (`write` false), or of a WRITE or CLEAR (`write` true): the refusal and the lowest failing sector,
or none (R5). -/
def dataCheck (p : Port) (write : Bool) (r : Range) (s : State) : Option (Status × Nat) :=
  match r.sectors.find? (accessFails p write s) with
  | some n => some (.denied, n)
  | none =>
    match r.sectors.find? (leaseFails p write s) with
    | some n => some (.notCovered, n)
    | none => none

/-- The leases that the coverage answer names for at least one sector of the range (R25, R71). -/
def coveringLeases (p : Port) (write : Bool) (r : Range) (s : State) : List Nat :=
  ((leases s).filter (fun x => r.sectors.any (fun n => x.2.covers p write n && inMode .leased s n))).map Prod.fst

/-- The check of a lease request's range, EXCLUSIVE when `write`: the refusal and the lowest failing sector (R6). -/
def requestCheck (p : Port) (write : Bool) (r : Range) (s : State) : Option (Status × Nat) :=
  match r.sectors.find? (accessFails p write s) with
  | some n => some (.denied, n)
  | none =>
    match r.sectors.find? (inMode .opened s) with
    | some n => some (.openRegion, n)
    | none => none

end Sys2Proof.Machine
end

