-- ==== Sys2Proof/Machine/Leases.lean ====
section
/-! DEFINITION. The lease engine's shared operations: conflict (R23), grants (R26, R52, R53), the grant scan (R51), the
wait-for relation (R61, R62), the end and the removal of a lease (R39, R41), a port's teardown (R44). -/

namespace Sys2Proof.Machine

/-! ### Conflict and blockers (R23, R28, R30, R51) -/

/-- Two modes conflict when at least one is EXCLUSIVE (R23). -/
def modesConflict (a b : LeaseMode) : Bool := decide (a = .exclusive) || decide (b = .exclusive)

/-- A request and a lease conflict; an UPGRADE does not conflict with the lease it names (R23). -/
def WaitEntry.meetsLease (e : WaitEntry) (x : Nat × Lease) : Bool :=
  e.range.overlaps x.2.range && modesConflict e.mode x.2.mode && decide (e.namedId ≠ some x.1)

/-- Two requests conflict (R23). -/
def WaitEntry.meetsEntry (e f : WaitEntry) : Bool := e.range.overlaps f.range && modesConflict e.mode f.mode

/-- What a request meets first: a lease or a parked entry (R28). -/
inductive Blocker where
  | lease (id : Nat) (l : Lease)
  | waiter (e : WaitEntry)
deriving DecidableEq, Repr

/-- The first conflict of a request with the leases and with the earlier entries: the lowest-slot conflicting lease, or
else the earliest conflicting entry; none when the request is grantable (R28, R30, R51). -/
def blockerOf (e : WaitEntry) (earlier : List WaitEntry) (s : State) : Option Blocker :=
  match (leases s).find? e.meetsLease with
  | some (id, l) => some (.lease id l)
  | none => (earlier.find? e.meetsEntry).map .waiter

/-- The detail that names a blocker: kind, port, lease id for a lease, mode (R28; log 18). -/
def Blocker.detail : Blocker → List Byte
  | .lease id l => byteItem 0 ++ byteItem l.holder.num ++ byteItem id ++ byteItem l.mode.code
  | .waiter e => byteItem 1 ++ byteItem e.port.num ++ byteItem e.mode.code

/-! ### Grants (R26, R30, R52, R53) -/

/-- The completion of a grant (R26, R30). -/
def grantCompletion (r : Range) (id : Option Nat) : Completion :=
  { status := .done, leaseId := id, lastSector := some r.last, count := r.count }

/-- The record that an ACQUIRE's grant writes (R26). -/
def WaitEntry.newLease (e : WaitEntry) (s : State) : Lease :=
  { holder := e.port, mode := e.mode, first := e.range.first, count := e.range.count, stamp := s.eu.epoch,
    state := .held }

/-- A request granted, at once or by the grant scan: an ACQUIRE's new lease (R26, R52), or an UPGRADE's mode change and
renewal (R30, R53); the command completes and one GRANT is counted (R188). An UPGRADE entry of an abandoned command may name
no lease, when its lease expired between the port's reset and the lease engine's teardown (R67, R176): it is judged as
any entry, and its grant changes no lease, makes no completion and counts one GRANT (DESIGN CHOICE, log 38). -/
def grant (e : WaitEntry) (s : State) : State :=
  match e.kind with
  | .acquire =>
    let filled := fillSlot s.le.table (e.newLease s)
    countEvent .grant (some e.port)
      (complete e.port e.serial (grantCompletion e.range filled.2) (s.modLe (fun x => { x with table := filled.1 })))
  | .upgrade id =>
    countEvent .grant (some e.port)
      (complete e.port e.serial (grantCompletion e.range (some id)) (renewLease id (setLeaseMode id .exclusive s)))

/-- The walk of the grant scan over `todo`, with the earlier entries that stay parked: each entry is judged against the
table as it stands and against the still-parked earlier entries (R51). -/
def scanWalk (parked : List WaitEntry) : List WaitEntry → State → State
  | [], s => s.modLe (fun x => { x with queue := parked })
  | e :: t, s =>
    match blockerOf e parked s with
    | some _ => scanWalk (parked ++ [e]) t s
    | none => scanWalk parked t (grant e s)

/-- The grant scan (R50, R51). -/
def grantScan (s : State) : State := scanWalk [] s.le.queue s

/-- The grant scan, run at the end of a request in which one of R50's events took place. -/
def grantScanIf (b : Bool) (s : State) : State := if b then grantScan s else s

/-! ### The wait-for relation (R61, R62) -/

/-- The ports that a request waits on: holders of HELD leases that conflict with it, and the ports of the conflicting
entries among `earlier` (R61). -/
def waitsOn (e : WaitEntry) (earlier : List WaitEntry) (s : State) : List Port :=
  ((leases s).filter (fun x => decide (x.2.state = .held) && e.meetsLease x)).map (fun x => x.2.holder) ++
    (earlier.filter e.meetsEntry).map (fun f => f.port)

/-- The edges of the queue's entries, each with its port: `earlier` are the entries before (R61). -/
def edgesFrom (s : State) : List WaitEntry → List WaitEntry → List (Port × List Port)
  | _, [] => []
  | earlier, e :: t => (e.port, waitsOn e earlier s) :: edgesFrom s (earlier ++ [e]) t

/-- The wait-for relation when `e` is about to park behind the whole queue (R61). -/
def waitForEdges (e : WaitEntry) (s : State) : List (Port × List Port) := edgesFrom s [] (s.le.queue ++ [e])

/-- The ports one edge away from any port of a list. -/
def oneEdge (edges : List (Port × List Port)) (from_ : List Port) : List Port :=
  Port.all.filter (fun y => edges.any (fun x => decide (x.1 ∈ from_) && decide (y ∈ x.2)))

/-- The ports reached from `from_` by one to `n + 1` edges. -/
def reachWithin (edges : List (Port × List Port)) : Nat → List Port → List Port
  | 0, ps => oneEdge edges ps
  | n + 1, ps => oneEdge edges ps ++ reachWithin edges n (oneEdge edges ps)

/-- The ports reached from `p` by one or more edges: among four ports four edges are enough (R62). -/
def reachable (edges : List (Port × List Port)) (p : Port) : List Port := reachWithin edges 3 [p]

/-- The ports that lie on a circle with the requester (R62). -/
def circleOf (edges : List (Port × List Port)) (p : Port) : List Port :=
  Port.all.filter (fun y => decide (y ∈ reachable edges p) && decide (p ∈ reachable edges y))

/-! ### Judging a request that has passed its checks (R28, R30, R46, R62) -/

/-- Parking: an entry at the tail, the slot PARKED, one PARK counted (R46, R188). -/
def park (e : WaitEntry) (s : State) : State :=
  countEvent .park (some e.port)
    (setSlot e.port e.serial .parked (s.modLe (fun x => { x with queue := x.queue ++ [e] })))

/-- A request granted, refused CONFLICT, refused WOULD_DEADLOCK or parked (R28, R30, R46, R62). -/
def judge (e : WaitEntry) (s : State) : State :=
  match blockerOf e s.le.queue s with
  | none => grant e s
  | some b =>
    if e.waitMs = 0 then
      countEvent .refuse (some e.port)
        (complete e.port e.serial { status := .conflict, leaseId := e.namedId, detail := b.detail } s)
    else
      let edges := waitForEdges e s
      if e.port ∈ reachable edges e.port then
        countEvent .refuse (some e.port)
          (complete e.port e.serial
            { status := .wouldDeadlock, leaseId := e.namedId, detail := portSetItem (circleOf edges e.port) } s)
      else park e s

/-! ### The end and the removal of a lease (R39, R41) -/

/-- A STAGED slot of a lease (R98). -/
def StagingSlot.stagedUnder (x : StagingSlot) (id : Nat) : Bool :=
  decide (x.state = .staged) && decide (x.leaseId = id)

/-- The number of STAGED slots of a lease in a write unit. -/
def WriteUnit.stagedCount (u : WriteUnit) (id : Nat) : Nat := (u.slots.filter (fun x => x.stagedUnder id)).length

/-- The STAGED slots of a lease discarded (R36, R98). -/
def WriteUnit.discardStaged (u : WriteUnit) (id : Nat) : WriteUnit :=
  { u with slots := u.slots.filter (fun x => !x.stagedUnder id) }

/-- The pending clear range dropped whole if it overlaps a range (R133). -/
def WriteUnit.dropPending (u : WriteUnit) (r : Range) : WriteUnit :=
  { u with pendingClear := u.pendingClear.filter (fun q => !q.overlaps r) }

/-- Are slots of the lease DRAINING, counting those that have left while their job's end report is not taken (R39,
R98)? -/
def WriteUnit.drainingUnder (u : WriteUnit) (id : Nat) : Bool :=
  u.slots.any (fun x => decide (x.state = .draining) && decide (x.leaseId = id)) || u.drained.contains id

/-- A lease removed: its slot becomes empty, the holder's count falls with it, a FREED event is handed (R41). The grant
scan follows at the end of the request (R50). -/
def removeLease (id : Nat) (s : State) : State :=
  match findLease s id with
  | some l => freedEvent id l (emptyLeaseSlot id s)
  | none => s

/-- Several leases removed, in the order given. -/
def removeLeases (ids : List Nat) (s : State) : State := ids.foldl (fun t id => removeLease id t) s

/-- A HELD lease ended with cause EXPIRED, BROKEN, PORT_RESET or FENCED (R39, R98): the holder's STAGED slots under it
discarded, its pending clear range dropped if it overlaps, LOST for EXPIRED and BROKEN, then ENDING or removed. -/
def endLease (id : Nat) (cause : EndCause) (s : State) : State :=
  match findLease s id with
  | none => s
  | some l =>
    let s1 := s.modPwu l.holder (fun u => (u.discardStaged id).dropPending l.range)
    let s2 := if cause = .expired ∨ cause = .broken then lostEvent id l s1 else s1
    if (s.pwu.get l.holder).drainingUnder id then setLeaseEnding id cause s2 else removeLease id s2

/-- The HELD leases of a port, in ascending slot order. -/
def heldLeases (p : Port) (s : State) : List Nat :=
  ((leases s).filter (fun x => decide (x.2.holder = p) && decide (x.2.state = .held))).map Prod.fst

/-- The ENDING leases of a port, in ascending slot order. -/
def endingLeases (p : Port) (s : State) : List Nat :=
  ((leases s).filter (fun x => decide (x.2.holder = p) && decide (x.2.state ≠ .held))).map Prod.fst

/-- The lease engine's teardown of a port: its parked entry removed, its HELD leases ended with the cause, one grant
scan (R44, R59). -/
def leaseTeardown (p : Port) (cause : EndCause) (s : State) : State :=
  let s1 := s.modLe (fun x => { x with queue := x.queue.filter (fun e => decide (e.port ≠ p)) })
  grantScan ((heldLeases p s1).foldl (fun t id => endLease id cause t) s1)

/-! ### The sweep (R66 to R68) -/

/-- Is the port's slot occupied: BUSY, PARKED or HELD (R66)? -/
def occupied (s : State) (p : Port) : Bool := decide ((s.plu.get p).slot ≠ .idle)

/-- Step 2 of the sweep: every HELD lease of a port with an occupied slot gets the new epoch as its stamp (R66). -/
def renewOccupied (s : State) : State :=
  renewLeases (((leases s).filter (fun x => occupied s x.2.holder && decide (x.2.state = .held))).map Prod.fst) s

/-- The HELD leases whose age is 3, in ascending slot order (R67). -/
def expiring (s : State) : List (Nat × Port) :=
  ((leases s).filter (fun x => decide (x.2.state = .held) && decide (leaseAge s x.2 = 3#2))).map
    (fun x => (x.1, x.2.holder))

/-- A lease ended EXPIRED, with one EXPIRE counted for its holder (R67). -/
def expireLease (x : Nat × Port) (s : State) : State :=
  countEvent .expire (some x.2) (endLease x.1 .expired s)

/-- The sweep's three steps and its grant scan (R66, R67, R68). -/
def sweepLeases (s : State) : State :=
  let s1 := s.modEu (fun e => { e with epoch := e.epoch + 1#2 })
  let s2 := renewOccupied s1
  grantScan ((expiring s2).foldl (fun t x => expireLease x t) s2)

end Sys2Proof.Machine
end

