-- ==== Sys2Proof/Machine/Media.lean ====
section
/-! DEFINITION. The media engine's shared operations: the serving block (R2, R107), the job queue and its selection
(R105, R106), relocation candidates (R116, R117), the end of a RELOCATE job (R122), SPARES_OUT (R123), the metadata
record (R9, R114, R120). -/

namespace Sys2Proof.Machine

/-! ### The array as the running operation sees it -/

/-- The physical block that serves a logical block: its spare, or its home block (R2). -/
def servingBlock (me : MediaEngine) (b : Nat) : Nat :=
  match me.remap.find? (fun e => decide (e.1 = b)) with
  | some e => e.2
  | none => b

/-- The physical sector of a user sector (R2, section 6.1). -/
def servingSector (me : MediaEngine) (sector : Nat) : Nat :=
  physicalSector (servingBlock me (blockOf sector)) (indexOf sector)

/-- The outcome that the array gives a read: an unreadable sector's every read ends UNCORRECTABLE (R103), whatever the
command says; a readable sector reads CLEAN or CORRECTED, as the command says (R101). UNCORRECTABLE is no outcome of a
readable sector: none (log 15). -/
def readOutcomeAt (me : MediaEngine) (ps : Nat) (o : ReadOutcome) : Option ReadOutcome :=
  if me.unreadable.contains ps then some .uncorrectable
  else if o = .uncorrectable then none
  else some o

/-- A program of a physical sector that ends OK: it holds the data from then on and is readable (R101, R103). -/
def MediaEngine.programOk (me : MediaEngine) (ps : Nat) (data : SectorData) : MediaEngine :=
  { me with array := Memory.write me.array (ps * Config.sectorBytes) (data.take Config.sectorBytes),
            unreadable := eraseNat ps me.unreadable }

/-- The physical sectors of a block. -/
def sectorsOfBlock (block : Nat) : List Nat := List.range' (physicalSector block 0) Config.blockSectors

/-- A clear of a physical block that ends OK: every byte FFh, every sector readable (R101, R103). -/
def MediaEngine.clearOk (me : MediaEngine) (block : Nat) : MediaEngine :=
  { me with array := Memory.clear me.array (physicalSector block 0 * Config.sectorBytes)
              (Config.blockSectors * Config.sectorBytes),
            unreadable := me.unreadable.filter (fun n => !(sectorsOfBlock block).contains n) }

/-- Physical sectors left unreadable by a cut program or clear (R103). -/
def MediaEngine.spoil (me : MediaEngine) (sectors : List Nat) : MediaEngine :=
  { me with unreadable := sectors.foldl (fun l n => insertAsc n l) me.unreadable }

/-- The physical sector of the metadata record (R9). -/
def metadataSector : Nat := physicalSector Config.metadataBlock 0

/-- The metadata record programmed OK (R9, R101). -/
def MediaEngine.recordOk (me : MediaEngine) (r : MetaRecord) : MediaEngine :=
  { me with record := some r, unreadable := eraseNat metadataSector me.unreadable }

/-- The record a metadata write programs: the saved image, a remap table and a retired list, and a fresh check word (R8,
R9, R114). -/
def recordFrom (s : State) (remap : List (Nat × Nat)) (retired : List Nat) : MetaRecord :=
  { settings := s.ac.image, remap := remap, retired := retired, checkOk := true }

/-- A metadata write ended OK or FAULT: the device status flags (R9). -/
def metadataFlags (o : OpOutcome) (s : State) : State :=
  match o with
  | .ok => s.modAc (fun a => { a with metaInvalid := false, metaFault := false })
  | .fault => s.modAc (fun a => { a with metaFault := true })

/-! ### Starting and selecting jobs (R104 to R106) -/

/-- A RELOCATE job. -/
def Job.isRelocate : Job → Bool
  | .relocate _ => true
  | .port _ _ => false

/-- The first RELOCATE job of a queue, with the queue without it (R106). -/
def takeRelocate : List Job → Option (Job × List Job)
  | [] => none
  | j :: t =>
    if j.isRelocate then some (j, t)
    else (takeRelocate t).map (fun x => (x.1, j :: x.2))

/-- The next job: a queued RELOCATE job if there is one, otherwise the oldest queued job (R106). -/
def pickJob (q : List Job) : Option (Job × List Job) :=
  match takeRelocate q with
  | some x => some x
  | none =>
    match q with
    | [] => none
    | j :: t => some (j, t)

/-- The running job that a job becomes when it is started: META forms its record (R114), RELOCATE chooses the
lowest-numbered spare of the pool (R118). A RELOCATE with an empty pool does not start; R117 and R122 keep that from
happening (log 25). -/
def startedJob (j : Job) (s : State) : Option Running :=
  match j with
  | .port o (.read l) => some (.read o l 0 false [])
  | .port o (.drain l) => some (.drain o l [] none [])
  | .port o (.clear l) => some (.clear o l [] [])
  | .port o .metadata => some (.metadata o (recordFrom s s.me.remap s.me.retired))
  | .relocate b =>
    match s.me.pool with
    | t :: _ => some (.relocate b t .clearSpare)
    | [] => none

/-- With no job running, the next job leaves the queue and starts; with an empty queue the ME is IDLE, and in LOADING it
starts none (R104, R106). -/
def selectJob (s : State) : State :=
  match s.device, s.me.running with
  | .starting, _ => s
  | .ready, some _ => s
  | .ready, none =>
    match pickJob s.me.queue with
    | none => s
    | some (j, rest) => s.modMe (fun m => { m with queue := rest, running := startedJob j s })

/-- A job enters the queue at the tail; an IDLE ME starts it at once (R105, R106). -/
def enqueueJob (j : Job) (s : State) : State :=
  selectJob (s.modMe (fun m => { m with queue := m.queue ++ [j] }))

/-- The running job has ended, and the ME selects the next (R106). -/
def endRunning (s : State) : State := selectJob (s.modMe (fun m => { m with running := none }))

/-- The issuer's record of the running job, for a port job. -/
def Running.owner? : Running → Option JobOwner
  | .read o _ _ _ _ | .drain o _ _ _ _ | .clear o _ _ _ | .metadata o _ => some o
  | .relocate _ _ _ => none

/-- The issuer's record of a queued job, for a port job. -/
def Job.owner? : Job → Option JobOwner
  | .port o _ => some o
  | .relocate _ => none

/-- Has the port a job at the media engine, queued or running (R82)? -/
def jobAtMe (p : Port) (s : State) : Bool :=
  s.me.queue.any (fun j => decide (j.owner?.map JobOwner.issuer = some p)) ||
    decide ((s.me.running.bind Running.owner?).map JobOwner.issuer = some p)

/-! ### Media events, SPARES_OUT and candidates (R116, R117, R123) -/

/-- The SPARES_OUT rule for a logical block (R123). -/
def sparesOutRule (b : Nat) (s : State) : State :=
  if s.me.pool.isEmpty && !s.me.sparesOut then
    mediaEvent .sparesOut b (s.modMe (fun m => { m with sparesOut := true }))
  else s

/-- A candidate dropped: one RELOC_DROPPED, attributed to no port (R117, R188). -/
def dropCandidate (s : State) : State := countEvent .relocDropped none s

/-- The logical block of the queued RELOCATE job, if one is queued. -/
def queuedRelocate (q : List Job) : Option Nat :=
  match takeRelocate q with
  | some (.relocate b, _) => some b
  | _ => none

/-- A candidate handled by the first matching row of R117's table. -/
def candidate (c : Nat) (s : State) : State :=
  if s.me.pool.isEmpty then sparesOutRule c (dropCandidate s)
  else match queuedRelocate s.me.queue with
    | none => s.modMe (fun m => { m with queue := m.queue ++ [.relocate c] })
    | some b =>
      if b = c then dropCandidate s
      else match s.me.latch with
        | none => s.modMe (fun m => { m with latch := some c })
        | some _ => dropCandidate s

/-- A weak outcome in a logical block: within one job each block is raised at most once (R116). -/
def raiseOnce (raised : List Nat) (b : Nat) (s : State) : State :=
  if raised.contains b then s else candidate b s

/-- The blocks raised after a weak outcome in `b`. -/
def raisedWith (raised : List Nat) (b : Nat) : List Nat := if raised.contains b then raised else raised ++ [b]

/-- The running job replaced by its further progress. -/
def setRunning (r : Running) (s : State) : State := s.modMe (fun m => { m with running := some r })

/-! ### The relocation sequence (R118 to R122) -/

/-- The latched candidate at the end of a RELOCATE job (R122, step 3). -/
def releaseLatch (s : State) : State :=
  match s.me.latch with
  | none => s
  | some c =>
    let s1 := s.modMe (fun m => { m with latch := none })
    if s1.me.pool.isEmpty then sparesOutRule c (dropCandidate s1)
    else s1.modMe (fun m => { m with queue := m.queue ++ [.relocate c] })

/-- The end of a RELOCATE job for `b`: media event, SPARES_OUT rule, latch, next job (R122). -/
def endRelocate (k : MediaKind) (b : Nat) (s : State) : State :=
  endRunning (releaseLatch (sparesOutRule b (mediaEvent k b s)))

/-- A spare moved from the pool to the retired list (R118, R119). -/
def retireSpare (spare : Nat) (s : State) : State :=
  s.modMe (fun m => { m with pool := eraseNat spare m.pool, retired := insertAsc spare m.retired })

/-- The remap table with the entry (b, spare), and the retired list with the spare that it replaces (R120). -/
def remapWith (me : MediaEngine) (b spare : Nat) : List (Nat × Nat) × List Nat :=
  (insertRemap b spare me.remap,
   match me.remap.find? (fun e => decide (e.1 = b)) with
   | some e => insertAsc e.2 me.retired
   | none => me.retired)

/-- The switch: the spare leaves the pool and serves the block, an earlier spare is retired, one RELOCATION (R121). -/
def switchRemap (b spare : Nat) (s : State) : State :=
  countEvent .relocation none
    (s.modMe (fun m => { m with remap := (remapWith m b spare).1, retired := (remapWith m b spare).2,
                                pool := eraseNat spare m.pool }))

/-! ### The running operation's place in the array (log 24) -/

/-- The physical block of the operation in progress, if a job runs. -/
def operationBlock (s : State) : Option Nat :=
  match s.me.running with
  | some (.read _ (n :: _) _ _ _) => some (servingBlock s.me (blockOf n))
  | some (.drain _ (x :: _) _ _ _) => some (servingBlock s.me (blockOf x.sector))
  | some (.clear _ (b :: _) _ _) => some (servingBlock s.me b)
  | some (.metadata _ _) => some Config.metadataBlock
  | some (.relocate _ t .clearSpare) => some t
  | some (.relocate b _ (.copyRead _)) => some (servingBlock s.me b)
  | some (.relocate _ t (.copyProgram _ _)) => some t
  | some (.relocate _ _ (.writeRecord _)) => some Config.metadataBlock
  | _ => none

/-- The operation in progress acts on a block of the array. -/
def operationInArray (s : State) : Bool :=
  match operationBlock s with
  | some b => inArray b
  | none => true

end Sys2Proof.Machine
end

