-- ==== Sys2Proof/Machine/Jobs.lean ====
section
/-! DEFINITION. The port write units' shared operations: staging (R86), the drains a command takes (R87, R94, R97),
holding and issuing its job (R82, R83, R130), the drain-end report (R89, R95, R98), the hold list's re-examination (R152),
each block's teardown (R99, R108, R149, R175); and the requests handed to the lease engine (R24). -/

namespace Sys2Proof.Machine

/-! ### Requests handed to the lease engine (R24) -/

/-- A request of the port handed to the lease engine, where it waits behind those handed before it (R24, R167). -/
def handRequest (p : Port) (r : LeRequest) (s : State) : State :=
  s.modLe (fun x => { x with requests := x.requests.modify p (fun l => l ++ [r]) })

/-- The same, unless that very request waits there already. -/
def handOnce (p : Port) (r : LeRequest) (s : State) : State :=
  if r ∈ s.le.requests.get p then s else handRequest p r s

/-- Is the request a slot command? -/
def LeRequest.isCommand : LeRequest → Bool
  | .command _ => true
  | _ => false

/-- The port's slot command withdrawn from the lease engine, if it has not been taken (R180). R180 withdraws it "with the
rest of the port's requests" and does not name these; R167 and R176 let a block take a port's requests in their order. The
model withdraws the command alone: a drain issue, a drain-end report, a CANCEL and an expiry that wait there are taken in
their order, ahead of the teardown of a port reset (DESIGN CHOICE, log 43). -/
def withdrawCommand (p : Port) (s : State) : State :=
  s.modLe (fun x => { x with requests := x.requests.modify p (fun l => l.filter (fun r => !r.isCommand)) })

/-! ### Staging (R86) -/

/-- The write unit's command replaced. -/
def setCommand (p : Port) (c : Option PwuCommand) (s : State) : State :=
  s.modPwu p (fun u => { u with command := c })

/-- The port holds a STAGED slot for the sector. -/
def WriteUnit.hasStaged (u : WriteUnit) (sector : Nat) : Bool :=
  u.slots.any (fun x => decide (x.sector = sector) && decide (x.state = .staged))

/-- The data of a STAGED slot replaced; the slot keeps its lease id and state (R86). -/
def StagingSlot.merge (x : StagingSlot) (sector : Nat) (data : SectorData) : StagingSlot :=
  if x.sector = sector ∧ x.state = .staged then { x with data := data } else x

/-- A new slot filled in its place. R80 and R85 keep a unit from filling more than 8; the model fills none beyond (log
25). -/
def WriteUnit.fill (u : WriteUnit) (x : StagingSlot) : WriteUnit :=
  if u.slots.length < Config.stagingSlots then { u with slots := insertSlot x u.slots } else u

/-- One sector staged: a STAGED slot overwritten, counting one STAGE_MERGE, or a new STAGED slot filled (R86). -/
def stageSector (p : Port) (s : State) (x : LeasedSector) : State :=
  if (s.pwu.get p).hasStaged x.sector then
    countEvent .stageMerge (some p)
      (s.modPwu p (fun u => { u with slots := u.slots.map (fun y => y.merge x.sector x.data) }))
  else
    s.modPwu p (fun u => u.fill { sector := x.sector, data := x.data, leaseId := x.leaseId, state := .staged })

/-- The leased sectors of a WRITE staged in ascending order (R86). -/
def stageSectors (p : Port) (xs : List LeasedSector) (s : State) : State := xs.foldl (stageSector p) s

/-! ### What a command's job carries -/

/-- Is the command's job a DRAIN (R83)? -/
def PwuAction.isDrain : PwuAction → Bool
  | .write _ _ _ _ _ | .commit _ | .release _ | .downgrade _ => true
  | .read _ _ | .clear _ _ _ | .saveConfig => false

/-- Is the notice unit asked whether the command's job must be held: a DRAIN or a CLEAR (R83)? -/
def PwuAction.asksHold : PwuAction → Bool
  | .read _ _ | .saveConfig => false
  | .write _ _ _ _ _ | .commit _ | .release _ | .downgrade _ | .clear _ _ _ => true

/-- Is the command a WRITE whose plan is a flush (R85, R88)? -/
def PwuAction.isFlush : PwuAction → Bool
  | .write _ _ flush _ _ => flush
  | _ => false

/-- Does the command's drain take this STAGED slot (R87, R94, R97)? -/
def PwuAction.takes (a : PwuAction) (x : StagingSlot) : Bool :=
  decide (x.state = .staged) &&
    (match a with
     | .write _ _ flush _ _ => flush
     | .commit none => true
     | .commit (some id) | .release id | .downgrade id => decide (x.leaseId = id)
     | .read _ _ | .clear _ _ _ | .saveConfig => false)

/-- The open sectors that the command's drain carries from its payload (R87). -/
def PwuAction.openItems : PwuAction → List SectorItem
  | .write _ _ _ _ opens => opens
  | _ => []

/-- The DRAIN job's list: the slots taken and the open sectors, in one ascending list (R87, R94, R97). -/
def drainItems (a : PwuAction) (u : WriteUnit) : List SectorItem :=
  a.openItems.foldl (fun l x => insertItem x l)
    ((u.slots.filter a.takes).map (fun x => { sector := x.sector, data := x.data }))

/-- The kind and the sectors that the hold check is given, for a DRAIN or CLEAR job (R83, R130, R150). -/
def holdQuestion (a : PwuAction) (u : WriteUnit) : Option (ChangeKind × List Range) :=
  match a with
  | .clear blocks _ _ => some (.cleared, blocks.map blockRange)
  | .read _ _ | .saveConfig => none
  | .write _ _ _ _ _ | .commit _ | .release _ | .downgrade _ =>
    some (.committed, (drainItems a u).map (fun x => Range.single x.sector))

/-! ### The drain-end report (R89, R95, R97, R98) -/

/-- The lease id that a LEASE_LOST completion carries: the broken lease's (R78); of several, a free choice (log 16). -/
def lostLease (serial : Nat) (broken : List Nat) : Option Nat :=
  match broken with
  | [] => none
  | [id] => some id
  | id :: more => some ((id :: more).getD (Config.brokenChoice serial (id :: more) % (more.length + 1)) id)

/-- Are all the leases that cover a WRITE's leased sectors still live: HELD leases of the port (R89)? -/
def leasesLive (p : Port) (xs : List LeasedSector) (s : State) : Bool :=
  xs.all (fun x => match findLease s x.leaseId with
    | some l => decide (l.holder = p) && decide (l.state = .held)
    | none => false)

/-- Does a WRITE stage its leased sectors at its drain's end: the command still in flight at its port, none of its leases
broken, all of them live (R78, R89)? A WRITE whose port was reset or fenced is abandoned at once (R175, R181) and stages
nothing (R90), whatever lease its ids name by then. -/
def stagesAtEnd (p : Port) (c : PwuCommand) (leased : List LeasedSector) (s : State) : Bool :=
  (s.plu.get p).holdsCommand c.serial && c.broken.isEmpty && leasesLive p leased s

/-- The lease engine's step for the command whose drain has ended: a WRITE's sectors staged (R89), a DOWNGRADE's mode
changed and renewed (R32); a broken lease's command does neither (R78). A DOWNGRADE whose hold has ended and that a port
reset or a FENCE has abandoned can still come here, while the write unit has not taken its teardown, after its lease has
ended and its STAGED slots are gone; no rule says what it does then. The model makes no lease SHARED, unless the id names a
HELD lease of the port, a new one (DESIGN CHOICE, log 45). The flag says that a lease's mode changed to SHARED. -/
def drainEndEffect (p : Port) (c : PwuCommand) (s : State) : State × Bool :=
  match c.action with
  | .write _ _ _ leased _ => (if stagesAtEnd p c leased s then stageSectors p leased s else s, false)
  | .downgrade id =>
    match findLease s id with
    | some l =>
      if c.broken.isEmpty ∧ l.holder = p ∧ l.state = .held then (renewLease id (setLeaseMode id .shared s), true)
      else (s, false)
    | none => (s, false)
  | _ => (s, false)

/-- The completion of a command whose DRAIN job has ended (R32, R37, R78, R89, R95). `staged` says that the WRITE staged
at least one sector. -/
def drainCompletion (c : PwuCommand) (r : DrainReport) (staged : Bool) : Completion :=
  let lost := !c.broken.isEmpty
  let named : Option Nat := match c.action with
    | .commit id => id
    | .release id | .downgrade id => some id
    | _ => none
  let okStatus : Status := match c.action with
    | .write _ true _ _ _ => .overflow
    | _ => .done
  let lastOk : Option Nat := match c.action with
    | .write kept _ _ _ _ => some kept.last
    | _ => none
  let countOk : Nat := match c.action with
    | .write kept _ _ _ _ => kept.count
    | _ => r.okCount
  { status := if lost then .leaseLost else if r.firstFault.isSome then .writeFault else okStatus,
    flags := { staged := staged, flushed := c.action.isFlush, holdExpired := c.holdExpired },
    leaseId := if lost then lostLease c.serial c.broken else named,
    lastSector := match r.firstFault with
      | some n => some n
      | none => lastOk,
    count := if r.firstFault.isSome then r.okCount else countOk,
    detail := match c.action with
      | .release _ => if lost then [] else byteItem 0
      | _ => [] }

/-- The ENDING leases of a port that have no DRAINING slot left (R98), in ascending slot order, the order in which the
model removes them: the spec gives none when one report frees several (DESIGN CHOICE, log 39). -/
def drainedLeases (p : Port) (s : State) : List Nat :=
  (endingLeases p s).filter (fun id => !(s.pwu.get p).drainingUnder id)

/-- The command at the write unit whose issued drain this report ends, if the unit still holds it. -/
def reportedCommand (u : WriteUnit) (r : DrainReport) : Option PwuCommand :=
  u.command.filter (fun c => decide (c.serial = r.serial) && decide (c.stage = .issued))

/-- The lease engine takes a drain's end report as one request: the command's step, the ENDING leases removed that no
DRAINING slot keeps, the command's completion, the grant scan if a lease was removed or made SHARED (R32, R37, R41, R50,
R89, R95, R98). -/
def drainEnd (p : Port) (r : DrainReport) (s : State) : State :=
  let command := reportedCommand (s.pwu.get p) r
  let s1 := s.modPwu p (fun u => { u with drained := [] })
  let effect := match command with
    | some c => drainEndEffect p c s1
    | none => (s1, false)
  let gone := drainedLeases p effect.1
  let s2 := removeLeases gone effect.1
  let s3 := match command with
    | some c =>
      let staged := match c.action with
        | .write _ _ _ leased _ => !leased.isEmpty && stagesAtEnd p c leased s1
        | _ => false
      complete p c.serial (drainCompletion c r staged) (setCommand p none s2)
    | none => s2
  grantScanIf (!gone.isEmpty || effect.2) s3

/-! ### Issuing and holding (R82, R83, R130) -/

/-- The job's owner for a command of port `p`: a job enters the queue not abandoned (R105). -/
def ownerOf (p : Port) (c : PwuCommand) : JobOwner := { issuer := p, serial := c.serial, abandoned := false }

/-- A DRAIN job issued within the lease engine's request: the slots taken become DRAINING, a RELEASE's lease becomes
ENDING (R37, R83). When no slot and no open sector is left to drain, the drain is over at once (log 20). A RELEASE whose
hold has ended and that a port reset or a FENCE has abandoned can still come here, while the write unit has not taken its
teardown, after its lease has ended and its STAGED slots are gone; no rule says what it does then. The model then makes no
lease ENDING, unless the id names a HELD lease of the port (DESIGN CHOICE, log 45). -/
def issueDrain (p : Port) (c : PwuCommand) (s : State) : State :=
  let items := drainItems c.action (s.pwu.get p)
  let s1 := s.modPwu p (fun u =>
    { u with slots := u.slots.map (fun x => if c.action.takes x then { x with state := .draining } else x),
             command := some { c with stage := .issued } })
  let s2 := match c.action with
    | .release id =>
      if items.isEmpty && (ownHeldLease p id s1).isNone then s1 else setLeaseEnding id .released s1
    | _ => s1
  if items.isEmpty then drainEnd p { serial := c.serial, okCount := 0, firstFault := none } s2
  else enqueueJob (.port (ownerOf p c) (.drain items)) s2

/-- The STAGED slots whose sectors lie in a CLEAR's whole blocks discarded at the issue of its job (R130). -/
def discardInBlocks (blocks : List Nat) (u : WriteUnit) : WriteUnit :=
  { u with slots := u.slots.filter (fun x => !(decide (x.state = .staged) && blocks.contains (blockOf x.sector))) }

/-- The command's job issued (R83, R91, R114, R130). -/
def issueJob (p : Port) (c : PwuCommand) (s : State) : State :=
  match c.action with
  | .read _ remaining =>
    enqueueJob (.port (ownerOf p c) (.read remaining)) (setCommand p (some { c with stage := .issued }) s)
  | .clear blocks _ _ =>
    enqueueJob (.port (ownerOf p c) (.clear blocks))
      ((setCommand p (some { c with stage := .issued }) s).modPwu p (discardInBlocks blocks))
  | .saveConfig =>
    enqueueJob (.port (ownerOf p c) .metadata) (setCommand p (some { c with stage := .issued }) s)
  | .write _ _ _ _ _ | .commit _ | .release _ | .downgrade _ => issueDrain p c s

/-- The hold check, and then the hold list or the job's issue (R83, R150, R151). -/
def holdOrIssue (p : Port) (c : PwuCommand) (s : State) : State :=
  match holdQuestion c.action (s.pwu.get p) with
  | none => issueJob p c s
  | some (k, changed) =>
    if blocked p k changed s then
      setSlot p c.serial .held
        ((setCommand p (some { c with stage := .onHold }) s).setHoldList
          (s.holdList ++ [{ port := p, kind := k, sectors := changed, holdMs := s.ac.holdLimit, serial := c.serial }]))
    else issueJob p c s

/-- A command that is ready to issue a job waits while an earlier job of its port is at the media engine (R82). It also
waits while a teardown of its port waits at the write unit, the media engine or, for a job whose hold is asked, the notice
unit: a command sent after a port reset is taken behind these (R176; log 35), and while the write unit's own teardown waits
its command is one sent before it, which that teardown drops with no job issued (R18, R99). -/
def jobWaits (p : Port) (c : PwuCommand) (s : State) : Bool :=
  let t := s.teardown.get p
  jobAtMe p s || t.pwu || t.me || (c.action.asksHold && t.nu)

/-- A command accepted by the write unit, within the request that accepts it: it waits for the port's earlier job, or goes
on to its hold check and issue (R82, R83). -/
def startCommand (p : Port) (c : PwuCommand) (s : State) : State :=
  if jobWaits p c s then setCommand p (some c) s else holdOrIssue p c (setCommand p (some c) s)

/-- The lease engine takes the request to issue a drain: the hold check and the issue for a command that waited for an
earlier job, unless a teardown has come meanwhile; the issue for one whose hold has ended; nothing, if the command has gone
(R83, R99). -/
def takeIssue (p : Port) (serial : Nat) (s : State) : State :=
  match (s.pwu.get p).command.filter (fun c => decide (c.serial = serial)) with
  | none => s
  | some c =>
    match c.stage with
    | .waiting => if jobWaits p c s then s else holdOrIssue p c s
    | .holdEnded => issueJob p c s
    | .onHold | .issued => s

/-- The hold of a port's command has ended, at its deadline or not: the slot becomes BUSY, and the job is to be issued
(R83, R152, R153). -/
def endHold (p : Port) (serial : Nat) (expired : Bool) (s : State) : State :=
  match (s.pwu.get p).command with
  | none => s
  | some c =>
    if c.serial = serial ∧ c.stage = .onHold then
      setSlot p serial .busy (setCommand p (some { c with stage := .holdEnded, holdExpired := expired }) s)
    else s

/-- The port's command of this number, if its hold has ended and its job is not yet issued. -/
def endedCommand (p : Port) (serial : Nat) (s : State) : Option PwuCommand :=
  (s.pwu.get p).command.filter (fun c => decide (c.serial = serial) && decide (c.stage = .holdEnded))

/-- The jobs that one event released go on in the order of their release, as far as they can: a command that has gone is
skipped, a CLEAR's job is issued at once, and for a DRAIN its request to be issued is handed to the lease engine, once; those
behind a DRAIN go on when it has been issued, so that the jobs reach the media engine in the list's order, whatever order the
lease engine's round-robin has (R24, R83, R152; how long a DRAIN's request is kept from the lease engine is the model's
choice, log 42). Those that are left stand first. -/
def issueInOrder : List (Port × Nat) → State → List (Port × Nat) × State
  | [], s => ([], s)
  | (p, n) :: t, s =>
    match endedCommand p n s with
    | none => issueInOrder t s
    | some c => if c.action.isDrain then ((p, n) :: t, handOnce p (.issue n) s) else issueInOrder t (issueJob p c s)

/-- The same for each event by itself: R152 orders the jobs of one event, and no job waits for one of another event. `kept`
are the lists that earlier events leave. -/
def issueEach (kept : List (List (Port × Nat))) : List (List (Port × Nat)) → State → State
  | [], s => s.setReleased kept
  | l :: t, s =>
    let r := issueInOrder l s
    issueEach (if r.1.isEmpty then kept else kept ++ [r.1]) t r.2

/-- The jobs of the released commands go on, as far as they can (R83, R152). -/
def issueReleased (s : State) : State := issueEach [] s.released s

/-- What a re-examination releases noted as one event's list, if it released anything (R152). -/
def noteReleased (l : List (Port × Nat)) (s : State) : State :=
  if l.isEmpty then s else s.setReleased (s.released ++ [l])

/-- The re-examination of the hold list, oldest entry first: `kept` are the earlier entries that stay, `gone` the commands
released so far (R152). -/
def reexamineFrom (kept : List HoldEntry) (gone : List (Port × Nat)) : List HoldEntry → State → State
  | [], s => noteReleased gone (s.setHoldList kept)
  | e :: t, s =>
    if blocked e.port e.kind e.sectors s then reexamineFrom (kept ++ [e]) gone t s
    else reexamineFrom kept (gone ++ [(e.port, e.serial)]) t (endHold e.port e.serial false s)

/-- The hold list re-examined (R152). -/
def reexamine (s : State) : State := reexamineFrom [] [] s.holdList s

/-- The port's entry taken off the hold list (R149, R153, R154). -/
def dropHold (p : Port) (s : State) : State := s.setHoldList (s.holdList.filter (fun e => decide (e.port ≠ p)))

/-! ### Teardowns (R99, R108, R149, R175, R176) -/

/-- The port link unit's part of a port reset (R175): the command in flight abandoned, with what of it still waits
(R180); record, buffer, mask, REJECTED and counters at their reset values. -/
def Plu.portReset (u : Plu) : Plu :=
  { u with slot := .idle, record := none, resultReady := false, buffer := emptyBuffer, valid := 0,
           mask := Config.defaultMask, rejected := false, counter0 := Counter.reset, counter1 := Counter.reset,
           waiting := none }

/-- The write unit's teardown: command and payload dropped, STAGED slots discarded, DRAINING slots kept, pending clear
range dropped (R99). -/
def WriteUnit.teardown (u : WriteUnit) : WriteUnit :=
  { u with slots := u.slots.filter (fun x => decide (x.state = .draining)), pendingClear := none, command := none }

/-- A queued job after its port's teardown: READ, CLEAR and META are withdrawn, a DRAIN is marked abandoned (R108). -/
def Job.tornDown (p : Port) (j : Job) : Option Job :=
  match j with
  | .relocate b => some (.relocate b)
  | .port o w =>
    if o.issuer = p then
      match w with
      | .drain l => some (.port { o with abandoned := true } (.drain l))
      | .read _ | .clear _ | .metadata => none
    else some (.port o w)

/-- The owner marked abandoned if it is the port's (R108). -/
def JobOwner.abandonIf (p : Port) (o : JobOwner) : JobOwner :=
  if o.issuer = p then { o with abandoned := true } else o

/-- The running job after its port's teardown: it runs on, marked abandoned (R108). -/
def Running.tornDown (p : Port) : Running → Running
  | .read o l n c r => .read (o.abandonIf p) l n c r
  | .drain o l d f r => .drain (o.abandonIf p) l d f r
  | .clear o l d r => .clear (o.abandonIf p) l d r
  | .metadata o r => .metadata (o.abandonIf p) r
  | .relocate b t st => .relocate b t st

/-- The media engine's teardown of a port (R108). -/
def MediaEngine.teardown (p : Port) (m : MediaEngine) : MediaEngine :=
  { m with queue := m.queue.filterMap (Job.tornDown p), running := m.running.map (Running.tornDown p) }

/-- What the write unit's teardown of a port does at the media engine: a READ, CLEAR or META job of the port that has not
started is withdrawn, any other job of it runs on, abandoned (R18, R99, R108). Where the media engine has yet to take its own
teardown, that does it. Where it has taken it, a job of the port is an abandoned one or one of a held command whose hold
ended between the two teardowns: R183 has that job issued and run on, abandoned, and no rule says when it is marked or
withdrawn; the model does so here (DESIGN CHOICE, log 48). -/
def withdrawJobs (p : Port) (s : State) : State :=
  if (s.teardown.get p).me then s else s.modMe (MediaEngine.teardown p)

/-- The notice unit's teardown of a port (R149): its table, queue, overrun flag, levels and state at their reset values,
its own hold entry removed, the hold list re-examined. -/
def noticeTeardown (p : Port) (s : State) : State :=
  reexamine (dropHold p (s.modNu p (fun _ => NuPort.reset)))

/-- Have the four blocks of R182 taken the port's teardowns? -/
def Teardowns.fourTaken (t : Teardowns) : Bool := !t.pwu && !t.me && !t.nu && !t.swb

/-- FENCE's detail: target, command abandoned, leases ended, leases ENDING (R182). -/
def FenceRecord.detail (f : FenceRecord) : List Byte :=
  byteItem f.target.num ++ boolItem f.abandoned ++ byteItem f.ended ++ byteItem f.ending

/-- Every FENCE whose target's teardowns have been taken completes to the supervisor port (R182). -/
def finishFences (s : State) : State :=
  let ended := s.le.fences.filter (fun f => (s.teardown.get f.target).fourTaken)
  let left := s.le.fences.filter (fun f => !(s.teardown.get f.target).fourTaken)
  ended.foldl (fun t f => complete s.ac.supervisor f.serial { status := .done, detail := f.detail } t)
    (s.modLe (fun x => { x with fences := left }))

end Sys2Proof.Machine
end

