-- ==== Sys2Proof/Machine/LeaseCommands.lean ====
section
/-! DEFINITION. What the lease engine does when it takes a lease command: ACQUIRE, UPGRADE, DOWNGRADE, RENEW, RELEASE,
QUERY LEASE (chapter 2) and BREAK (section 4.5). -/

namespace Sys2Proof.Machine

/-- The supervisor check, before every other check of the command (R13). -/
def asSupervisor (p : Port) (command : State → State) (s : State) : State :=
  if p = s.ac.supervisor then command s else finish p { status := .notSupervisor } s

/-- The lowest-slot lease of this port, HELD or ENDING, that overlaps a range (R27). -/
def ownOverlap (p : Port) (r : Range) (s : State) : Option Nat :=
  ((leases s).find? (fun x => decide (x.2.holder = p) && x.2.range.overlaps r)).map Prod.fst

/-- Wait units are 10 ms (R27). -/
def waitLength (wait : Byte) : Nat := 10 * wait.toNat

/-- ACQUIRE with a range and a mode: checks 2 to 5 of R27, then the judgement of R28. -/
def acquireChecked (p : Port) (r : Range) (m : LeaseMode) (wait : Byte) (s : State) : State :=
  match requestCheck p (decide (m = .exclusive)) r s with
  | some (st, n) => finish p { status := st, lastSector := some n } s
  | none =>
    match ownOverlap p r s with
    | some id => finish p { status := .overlapSelf, detail := byteItem id } s
    | none =>
      if s.ac.quota ≤ leaseCount p s then
        countEvent .refuse (some p)
          (finish p { status := .quota, detail := byteItem (leaseCount p s) ++ byteItem s.ac.quota } s)
      else if Config.leaseSlots ≤ occupancy s then
        countEvent .refuse (some p) (finish p { status := .tableFull } s)
      else
        judge { port := p, kind := .acquire, range := r, mode := m, waitMs := waitLength wait,
                serial := (s.plu.get p).serial } s

/-- ACQUIRE taken by the lease engine (R27, R28). -/
def takeAcquire (p : Port) (first count : Word16) (mode wait : Byte) (s : State) : State :=
  let r : Range := { first := first.toNat, count := count.toNat }
  match leaseModeOf mode with
  | some m => if r.inBounds then acquireChecked p r m wait s else finish p { status := .badParam } s
  | none => finish p { status := .badParam } s

/-- The lease id of an UPGRADE refused by the region check: the named id for DENIED, as UPGRADE's own rule says (R29): R169
gives a completion its lease id "as the command's rule gives", and so R6's "no lease id" does not hold for it (DEDUCED, log
36). OPEN_REGION, which R29 excludes, carries none (R6). -/
def refusedUpgradeId (named : Nat) (st : Status) : Option Nat := if st = .denied then some named else none

/-- UPGRADE taken by the lease engine (R6, R29, R30). -/
def takeUpgrade (p : Port) (id wait : Byte) (s : State) : State :=
  let n := id.toNat
  match ownHeldLease p n s with
  | none => finish p { status := .noLease } s
  | some l =>
    if l.mode = .exclusive then finish p { status := .badParam, leaseId := some n } s
    else match requestCheck p true l.range s with
      | some (st, sector) =>
        finish p { status := st, leaseId := refusedUpgradeId n st, lastSector := some sector } s
      | none =>
        judge { port := p, kind := .upgrade n, range := l.range, mode := .exclusive, waitMs := waitLength wait,
                serial := (s.plu.get p).serial } s

/-- DOWNGRADE taken by the lease engine: at once, or after draining its STAGED slots (R31, R32). -/
def takeDowngrade (p : Port) (id : Byte) (s : State) : State :=
  let n := id.toNat
  match ownHeldLease p n s with
  | none => finish p { status := .noLease } s
  | some l =>
    if l.mode = .shared then finish p { status := .badParam, leaseId := some n } s
    else
      let s1 := s.modPwu p (fun u => u.dropPending l.range)
      if (s.pwu.get p).stagedCount n = 0 then
        grantScan (finish p { status := .done, leaseId := some n } (renewLease n (setLeaseMode n .shared s1)))
      else
        startCommand p { serial := (s.plu.get p).serial, action := .downgrade n, bound := [n], stage := .waiting,
                         holdExpired := false, broken := [] } s1

/-- RENEW of one lease taken by the lease engine (R34). -/
def takeRenew (p : Port) (id : Byte) (s : State) : State :=
  match ownHeldLease p id.toNat s with
  | none => finish p { status := .noLease } s
  | some _ => finish p { status := .done, leaseId := some id.toNat, count := 1 } (renewLease id.toNat s)

/-- RENEW ALL taken by the lease engine (R34). -/
def takeRenewAll (p : Port) (s : State) : State :=
  finish p { status := .done, count := (heldLeases p s).length } (renewLeases (heldLeases p s) s)

/-- RELEASE taken by the lease engine: removed at once, with its STAGED slots discarded if the flag is set, or after
draining them (R36, R37, R41). -/
def takeRelease (p : Port) (id discard : Byte) (s : State) : State :=
  let n := id.toNat
  match ownHeldLease p n s with
  | none => finish p { status := .noLease } s
  | some l =>
    let s1 := s.modPwu p (fun u => u.dropPending l.range)
    let staged := (s.pwu.get p).stagedCount n
    if yes discard then
      grantScan (finish p { status := .done, leaseId := some n, detail := byteItem staged }
        (removeLease n (s1.modPwu p (fun u => u.discardStaged n))))
    else if staged = 0 then
      grantScan (finish p { status := .done, leaseId := some n, detail := byteItem 0 } (removeLease n s1))
    else
      startCommand p { serial := (s.plu.get p).serial, action := .release n, bound := [n], stage := .waiting,
                       holdExpired := false, broken := [] } s1

/-- QUERY LEASE's detail (R35). -/
def queryLeaseDetail (l : Lease) (s : State) : List Byte :=
  byteItem l.holder.num ++ byteItem l.mode.code ++ byteItem l.state.code ++ byteItem? l.state.causeCode? ++
    wordItem l.first ++ byteItem l.stamp.toNat ++ byteItem (leaseAge s l).toNat

/-- QUERY LEASE taken by the lease engine (R35). -/
def takeQueryLease (p : Port) (id : Byte) (s : State) : State :=
  match findLease s id.toNat with
  | none => finish p { status := .noLease } s
  | some l =>
    finish p { status := .done, leaseId := some id.toNat, lastSector := some l.range.last, count := l.count,
               detail := queryLeaseDetail l s } s

/-! ### BREAK (R75 to R78) -/

/-- The UPGRADE of this lease in the wait queue, if one is parked (R58): an entry that its port's reset has not yet removed
here (R176) is one too. -/
def upgradeOf (id : Nat) (s : State) : Option WaitEntry := s.le.queue.find? (fun e => decide (e.kind = .upgrade id))

/-- Is the parked entry's command still in flight at its port (R78)? -/
def WaitEntry.inFlight (e : WaitEntry) (s : State) : Bool := (s.plu.get e.port).holdsCommand e.serial

/-- The write unit's command of the holder, if it is bound to the lease and in flight (R76): a break touches no command of a
holder whose slot is IDLE (R78). A RELEASE, DOWNGRADE, COMMIT, COMMIT ALL or UPGRADE for the lease that its port has
accepted and the lease engine has not taken, since a sweep or a teardown is ahead of it, is not bound: R76's "naming it" and
R79's "not yet issued" could mean it as well, but R77 tells only of a command that the write unit has accepted. It is taken
later and finds the lease gone (DESIGN CHOICE, log 49). -/
def boundCommand (holder : Port) (id : Nat) (s : State) : Option PwuCommand :=
  (s.pwu.get holder).command.filter (fun c => c.bound.contains id && (s.plu.get holder).holdsCommand c.serial)

/-- The completion that a break gives a command at once (R58, R77); `flush` says that it is a WRITE whose plan was a flush,
which carries FLUSHED whatever its status (R88). -/
def lostAtOnce (id : Nat) (flush : Bool) : Completion :=
  { status := .leaseLost, flags := { flushed := flush }, leaseId := some id }

/-- A bound command is dealt with according to where it stands: not issued, it completes LEASE_LOST at once and leaves
the hold list (R77); issued, it is marked, and its job runs on (R78). -/
def breakCommand (holder : Port) (id : Nat) (c : PwuCommand) (s : State) : State :=
  if c.stage = .issued then setCommand holder (some { c with broken := c.broken ++ [id] }) s
  else complete holder c.serial (lostAtOnce id c.action.isFlush) (dropHold holder (setCommand holder none s))

/-- BREAK's detail: holder, REMOVED or ENDING, STAGED slots discarded, whether a command was bound (R75). -/
def breakDetail (l : Lease) (ending : Bool) (discarded : Nat) (bound : Bool) : List Byte :=
  byteItem l.holder.num ++ byteItem (if ending then 1 else 0) ++ byteItem discarded ++ boolItem bound

/-- A lease broken in one request of port `p` (R58, R75 to R78): a parked UPGRADE's entry removed first, the lease ended
BROKEN, the bound command dealt with, BREAK completed, one grant scan. The UPGRADE of a port that was reset meanwhile
leaves the queue as well; its slot is IDLE, so it is no command in flight and its completion is discarded (R78, R168). -/
def breakLease (p : Port) (id : Nat) (l : Lease) (s : State) : State :=
  let parked := upgradeOf id s
  let bound := boundCommand l.holder id s
  let ending := (s.pwu.get l.holder).drainingUnder id
  let discarded := (s.pwu.get l.holder).stagedCount id
  let s1 := match parked with
    | some e => s.modLe (fun x => { x with queue := x.queue.filter (fun f => decide (f ≠ e)) })
    | none => s
  let s2 := endLease id .broken s1
  let s3 := match parked with
    | some e => complete e.port e.serial (lostAtOnce id false) s2
    | none => s2
  let s4 := match bound with
    | some c => breakCommand l.holder id c s3
    | none => s3
  grantScan (finish p
    { status := .done, leaseId := some id, lastSector := some l.range.last, count := l.count,
      detail := breakDetail l ending discarded (parked.any (fun e => e.inFlight s) || bound.isSome) } s4)

/-- BREAK taken by the lease engine (R75). -/
def takeBreak (p : Port) (id : Byte) (s : State) : State :=
  asSupervisor p (fun s =>
    match (findLease s id.toNat).filter (fun l => decide (l.state = .held)) with
    | none => finish p { status := .noLease, leaseId := some id.toNat } s
    | some l => breakLease p id.toNat l s) s

end Sys2Proof.Machine
end

