-- ==== Sys2Proof/Machine/WriteCommands.lean ====
section
/-! DEFINITION. What the port write unit does when it takes a data command, with the lease engine's coverage check in the
same request: READ, WRITE, COMMIT, COMMIT ALL (chapter 5), CLEAR (chapter 7); and QUERY SECTOR (R19). -/

namespace Sys2Proof.Machine

/-- A refusal of R5: the lowest failing sector as last sector, a count of 0. -/
def refuseData (p : Port) (st : Status) (n : Nat) (s : State) : State :=
  finish p { status := st, lastSector := some n } s

/-! ### READ (R91) -/

/-- The read buffer with the STAGED slots of the range copied to their positions: position i holds sector first + i
(R91). -/
def copyStaged (u : WriteUnit) (r : Range) (buffer : List SectorData) : List SectorData :=
  (u.slots.filter (fun x => decide (x.state = .staged) && r.contains x.sector)).foldl
    (fun b x => b.set (x.sector - r.first) x.data) buffer

/-- The sectors of the range that the port holds in no STAGED slot (R91). -/
def unstagedSectors (u : WriteUnit) (r : Range) : List Nat := r.sectors.filter (fun n => !u.hasStaged n)

/-- An accepted READ: leases renewed, buffer emptied, staged sectors copied, and a READ job for the rest, or none (R71,
R91). -/
def acceptRead (p : Port) (r : Range) (s : State) : State :=
  let u := s.pwu.get p
  let bound := coveringLeases p false r s
  let s1 := (renewLeases bound s).modPlu p (fun l => { l with buffer := copyStaged u r emptyBuffer, valid := 0 })
  let remaining := unstagedSectors u r
  if remaining.isEmpty then
    completeRead p (s.plu.get p).serial
      { status := .done, flags := { staged := true }, lastSector := some r.last, count := r.count } s1
  else
    startCommand p { serial := (s.plu.get p).serial, action := .read r remaining, bound := bound, stage := .waiting,
                     holdExpired := false, broken := [] } s1

/-- READ's parameters are in range: a count of 1 to 4 and no sector above 32767 (R91). -/
def readParams (first : Word16) (count : Byte) : Bool :=
  Range.inBounds { first := first.toNat, count := count.toNat } && decide (count.toNat ≤ 4)

/-- READ taken by the write unit (R91). -/
def takeRead (p : Port) (first : Word16) (count : Byte) (s : State) : State :=
  let r : Range := { first := first.toNat, count := count.toNat }
  if readParams first count then
    match dataCheck p false r s with
    | some (st, n) => refuseData p st n s
    | none => acceptRead p r s
  else finish p { status := .badParam } s

/-! ### WRITE (R84 to R88) -/

/-- A WRITE's sectors with their data, ascending (R84). -/
def writeItems (r : Range) (payload : List Byte) : List SectorItem :=
  (List.range r.count).map (fun i => { sector := r.first + i, data := payloadSector payload i })

/-- The leased sectors of a WRITE, with the covering lease of each (R84). -/
def leasedItems (p : Port) (items : List SectorItem) (s : State) : List LeasedSector :=
  items.filterMap (fun x =>
    if inMode .leased s x.sector then
      (coveringLease p true s x.sector).map (fun id => { sector := x.sector, data := x.data, leaseId := id })
    else none)

/-- The open sectors of a WRITE (R84). -/
def openItemsOf (items : List SectorItem) (s : State) : List SectorItem :=
  items.filter (fun x => inMode .opened s x.sector)

/-- The number of leased sectors for which the port holds no STAGED slot (R85). -/
def newSlots (u : WriteUnit) (leased : List LeasedSector) : Nat :=
  (leased.filter (fun x => !u.hasStaged x.sector)).length

/-- 8 minus the slots held, STAGED and DRAINING together (R85). -/
def freeSlots (u : WriteUnit) : Nat := Config.stagingSlots - u.slots.length

/-- An accepted WRITE: leases renewed, pending clear range dropped; staged at once, or a DRAIN job of its open sectors or a
flush (R84, R85, R86). -/
def acceptWrite (p : Port) (kept : Range) (overflow : Bool) (payload : List Byte) (s : State) : State :=
  let bound := coveringLeases p true kept s
  let items := writeItems kept payload
  let leased := leasedItems p items s
  let opens := openItemsOf items s
  let s1 := (renewLeases bound s).modPwu p (fun u => { u with pendingClear := none })
  let flush := decide (freeSlots (s.pwu.get p) < newSlots (s.pwu.get p) leased)
  if opens.isEmpty && !flush then
    finish p { status := if overflow then .overflow else .done, flags := { staged := true },
               lastSector := some kept.last, count := kept.count } (stageSectors p leased s1)
  else
    startCommand p { serial := (s.plu.get p).serial, action := .write kept overflow flush leased opens, bound := bound,
                     stage := .waiting, holdExpired := false, broken := [] } s1

/-- WRITE's parameters are in range: a count of 1 to 4 and a first sector of 32767 or less; a range that goes on past it is
truncated (R1, R84). -/
def writeParams (first : Word16) (count : Byte) : Bool :=
  decide (1 ≤ count.toNat) && decide (count.toNat ≤ 4) && decide (first.toNat < Config.userSectors)

/-- WRITE taken by the write unit (R1, R84). -/
def takeWrite (p : Port) (first : Word16) (count : Byte) (payload : List Byte) (s : State) : State :=
  if writeParams first count then
    let (kept, overflow) := truncateRange { first := first.toNat, count := count.toNat }
    match dataCheck p true kept s with
    | some (st, n) => refuseData p st n s
    | none => acceptWrite p kept overflow payload s
  else finish p { status := .badParam } s

/-! ### COMMIT (R94) -/

/-- The leases under which a write unit's STAGED slots lie, each once. -/
def stagedLeases (u : WriteUnit) : List Nat :=
  ((u.slots.filter (fun x => decide (x.state = .staged))).map (fun x => x.leaseId)).dedup

/-- A COMMIT accepted and its leases renewed: with no slot to take it completes at once, otherwise it drains them (R72,
R94). -/
def acceptCommit (p : Port) (id : Option Nat) (taken : List Nat) (s : State) : State :=
  if ((s.pwu.get p).slots.filter (PwuAction.commit id).takes).isEmpty then
    finish p { status := .done, leaseId := id } s
  else
    startCommand p { serial := (s.plu.get p).serial, action := .commit id, bound := taken, stage := .waiting,
                     holdExpired := false, broken := [] } s

/-- COMMIT of one lease taken by the write unit (R94). -/
def takeCommit (p : Port) (id : Byte) (s : State) : State :=
  match ownHeldLease p id.toNat s with
  | none => finish p { status := .noLease } s
  | some _ => acceptCommit p (some id.toNat) [id.toNat] (renewLease id.toNat s)

/-- COMMIT ALL taken by the write unit: it renews every HELD lease of the port with a STAGED slot (R72, R94). -/
def takeCommitAll (p : Port) (s : State) : State :=
  let taken := stagedLeases (s.pwu.get p)
  acceptCommit p none taken (renewLeases ((heldLeases p s).filter (fun id => taken.contains id)) s)

/-! ### CLEAR (R125 to R130) -/

/-- The leases that a CLEAR is bound to: those of the coverage answer, and the HELD EXCLUSIVE leases of the port that cover
a sector of its whole blocks outside the command range (R126). -/
def clearBound (p : Port) (cmd : Range) (blocks : List Nat) (s : State) : List Nat :=
  let named := coveringLeases p true cmd s
  let outside := ((leases s).filter (fun x =>
    blocks.any (fun b => (blockRange b).sectors.any (fun n => x.2.covers p true n && !cmd.contains n)))).map Prod.fst
  (named ++ outside).dedup

/-- The detail that gives a pending clear range, first and count (R129); nothing where there is none (log 18). -/
def pendingDetail : Option Range → List Byte
  | some q => wordItem q.first ++ wordItem q.count
  | none => []

/-- An accepted CLEAR: leases renewed, effective range formed, pending range set; with no whole block it completes, else
its job is started (R71, R126 to R130). -/
def acceptClear (p : Port) (cmd : Range) (overflow : Bool) (s : State) : State :=
  let eff := effectiveRange cmd (s.pwu.get p).pendingClear
  let blocks := wholeBlocks eff
  let formed := pendingAfter eff
  let s1 := (renewLeases (coveringLeases p true cmd s) s).modPwu p (fun u => { u with pendingClear := formed })
  if blocks.isEmpty then
    finish p { status := if overflow then .overflow else .done, flags := { pending := true },
               detail := pendingDetail formed } s1
  else
    startCommand p { serial := (s.plu.get p).serial, action := .clear blocks overflow formed,
                     bound := clearBound p cmd blocks s, stage := .waiting, holdExpired := false, broken := [] } s1

/-- CLEAR's parameters are in range: a count of 1 to 32768 and a first sector of 32767 or less; a range that goes on past
it is truncated (R1, R125). -/
def clearParams (first count : Word16) : Bool :=
  decide (1 ≤ count.toNat) && decide (count.toNat ≤ Config.userSectors) && decide (first.toNat < Config.userSectors)

/-- CLEAR taken by the write unit (R1, R125, R126). -/
def takeClear (p : Port) (first count : Word16) (s : State) : State :=
  if clearParams first count then
    let (cmd, overflow) := truncateRange { first := first.toNat, count := count.toNat }
    match dataCheck p true cmd s with
    | some (st, n) => refuseData p st n s
    | none => acceptClear p cmd overflow s
  else finish p { status := .badParam } s

/-! ### QUERY SECTOR (R19) -/

/-- The lease that QUERY SECTOR reports: this port's own lease containing the sector if it has one, otherwise the
lowest-slot such lease (R19). -/
def reportedLease (p : Port) (sector : Nat) (s : State) : Option (Nat × Lease) :=
  match (leases s).find? (fun x => decide (x.2.holder = p) && x.2.range.contains sector) with
  | some x => some x
  | none => (leases s).find? (fun x => x.2.range.contains sector)

/-- The staging code of a sector: none, STAGED or DRAINING (R19, R178). -/
def stagingCode (u : WriteUnit) (sector : Nat) : Nat :=
  match u.slots.find? (fun x => decide (x.sector = sector)) with
  | some x => match x.state with
    | .staged => 1
    | .draining => 2
  | none => 0

/-- QUERY SECTOR's detail (R19). A region index "none" is sent as FFh, the byte of an absent item; R178 gives no other code
for it (DESIGN CHOICE, log 37). -/
def querySectorDetail (p : Port) (n : Nat) (s : State) : List Byte :=
  let region := regionIn s.ac.regions n
  let lease := reportedLease p n s
  let u := s.pwu.get p
  byteItem? (region.map Prod.fst) ++
    byteItem (match region with
      | some x => (x.2.access.get p).code
      | none => 0) ++
    byteItem? (region.map (fun x => x.2.mode.code)) ++
    byteItem? (lease.map Prod.fst) ++ byteItem? (lease.map (fun x => x.2.holder.num)) ++
    byteItem? (lease.map (fun x => x.2.mode.code)) ++ byteItem? (lease.map (fun x => x.2.state.code)) ++
    byteItem ((leases s).filter (fun x => x.2.range.contains n)).length ++
    byteItem (stagingCode u n) ++
    boolItem (match u.pendingClear with
      | some q => q.contains n
      | none => false) ++
    wordItem (servingBlock s.me (blockOf n))

/-- QUERY SECTOR's sector is one of the user sectors (R1, R19). -/
def querySectorParams (sector : Word16) : Bool := decide (sector.toNat < Config.userSectors)

/-- QUERY SECTOR taken by the access checker (R19). -/
def takeQuerySector (p : Port) (sector : Word16) (s : State) : State :=
  let n := sector.toNat
  if querySectorParams sector then
    finish p { status := .done, leaseId := (reportedLease p n s).map Prod.fst, lastSector := some n,
               detail := querySectorDetail p n s } s
  else finish p { status := .badParam } s

end Sys2Proof.Machine
end

