-- ==== Sys2Proof/Machine/NoticeCommands.lean ====
section
/-! DEFINITION. What the notice unit does when it takes SET WATCH, DROP WATCH, SET LEVELS (chapter 8), and a FETCH NOTICE;
and what the signal word bank does with SIGNAL READ and SIGNAL MODIFY (chapter 9). -/

namespace Sys2Proof.Machine

/-! ### Watches and levels (R136, R137, R148) -/

/-- The watch at an index of a port's table. -/
def watchAt (p : Port) (index : Nat) (s : State) : Option Watch := ((s.nu.get p).watches[index]?).join

/-- The hold list re-examined when a watch with hold yes has gone and its port is CONGESTED (R136, R137, R152). -/
def reexamineAfter (p : Port) (gone : Option Watch) (s : State) : State :=
  if (match gone with | some w => w.hasHold | none => false) && (s.nu.get p).congested then reexamine s else s

/-- An entry of a port's watch table replaced. -/
def setWatchAt (p : Port) (index : Nat) (w : Option Watch) (s : State) : State :=
  s.modNu p (fun u => { u with watches := u.watches.set index w })

/-- SET WATCH taken by the notice unit (R136). -/
def takeSetWatch (p : Port) (index target : Byte) (first count wordSet : Word16) (kinds includeSelf hold : Byte)
    (s : State) : State :=
  match watchOf target first count wordSet kinds includeSelf hold with
  | some w =>
    if index.toNat < Config.watchEntries then
      finish p { status := .done, count := 1, detail := byteItem index.toNat }
        (reexamineAfter p (watchAt p index.toNat s) (setWatchAt p index.toNat (some w) s))
    else finish p { status := .badParam } s
  | none => finish p { status := .badParam } s

/-- DROP WATCH taken by the notice unit (R137). -/
def takeDropWatch (p : Port) (index : Byte) (s : State) : State :=
  if index.toNat < Config.watchEntries then
    finish p { status := .done, count := if (watchAt p index.toNat s).isSome then 1 else 0,
               detail := byteItem index.toNat }
      (reexamineAfter p (watchAt p index.toNat s) (setWatchAt p index.toNat none s))
  else finish p { status := .badParam } s

/-- The hold list re-examined when a port went from CONGESTED to NORMAL (R147, R152). -/
def reexamineIfFreed (p : Port) (was : Bool) (s : State) : State :=
  if was && !(s.nu.get p).congested then reexamine s else s

/-- SET LEVELS taken by the notice unit (R148). -/
def takeSetLevels (p : Port) (high low : Byte) (s : State) : State :=
  if 1 ≤ high.toNat ∧ high.toNat ≤ Config.noticeCapacity ∧ low.toNat < high.toNat then
    let s1 := s.modNu p (fun u => u.setLevels high.toNat low.toNat)
    finish p { status := .done, count := (s.nu.get p).queue.length, detail := boolItem (s1.nu.get p).congested }
      (reexamineIfFreed p (s.nu.get p).congested s1)
  else finish p { status := .badParam } s

/-- FETCH NOTICE as the notice unit takes it: the response, and the state with the head record removed and the overrun
flag cleared (R146). The model's counter of fetches goes on, whatever the response (log 29). -/
def takeFetchNotice (p : Port) (s : State) : List Byte × State :=
  let u := s.nu.get p
  let s1 := (s.modPlu p (fun l => { l with fetches := l.fetches + 1 })).modNu p (fun u =>
    { u.removeHead with overrun := false })
  (noticeBytes (s.plu.get p).fetches u.queue.head? u.overrun (u.queue.length - 1), reexamineIfFreed p u.congested s1)

/-! ### Signal words (R157 to R159) -/

/-- A signal word's value. -/
def signalWord (s : State) (word : Nat) : Word16 := s.swb.getD word 0#16

/-- SIGNAL READ taken by the signal word bank (R159). -/
def takeSignalRead (p : Port) (word : Byte) (s : State) : State :=
  if word.toNat < Config.signalWords then
    finish p { status := .done, detail := byteItem word.toNat ++ wordItem (signalWord s word.toNat).toNat } s
  else finish p { status := .badParam } s

/-- The value of a word after a modify: the value's bits where the mask is 1, the old bits where it is 0 (R157). -/
def modifiedWord (old mask value : Word16) : Word16 := (value &&& mask) ||| (old &&& ~~~mask)

/-- SIGNAL MODIFY taken by the signal word bank: the word changed, its SIGNAL event handed before the completion (R157,
R158). -/
def takeSignalModify (p : Port) (word : Byte) (mask value : Word16) (s : State) : State :=
  let n := word.toNat
  if n < Config.signalWords then
    let old := signalWord s n
    let new := modifiedWord old mask value
    let s1 := s.setSwb (s.swb.set n new)
    finish p { status := .done, count := if new = old then 0 else 1,
               detail := byteItem n ++ wordItem old.toNat ++ wordItem new.toNat }
      (if new = old then s1 else signalEvent p n new s1)
  else finish p { status := .badParam } s

end Sys2Proof.Machine
end

