-- ==== Sys2Proof/Machine/SupervisorCommands.lean ====
section
/-! DEFINITION. The supervisor port's commands when their owners take them: SET REGION, SET LEASE PERIOD, SET HOLD LIMIT,
SET QUOTA, SAVE CONFIG (section 1.6), FENCE and UNFENCE (chapter 11). -/

namespace Sys2Proof.Machine

/-! ### SET REGION (R14, R15) -/

/-- The region entry at an index. -/
def regionEntry (index : Nat) (s : State) : Option Region := (s.ac.regions[index]?).join

/-- Does the new range overlap another defined entry (R14)? -/
def overlapsOther (index : Nat) (g : Region) (s : State) : Bool :=
  (regionsFrom 0 s.ac.regions).any (fun x => decide (x.1 ≠ index) && x.2.range.overlaps g.range)

/-- REGION_BUSY's detail when a lease or a waiter overlaps the old or the new range, else none (R14). -/
def regionBusy (index : Nat) (ranges : List Range) (s : State) : Option (List Byte) :=
  let touches := fun (r : Range) => ranges.any (fun q => q.overlaps r)
  match (leases s).find? (fun x => touches x.2.range) with
  | some (id, _) => some (byteItem index ++ byteItem 0 ++ byteItem id ++ absentByte)
  | none =>
    match s.le.queue.find? (fun e => touches e.range) with
    | some e => some (byteItem index ++ byteItem 1 ++ absentByte ++ byteItem e.port.num)
    | none => none

/-- The pending clear range of every port dropped if it overlaps one of the ranges (R15, R133). -/
def dropPendings (ranges : List Range) (s : State) : State :=
  ranges.foldl (fun t r => Port.all.foldl (fun t q => t.modPwu q (fun u => u.dropPending r)) t) s

/-- The entry at an index replaced, or made undefined, after the REGION_BUSY check (R14, R15). -/
def changeRegion (p : Port) (index : Nat) (new : Option Region) (s : State) : State :=
  let ranges := ((regionEntry index s).toList ++ new.toList).map Region.range
  match regionBusy index ranges s with
  | some d => finish p { status := .regionBusy, detail := d } s
  | none =>
    finish p { status := .done }
      (dropPendings ranges (s.modAc (fun a => { a with regions := a.regions.set index new })))

/-- SET REGION's BAD_PARAM, whose detail is the index (R14). -/
def badRegion (p : Port) (index : Byte) (s : State) : State :=
  finish p { status := .badParam, detail := byteItem index.toNat } s

/-- SET REGION with a new entry, taken by the lease engine (R14). -/
def takeSetRegion (p : Port) (index : Byte) (first last : Word16) (access mode : Byte) (s : State) : State :=
  asSupervisor p (fun s =>
    match regionOf first last access mode with
    | some g =>
      if index.toNat < 8 ∧ overlapsOther index.toNat g s = false then changeRegion p index.toNat (some g) s
      else badRegion p index s
    | none => badRegion p index s) s

/-- SET REGION with "undefine", taken by the lease engine (R14, R15). -/
def takeSetRegionUndefine (p : Port) (index : Byte) (s : State) : State :=
  asSupervisor p (fun s =>
    if index.toNat < 8 then changeRegion p index.toNat none s else badRegion p index s) s

/-! ### P, H, Q and the saved image (R16 to R18) -/

/-- SET LEASE PERIOD: the live P; the running period keeps its length (R16). -/
def takeSetLeasePeriod (p : Port) (period : Byte) (s : State) : State :=
  asSupervisor p (fun s =>
    if 1 ≤ period.toNat then finish p { status := .done } (s.modEu (fun e => { e with period := period.toNat }))
    else finish p { status := .badParam } s) s

/-- SET HOLD LIMIT: the live H (R17). -/
def takeSetHoldLimit (p : Port) (limit : Byte) (s : State) : State :=
  asSupervisor p (fun s =>
    if 1 ≤ limit.toNat then finish p { status := .done } (s.modAc (fun a => { a with holdLimit := limit.toNat }))
    else finish p { status := .badParam } s) s

/-- SET QUOTA: the live Q, 1 to 64 (R17). -/
def takeSetQuota (p : Port) (quota : Byte) (s : State) : State :=
  asSupervisor p (fun s =>
    if 1 ≤ quota.toNat ∧ quota.toNat ≤ 64 then
      finish p { status := .done } (s.modAc (fun a => { a with quota := quota.toNat }))
    else finish p { status := .badParam } s) s

/-- The live settings: region table, P, H and Q (section 1.4). -/
def liveSettings (s : State) : Settings :=
  { regions := s.ac.regions, period := s.eu.period, hold := s.ac.holdLimit, quota := s.ac.quota }

/-- The META job of a SAVE CONFIG, taken by the port's write unit (R18, R114, R167). -/
def takeMetaJob (p : Port) (s : State) : State :=
  startCommand p { serial := (s.plu.get p).serial, action := .saveConfig, bound := [], stage := .waiting,
                   holdExpired := false, broken := [] } s

/-- The META job handed to the write unit: it waits at the port behind the port's teardown there (R176; log 33). -/
def handMetaJob (p : Port) (s : State) : State :=
  if (s.teardown.get p).pwu then s.modPlu p (fun u => { u with waiting := some .metaJob }) else takeMetaJob p s

/-- SAVE CONFIG taken by the access checker, at its acceptance: the live settings copied to the saved image, whatever waits
at the write unit, and the META job handed to that (R8, R18, R167). -/
def takeSaveConfig (p : Port) (s : State) : State :=
  asSupervisor p (fun s => handMetaJob p (s.modAc (fun a => { a with image := liveSettings s }))) s

/-! ### FENCE and UNFENCE (R181, R182, R184) -/

/-- FENCE's completion at once for a target already fenced (R181). -/
def fencedAlready (p target : Port) (s : State) : State :=
  finish p { status := .done,
             detail := FenceRecord.detail { target := target, serial := 0, abandoned := false, ended := 0,
                                            ending := (endingLeases target s).length } } s

/-- The fence itself: the target's port link unit reset and fenced, the teardowns of the four other blocks handed out,
the lease engine's own teardown with cause FENCED; the completion waits for the four (R181, R182). A command of the target
that the lease engine has not taken is withdrawn (R180, R181). Where a port reset's teardown of the target still waits at a
block, no rule says when each of the two is taken there: the model keeps one mark for both, and the block's next teardown
takes both and counts for the FENCE (DESIGN CHOICE, log 44). -/
def carryOutFence (p target : Port) (s : State) : State :=
  let abandoned := decide ((s.plu.get target).slot ≠ .idle)
  let s1 := withdrawCommand target (s.modPlu target (fun u => { u.portReset with fenced := true }))
  let s2 := s1.modTeardown target (fun t => { t with pwu := true, me := true, nu := true, swb := true })
  let ended := (heldLeases target s2).length
  let s3 := leaseTeardown target .fenced s2
  s3.modLe (fun x => { x with fences := x.fences ++
    [{ target := target, serial := (s.plu.get p).serial, abandoned := abandoned, ended := ended,
       ending := (endingLeases target s3).length }] })

/-- FENCE taken by the lease engine (R181). -/
def takeFence (p : Port) (target : Byte) (s : State) : State :=
  asSupervisor p (fun s =>
    match Port.ofNum? target.toNat with
    | none => finish p { status := .badParam } s
    | some t =>
      if t = s.ac.supervisor then finish p { status := .badParam } s
      else if (s.plu.get t).fenced then fencedAlready p t s
      else carryOutFence p t s) s

/-- UNFENCE taken by the lease engine (R184). -/
def takeUnfence (p : Port) (target : Byte) (s : State) : State :=
  asSupervisor p (fun s =>
    match Port.ofNum? target.toNat with
    | none => finish p { status := .badParam } s
    | some t =>
      let was := (s.plu.get t).fenced
      finish p { status := .done, detail := byteItem t.num ++ boolItem was }
        (if was then s.modPlu t (fun u => { u with fenced := false, rejected := false, reason := .none }) else s)) s

end Sys2Proof.Machine
end

