-- ==== Sys2Proof/Machine/PortCommands.lean ====
section
/-! DEFINITION. The commands that the port link unit completes within its own acceptance: SET ATTN MASK (R174), DEVICE
INFO (R185), COUNTER SETUP and COUNTER READ (R186). -/

namespace Sys2Proof.Machine

/-- SET ATTN MASK (R174): bits 7 to 4 must be 0 (R178). -/
def takeSetAttnMask (p : Port) (mask : Byte) (s : State) : State :=
  if mask.toNat < 16 then
    finish p { status := .done, detail := [mask] } (s.modPlu p (fun u => { u with mask := mask.extractLsb' 0 4 }))
  else finish p { status := .badParam } s

/-- DEVICE INFO's twelve items (R185). -/
def deviceInfoDetail (s : State) : List Byte :=
  byteItem Config.partCode ++ byteItem Config.revision ++ byteItem s.ac.supervisor.num ++ byteItem s.eu.epoch.toNat ++
    byteItem s.me.pool.length ++ byteItem s.me.remap.length ++ byteItem s.me.retired.length ++
    boolItem s.ac.metaInvalid ++ boolItem s.ac.metaFault ++ byteItem s.eu.period ++ byteItem s.ac.holdLimit ++
    byteItem s.ac.quota

/-- DEVICE INFO (R185). -/
def takeDeviceInfo (p : Port) (s : State) : State := finish p { status := .done, detail := deviceInfoDetail s } s

/-- The events that are attributed to no port (R188): RELOCATION and RELOC_DROPPED. -/
def CounterEvent.unattributed : CounterEvent → Bool
  | .relocation | .relocDropped => true
  | _ => false

/-- The selection and qualifier that COUNTER SETUP asks for, or none where R186 refuses them. -/
def counterSelection (event qualifier : Byte) : Option (Option CounterEvent × Qualifier) :=
  match counterEventOf event, qualifierOf qualifier with
  | some e, some q =>
    if q = .self ∧ (match e with | some x => x.unattributed | none => false) = true then none else some (e, q)
  | _, _ => none

/-- A counter as set up: its value 0 (R186). -/
def setupCounter (e : Option CounterEvent) (q : Qualifier) : Counter := { event := e, qualifier := q, value := 0#32 }

/-- The counter of a number, 0 or 1. -/
def Plu.counter (u : Plu) (n : Nat) : Counter := if n = 0 then u.counter0 else u.counter1

/-- The counter of a number replaced. -/
def Plu.setCounter (u : Plu) (n : Nat) (c : Counter) : Plu :=
  if n = 0 then { u with counter0 := c } else { u with counter1 := c }

/-- The three items that name a counter's setup (R186). -/
def counterItems (n : Nat) (c : Counter) : List Byte :=
  byteItem n ++ byteItem (counterEventCode c.event) ++ byteItem c.qualifier.code

/-- COUNTER SETUP (R186). -/
def takeCounterSetup (p : Port) (counter event qualifier : Byte) (s : State) : State :=
  match counterSelection event qualifier with
  | some (e, q) =>
    if counter.toNat ≤ 1 then
      finish p { status := .done, detail := counterItems counter.toNat (setupCounter e q) }
        (s.modPlu p (fun u => u.setCounter counter.toNat (setupCounter e q)))
    else finish p { status := .badParam } s
  | none => finish p { status := .badParam } s

/-- COUNTER READ (R186). -/
def takeCounterRead (p : Port) (counter : Byte) (s : State) : State :=
  if counter.toNat ≤ 1 then
    let c := (s.plu.get p).counter counter.toNat
    finish p { status := .done, detail := counterItems counter.toNat c ++ valueItem c.value } s
  else finish p { status := .badParam } s

end Sys2Proof.Machine
end

