-- ==== Sys2Proof/Machine/Serve.lean ====
section
/-! DEFINITION. The taking of slot commands by their owners and of requests by the lease engine: which commands wait behind
a teardown (R176), the requests that the lease engine takes (R24, R55, R57), its round-robin among the ports (R24, R65),
and the jobs released from the hold list (R152). -/

namespace Sys2Proof.Machine

/-- A slot command taken by its owner (R167). -/
def takeCommand (p : Port) : SlotCommand → State → State
  | .acquire first count mode wait => takeAcquire p first count mode wait
  | .upgrade id wait => takeUpgrade p id wait
  | .downgrade id => takeDowngrade p id
  | .renew id => takeRenew p id
  | .renewAll => takeRenewAll p
  | .release id discard => takeRelease p id discard
  | .queryLease id => takeQueryLease p id
  | .read first count => takeRead p first count
  | .write first count payload => takeWrite p first count payload
  | .commit id => takeCommit p id
  | .commitAll => takeCommitAll p
  | .clear first count => takeClear p first count
  | .querySector sector => takeQuerySector p sector
  | .setWatch index target first count wordSet kinds includeSelf hold =>
    takeSetWatch p index target first count wordSet kinds includeSelf hold
  | .dropWatch index => takeDropWatch p index
  | .setLevels high low => takeSetLevels p high low
  | .setAttnMask mask => takeSetAttnMask p mask
  | .signalRead word => takeSignalRead p word
  | .signalModify word mask value => takeSignalModify p word mask value
  | .deviceInfo => takeDeviceInfo p
  | .counterSetup counter event qualifier => takeCounterSetup p counter event qualifier
  | .counterRead counter => takeCounterRead p counter
  | .setRegion index first last access mode => takeSetRegion p index first last access mode
  | .setRegionUndefine index => takeSetRegionUndefine p index
  | .setLeasePeriod period => takeSetLeasePeriod p period
  | .setHoldLimit limit => takeSetHoldLimit p limit
  | .setQuota quota => takeSetQuota p quota
  | .saveConfig => takeSaveConfig p
  | .metaJob => takeMetaJob p
  | .breakLease id => takeBreak p id
  | .fence target => takeFence p target
  | .unfence target => takeUnfence p target

/-- The blocks that take a slot command in their request order (R167): the lease engine, the port write unit, the notice
unit and the signal word bank; and whether the command is a request of a port at the lease engine (R24). -/
structure Owners where
  le : Bool
  pwu : Bool
  nu : Bool
  swb : Bool
deriving DecidableEq, Repr

/-- The blocks behind whose teardowns a slot command of the port waits (R167, R176). A DOWNGRADE or a RELEASE, whose owner is
the lease engine and which changes the write unit's slots in the same request (R31, R36), waits whole for the write unit's
teardown too, its NO_LEASE and BAD_PARAM checks included; no rule says whether the checks wait (DESIGN CHOICE, log 6). A
READ, WRITE, COMMIT or CLEAR, which the write unit owns, waits whole for its teardown. The write unit checks the parameters
of a READ, WRITE and CLEAR before it asks the lease engine's coverage check (R84, R91, R125, R126), so one with bad
parameters is no request there (R24): it waits for no sweep and takes no turn. A QUERY SECTOR in bounds is one request there
and waits whole for the write unit's teardown (DESIGN CHOICE, log 6). No request is a QUERY SECTOR above sector 32767
(R19), which its owner, the access checker, refuses with nothing read at the lease engine or the write unit; no teardown goes
to the access checker, so it waits for none (R167, R176). A SIGNAL MODIFY waits for the signal
word bank's teardown alone: its SIGNAL event, which the bank hands to the notice unit, does not wait for the teardown of
the port there, and no rule says whether it does (DESIGN CHOICE, log 41). A SAVE CONFIG is taken by the access checker, to
which no teardown goes, and its META job alone waits for the write unit's (R8, R167, R176; log 33). -/
def SlotCommand.owners : SlotCommand → Owners
  | .acquire _ _ _ _ | .upgrade _ _ | .renew _ | .renewAll | .queryLease _ | .breakLease _ | .setRegion _ _ _ _ _
  | .setRegionUndefine _ | .fence _ | .unfence _ => { le := true, pwu := false, nu := false, swb := false }
  | .downgrade _ | .release _ _ | .commit _ | .commitAll => { le := true, pwu := true, nu := false, swb := false }
  | .read first count => { le := readParams first count, pwu := true, nu := false, swb := false }
  | .write first count _ => { le := writeParams first count, pwu := true, nu := false, swb := false }
  | .clear first count => { le := clearParams first count, pwu := true, nu := false, swb := false }
  | .querySector sector =>
    { le := querySectorParams sector, pwu := querySectorParams sector, nu := false, swb := false }
  | .setWatch _ _ _ _ _ _ _ _ | .dropWatch _ | .setLevels _ _ => { le := false, pwu := false, nu := true, swb := false }
  | .signalRead _ | .signalModify _ _ _ => { le := false, pwu := false, nu := false, swb := true }
  | .metaJob => { le := false, pwu := true, nu := false, swb := false }
  | .setAttnMask _ | .deviceInfo | .counterSetup _ _ _ | .counterRead _ | .setLeasePeriod _ | .setHoldLimit _
  | .setQuota _ | .saveConfig => { le := false, pwu := false, nu := false, swb := false }

/-- Does a teardown of the port that waits at a block of the command keep it back (R176)? The lease engine's teardown is a
request there, behind which the command's own request waits. -/
def heldBack (p : Port) (c : SlotCommand) (s : State) : Bool :=
  let t := s.teardown.get p
  (c.owners.pwu && t.pwu) || (c.owners.nu && t.nu) || (c.owners.swb && t.swb)

/-! ### Wait deadlines and cancels (R55 to R57) -/

/-- The entry of port `p` for the command of this number, with the entries before it. -/
def entryOf (p : Port) (serial : Nat) : List WaitEntry → List WaitEntry → Option (WaitEntry × List WaitEntry)
  | _, [] => none
  | earlier, e :: t =>
    if e.port = p ∧ e.serial = serial then some (e, earlier) else entryOf p serial (earlier ++ [e]) t

/-- An entry removed from the wait queue. -/
def removeEntry (p : Port) (serial : Nat) (s : State) : State :=
  s.modLe (fun x => { x with queue := x.queue.filter (fun e => !(decide (e.port = p) && decide (e.serial = serial))) })

/-- The completion WAIT_TIMEOUT, with what still blocks the request (R55). -/
def timeoutCompletion (e : WaitEntry) (earlier : List WaitEntry) (s : State) : Completion :=
  { status := .waitTimeout, leaseId := e.namedId,
    detail := match blockerOf e earlier s with
      | some b => b.detail
      | none => [] }

/-- The lease engine takes a deadline's expiry: the entry removed, WAIT_TIMEOUT, the grant scan; or nothing, if the entry
has gone (R55, R56). -/
def takeExpiry (p : Port) (serial : Nat) (s : State) : State :=
  match entryOf p serial [] s.le.queue with
  | some (e, earlier) => grantScan (complete p serial (timeoutCompletion e earlier s) (removeEntry p serial s))
  | none => s

/-- The completion of a cancelled command: CANCELLED, with the lease id that the command names (R57, R83), and FLUSHED for a
WRITE whose plan was a flush, whatever its status (R88). Of a CLEAR it carries neither PENDING nor the pending clear
range that stands: R83 and R132 list its fields without them (DESIGN CHOICE, log 40). -/
def cancelledCompletion (named : Option Nat) (flush : Bool) : Completion :=
  { status := .cancelled, flags := { flushed := flush }, leaseId := named }

/-- The lease engine takes a CANCEL: the entry removed, CANCELLED, the grant scan; or nothing, if the entry has gone
(R57). -/
def takeCancelParked (p : Port) (serial : Nat) (s : State) : State :=
  match entryOf p serial [] s.le.queue with
  | some (e, _) => grantScan (complete p serial (cancelledCompletion e.namedId false) (removeEntry p serial s))
  | none => s

/-! ### The lease engine's requests, in the round-robin's order (R24, R65) -/

/-- A request of the port handled whole by the lease engine (R24). -/
def takeRequest (p : Port) : LeRequest → State → State
  | .command c => takeCommand p c
  | .issue n => takeIssue p n
  | .report r => drainEnd p r
  | .cancel n => takeCancelParked p n
  | .expiry n => takeExpiry p n
  | .teardown => leaseTeardown p .portReset

/-- The round-robin position after a request of port `p` (R24). -/
def servedPort (p : Port) (s : State) : State := s.modLe (fun x => { x with rrNext := p.next })

/-- The port's oldest request taken out, with `rest` left; the round-robin goes on to the next port (R24). -/
def popRequest (p : Port) (rest : List LeRequest) (s : State) : State :=
  servedPort p (s.modLe (fun x => { x with requests := x.requests.set p rest }))

/-- The ports in the order in which the round-robin examines them (R24). -/
def servingOrder (first : Port) : List Port := [first, first.next, first.next.next, first.next.next.next]

/-- The port's oldest request taken, if one waits (R24). -/
def servePort (p : Port) (s : State) : Option State :=
  match s.le.requests.get p with
  | [] => none
  | r :: rest => some (takeRequest p r (popRequest p rest s))

/-- The next request taken: none while a sweep is pending (R65), otherwise the oldest of the first port in the round-robin
that has one (R24). -/
def serveOne (s : State) : Option State :=
  if s.le.sweepsAsked = 0 then (servingOrder s.le.rrNext).findSome? (fun p => servePort p s) else none

/-- Requests taken one after another, at most `n` of them; the released jobs go on after each (R152). -/
def serveUpTo : Nat → State → State
  | 0, s => s
  | n + 1, s =>
    match serveOne s with
    | some t => serveUpTo n (issueReleased t)
    | none => s

/-- The number of requests that wait at the lease engine. -/
def requestCount (s : State) : Nat := (Port.all.map (fun p => (s.le.requests.get p).length)).sum

/-- The released jobs go on, and the lease engine takes every request that waits, and those that are handed to it for
released jobs meanwhile (R24, R65, R152). -/
def serveWaiting (s : State) : State :=
  serveUpTo (requestCount (issueReleased s) + (issueReleased s).released.flatten.length) (issueReleased s)

/-- After a step of the notice unit: the jobs that it released go on, if there are any (R152). -/
def goOn (s : State) : State := if s.released.isEmpty then s else serveWaiting s

/-! ### A slot command passed to its owner (R167, R176) -/

/-- The port's waiting command passed to its owner, unless a teardown keeps it back: a request at the lease engine is
handed to it, and any other command is taken at once (R167, R176; log 6). A signal command that its port's teardown keeps
back stays at its port, so another port's later signal command goes ahead of it; R156 orders commands as they reach the
bank, and no rule says whether a command behind its port's teardown has its place there (DESIGN CHOICE, log 46). -/
def passCommand (p : Port) (s : State) : State :=
  match (s.plu.get p).waiting with
  | none => goOn s
  | some c =>
    if heldBack p c s then goOn s
    else
      let s1 := s.modPlu p (fun u => { u with waiting := none })
      if c.owners.le then serveWaiting (handRequest p (.command c) s1) else goOn (takeCommand p c s1)

end Sys2Proof.Machine
end

