-- ==== Sys2Proof/Machine/Frames.lean ====
section
/-! DEFINITION. The frame on the wire: what a port shifts out, acceptance and rejection at the take point (R163 to R167),
and the effects of the immediate frames and of the teardowns (R172, R175, R176). -/

namespace Sys2Proof.Machine

/-! ### Bytes shifted out (R163) -/

/-- The bytes that the port shifts out in a frame of `len` complete bytes: status byte, reject-reason byte, response, and
then 00h (R163). -/
def frameOut (status reason : Byte) (response : List Byte) (len : Nat) : List Byte :=
  (padTo len ([status, reason] ++ response)).take len

/-! ### The checks at the take point (R165) -/

/-- Checks 1 and 2: STARTING, then the fence flag. -/
def portCloses (p : Port) (s : State) : Option RejectReason :=
  if s.device = .starting then some .notReady
  else if (s.plu.get p).fenced then some .fenced
  else none

/-- The checks of a slot command's frame, `whole` when at least its defined length was received (R165). -/
def slotCheck (p : Port) (whole : Bool) (s : State) : Option RejectReason :=
  match portCloses p s with
  | some r => some r
  | none =>
    if !whole then some .frameError
    else if (s.plu.get p).slot ≠ .idle then some .slotBusy
    else none

/-- The checks of a frame whose opcode names no frame (R165). -/
def unknownCheck (p : Port) (s : State) : RejectReason := (portCloses p s).getD .frameError

/-! ### Acceptance and rejection (R163, R166) -/

/-- Does the port take a frame of `len` complete bytes: at least one byte, and RST released (R163, R177)? -/
def takesFrame (len : Nat) (s : State) : Bool := decide (1 ≤ len) && !s.rstHeld

/-- The end of a rejected frame: reject reason and REJECTED, 00h in place of any response (R165, R166). -/
def rejectFrame (p : Port) (r : RejectReason) (len : Nat) (s : State) : State :=
  s.modPlu p (fun u =>
    { u with reason := r, rejected := true, sdo := frameOut (statusByte p s) (reasonByte u.reason) [] len })

/-- The end of an accepted frame: the reject reason is NONE; `before` is the state at the fall of chip select (R164,
R166). -/
def endAccepted (p : Port) (before : State) (response : List Byte) (len : Nat) (s : State) : State :=
  s.modPlu p (fun u =>
    { u with reason := .none,
             sdo := frameOut (statusByte p before) (reasonByte (before.plu.get p).reason) response len })

/-- A frame taken: `check` rejects it or not, `effect` gives the response and the state at the take point (R165). -/
def onFrame (p : Port) (len : Nat) (check : Option RejectReason) (effect : State → List Byte × State) (s : State) :
    State :=
  if takesFrame len s then
    match check with
    | some r => rejectFrame p r len s
    | none => endAccepted p s (effect s).1 len (effect s).2
  else s

/-! ### Slot commands (R167) -/

/-- What the port link unit does at an accepted slot command: record emptied, RESULT_READY and REJECTED cleared, slot BUSY,
the command handed to its owner (R167). -/
def Plu.accept (u : Plu) (opcode : Byte) (c : SlotCommand) : Plu :=
  { u with record := none, resultReady := false, rejected := false, slot := .busy, opcode := opcode,
           serial := u.serial + 1, waiting := some c }

/-- A slot command's frame, whose defined length is `defined` (R163, R165, R167). -/
def slotFrame (p : Port) (opcode : Byte) (whole : Bool) (c : SlotCommand) (len : Nat) (s : State) : State :=
  onFrame p len (slotCheck p whole s) (fun t => ([], passCommand p (t.modPlu p (fun u => u.accept opcode c)))) s

/-- WRITE's payload bytes by its count parameter: none when the count is outside 1 to 4 (R163). -/
def payloadLength (count : Byte) : Nat :=
  if 1 ≤ count.toNat ∧ count.toNat ≤ 4 then count.toNat * Config.sectorBytes else 0

/-- At least the defined length of a WRITE has been received (R163, R165). -/
def writeWhole (count : Byte) (payload : List Byte) (len : Nat) : Bool :=
  decide (5 + payloadLength count ≤ len) && decide (payloadLength count ≤ payload.length)

/-! ### A CANCEL as the notice unit takes it (R83, R154) -/

/-- The lease id that a write unit's command names (R83). -/
def PwuAction.namedId : PwuAction → Option Nat
  | .commit id => id
  | .release id | .downgrade id => some id
  | _ => none

/-- The notice unit and the write unit take a CANCEL: the entry off the hold list, CANCELLED, no job; or nothing, if the
hold has ended (R83, R154). -/
def takeCancelHeld (p : Port) (serial : Nat) (s : State) : State :=
  let s1 := s.modNu p (fun u => { u with cancel := none })
  match (s.pwu.get p).command with
  | some c =>
    if (s.holdList.any (fun e => decide (e.port = p) && decide (e.serial = serial))) && decide (c.serial = serial) then
      complete p serial (cancelledCompletion c.action.namedId c.action.isFlush) (setCommand p none (dropHold p s1))
    else s1
  | none => s1

/-- The notice unit takes the port's CANCEL, if it has been handed one (R154). -/
def cancelHeld (p : Port) (s : State) : State :=
  match (s.nu.get p).cancel with
  | some n => takeCancelHeld p n s
  | none => s

/-! ### Teardowns (R99, R108, R149, R161, R176) -/

/-- The port write unit's teardown taken, with what it does to the port's jobs (R99); a command that waited behind it is
passed on. -/
def takePwuTeardown (p : Port) (s : State) : State :=
  passCommand p (finishFences
    (dropHold p (((withdrawJobs p s).modTeardown p (fun t => { t with pwu := false })).modPwu p WriteUnit.teardown)))

/-- The media engine's teardown taken (R108). -/
def takeMeTeardown (p : Port) (s : State) : State :=
  finishFences ((s.modTeardown p (fun t => { t with me := false })).modMe (MediaEngine.teardown p))

/-- The notice unit's teardown taken (R149), behind a CANCEL that the port sent before (R167; log 8); a command that waited
behind it is passed on. -/
def takeNuTeardown (p : Port) (s : State) : State :=
  passCommand p (finishFences (noticeTeardown p ((cancelHeld p s).modTeardown p (fun t => { t with nu := false }))))

/-- The signal word bank's teardown taken: the port link unit withdrew the command at the reset, and the words stay
(R155, R161); a command that waited behind it is passed on. -/
def takeSwbTeardown (p : Port) (s : State) : State :=
  passCommand p (finishFences (s.modTeardown p (fun t => { t with swb := false })))

/-! ### Immediate frames (R170 to R172, R175) -/

/-- RESULT: its response, and RESULT_READY cleared (R170). -/
def resultEffect (p : Port) (s : State) : List Byte × State :=
  (resultBytes (s.plu.get p), s.modPlu p (fun u => { u with resultReady := false }))

/-- FETCH NOTICE at the notice unit, behind the port's CANCEL and its teardown if they wait there (R146, R167, R176;
log 8). -/
def fetchNoticeEffect (p : Port) (s : State) : List Byte × State :=
  let r := takeFetchNotice p (if (s.teardown.get p).nu then takeNuTeardown p s else cancelHeld p s)
  (r.1, goOn r.2)

/-- CANCEL: passed to the lease engine for a PARKED slot, to the notice unit for a HELD one (R172). -/
def cancelEffect (p : Port) (s : State) : State :=
  match (s.plu.get p).slot with
  | .parked => handRequest p (.cancel (s.plu.get p).serial) s
  | .held => s.modNu p (fun u => { u with cancel := some (s.plu.get p).serial })
  | .busy | .idle => s

/-- PORT RESET: the port link unit's part at once, a command not yet taken withdrawn, a teardown handed to each of five
blocks (R175, R176, R180). Where an earlier port reset's teardown still waits at one of the four blocks other than the
lease engine, no rule says when each of the two is taken: the model keeps one mark for both, and the block's next teardown
takes both (DESIGN CHOICE, log 44). -/
def portResetEffect (p : Port) (s : State) : State :=
  (handRequest p .teardown (withdrawCommand p (s.modPlu p Plu.portReset))).modTeardown p
    (fun _ => { pwu := true, me := true, nu := true, swb := true })

end Sys2Proof.Machine
end

