-- ==== Sys2Proof/Machine/ImmediateFrames.lean ====
section
/-! DEFINITION. The meanings of the immediate frames and of a frame whose opcode names none (R163 to R166, R170 to R172,
R175). -/

namespace Sys2Proof.Machine

/-- What a command's meaning answers. -/
abbrev Outcome := Host.Outcome State Fault Refusal

/-- STATUS: answered in every state, with no effect beyond its two bytes and the reject-reason update (R164, R165). -/
def execStatus (p : Port) (len : Nat) (s : State) : Outcome := .next (onFrame p len none (fun t => ([], t)) s)

/-- RESULT (R170). -/
def execResult (p : Port) (len : Nat) (s : State) : Outcome :=
  .next (onFrame p len (portCloses p s) (resultEffect p) s)

/-- FETCH DATA (R171). -/
def execFetchData (p : Port) (len : Nat) (s : State) : Outcome :=
  .next (onFrame p len (portCloses p s) (fun t => (fetchDataBytes (t.plu.get p), t)) s)

/-- FETCH NOTICE (R146). -/
def execFetchNotice (p : Port) (len : Nat) (s : State) : Outcome :=
  .next (onFrame p len (portCloses p s) (fetchNoticeEffect p) s)

/-- CANCEL (R172). -/
def execCancel (p : Port) (len : Nat) (s : State) : Outcome :=
  .next (onFrame p len (portCloses p s) (fun t => ([], cancelEffect p t)) s)

/-- PORT RESET (R175, R176). -/
def execPortReset (p : Port) (len : Nat) (s : State) : Outcome :=
  .next (onFrame p len (portCloses p s) (fun t => ([], portResetEffect p t)) s)

/-- A frame whose opcode names no frame: rejected FRAME_ERROR, or for the earlier reason (R165). -/
def execUnknownOpcodeFrame (p : Port) (_opcode : Byte) (len : Nat) (s : State) : Outcome :=
  .next (onFrame p len (some (unknownCheck p s)) (fun t => ([], t)) s)

end Sys2Proof.Machine
end

