-- ==== Sys2Proof/Machine/SlotFrames.lean ====
section
/-! DEFINITION. The meanings of the slot command frames: the opcode and the defined length of R178's table, and the command
handed to its owner (R165, R167). -/

namespace Sys2Proof.Machine

/-- ACQUIRE (R27, R28). -/
def execAcquire (p : Port) (first count : Word16) (mode wait : Byte) (len : Nat) (s : State) : Outcome :=
  .next (slotFrame p 0x10#8 (decide (8 ≤ len)) (.acquire first count mode wait) len s)

/-- UPGRADE (R29, R30). -/
def execUpgrade (p : Port) (id wait : Byte) (len : Nat) (s : State) : Outcome :=
  .next (slotFrame p 0x11#8 (decide (4 ≤ len)) (.upgrade id wait) len s)

/-- DOWNGRADE (R31, R32). -/
def execDowngrade (p : Port) (id : Byte) (len : Nat) (s : State) : Outcome :=
  .next (slotFrame p 0x12#8 (decide (3 ≤ len)) (.downgrade id) len s)

/-- RENEW of one lease: selector 00h and a lease id (R34). -/
def execRenew (p : Port) (id : Byte) (len : Nat) (s : State) : Outcome :=
  .next (slotFrame p 0x13#8 (decide (4 ≤ len)) (.renew id) len s)

/-- RENEW with the selector ALL; the id byte is sent and ignored (R34, R178). -/
def execRenewAll (p : Port) (_selector : Byte) (len : Nat) (s : State) : Outcome :=
  .next (slotFrame p 0x13#8 (decide (4 ≤ len)) .renewAll len s)

/-- RELEASE (R36, R37). -/
def execRelease (p : Port) (id discard : Byte) (len : Nat) (s : State) : Outcome :=
  .next (slotFrame p 0x14#8 (decide (4 ≤ len)) (.release id discard) len s)

/-- QUERY LEASE (R35). -/
def execQueryLease (p : Port) (id : Byte) (len : Nat) (s : State) : Outcome :=
  .next (slotFrame p 0x15#8 (decide (3 ≤ len)) (.queryLease id) len s)

/-- READ (R91). -/
def execRead (p : Port) (first : Word16) (count : Byte) (len : Nat) (s : State) : Outcome :=
  .next (slotFrame p 0x20#8 (decide (5 ≤ len)) (.read first count) len s)

/-- WRITE: its defined length counts the payload of 1 to 4 sectors (R84, R163). -/
def execWrite (p : Port) (first : Word16) (count : Byte) (payload : List Byte) (len : Nat) (s : State) : Outcome :=
  .next (slotFrame p 0x21#8 (writeWhole count payload len) (.write first count payload) len s)

/-- COMMIT of one lease (R94). -/
def execCommit (p : Port) (id : Byte) (len : Nat) (s : State) : Outcome :=
  .next (slotFrame p 0x22#8 (decide (4 ≤ len)) (.commit id) len s)

/-- COMMIT with the selector ALL (R94, R178). -/
def execCommitAll (p : Port) (_selector : Byte) (len : Nat) (s : State) : Outcome :=
  .next (slotFrame p 0x22#8 (decide (4 ≤ len)) .commitAll len s)

/-- CLEAR (R125 to R130). -/
def execClear (p : Port) (first count : Word16) (len : Nat) (s : State) : Outcome :=
  .next (slotFrame p 0x23#8 (decide (6 ≤ len)) (.clear first count) len s)

/-- QUERY SECTOR (R19). -/
def execQuerySector (p : Port) (sector : Word16) (len : Nat) (s : State) : Outcome :=
  .next (slotFrame p 0x24#8 (decide (4 ≤ len)) (.querySector sector) len s)

/-- SET WATCH (R136). -/
def execSetWatch (p : Port) (index target : Byte) (first count wordSet : Word16)
    (kinds includeSelf hold : Byte) (len : Nat) (s : State) : Outcome :=
  .next (slotFrame p 0x30#8 (decide (13 ≤ len)) (.setWatch index target first count wordSet kinds includeSelf hold) len s)

/-- DROP WATCH (R137). -/
def execDropWatch (p : Port) (index : Byte) (len : Nat) (s : State) : Outcome :=
  .next (slotFrame p 0x31#8 (decide (3 ≤ len)) (.dropWatch index) len s)

/-- SET LEVELS (R148). -/
def execSetLevels (p : Port) (high low : Byte) (len : Nat) (s : State) : Outcome :=
  .next (slotFrame p 0x32#8 (decide (4 ≤ len)) (.setLevels high low) len s)

/-- SET ATTN MASK (R174). -/
def execSetAttnMask (p : Port) (mask : Byte) (len : Nat) (s : State) : Outcome :=
  .next (slotFrame p 0x33#8 (decide (3 ≤ len)) (.setAttnMask mask) len s)

/-- SIGNAL READ (R159). -/
def execSignalRead (p : Port) (word : Byte) (len : Nat) (s : State) : Outcome :=
  .next (slotFrame p 0x40#8 (decide (3 ≤ len)) (.signalRead word) len s)

/-- SIGNAL MODIFY (R157, R158). -/
def execSignalModify (p : Port) (word : Byte) (mask value : Word16) (len : Nat) (s : State) : Outcome :=
  .next (slotFrame p 0x41#8 (decide (7 ≤ len)) (.signalModify word mask value) len s)

/-- DEVICE INFO (R185). -/
def execDeviceInfo (p : Port) (len : Nat) (s : State) : Outcome :=
  .next (slotFrame p 0x50#8 (decide (2 ≤ len)) .deviceInfo len s)

/-- COUNTER SETUP (R186). -/
def execCounterSetup (p : Port) (counter event qualifier : Byte) (len : Nat) (s : State) : Outcome :=
  .next (slotFrame p 0x51#8 (decide (5 ≤ len)) (.counterSetup counter event qualifier) len s)

/-- COUNTER READ (R186). -/
def execCounterRead (p : Port) (counter : Byte) (len : Nat) (s : State) : Outcome :=
  .next (slotFrame p 0x52#8 (decide (3 ≤ len)) (.counterRead counter) len s)

/-- SET REGION with action 00h, define (R14, R15). -/
def execSetRegion (p : Port) (index : Byte) (first last : Word16) (access mode : Byte) (len : Nat) (s : State) : Outcome :=
  .next (slotFrame p 0x60#8 (decide (10 ≤ len)) (.setRegion index first last access mode) len s)

/-- SET REGION with another action byte, undefine: its range, access and mode bytes are sent and ignored (R14, R15, R178). -/
def execSetRegionUndefine (p : Port) (index _action : Byte) (len : Nat) (s : State) : Outcome :=
  .next (slotFrame p 0x60#8 (decide (10 ≤ len)) (.setRegionUndefine index) len s)

/-- SET LEASE PERIOD (R16). -/
def execSetLeasePeriod (p : Port) (period : Byte) (len : Nat) (s : State) : Outcome :=
  .next (slotFrame p 0x61#8 (decide (3 ≤ len)) (.setLeasePeriod period) len s)

/-- SET HOLD LIMIT (R17). -/
def execSetHoldLimit (p : Port) (limit : Byte) (len : Nat) (s : State) : Outcome :=
  .next (slotFrame p 0x62#8 (decide (3 ≤ len)) (.setHoldLimit limit) len s)

/-- SET QUOTA (R17). -/
def execSetQuota (p : Port) (quota : Byte) (len : Nat) (s : State) : Outcome :=
  .next (slotFrame p 0x63#8 (decide (3 ≤ len)) (.setQuota quota) len s)

/-- SAVE CONFIG (R18). -/
def execSaveConfig (p : Port) (len : Nat) (s : State) : Outcome :=
  .next (slotFrame p 0x64#8 (decide (2 ≤ len)) .saveConfig len s)

/-- BREAK (R75 to R78). -/
def execBreak (p : Port) (id : Byte) (len : Nat) (s : State) : Outcome :=
  .next (slotFrame p 0x65#8 (decide (3 ≤ len)) (.breakLease id) len s)

/-- FENCE (R181, R182). -/
def execFence (p : Port) (target : Byte) (len : Nat) (s : State) : Outcome :=
  .next (slotFrame p 0x66#8 (decide (3 ≤ len)) (.fence target) len s)

/-- UNFENCE (R184). -/
def execUnfence (p : Port) (target : Byte) (len : Nat) (s : State) : Outcome :=
  .next (slotFrame p 0x67#8 (decide (3 ≤ len)) (.unfence target) len s)

end Sys2Proof.Machine
end

