-- ==== Sys2Proof/Machine/EngineEvents.lean ====
section
/-! DEFINITION. The meanings of the blocks' own events: the rotation expiry and the sweep (R64 to R68), the deadlines'
expiries (R55, R153), the taking of cancels and teardowns (R57, R154, R176), the issue of a waiting job (R82, R83) and a
drain's end report (R98). An event that the state does not make possible changes nothing (log 5). -/

namespace Sys2Proof.Machine

/-- The rotation expiry: one sweep asked, the next period begun with the live P (R64, R65). -/
def rotationExpiry (s : State) : State :=
  if s.eu.running then
    (s.modLe (fun x => { x with sweepsAsked := x.sweepsAsked + 1 })).modEu (fun e => { e with periodLength := e.period })
  else s

/-- A pending sweep taken, and then the port requests that waited behind it (R65 to R68). -/
def takeSweep (s : State) : State :=
  if s.le.sweepsAsked = 0 then s
  else serveWaiting (sweepLeases (s.modLe (fun x => { x with sweepsAsked := x.sweepsAsked - 1 })))

/-- The deadline of the port's parked entry passes: its expiry is handed to the lease engine, and taken there as soon as
the engine comes to it (R24, R55, R65). -/
def waitDeadline (p : Port) (s : State) : State :=
  match s.le.queue.find? (fun e => decide (e.port = p)) with
  | some e => serveWaiting (handOnce p (.expiry e.serial) s)
  | none => s

/-- The job of a command whose hold has ended goes on: a DRAIN's by a request at the lease engine, a CLEAR's at once (R83,
R153). -/
def issueEnded (p : Port) (serial : Nat) (s : State) : State :=
  match endedCommand p serial s with
  | none => s
  | some c => if c.action.isDrain then serveWaiting (handOnce p (.issue serial) s) else issueJob p c s

/-- The deadline of the port's hold entry passes: the entry leaves the list, the hold has ended at its deadline (R153). -/
def holdDeadline (p : Port) (s : State) : State :=
  match s.holdList.find? (fun e => decide (e.port = p)) with
  | some e => issueEnded p e.serial (endHold p e.serial true (dropHold p s))
  | none => s

/-- A step of the lease engine at which a request of this kind of the port waits: it takes the requests that wait, in the
round-robin's order, unless a sweep is pending (R24, R65; log 34). -/
def takeWaiting (p : Port) (kind : LeRequest → Bool) (s : State) : State :=
  if (s.le.requests.get p).any kind then serveWaiting s else s

/-- Is the request a CANCEL (R57)? -/
def LeRequest.isCancel : LeRequest → Bool
  | .cancel _ => true
  | _ => false

/-- Is the request a drain's end report (R98)? -/
def LeRequest.isReport : LeRequest → Bool
  | .report _ => true
  | _ => false

/-- Is the request a teardown (R44)? -/
def LeRequest.isTeardown : LeRequest → Bool
  | .teardown => true
  | _ => false

/-- The lease engine takes the port's CANCEL, if it has been handed one (R57). -/
def cancelParked (p : Port) (s : State) : State := takeWaiting p LeRequest.isCancel s

/-- A command that waited for its port's earlier job goes on when that job has ended: a DRAIN's hold check and issue in a
request at the lease engine, another's at once; one whose hold has ended goes on to its issue (R82, R83). -/
def jobIssue (p : Port) (s : State) : State :=
  match (s.pwu.get p).command with
  | none => s
  | some c =>
    match c.stage with
    | .waiting =>
      if jobWaits p c s then s
      else if c.action.isDrain then serveWaiting (handOnce p (.issue c.serial) s)
      else holdOrIssue p c s
    | .holdEnded => serveWaiting s
    | .onHold | .issued => s

/-- The lease engine takes the port's drain-end report, if it has been handed one (R98). -/
def drainEndReport (p : Port) (s : State) : State := takeWaiting p LeRequest.isReport s

/-- The lease engine takes the port's teardown, if it has been handed one (R44). -/
def leTeardown (p : Port) (s : State) : State := takeWaiting p LeRequest.isTeardown s

/-- A teardown taken, if the block has been handed one (R176). -/
def ifTeardown (handed : Bool) (take : State → State) (s : State) : State := if handed then take s else s

/-! ### The meanings -/

/-- ROTATION_EXPIRY (R64). -/
def execRotationExpiry (s : State) : Outcome := .next (rotationExpiry s)

/-- SWEEP (R66). -/
def execSweep (s : State) : Outcome := .next (takeSweep s)

/-- WAIT_DEADLINE_EXPIRY (R55). -/
def execWaitDeadlineExpiry (p : Port) (s : State) : Outcome := .next (waitDeadline p s)

/-- HOLD_DEADLINE_EXPIRY (R153). -/
def execHoldDeadlineExpiry (p : Port) (s : State) : Outcome := .next (holdDeadline p s)

/-- CANCEL_PARKED (R57). -/
def execCancelParked (p : Port) (s : State) : Outcome := .next (cancelParked p s)

/-- CANCEL_HELD (R154). -/
def execCancelHeld (p : Port) (s : State) : Outcome := .next (cancelHeld p s)

/-- LE_TEARDOWN (R44). -/
def execLeTeardown (p : Port) (s : State) : Outcome := .next (leTeardown p s)

/-- PWU_TEARDOWN (R99). -/
def execPwuTeardown (p : Port) (s : State) : Outcome := .next (ifTeardown (s.teardown.get p).pwu (takePwuTeardown p) s)

/-- ME_TEARDOWN (R108). -/
def execMeTeardown (p : Port) (s : State) : Outcome := .next (ifTeardown (s.teardown.get p).me (takeMeTeardown p) s)

/-- NU_TEARDOWN (R149). -/
def execNuTeardown (p : Port) (s : State) : Outcome := .next (ifTeardown (s.teardown.get p).nu (takeNuTeardown p) s)

/-- SWB_TEARDOWN (R161). -/
def execSwbTeardown (p : Port) (s : State) : Outcome := .next (ifTeardown (s.teardown.get p).swb (takeSwbTeardown p) s)

/-- JOB_ISSUE (R83). -/
def execJobIssue (p : Port) (s : State) : Outcome := .next (jobIssue p s)

/-- DRAIN_END_REPORT (R98). -/
def execDrainEndReport (p : Port) (s : State) : Outcome := .next (drainEndReport p s)

end Sys2Proof.Machine
end

