-- ==== Sys2Proof/Machine/MediaEvents.lean ====
section
/-! DEFINITION. The meanings of the array's outcomes (R101) for the running job: READ (R110, R92), DRAIN (R111, R112, R89),
CLEAR (R113, R131), META (R114, R18) and RELOCATE (R118 to R122). An outcome for an operation that is not in progress, or
that the array does not give it, changes nothing (logs 5 and 15). -/

namespace Sys2Proof.Machine

/-- The write unit's command that issued the running job: the unit still holds the command of that number, and the job is
not abandoned (R108, R168). -/
def issuingCommand (o : JobOwner) (s : State) : Option PwuCommand :=
  if o.abandoned then none
  else (s.pwu.get o.issuer).command.filter (fun c => decide (c.serial = o.serial) && decide (c.stage = .issued))

/-! ### READ jobs (R92, R110) -/

/-- One sector delivered to its position in the issuer's read buffer (R91, R110). -/
def deliverSector (o : JobOwner) (sector : Nat) (data : SectorData) (s : State) : State :=
  match issuingCommand o s with
  | some c =>
    match c.action with
    | .read r _ =>
      s.modPlu o.issuer (fun u =>
        if u.holdsCommand o.serial then { u with buffer := u.buffer.set (sector - r.first) data } else u)
    | _ => s
  | none => s

/-- The completion of a READ whose job has ended, `failed` being the sector that read UNCORRECTABLE (R78, R92). -/
def readCompletion (c : PwuCommand) (r : Range) (remaining : List Nat) (corrected : Bool) (failed : Option Nat) :
    Completion :=
  let lost := !c.broken.isEmpty
  { status := if lost then .leaseLost else if failed.isSome then .uncorrectable else .done,
    flags := { corrected := corrected, staged := !lost && decide (remaining.length < r.count) },
    leaseId := if lost then lostLease c.serial c.broken else none,
    lastSector := some (failed.getD r.last),
    count := match failed with
      | some n => n - r.first
      | none => r.count }

/-- A READ job ends: the READ completes, unless it was abandoned, and the ME selects the next job (R92, R106, R110). -/
def endRead (o : JobOwner) (corrected : Bool) (failed : Option Nat) (s : State) : State :=
  endRunning (match issuingCommand o s with
    | some c =>
      match c.action with
      | .read r remaining =>
        completeRead o.issuer c.serial (readCompletion c r remaining corrected failed) (setCommand o.issuer none s)
      | _ => s
    | none => s)

/-- The counted events of a read that delivered its sector, and the candidate of a CORRECTED one (R110, R116). -/
def readEvents (o : JobOwner) (corrected : Bool) (raised : List Nat) (block : Nat) (s : State) : State :=
  let s1 := countEvent .readSector (some o.issuer) s
  if corrected then raiseOnce raised block (countEvent .corrected (some o.issuer) s1) else s1

/-- A read of a READ job ends (R110). -/
def readSectorOutcome (out : ReadOutcome) (s : State) : State :=
  match s.me.running with
  | some (.read o (n :: todo) delivered corrected raised) =>
    let ps := servingSector s.me n
    match readOutcomeAt s.me ps out with
    | none => s
    | some .uncorrectable => endRead o corrected (some n) s
    | some eff =>
      let weak := decide (eff = .corrected)
      let raised' := if weak then raisedWith raised (blockOf n) else raised
      let s1 := readEvents o weak raised (blockOf n) (deliverSector o n (readSectorData s.me.array ps) s)
      if todo.isEmpty then endRead o (corrected || weak) none s1
      else setRunning (.read o todo (delivered + 1) (corrected || weak) raised') s1
  | _ => s

/-! ### DRAIN jobs (R111, R112) -/

/-- An open sector's part of the payload released (R87, R111). -/
def PwuAction.releaseOpen (a : PwuAction) (sector : Nat) : PwuAction :=
  match a with
  | .write kept overflow flush leased opens => .write kept overflow flush leased (opens.filter (fun x => decide (x.sector ≠ sector)))
  | _ => a

/-- The slot that carried a sector leaves the write unit at its program's end, whatever the outcome; its lease id is kept
until the job's end report is taken (R87, R98, R111). -/
def WriteUnit.slotLeaves (u : WriteUnit) (sector : Nat) : WriteUnit :=
  { u with
    slots := u.slots.filter (fun x => !(decide (x.sector = sector) && decide (x.state = .draining))),
    drained := u.drained ++
      (u.slots.filter (fun x => decide (x.sector = sector) && decide (x.state = .draining))).map (fun x => x.leaseId) }

/-- The write unit's part of a program's end (R87, R111). -/
def programEnds (o : JobOwner) (sector : Nat) (s : State) : State :=
  let s1 := match issuingCommand o s with
    | some c => setCommand o.issuer (some { c with action := c.action.releaseOpen sector }) s
    | none => s
  s1.modPwu o.issuer (fun u => u.slotLeaves sector)

/-- The end of a DRAIN job: its COMMITTED event, its report for the lease engine, the next job (R89, R95, R97, R106,
R112). -/
def endDrain (o : JobOwner) (done : List Nat) (firstFault : Option Nat) (s : State) : State :=
  let s1 := if done.isEmpty then s else committedEvent o.issuer done s
  endRunning (handRequest o.issuer
    (.report { serial := o.serial, okCount := done.length, firstFault := firstFault }) s1)

/-- The array's part of a program's end, with what is counted or raised (R101, R102, R111, R116). -/
def programResult (o : JobOwner) (x : SectorItem) (raised : List Nat) (out : OpOutcome) (s : State) : State :=
  match out with
  | .ok => countEvent .drainSector (some o.issuer) (s.modMe (fun m => m.programOk (servingSector m x.sector) x.data))
  | .fault => raiseOnce raised (blockOf x.sector) s

/-- A program of a DRAIN job ends (R111). -/
def programSectorOutcome (out : OpOutcome) (s : State) : State :=
  match s.me.running with
  | some (.drain o (x :: todo) done firstFault raised) =>
    let s1 := programEnds o x.sector (programResult o x raised out s)
    let done' := if out = .ok then done ++ [x.sector] else done
    let fault' := if out = .fault then some (firstFault.getD x.sector) else firstFault
    let raised' := if out = .fault then raisedWith raised (blockOf x.sector) else raised
    if todo.isEmpty then endDrain o done' fault' s1 else setRunning (.drain o todo done' fault' raised') s1
  | _ => s

/-! ### CLEAR jobs (R113, R131) -/

/-- The range of the blocks cleared OK, which lead the list: from the first sector of the first to the last sector of the
last (R131). -/
def clearedRange (done : List Nat) : Option Range := hull (done.map blockRange)

/-- The detail of a CLEAR whose job has ended: the pending range if there is one, and the block whose clear faulted; before
that block an absent range is sent as FFFFh twice (R131, R178; log 18). -/
def clearDetail (pending : Option Range) (failed : Option Nat) : List Byte :=
  match failed with
  | none => pendingDetail pending
  | some b =>
    (match pending with
     | some q => wordItem q.first ++ wordItem q.count
     | none => absentWord ++ absentWord) ++ wordItem b

/-- The completion of a CLEAR whose job has ended, `failed` being the block whose clear faulted and `pending` the range
formed at its acceptance if it still exists (R78, R131; logs 17 and 18). -/
def clearCompletion (c : PwuCommand) (overflow : Bool) (done : List Nat) (failed : Option Nat) (pending : Option Range) :
    Completion :=
  let lost := !c.broken.isEmpty
  { status := if lost then .leaseLost else if failed.isSome then .writeFault else if overflow then .overflow else .done,
    flags := { holdExpired := c.holdExpired, pending := !lost && pending.isSome },
    leaseId := if lost then lostLease c.serial c.broken else none,
    lastSector := (clearedRange done).map Range.last,
    count := Config.blockSectors * done.length,
    detail := if lost then [] else clearDetail pending failed }

/-- The end of a CLEAR job: its CLEARED event, the CLEAR's completion unless it was abandoned, the next job (R106, R108,
R131). -/
def endClear (o : JobOwner) (done : List Nat) (failed : Option Nat) (s : State) : State :=
  let s1 := match clearedRange done with
    | some r => clearedEvent o.issuer r s
    | none => s
  endRunning (match issuingCommand o s1 with
    | some c =>
      match c.action with
      | .clear _ overflow formed =>
        let pending := (s1.pwu.get o.issuer).pendingClear.filter (fun q => decide (some q = formed))
        complete o.issuer c.serial (clearCompletion c overflow done failed pending) (setCommand o.issuer none s1)
      | _ => s1
    | none => s1)

/-- A block clear of a CLEAR job ends (R113). -/
def clearBlockOutcome (out : OpOutcome) (s : State) : State :=
  match s.me.running with
  | some (.clear o (b :: todo) done raised) =>
    match out with
    | .ok =>
      let s1 := s.modMe (fun m => m.clearOk (servingBlock m b))
      if todo.isEmpty then endClear o (done ++ [b]) none s1
      else setRunning (.clear o todo (done ++ [b]) raised) s1
    | .fault => endClear o done (some b) (raiseOnce raised b s)
  | _ => s

/-! ### META jobs (R18, R114) -/

/-- The completion of SAVE CONFIG (R18). -/
def metaCompletion : OpOutcome → Completion
  | .ok => { status := .done, count := 1 }
  | .fault => { status := .writeFault }

/-- The metadata record programmed, or left as it was, and the device status flags (R9, R102, R114). -/
def recordResult (r : MetaRecord) (out : OpOutcome) (s : State) : State :=
  metadataFlags out (match out with
    | .ok => s.modMe (fun m => m.recordOk r)
    | .fault => s)

/-- The program of a META job ends (R18, R114). -/
def metaProgramOutcome (out : OpOutcome) (s : State) : State :=
  match s.me.running with
  | some (.metadata o r) =>
    let s1 := recordResult r out s
    endRunning (match issuingCommand o s1 with
      | some c => complete o.issuer c.serial (metaCompletion out) (setCommand o.issuer none s1)
      | none => s1)
  | _ => s

/-! ### RELOCATE jobs (R118 to R122) -/

/-- Step 1: the clear of the target spare ends (R118). -/
def relocateSpareClear (out : OpOutcome) (s : State) : State :=
  match s.me.running with
  | some (.relocate b t .clearSpare) =>
    match out with
    | .ok => setRunning (.relocate b t (.copyRead 0)) (s.modMe (fun m => m.clearOk t))
    | .fault => endRelocate .relocateFailed b (retireSpare t s)
  | _ => s

/-- Step 2: a copy read ends (R119). -/
def relocateCopyRead (out : ReadOutcome) (s : State) : State :=
  match s.me.running with
  | some (.relocate b t (.copyRead i)) =>
    let ps := physicalSector (servingBlock s.me b) i
    match readOutcomeAt s.me ps out with
    | none => s
    | some .uncorrectable => endRelocate .relocateFailed b s
    | some _ => setRunning (.relocate b t (.copyProgram i (readSectorData s.me.array ps))) s
  | _ => s

/-- The record of step 3: the saved image and the sets as they will stand after the switch (R120). -/
def relocationRecord (b t : Nat) (s : State) : MetaRecord :=
  recordFrom s (remapWith s.me b t).1 (remapWith s.me b t).2

/-- The step after the copy of index `i`: the next index, or step 3 (R119, R120). -/
def stepAfterCopy (b t i : Nat) (s : State) : RelocateStep :=
  if i + 1 < Config.blockSectors then .copyRead (i + 1) else .writeRecord (relocationRecord b t s)

/-- Step 2: a copy program into the spare ends (R119). -/
def relocateCopyProgram (out : OpOutcome) (s : State) : State :=
  match s.me.running with
  | some (.relocate b t (.copyProgram i data)) =>
    match out with
    | .ok =>
      let s1 := s.modMe (fun m => m.programOk (physicalSector t i) data)
      setRunning (.relocate b t (stepAfterCopy b t i s1)) s1
    | .fault => endRelocate .relocateFailed b (retireSpare t s)
  | _ => s

/-- Steps 3 and 4: the program of the metadata record ends; on OK the remap switches (R120, R121). -/
def relocateMetadata (out : OpOutcome) (s : State) : State :=
  match s.me.running with
  | some (.relocate b t (.writeRecord r)) =>
    let s1 := recordResult r out s
    match out with
    | .ok => endRelocate .relocated b (switchRemap b t s1)
    | .fault => endRelocate .relocateFailed b s1
  | _ => s

/-! ### The meanings -/

/-- An array outcome: it stops with a fault if the operation in progress lies outside the array (log 24). -/
def arrayOutcome (effect : State → State) (s : State) : Outcome :=
  if operationInArray s then .next (effect s) else .fault .outsideArray

/-- READ_SECTOR_OUTCOME (R110). -/
def execReadSectorOutcome (o : ReadOutcome) (s : State) : Outcome := arrayOutcome (readSectorOutcome o) s

/-- PROGRAM_SECTOR_OUTCOME (R111). -/
def execProgramSectorOutcome (o : OpOutcome) (s : State) : Outcome := arrayOutcome (programSectorOutcome o) s

/-- CLEAR_BLOCK_OUTCOME (R113). -/
def execClearBlockOutcome (o : OpOutcome) (s : State) : Outcome := arrayOutcome (clearBlockOutcome o) s

/-- META_PROGRAM_OUTCOME (R114). -/
def execMetaProgramOutcome (o : OpOutcome) (s : State) : Outcome := arrayOutcome (metaProgramOutcome o) s

/-- RELOCATE_SPARE_CLEAR_OUTCOME (R118). -/
def execRelocateSpareClearOutcome (o : OpOutcome) (s : State) : Outcome := arrayOutcome (relocateSpareClear o) s

/-- RELOCATE_COPY_READ_OUTCOME (R119). -/
def execRelocateCopyReadOutcome (o : ReadOutcome) (s : State) : Outcome := arrayOutcome (relocateCopyRead o) s

/-- RELOCATE_COPY_PROGRAM_OUTCOME (R119). -/
def execRelocateCopyProgramOutcome (o : OpOutcome) (s : State) : Outcome := arrayOutcome (relocateCopyProgram o) s

/-- RELOCATE_METADATA_OUTCOME (R120). -/
def execRelocateMetadataOutcome (o : OpOutcome) (s : State) : Outcome := arrayOutcome (relocateMetadata o) s

end Sys2Proof.Machine
end

