-- ==== Sys2Proof/Machine/ResetEvents.lean ====
section
/-! DEFINITION. The meanings of the device reset, of the metadata load's reads and of the end of the device reset (R10 to
R12, R103, R104, R109, R177, R179). -/

namespace Sys2Proof.Machine

/-! ### The device reset (R10, R103, R109) -/

/-- The physical sectors that the cut operation leaves unreadable: the sector of a cut program, every sector of a cut
clear's block, none for a cut read (R103, R109). -/
def cutSectors (s : State) : List Nat :=
  match s.me.running with
  | some (.drain _ (x :: _) _ _ _) => [servingSector s.me x.sector]
  | some (.clear _ (b :: _) _ _) => sectorsOfBlock (servingBlock s.me b)
  | some (.metadata _ _) => [metadataSector]
  | some (.relocate _ t .clearSpare) => sectorsOfBlock t
  | some (.relocate _ t (.copyProgram i _)) => [physicalSector t i]
  | some (.relocate _ _ (.writeRecord _)) => [metadataSector]
  | _ => []

/-- Device reset: every block takes its reset state over what the array holds, the running operation is cut, the device is
in STARTING with RST asserted; the commands that wait stay (R10, R103, R109, R177; log 13). -/
def deviceReset (s : State) : State :=
  State.resetOver s.me.array (s.me.spoil (cutSectors s)).unreadable s.me.record s.pending

/-! ### The metadata load (R10 to R12) -/

/-- No two defined entries share a sector (R3, R10). -/
def regionsApart : List (Nat × Region) → Bool
  | [] => true
  | x :: t => t.all (fun y => !x.2.range.overlaps y.2.range) && regionsApart t

/-- The region entries of a record are ones that R10 accepts. -/
def regionsValid (l : List (Option Region)) : Bool :=
  decide (l.length = 8) &&
    (regionsFrom 0 l).all (fun x => decide (x.2.first ≤ x.2.last) && decide (x.2.last < Config.userSectors)) &&
    regionsApart (regionsFrom 0 l)

/-- The settings of a record are ones that R10 accepts. -/
def settingsValid (t : Settings) : Bool :=
  regionsValid t.regions && decide (1 ≤ t.period) && decide (t.period ≤ 255) && decide (1 ≤ t.hold) &&
    decide (t.hold ≤ 255) && decide (1 ≤ t.quota) && decide (t.quota ≤ 64)

/-- No number of the list appears twice. -/
def allDifferent : List Nat → Bool
  | [] => true
  | n :: t => !t.contains n && allDifferent t

/-- The remap table and the retired list of a record are ones that R10 accepts. -/
def sparesValid (remap : List (Nat × Nat)) (retired : List Nat) : Bool :=
  remap.all (fun e => decide (e.1 < 1024) && Config.spares.contains e.2) && allDifferent (remap.map Prod.fst) &&
    allDifferent (remap.map Prod.snd) && retired.all (fun n => Config.spares.contains n) && allDifferent retired &&
    retired.all (fun n => !(remap.map Prod.snd).contains n)

/-- The record is one that R10 accepts, when every read ended CLEAN or CORRECTED. -/
def recordValid (r : MetaRecord) : Bool := r.checkOk && settingsValid r.settings && sparesValid r.remap r.retired

/-- The record that the load accepts, if it does (R10). -/
def acceptedRecord (s : State) : Option MetaRecord :=
  if s.me.loadBad then none else s.me.record.filter recordValid

/-- The sets and the image that the load ends with: the record's, or the defaults (R10, R11). -/
def loadedRecord (s : State) : MetaRecord :=
  (acceptedRecord s).getD { settings := Settings.default, remap := [], retired := [], checkOk := true }

/-- The spares in neither the remap table nor the retired list (R12). -/
def poolOf (remap : List (Nat × Nat)) (retired : List Nat) : List Nat :=
  Config.spares.filter (fun n => !(remap.map Prod.snd).contains n && !retired.contains n)

/-- A remap table in the order of its logical blocks (R115). -/
def sortRemap (l : List (Nat × Nat)) : List (Nat × Nat) := l.foldl (fun t e => insertRemap e.1 e.2 t) []

/-- A list of spares in ascending order (R115). -/
def sortSpares (l : List Nat) : List Nat := l.foldl (fun t n => insertAsc n t) []

/-- The end of the metadata load: live settings, spare pool, supervisor port, READY, the rotation timer's first period
(R10 to R12). -/
def endLoad (s : State) : State :=
  let r := loadedRecord s
  let s1 := s.modMe (fun m => { m with remap := sortRemap r.remap, retired := sortSpares r.retired,
                                       pool := poolOf r.remap r.retired })
  let s2 := s1.modAc (fun a => { a with image := r.settings, regions := r.settings.regions,
                                        holdLimit := r.settings.hold, quota := r.settings.quota,
                                        supervisor := s.supsel, metaInvalid := (acceptedRecord s).isNone })
  let s3 := s2.modEu (fun e => { e with period := r.settings.period, periodLength := r.settings.period, running := true })
  { s3 with device := .ready }

/-- The load ends when its 32 reads have ended and the device reset is over (R10, R12; log 13). -/
def endLoadIfDone (s : State) : State :=
  if s.device = .starting ∧ s.me.loadReads = Config.loadReads ∧ s.rstHeld = false then endLoad s else s

/-- A read of the metadata block ends in LOADING: the first of the 32 is sector 0's (R10). -/
def loadRead (o : ReadOutcome) (s : State) : State :=
  if s.device = .starting ∧ s.me.loadReads < Config.loadReads then
    match readOutcomeAt s.me (metadataSector + s.me.loadReads) o with
    | none => s
    | some eff =>
      endLoadIfDone (s.modMe (fun m =>
        { m with loadReads := m.loadReads + 1, loadBad := m.loadBad || decide (eff = .uncorrectable) }))
  else s

/-- The end of the device reset: RST released, SUPSEL1 and SUPSEL0 sampled, frames taken again (R177, R179). -/
def releaseRst (supsel : BitVec 2) (s : State) : State :=
  if s.rstHeld then endLoadIfDone { s with rstHeld := false, supsel := Port.ofPins supsel } else s

/-! ### The meanings -/

/-- DEVICE_RESET (R10). -/
def execDeviceReset (s : State) : Outcome := .next (deviceReset s)

/-- METADATA_LOAD_READ_OUTCOME (R10). -/
def execMetadataLoadReadOutcome (o : ReadOutcome) (s : State) : Outcome := .next (loadRead o s)

/-- END_OF_DEVICE_RESET (R179). -/
def execEndOfDeviceReset (supsel : BitVec 2) (s : State) : Outcome := .next (releaseRst supsel s)

end Sys2Proof.Machine
end

