-- ==== Sys2Proof/Machine/Dispatch.lean ====
section
/-! DEFINITION. The meaning of every command: one arm per constructor. -/

namespace Sys2Proof.Machine

/-- A command's effect on everything but the queue of waiting commands. -/
def exec (i : Instr) (s : State) : Host.Outcome State Fault Refusal :=
  match i with
  | .deviceReset => Sys2Proof.Machine.execDeviceReset s
  | .metadataLoadReadOutcome o => Sys2Proof.Machine.execMetadataLoadReadOutcome o s
  | .rotationExpiry => Sys2Proof.Machine.execRotationExpiry s
  | .sweep => Sys2Proof.Machine.execSweep s
  | .waitDeadlineExpiry p => Sys2Proof.Machine.execWaitDeadlineExpiry p s
  | .holdDeadlineExpiry p => Sys2Proof.Machine.execHoldDeadlineExpiry p s
  | .status p n => Sys2Proof.Machine.execStatus p n s
  | .result p n => Sys2Proof.Machine.execResult p n s
  | .fetchData p n => Sys2Proof.Machine.execFetchData p n s
  | .fetchNotice p n => Sys2Proof.Machine.execFetchNotice p n s
  | .cancel p n => Sys2Proof.Machine.execCancel p n s
  | .cancelParked p => Sys2Proof.Machine.execCancelParked p s
  | .cancelHeld p => Sys2Proof.Machine.execCancelHeld p s
  | .portReset p n => Sys2Proof.Machine.execPortReset p n s
  | .unknownOpcodeFrame p opcode n => Sys2Proof.Machine.execUnknownOpcodeFrame p opcode n s
  | .leTeardown p => Sys2Proof.Machine.execLeTeardown p s
  | .pwuTeardown p => Sys2Proof.Machine.execPwuTeardown p s
  | .meTeardown p => Sys2Proof.Machine.execMeTeardown p s
  | .nuTeardown p => Sys2Proof.Machine.execNuTeardown p s
  | .swbTeardown p => Sys2Proof.Machine.execSwbTeardown p s
  | .acquire p first count mode wait n => Sys2Proof.Machine.execAcquire p first count mode wait n s
  | .upgrade p id wait n => Sys2Proof.Machine.execUpgrade p id wait n s
  | .downgrade p id n => Sys2Proof.Machine.execDowngrade p id n s
  | .renew p id n => Sys2Proof.Machine.execRenew p id n s
  | .renewAll p selector n => Sys2Proof.Machine.execRenewAll p selector n s
  | .release p id discard n => Sys2Proof.Machine.execRelease p id discard n s
  | .queryLease p id n => Sys2Proof.Machine.execQueryLease p id n s
  | .read p first count n => Sys2Proof.Machine.execRead p first count n s
  | .write p first count payload n => Sys2Proof.Machine.execWrite p first count payload n s
  | .commit p id n => Sys2Proof.Machine.execCommit p id n s
  | .commitAll p selector n => Sys2Proof.Machine.execCommitAll p selector n s
  | .clear p first count n => Sys2Proof.Machine.execClear p first count n s
  | .querySector p sector n => Sys2Proof.Machine.execQuerySector p sector n s
  | .setWatch p index target first count wordSet kinds includeSelf hold n => Sys2Proof.Machine.execSetWatch p index target first count wordSet kinds includeSelf hold n s
  | .dropWatch p index n => Sys2Proof.Machine.execDropWatch p index n s
  | .setLevels p high low n => Sys2Proof.Machine.execSetLevels p high low n s
  | .setAttnMask p mask n => Sys2Proof.Machine.execSetAttnMask p mask n s
  | .signalRead p word n => Sys2Proof.Machine.execSignalRead p word n s
  | .signalModify p word mask value n => Sys2Proof.Machine.execSignalModify p word mask value n s
  | .deviceInfo p n => Sys2Proof.Machine.execDeviceInfo p n s
  | .counterSetup p counter event qualifier n => Sys2Proof.Machine.execCounterSetup p counter event qualifier n s
  | .counterRead p counter n => Sys2Proof.Machine.execCounterRead p counter n s
  | .setRegion p index first last access mode n => Sys2Proof.Machine.execSetRegion p index first last access mode n s
  | .setRegionUndefine p index action n => Sys2Proof.Machine.execSetRegionUndefine p index action n s
  | .setLeasePeriod p period n => Sys2Proof.Machine.execSetLeasePeriod p period n s
  | .setHoldLimit p limit n => Sys2Proof.Machine.execSetHoldLimit p limit n s
  | .setQuota p quota n => Sys2Proof.Machine.execSetQuota p quota n s
  | .saveConfig p n => Sys2Proof.Machine.execSaveConfig p n s
  | .breakLease p id n => Sys2Proof.Machine.execBreak p id n s
  | .fence p target n => Sys2Proof.Machine.execFence p target n s
  | .unfence p target n => Sys2Proof.Machine.execUnfence p target n s
  | .jobIssue p => Sys2Proof.Machine.execJobIssue p s
  | .readSectorOutcome o => Sys2Proof.Machine.execReadSectorOutcome o s
  | .programSectorOutcome o => Sys2Proof.Machine.execProgramSectorOutcome o s
  | .drainEndReport p => Sys2Proof.Machine.execDrainEndReport p s
  | .clearBlockOutcome o => Sys2Proof.Machine.execClearBlockOutcome o s
  | .metaProgramOutcome o => Sys2Proof.Machine.execMetaProgramOutcome o s
  | .relocateSpareClearOutcome o => Sys2Proof.Machine.execRelocateSpareClearOutcome o s
  | .relocateCopyReadOutcome o => Sys2Proof.Machine.execRelocateCopyReadOutcome o s
  | .relocateCopyProgramOutcome o => Sys2Proof.Machine.execRelocateCopyProgramOutcome o s
  | .relocateMetadataOutcome o => Sys2Proof.Machine.execRelocateMetadataOutcome o s
  | .endOfDeviceReset supsel => Sys2Proof.Machine.execEndOfDeviceReset supsel s

end Sys2Proof.Machine
end

