-- ==== Sys2Proof/Safety.lean ====
section
/-! DEFINITION. What the statements speak of: when a port takes a slot command, how an answered command leaves the port,
and the invariants of the machine. -/

namespace Sys2Proof.Machine

/-! ### When a frame is taken and when a command is served at once -/

/-- The port takes frames: RST released, READY, not fenced (R165, R177). -/
def openPort (p : Port) (s : State) : Bool :=
  !s.rstHeld && decide (s.device = .ready) && !(s.plu.get p).fenced

/-- No request waits at the lease engine, and no released job anywhere (R24, R152). -/
def engineIdle (s : State) : Bool :=
  s.released.isEmpty && Port.all.all (fun q => (s.le.requests.get q).isEmpty)

/-- Nothing waits at any block: no sweep asked, no request at the lease engine, no released job, no teardown and no slot
command handed over and not taken (R24, R65, R152, R176). -/
def quiet (s : State) : Bool :=
  decide (s.le.sweepsAsked = 0) && engineIdle s &&
    Port.all.all (fun q => decide (s.teardown.get q = Teardowns.clear) && (s.plu.get q).waiting.isNone)

/-- The lease engine's next request is the port's oldest, and no other waits: no sweep asked, no released job (R24, R65). -/
def onlyRequest (p : Port) (r : LeRequest) (s : State) : Bool :=
  decide (s.le.sweepsAsked = 0) && s.released.isEmpty && decide (s.le.requests.get p = [r]) &&
    Port.all.all (fun q => decide (q = p) || (s.le.requests.get q).isEmpty)

/-- The state after the port's only request is taken out: the round-robin goes on to the next port (R24). -/
def tookRequest (p : Port) (s : State) : State :=
  s.modLe (fun x => { x with requests := x.requests.set p [], rrNext := p.next })

/-- The port accepts a slot command and its owner takes it at once (R165, R167). -/
def freePort (p : Port) (s : State) : Bool := openPort p s && decide ((s.plu.get p).slot = .idle) && quiet s

/-- No job of the port is at the media engine (R82). -/
def noJob (p : Port) (s : State) : Bool := !jobAtMe p s

/-! ### What a frame leaves at its port -/

/-- The bytes that a frame of `len` complete bytes shifts out in state `s` (R163, R164, R166). -/
def shownBytes (p : Port) (s : State) (response : List Byte) (len : Nat) : List Byte :=
  frameOut (statusByte p s) (reasonByte (s.plu.get p).reason) response len

/-- The port's link unit at the moment its command is taken: the slot is BUSY and nothing waits any more. -/
def Plu.busyWith (u : Plu) (opcode : Byte) : Plu :=
  { u with record := none, resultReady := false, rejected := false, slot := .busy, opcode := opcode,
           serial := u.serial + 1, waiting := none }

/-- The state after a free port's acceptance of a slot command, as its owner finds it (R167). -/
def acceptedIn (p : Port) (opcode : Byte) (s : State) : State := s.modPlu p (fun u => u.busyWith opcode)

/-- The same, as the lease engine finds it: the round-robin goes on to the next port (R24). -/
def takenByLe (p : Port) (opcode : Byte) (s : State) : State := servedPort p (acceptedIn p opcode s)

/-- The state in which the owner of a slot command takes it, when the port was free (R24, R167). -/
def takenState (p : Port) (opcode : Byte) (c : SlotCommand) (s : State) : State :=
  if c.owners.le then takenByLe p opcode s else acceptedIn p opcode s

/-- The number of the slot command that the port accepts next (log 21). -/
def nextSerial (p : Port) (s : State) : Nat := (s.plu.get p).serial + 1

/-- The defined length of a slot command's frame (R163, R178). -/
def slotLength? : Instr → Option Nat
  | .acquire _ _ _ _ _ _ => some 8
  | .upgrade _ _ _ _ => some 4
  | .downgrade _ _ _ => some 3
  | .renew _ _ _ => some 4
  | .renewAll _ _ _ => some 4
  | .release _ _ _ _ => some 4
  | .queryLease _ _ _ => some 3
  | .read _ _ _ _ => some 5
  | .write _ _ count _ _ => some (5 + payloadLength count)
  | .commit _ _ _ => some 4
  | .commitAll _ _ _ => some 4
  | .clear _ _ _ _ => some 6
  | .querySector _ _ _ => some 4
  | .setWatch _ _ _ _ _ _ _ _ _ _ => some 13
  | .dropWatch _ _ _ => some 3
  | .setLevels _ _ _ _ => some 4
  | .setAttnMask _ _ _ => some 3
  | .signalRead _ _ _ => some 3
  | .signalModify _ _ _ _ _ => some 7
  | .deviceInfo _ _ => some 2
  | .counterSetup _ _ _ _ _ => some 5
  | .counterRead _ _ _ => some 3
  | .setRegion _ _ _ _ _ _ _ => some 10
  | .setRegionUndefine _ _ _ _ => some 10
  | .setLeasePeriod _ _ _ => some 3
  | .setHoldLimit _ _ _ => some 3
  | .setQuota _ _ _ => some 3
  | .saveConfig _ _ => some 2
  | .breakLease _ _ _ => some 3
  | .fence _ _ _ => some 3
  | .unfence _ _ _ => some 3
  | _ => none

/-- The slot command that a frame carries, with its parameters as the layout gives them (R178). -/
def slotCommand? : Instr → Option SlotCommand
  | .acquire _ first count mode wait _ => some (.acquire first count mode wait)
  | .upgrade _ id wait _ => some (.upgrade id wait)
  | .downgrade _ id _ => some (.downgrade id)
  | .renew _ id _ => some (.renew id)
  | .renewAll _ _ _ => some .renewAll
  | .release _ id discard _ => some (.release id discard)
  | .queryLease _ id _ => some (.queryLease id)
  | .read _ first count _ => some (.read first count)
  | .write _ first count payload _ => some (.write first count payload)
  | .commit _ id _ => some (.commit id)
  | .commitAll _ _ _ => some .commitAll
  | .clear _ first count _ => some (.clear first count)
  | .querySector _ sector _ => some (.querySector sector)
  | .setWatch _ index target first count wordSet kinds includeSelf hold _ =>
    some (.setWatch index target first count wordSet kinds includeSelf hold)
  | .dropWatch _ index _ => some (.dropWatch index)
  | .setLevels _ high low _ => some (.setLevels high low)
  | .setAttnMask _ mask _ => some (.setAttnMask mask)
  | .signalRead _ word _ => some (.signalRead word)
  | .signalModify _ word mask value _ => some (.signalModify word mask value)
  | .deviceInfo _ _ => some .deviceInfo
  | .counterSetup _ counter event qualifier _ => some (.counterSetup counter event qualifier)
  | .counterRead _ counter _ => some (.counterRead counter)
  | .setRegion _ index first last access mode _ => some (.setRegion index first last access mode)
  | .setRegionUndefine _ index _ _ => some (.setRegionUndefine index)
  | .setLeasePeriod _ period _ => some (.setLeasePeriod period)
  | .setHoldLimit _ limit _ => some (.setHoldLimit limit)
  | .setQuota _ quota _ => some (.setQuota quota)
  | .saveConfig _ _ => some .saveConfig
  | .breakLease _ id _ => some (.breakLease id)
  | .fence _ target _ => some (.fence target)
  | .unfence _ target _ => some (.unfence target)
  | _ => none

/-- Does a teardown of the port wait at a block behind whose teardown the command is taken (R176)? -/
def SlotCommand.behindTeardown (c : SlotCommand) (t : Teardowns) : Bool :=
  (c.owners.pwu && t.pwu) || (c.owners.nu && t.nu) || (c.owners.swb && t.swb)

/-- A READ, WRITE, CLEAR or QUERY SECTOR whose parameters its rule refuses before any check of leases: it is no request at
the lease engine (R19, R24, R84, R91, R125). -/
def SlotCommand.paramsRefused : SlotCommand → Bool
  | .read first count =>
    decide (count = 0#8) || decide (4 < count.toNat) || decide (32768 < first.toNat + count.toNat)
  | .write first count _ => decide (count = 0#8) || decide (4 < count.toNat) || decide (32768 ≤ first.toNat)
  | .clear first count => decide (count = 0#16) || decide (32768 < count.toNat) || decide (32768 ≤ first.toNat)
  | .querySector sector => decide (32768 ≤ sector.toNat)
  | _ => false

/-! ### The commands that have a job (R82, R83) -/

/-- Every sector of the range passes the region check and the lease check of a data command of the port (R5). -/
def Covered (p : Port) (write : Bool) (r : Range) (s : State) : Prop :=
  ∀ n ∈ r.sectors, accessFails p write s n = false ∧ leaseFails p write s n = false

/-- What a WRITE or CLEAR of `count` sectors from `first` keeps of its range, and whether it was truncated (R1). -/
def KeptRange (first count : Nat) (kept : Range) (cut : Bool) : Prop :=
  cut = false ∧ first + count ≤ 32768 ∧ kept = { first := first, count := count } ∨
    cut = true ∧ 32768 < first + count ∧ kept = { first := first, count := 32768 - first }

/-- A slot command of a free port that passes its checks and has a job: the frame, what the command does at the media
engine, the leases it is bound to, and the state after all of its effects but the job's and the write unit's note of the
command. -/
inductive HasJob (p : Port) (len : Nat) (s : State) : Instr → PwuAction → List Nat → State → Prop
  /-- READ of sectors that are not all STAGED (R91). -/
  | read (first : Word16) (count : Byte) (r : Range) (rest : List Nat) : 5 ≤ len →
      r = { first := first.toNat, count := count.toNat } → 1 ≤ r.count → r.count ≤ 4 → r.first + r.count ≤ 32768 →
      Covered p false r s → rest = r.sectors.filter (fun n => !(s.pwu.get p).hasStaged n) → rest ≠ [] →
      HasJob p len s (.read p first count len) (.read r rest) (coveringLeases p false r s)
        ((renewLeases (coveringLeases p false r s) (takenByLe p 0x20#8 s)).modPlu p (fun u =>
          { u with buffer := copyStaged (s.pwu.get p) r [[], [], [], []], valid := 0 }))
  /-- WRITE with open sectors, or with more new slots than are free (R85). -/
  | write (first : Word16) (count : Byte) (payload : List Byte) (r : Range) (cut flush : Bool)
      (leased : List LeasedSector) (opens : List SectorItem) : 1 ≤ count.toNat → count.toNat ≤ 4 →
      5 + 512 * count.toNat ≤ len → 512 * count.toNat ≤ payload.length → first.toNat < 32768 →
      KeptRange first.toNat count.toNat r cut → Covered p true r s →
      leased = leasedItems p (writeItems r payload) s → opens = openItemsOf (writeItems r payload) s →
      flush = decide (8 - (s.pwu.get p).slots.length < newSlots (s.pwu.get p) leased) → opens ≠ [] ∨ flush = true →
      HasJob p len s (.write p first count payload len) (.write r cut flush leased opens) (coveringLeases p true r s)
        ((renewLeases (coveringLeases p true r s) (takenByLe p 0x21#8 s)).modPwu p (fun u =>
          { u with pendingClear := none }))
  /-- COMMIT of a HELD lease with STAGED slots (R94). -/
  | commit (id : Byte) (l : Lease) : 4 ≤ len → ownHeldLease p id.toNat s = some l →
      (s.pwu.get p).slots.filter (PwuAction.commit (some id.toNat)).takes ≠ [] →
      HasJob p len s (.commit p id len) (.commit (some id.toNat)) [id.toNat]
        (renewLease id.toNat (takenByLe p 0x22#8 s))
  /-- COMMIT ALL with STAGED slots (R94). -/
  | commitAll (selector : Byte) : 4 ≤ len → (s.pwu.get p).slots.filter (PwuAction.commit none).takes ≠ [] →
      HasJob p len s (.commitAll p selector len) (.commit none) (stagedLeases (s.pwu.get p))
        (renewLeases ((heldLeases p s).filter (fun id => (stagedLeases (s.pwu.get p)).contains id))
          (takenByLe p 0x22#8 s))
  /-- CLEAR whose effective range has whole blocks (R127, R128, R130). -/
  | clear (first count : Word16) (cmd eff : Range) (cut : Bool) : 6 ≤ len → 1 ≤ count.toNat → count.toNat ≤ 32768 →
      first.toNat < 32768 → KeptRange first.toNat count.toNat cmd cut → Covered p true cmd s →
      eff = effectiveRange cmd (s.pwu.get p).pendingClear → wholeBlocks eff ≠ [] →
      HasJob p len s (.clear p first count len) (.clear (wholeBlocks eff) cut (pendingAfter eff))
        (clearBound p cmd (wholeBlocks eff) s)
        ((renewLeases (coveringLeases p true cmd s) (takenByLe p 0x23#8 s)).modPwu p (fun u =>
          { u with pendingClear := pendingAfter eff }))
  /-- RELEASE without the discard flag of a HELD lease with STAGED slots (R37). -/
  | release (id : Byte) (l : Lease) : 4 ≤ len → ownHeldLease p id.toNat s = some l →
      (s.pwu.get p).stagedCount id.toNat ≠ 0 →
      HasJob p len s (.release p id 0#8 len) (.release id.toNat) [id.toNat]
        ((takenByLe p 0x14#8 s).modPwu p (fun u => u.dropPending l.range))
  /-- DOWNGRADE of a HELD EXCLUSIVE lease with STAGED slots (R32). -/
  | downgrade (id : Byte) (l : Lease) : 3 ≤ len → ownHeldLease p id.toNat s = some l → l.mode = .exclusive →
      (s.pwu.get p).stagedCount id.toNat ≠ 0 →
      HasJob p len s (.downgrade p id len) (.downgrade id.toNat) [id.toNat]
        ((takenByLe p 0x12#8 s).modPwu p (fun u => u.dropPending l.range))
  /-- SAVE CONFIG of the supervisor port (R18). -/
  | saveConfig : 2 ≤ len → p = s.ac.supervisor →
      HasJob p len s (.saveConfig p len) .saveConfig []
        ((acceptedIn p 0x64#8 s).modAc (fun a =>
          { a with image := { regions := s.ac.regions, period := s.eu.period, hold := s.ac.holdLimit,
                              quota := s.ac.quota } }))

/-- What the notice unit is asked before a command's job is issued: the kind of change, and the sectors that a drain
programs or the blocks that a CLEAR clears (R83, R150). -/
def AsksHold (a : PwuAction) (u : WriteUnit) (k : ChangeKind) (changed : List Range) : Prop :=
  a.isDrain = true ∧ k = .committed ∧ changed = (drainItems a u).map (fun x => Range.single x.sector) ∨
    ∃ blocks cut formed, a = .clear blocks cut formed ∧ k = .cleared ∧ changed = blocks.map blockRange

/-- Is the command one of the supervisor port's (R180)? -/
def supervisorOnly : Instr → Bool
  | .setRegion _ _ _ _ _ _ _ | .setRegionUndefine _ _ _ _ | .setLeasePeriod _ _ _ | .setHoldLimit _ _ _
  | .setQuota _ _ _ | .saveConfig _ _ | .breakLease _ _ _ | .fence _ _ _ | .unfence _ _ _ => true
  | _ => false

/-! ### Invariants -/

/-- A port's notice queue holds at most 16 records, its levels are in range with low below high, it is CONGESTED at its
high level and NORMAL at its low level (R145, R147). -/
def NuPort.sound (u : NuPort) : Bool :=
  decide (u.queue.length ≤ Config.noticeCapacity) && decide (1 ≤ u.high) && decide (u.high ≤ Config.noticeCapacity) &&
    decide (u.low < u.high) && (!decide (u.high ≤ u.queue.length) || u.congested) &&
    (!decide (u.queue.length ≤ u.low) || !u.congested)

/-- Every port's notice state is sound. -/
def noticesSound (s : State) : Bool := Port.all.all (fun p => (s.nu.get p).sound)

/-- The copy step of a running RELOCATE job is at an index of a block (R119). -/
def copyInBlock (me : MediaEngine) : Bool :=
  match me.running with
  | some (.relocate _ _ (.copyRead i)) => decide (i < Config.blockSectors)
  | some (.relocate _ _ (.copyProgram i _)) => decide (i < Config.blockSectors)
  | _ => true

/-- The array's bytes have their canonical form: addresses rise, lie inside the array, and no listed byte is blank. -/
def arraySound (s : State) : Bool := Memory.wf s.me.array && copyInBlock s.me

/-- The lease table has 64 slots, and filled slots and parked ACQUIRE entries number at most 64 (R20, R22). -/
def tableBounded (s : State) : Bool :=
  decide (s.le.table.length = Config.leaseSlots) && decide (occupancy s ≤ Config.leaseSlots)

/-- Every HELD lease has an age of at most 2 (R68). -/
def heldYoung (s : State) : Bool :=
  (leases s).all (fun x => decide (x.2.state ≠ .held) || decide (leaseAge s x.2 ≠ 3#2))

/-- While the device is in STARTING, and while a port is fenced, the port's slot is IDLE (R164). -/
def closedIdle (s : State) : Bool :=
  Port.all.all (fun p =>
    decide ((s.plu.get p).slot = .idle) || (decide (s.device = .ready) && !(s.plu.get p).fenced))

/-- A write unit holds at most 8 slots, in ascending sector order, no two of one sector (R80). -/
def WriteUnit.slotsSound (u : WriteUnit) : Bool :=
  decide (u.slots.length ≤ Config.stagingSlots) && decide (u.slots.Pairwise (fun x y => x.sector < y.sector))

/-- Every port's staging slots are sound. -/
def stagingSound (s : State) : Bool := Port.all.all (fun p => (s.pwu.get p).slotsSound)

/-- Each of the 16 spares is once in the remap table, the pool and the retired list together, each in its order (R115). -/
def sparesOnce (me : MediaEngine) : Bool :=
  decide ((me.remap.map Prod.snd ++ me.pool ++ me.retired).Perm Config.spares) &&
    decide ((me.remap.map Prod.fst).Pairwise (· < ·)) && decide (me.pool.Pairwise (· < ·)) &&
    decide (me.retired.Pairwise (· < ·))

/-- The target of a running RELOCATE job is still in the pool (R115). -/
def targetInPool (me : MediaEngine) : Bool :=
  match me.running with
  | some (.relocate _ t _) => me.pool.contains t
  | _ => true

/-- In LOADING no job runs (R104); once READY the spares are each in one set, a running RELOCATE's target in the pool
(R115). -/
def sparesSound (s : State) : Bool :=
  match s.device with
  | .starting => s.me.running.isNone
  | .ready => sparesOnce s.me && targetInPool s.me

end Sys2Proof.Machine
end

