-- ==== Sys2Proof/Certificates/Slice0/Obligations.lean ====
section
/-! DEFINITION. The statements for the provers. Each names the rules of spec/ it rests on; a statement that rests on a
choice of the model names the log entry. Throughout, a frame is one step from its first byte to the rise of its chip
select, and an accepted command is taken by its owner in that step when nothing is ahead of it (logs 1 and 2). -/

open Sys2Proof Sys2Proof.Machine

/-! ### The queue of commands -/

/-- One step takes the command at the front of the queue and executes it on the state with the queue's rest; on an empty
queue the block idles (the model's own queue: logs 2 and 3). -/
def Obligations.StepTakesFrontCommand : Prop :=
  (∀ (c : Instr) (rest : List Instr) (s : State), s.pending = c :: rest → step s = exec c { s with pending := rest }) ∧
    (∀ s : State, s.pending = [] → step s = .next s)

/-- No command touches the queue of the commands that wait behind it. -/
def Obligations.ExecLeavesQueue : Prop :=
  ∀ (c : Instr) (s t : State), exec c s = .next t → t.pending = s.pending

/-! ### Device reset and the metadata load (R10 to R12, R103, R109, R179; "Device reset, by owner") -/

/-- A device reset in any state puts every block in the state of the table "Device reset, by owner", and leaves what the
array holds: its bytes and its metadata record. -/
def Obligations.DeviceResetPutsEveryBlockInItsResetState : Prop :=
  ∀ s : State, ∃ t : State, exec .deviceReset s = .next t ∧ t.device = .starting ∧
    (∀ p, (t.plu.get p).slot = .idle ∧ (t.plu.get p).record = none ∧ (t.plu.get p).resultReady = false ∧
      (t.plu.get p).buffer = [[], [], [], []] ∧ (t.plu.get p).valid = 0 ∧ (t.plu.get p).mask = 3#4 ∧
      (t.plu.get p).reason = .none ∧ (t.plu.get p).rejected = false ∧ (t.plu.get p).fenced = false ∧
      (t.plu.get p).counter0 = { event := none, qualifier := .self, value := 0#32 } ∧
      (t.plu.get p).counter1 = { event := none, qualifier := .self, value := 0#32 }) ∧
    (t.le.table.length = 64 ∧ (∀ x ∈ t.le.table, x.tag = 0#2 ∧ x.lease = none) ∧ t.le.queue = [] ∧ t.le.rrNext = .p0 ∧
      t.le.sweepsAsked = 0 ∧ (∀ p, leaseCount p t = 0)) ∧
    (t.eu.epoch = 0#2 ∧ t.eu.running = false) ∧
    (∀ p, (t.pwu.get p).slots = [] ∧ (t.pwu.get p).pendingClear = none ∧ (t.pwu.get p).command = none) ∧
    (t.me.loadReads = 0 ∧ t.me.queue = [] ∧ t.me.running = none ∧ t.me.latch = none ∧ t.me.sparesOut = false) ∧
    (t.ac.metaInvalid = false ∧ t.ac.metaFault = false) ∧
    (∀ p, (∀ w ∈ (t.nu.get p).watches, w = none) ∧ (t.nu.get p).queue = [] ∧ (t.nu.get p).overrun = false ∧
      (t.nu.get p).high = 12 ∧ (t.nu.get p).low = 4 ∧ (t.nu.get p).congested = false) ∧
    t.holdList = [] ∧ (t.swb.length = 16 ∧ ∀ w ∈ t.swb, w = 0#16) ∧
    t.me.array = s.me.array ∧ t.me.record = s.me.record

/-- The physical sectors that a device reset leaves unreadable beside those that were: the sector of a cut program, the 32
sectors of a cut clear's block, none for a cut read (R103, R109). -/
def Obligations.DeviceResetCutsTheOperationInProgress : Prop :=
  ∀ s t : State, exec .deviceReset s = .next t → ∀ n : Nat,
    (s.me.running = none → (n ∈ t.me.unreadable ↔ n ∈ s.me.unreadable)) ∧
    (∀ o l d c r, s.me.running = some (.read o l d c r) → (n ∈ t.me.unreadable ↔ n ∈ s.me.unreadable)) ∧
    (∀ o x l d f r, s.me.running = some (.drain o (x :: l) d f r) →
      (n ∈ t.me.unreadable ↔ n ∈ s.me.unreadable ∨ n = servingSector s.me x.sector)) ∧
    (∀ o b l d r, s.me.running = some (.clear o (b :: l) d r) →
      (n ∈ t.me.unreadable ↔ n ∈ s.me.unreadable ∨
        32 * servingBlock s.me b ≤ n ∧ n < 32 * servingBlock s.me b + 32)) ∧
    (∀ o r, s.me.running = some (.metadata o r) → (n ∈ t.me.unreadable ↔ n ∈ s.me.unreadable ∨ n = 32 * 1040)) ∧
    (∀ b x, s.me.running = some (.relocate b x .clearSpare) →
      (n ∈ t.me.unreadable ↔ n ∈ s.me.unreadable ∨ 32 * x ≤ n ∧ n < 32 * x + 32)) ∧
    (∀ b x i, s.me.running = some (.relocate b x (.copyRead i)) → (n ∈ t.me.unreadable ↔ n ∈ s.me.unreadable)) ∧
    (∀ b x i d, s.me.running = some (.relocate b x (.copyProgram i d)) →
      (n ∈ t.me.unreadable ↔ n ∈ s.me.unreadable ∨ n = 32 * x + i)) ∧
    (∀ b x r, s.me.running = some (.relocate b x (.writeRecord r)) →
      (n ∈ t.me.unreadable ↔ n ∈ s.me.unreadable ∨ n = 32 * 1040))

/-- A read of the metadata load that is not the last is counted, and an UNCORRECTABLE one is remembered: the read of an
unreadable sector, whatever the command says (R10, R101, R103). UNCORRECTABLE commanded for a readable sector is no outcome
of its read and changes nothing (R101; the model's form: log 15). At the last,
RST released, the saved image becomes the live settings, the spares are accounted for, the supervisor port is the sampled
one, the device is READY and the timer runs (R12); the image and the sets are the record's when R10 accepts it, and the
defaults of R11 with METADATA_INVALID otherwise. The end of a device reset before the load has
ended releases RST and samples the pins, whose binary value is the port number (R179); the load waits for nothing (log
13). -/
def Obligations.MetadataLoadRuns : Prop :=
  (∀ (o : ReadOutcome) (s : State), s.device = .starting → s.me.loadReads < 31 →
    32 * 1040 + s.me.loadReads ∈ s.me.unreadable ∨ o ≠ .uncorrectable →
    exec (.metadataLoadReadOutcome o) s = .next (s.modMe (fun m =>
      { m with loadReads := m.loadReads + 1,
               loadBad := m.loadBad || decide (32 * 1040 + m.loadReads ∈ m.unreadable) }))) ∧
  (∀ s : State, s.device = .starting → s.me.loadReads < 32 → 32 * 1040 + s.me.loadReads ∉ s.me.unreadable →
    exec (.metadataLoadReadOutcome .uncorrectable) s = .next s) ∧
  (∀ (o : ReadOutcome) (s : State), s.device = .starting → s.rstHeld = false → s.me.loadReads = 31 →
    32 * 1040 + 31 ∈ s.me.unreadable ∨ o ≠ .uncorrectable →
    ∃ t : State, exec (.metadataLoadReadOutcome o) s = .next t ∧ t.device = .ready ∧ t.ac.supervisor = s.supsel ∧
      t.ac.regions = t.ac.image.regions ∧ t.ac.holdLimit = t.ac.image.hold ∧ t.ac.quota = t.ac.image.quota ∧
      t.eu.period = t.ac.image.period ∧ t.eu.periodLength = t.ac.image.period ∧ t.eu.running = true ∧
      t.me.record = s.me.record ∧
      (∀ r, s.me.loadBad = false → 32 * 1040 + 31 ∉ s.me.unreadable → s.me.record = some r →
        recordValid r = true →
        t.ac.image = r.settings ∧ t.me.remap = sortRemap r.remap ∧ t.me.retired = sortSpares r.retired ∧
          (∀ n, n ∈ t.me.pool ↔ (1024 ≤ n ∧ n ≤ 1039) ∧ n ∉ r.remap.map Prod.snd ∧ n ∉ r.retired) ∧
          t.ac.metaInvalid = false) ∧
      ((s.me.loadBad = true ∨ 32 * 1040 + 31 ∈ s.me.unreadable ∨ s.me.record = none ∨
          (∃ r, s.me.record = some r ∧ recordValid r = false)) →
        t.ac.image = { regions := [some { first := 0, last := 32767, access := PortMap.const .write, mode := .leased },
                                   none, none, none, none, none, none, none], period := 50, hold := 20, quota := 16 } ∧
          t.me.remap = [] ∧ t.me.retired = [] ∧ t.me.pool = List.range' 1024 16 ∧ t.ac.metaInvalid = true)) ∧
  (∀ (v : BitVec 2) (s : State), s.rstHeld = true → s.me.loadReads < 32 →
    exec (.endOfDeviceReset v) s = .next { s with rstHeld := false, supsel := Port.ofPins v } ∧
      (Port.ofPins v).num = v.toNat)

/-! ### Frames (R163 to R178) -/

/-- A frame with no complete byte, and any frame while RST is held, changes nothing (R163, R177). An immediate frame other
than STATUS, and a frame whose opcode names none, is rejected NOT_READY in STARTING, FENCED at
a fenced port, and the latter FRAME_ERROR otherwise: only the reject reason and REJECTED change, and the bytes shifted
out (R165, R166). -/
def Obligations.FrameIsIgnoredOrRejected : Prop :=
  (∀ (i : Instr) (p : Port) (op : Byte) (ps : List Byte) (n : Nat) (s : State),
    frameLayout i = some (p, op, ps, n) → n = 0 ∨ s.rstHeld = true → exec i s = .next s) ∧
  (∀ (i : Instr) (p : Port) (op : Byte) (ps : List Byte) (n : Nat) (s : State) (r : RejectReason),
    frameLayout i = some (p, op, ps, n) → slotLength? i = none → op ≠ 0#8 → 1 ≤ n → s.rstHeld = false →
    (s.device = .starting ∧ r = .notReady ∨ s.device = .ready ∧ (s.plu.get p).fenced = true ∧ r = .fenced) →
    exec i s = .next (s.modPlu p (fun u => { u with reason := r, rejected := true, sdo := shownBytes p s [] n }))) ∧
  (∀ (p : Port) (op : Byte) (n : Nat) (s : State), openPort p s = true → 1 ≤ n →
    exec (.unknownOpcodeFrame p op n) s =
      .next (s.modPlu p (fun u => { u with reason := .frameError, rejected := true, sdo := shownBytes p s [] n })))

/-- A slot command's frame is rejected, in this order, NOT_READY in STARTING, FENCED at a fenced port, FRAME_ERROR when it
ended before its defined length, SLOT_BUSY while the slot is not IDLE: only the reject reason and REJECTED change, and
the bytes shifted out (R165, R166). -/
def Obligations.SlotFrameIsRejected : Prop :=
  ∀ (i : Instr) (d : Nat) (p : Port) (op : Byte) (ps : List Byte) (n : Nat) (s : State) (r : RejectReason),
    slotLength? i = some d → frameLayout i = some (p, op, ps, n) → i.wf = true → s.rstHeld = false →
    (s.device = .starting ∧ r = .notReady ∨ s.device = .ready ∧ (s.plu.get p).fenced = true ∧ r = .fenced ∨
      openPort p s = true ∧ n < d ∧ r = .frameError ∨
      openPort p s = true ∧ d ≤ n ∧ (s.plu.get p).slot ≠ .idle ∧ r = .slotBusy) →
    exec i s = .next (s.modPlu p (fun u => { u with reason := r, rejected := true, sdo := shownBytes p s [] n }))

/-- STATUS is answered in every state while RST is released, fenced and STARTING included, and changes nothing but the
reject reason and the bytes shifted out; the fields of the status byte that it shows (R164 to R166, R178). -/
def Obligations.StatusIsAnsweredInEveryState : Prop :=
  (∀ (p : Port) (n : Nat) (s : State), s.rstHeld = false → 1 ≤ n →
    exec (.status p n) s = .next (s.modPlu p (fun u => { u with reason := .none, sdo := shownBytes p s [] n }))) ∧
  (∀ (p : Port) (s : State),
    (statusByte p s).toNat % 8 =
      (if s.device = .starting then 4 else if (s.plu.get p).fenced then 5
       else match (s.plu.get p).slot with | .idle => 0 | .busy => 1 | .parked => 2 | .held => 3) ∧
    (statusByte p s).getLsbD 3 = (s.plu.get p).resultReady ∧
    (statusByte p s).getLsbD 4 = !(s.nu.get p).queue.isEmpty ∧
    (statusByte p s).getLsbD 5 = (s.nu.get p).congested ∧
    (statusByte p s).getLsbD 6 = (s.nu.get p).overrun ∧
    (statusByte p s).getLsbD 7 = (s.plu.get p).rejected)

/-- RESULT answers "in progress", "none" or the record and clears RESULT_READY (R170); FETCH DATA returns the valid count,
0 while the slot is occupied by a READ and the buffer's own in every other case, and that many positions, and changes
nothing (R171). -/
def Obligations.ResultAndFetchDataAnswer : Prop :=
  (∀ (p : Port) (n : Nat) (s : State), openPort p s = true → 1 ≤ n →
    exec (.result p n) s = .next (s.modPlu p (fun u =>
      { u with resultReady := false, reason := .none, sdo := shownBytes p s (resultBytes (s.plu.get p)) n }))) ∧
  (∀ u : Plu, (u.slot ≠ .idle → resultBytes u = 1#8 :: List.replicate 22 0#8) ∧
    (u.slot = .idle → u.record = none → resultBytes u = List.replicate 23 0#8) ∧
    (∀ r, u.slot = .idle → u.record = some r → resultBytes u = recordBytes r)) ∧
  (∀ (p : Port) (n : Nat) (s : State), openPort p s = true → 1 ≤ n →
    exec (.fetchData p n) s = .next (s.modPlu p (fun u =>
      { u with reason := .none, sdo := shownBytes p s (fetchDataBytes (s.plu.get p)) n }))) ∧
  (∀ u : Plu, (u.slot ≠ .idle → u.opcode = 0x20#8 → fetchDataBytes u = [0#8]) ∧
    (u.slot = .idle ∨ u.opcode ≠ 0x20#8 →
      fetchDataBytes u = BitVec.ofNat 8 u.valid :: (u.buffer.take u.valid).flatten))

/-- FETCH NOTICE takes the head record out of the port's queue, returns it with the overrun flag and the records left, and
clears the flag; reaching the low level makes a CONGESTED port NORMAL and re-examines the hold list, whose released jobs
then go on; an empty queue gives "none" (R146, R147, R152). A CANCEL of the port that waits at the notice unit is taken
first, as CANCEL_HELD takes it, and so is its teardown, if one waits there (R154, R167, R176; log 8). What an absent field
of the record reads as is a free value of the model (log 29). -/
def Obligations.FetchNoticeRemovesTheHead : Prop :=
  ∀ (p : Port) (n : Nat) (s u fetched : State), openPort p s = true → 1 ≤ n →
    u = (if (s.teardown.get p).nu then takeNuTeardown p s else cancelHeld p s) →
    fetched = u.modPlu p (fun l => { l with fetches := l.fetches + 1 }) →
    ((s.teardown.get p).nu = false → (s.nu.get p).cancel = none → u = s) ∧
    ((s.teardown.get p).nu = false → u.nu.get p = { s.nu.get p with cancel := none } ∧
      (u.plu.get p).fetches = (s.plu.get p).fetches) ∧
    exec (.cancelHeld p) s = .next (cancelHeld p s) ∧
    ((s.teardown.get p).nu = true → exec (.nuTeardown p) s = .next (takeNuTeardown p s)) ∧
    ((u.nu.get p).queue = [] →
      exec (.fetchNotice p n) s = .next (endAccepted p s
        ([0#8, if (u.nu.get p).overrun then 1#8 else 0#8] ++ List.replicate 10 0#8) n
        (goOn (fetched.modNu p (fun u => { u with overrun := false }))))) ∧
    (∀ x l, (u.nu.get p).queue = x :: l →
      ((u.nu.get p).congested = false ∨ (u.nu.get p).low < l.length →
        exec (.fetchNotice p n) s = .next (endAccepted p s
          ([1#8, if (u.nu.get p).overrun then 1#8 else 0#8, BitVec.ofNat 8 l.length] ++
            noticeFieldBytes (u.plu.get p).fetches x) n
          (goOn (fetched.modNu p (fun u => { u with queue := l, overrun := false }))))) ∧
      ((u.nu.get p).congested = true → l.length ≤ (u.nu.get p).low →
        exec (.fetchNotice p n) s = .next (endAccepted p s
          ([1#8, if (u.nu.get p).overrun then 1#8 else 0#8, BitVec.ofNat 8 l.length] ++
            noticeFieldBytes (u.plu.get p).fetches x) n
          (goOn (reexamine (fetched.modNu p (fun u =>
            { u with queue := l, overrun := false, congested := false })))))))

/-- CANCEL hands the cancel to the lease engine for a PARKED slot, as the last of the port's requests there, and to the
notice unit for a HELD one, and has no effect in the other slot states (R24, R172). -/
def Obligations.CancelIsPassedOn : Prop :=
  ∀ (p : Port) (n : Nat) (s : State), openPort p s = true → 1 ≤ n →
    ((s.plu.get p).slot = .parked → exec (.cancel p n) s = .next (endAccepted p s [] n
      (s.modLe (fun e => { e with requests := e.requests.modify p (fun l => l ++ [.cancel (s.plu.get p).serial]) })))) ∧
    ((s.plu.get p).slot = .held → exec (.cancel p n) s = .next (endAccepted p s [] n
      (s.modNu p (fun u => { u with cancel := some (s.plu.get p).serial })))) ∧
    ((s.plu.get p).slot = .busy ∨ (s.plu.get p).slot = .idle → exec (.cancel p n) s = .next (endAccepted p s [] n s))

/-- PORT RESET abandons the command, withdrawing it from the lease engine if that has not taken it, empties the record and
the read buffer, resets mask, REJECTED and counters, and hands a teardown to each of five blocks, the lease engine's
behind the port's requests that wait there; nothing else changes (R24, R175, R176, R180; the requests other than the command
stay: log 43). -/
def Obligations.PortResetResetsThePort : Prop :=
  ∀ (p : Port) (n : Nat) (s : State), openPort p s = true → 1 ≤ n →
    exec (.portReset p n) s = .next (((s.modPlu p (fun u =>
      { u with slot := .idle, record := none, resultReady := false, buffer := [[], [], [], []], valid := 0,
               mask := 3#4, rejected := false, reason := .none, waiting := none,
               counter0 := { event := none, qualifier := .self, value := 0#32 },
               counter1 := { event := none, qualifier := .self, value := 0#32 },
               sdo := shownBytes p s [] n })).modLe (fun e =>
        { e with requests := e.requests.modify p (fun l => l.filter (fun r => !r.isCommand) ++ [.teardown]) })).modTeardown p
          (fun _ => { pwu := true, me := true, nu := true, swb := true }))

/-- A completion writes the record, makes the slot IDLE and sets RESULT_READY; one for a command that the port link unit no
longer holds changes nothing (R168). -/
def Obligations.CompletionArrivesOrIsDiscarded : Prop :=
  ∀ (p : Port) (n : Nat) (c : Completion) (s : State),
    ((s.plu.get p).slot ≠ .idle → (s.plu.get p).serial = n →
      complete p n c s = s.modPlu p (fun u =>
        { u with record := some { opcode := u.opcode, completion := c }, slot := .idle, resultReady := true })) ∧
    ((s.plu.get p).slot = .idle ∨ (s.plu.get p).serial ≠ n → complete p n c s = s)

/-- ATTN is asserted exactly when an enabled cause is set, the device is READY, RST is released and the port is not fenced;
the mask takes its default, RESULT_READY and NOTICE_PENDING, at a device reset, a port reset and a FENCE (R173, R177,
R178, R179). -/
def Obligations.AttnFollowsTheEnabledCauses : Prop :=
  (∀ (p : Port) (s : State), attn p s = true ↔
    s.rstHeld = false ∧ s.device = .ready ∧ (s.plu.get p).fenced = false ∧
      ((s.plu.get p).mask.getLsbD 0 = true ∧ (s.plu.get p).resultReady = true ∨
        (s.plu.get p).mask.getLsbD 1 = true ∧ (s.nu.get p).queue ≠ [] ∨
        (s.plu.get p).mask.getLsbD 2 = true ∧ (s.nu.get p).congested = true ∨
        (s.plu.get p).mask.getLsbD 3 = true ∧ (s.nu.get p).overrun = true)) ∧
  (∀ (p : Port) (s : State), ∃ t, exec .deviceReset s = .next t ∧ (t.plu.get p).mask = 3#4) ∧
  (∀ (p : Port) (n : Nat) (s : State), openPort p s = true → 1 ≤ n →
    ∃ t, exec (.portReset p n) s = .next t ∧ (t.plu.get p).mask = 3#4) ∧
  (∀ (p target : Port) (b : Byte) (n : Nat) (s : State), freePort p s = true → p = s.ac.supervisor → 3 ≤ n →
    b.toNat = target.num → target ≠ p → (s.plu.get target).fenced = false →
    ∃ t, exec (.fence p b n) s = .next t ∧ (t.plu.get target).mask = 3#4 ∧ (t.plu.get target).fenced = true)

/-- Every well-formed frame that is whole has bytes, and reading those bytes at its port gives the frame back, with every
operand (R163, R178). -/
def Obligations.FramesReadBackAsWritten : Prop :=
  (∀ (i : Instr) (p : Port) (bytes : List Byte), i.wf = true → encodeFrame i = some (p, bytes) →
    decodeFrame p bytes = some i ∧ i.frameLength? = some bytes.length) ∧
  (∀ (i : Instr) (n : Nat), i.wf = true → i.frameLength? = some n → (slotLength? i).getD 1 ≤ n →
    (encodeFrame i).isSome = true)

/-! ### Leases (chapters 2 to 4) -/

/-- ACQUIRE's checks, in R27's order, each with its detail and no grant: BAD_PARAM, then DENIED or OPEN_REGION with the
lowest failing sector, OVERLAP_SELF naming the port's own lowest-slot overlapping lease, QUOTA, TABLE_FULL (R6, R27). -/
def Obligations.AcquireIsChecked : Prop :=
  ∀ (p : Port) (first count : Word16) (mode wait : Byte) (len : Nat) (s : State) (r : Range),
    freePort p s = true → 8 ≤ len → r = { first := first.toNat, count := count.toNat } →
    (r.inBounds = false ∨ leaseModeOf mode = none →
      exec (.acquire p first count mode wait len) s = .next (endAccepted p s [] len (finish p { status := .badParam }
        (takenByLe p 0x10#8 s)))) ∧
    ∀ m, r.inBounds = true → leaseModeOf mode = some m →
      (∀ st n, requestCheck p (decide (m = .exclusive)) r s = some (st, n) →
        exec (.acquire p first count mode wait len) s = .next (endAccepted p s [] len (finish p
          { status := st, lastSector := some n } (takenByLe p 0x10#8 s)))) ∧
      (requestCheck p (decide (m = .exclusive)) r s = none →
        (∀ id, ownOverlap p r s = some id →
          exec (.acquire p first count mode wait len) s = .next (endAccepted p s [] len (finish p
            { status := .overlapSelf, detail := [BitVec.ofNat 8 id] } (takenByLe p 0x10#8 s)))) ∧
        (ownOverlap p r s = none → s.ac.quota ≤ leaseCount p s →
          exec (.acquire p first count mode wait len) s = .next (endAccepted p s [] len (countEvent .refuse (some p)
            (finish p { status := .quota, detail := [BitVec.ofNat 8 (leaseCount p s), BitVec.ofNat 8 s.ac.quota] }
              (takenByLe p 0x10#8 s))))) ∧
        (ownOverlap p r s = none → leaseCount p s < s.ac.quota → 64 ≤ occupancy s →
          exec (.acquire p first count mode wait len) s = .next (endAccepted p s [] len (countEvent .refuse (some p)
            (finish p { status := .tableFull } (takenByLe p 0x10#8 s))))))

/-- ACQUIRE that passes its five checks and conflicts with no lease and no parked request is granted: the lowest empty slot
is filled, its tag advanced by one, and the command completes DONE with the new lease's id (R26 to R28). -/
def Obligations.AcquireIsGranted : Prop :=
  ∀ (p : Port) (first count : Word16) (mode wait : Byte) (len : Nat) (s : State) (m : LeaseMode) (r : Range)
    (i : Nat) (x : LeaseSlot),
    freePort p s = true → 8 ≤ len → leaseModeOf mode = some m → r = { first := first.toNat, count := count.toNat } →
    1 ≤ r.count → r.first + r.count ≤ 32768 →
    (∀ n, r.first ≤ n → n < r.first + r.count → ∃ g, regionAt s n = some g ∧ g.mode = .leased ∧
      (g.access.get p).suffices (decide (m = .exclusive)) = true) →
    (∀ y ∈ leases s, y.2.holder = p → r.overlaps y.2.range = false) →
    leaseCount p s < s.ac.quota → occupancy s < 64 →
    (∀ y ∈ leases s, r.overlaps y.2.range = true → m = .shared ∧ y.2.mode = .shared) →
    (∀ e ∈ s.le.queue, r.overlaps e.range = true → m = .shared ∧ e.mode = .shared) →
    firstEmptySlot s.le.table = some i → s.le.table[i]? = some x →
    exec (.acquire p first count mode wait len) s = .next (endAccepted p s [] len
      (countEvent .grant (some p) (finish p
        { status := .done, leaseId := some (i + 64 * (x.tag + 1#2).toNat), lastSector := some (r.first + r.count - 1),
          count := r.count }
        ((takenByLe p 0x10#8 s).modLe (fun e =>
          { e with
            table := e.table.set i
              { tag := x.tag + 1#2,
                lease := some { holder := p, mode := m, first := r.first, count := r.count, stamp := s.eu.epoch,
                                state := .held } } })))))

/-- ACQUIRE that passes its checks and meets a conflict: with wait 0 it completes CONFLICT naming the first conflict (the
form of its detail for a waiter: log 18); with a wait it is refused WOULD_DEADLOCK when the requester can reach itself, and
is parked at the tail otherwise (R28, R46, R62). -/
def Obligations.AcquireThatMeetsAConflict : Prop :=
  ∀ (p : Port) (first count : Word16) (mode wait : Byte) (len : Nat) (s : State) (m : LeaseMode) (e : WaitEntry)
    (b : Blocker),
    freePort p s = true → 8 ≤ len → leaseModeOf mode = some m →
    e = { port := p, kind := .acquire, range := { first := first.toNat, count := count.toNat }, mode := m,
          waitMs := 10 * wait.toNat, serial := nextSerial p s } →
    e.range.inBounds = true → requestCheck p (decide (m = .exclusive)) e.range s = none →
    ownOverlap p e.range s = none → leaseCount p s < s.ac.quota → occupancy s < 64 →
    blockerOf e s.le.queue s = some b →
    (wait = 0#8 →
      exec (.acquire p first count mode wait len) s = .next (endAccepted p s [] len (countEvent .refuse (some p)
        (finish p { status := .conflict, detail := b.detail } (takenByLe p 0x10#8 s))))) ∧
    (wait ≠ 0#8 → p ∈ reachable (waitForEdges e s) p →
      exec (.acquire p first count mode wait len) s = .next (endAccepted p s [] len (countEvent .refuse (some p)
        (finish p { status := .wouldDeadlock, detail := portSetItem (circleOf (waitForEdges e s) p) }
          (takenByLe p 0x10#8 s))))) ∧
    (wait ≠ 0#8 → p ∉ reachable (waitForEdges e s) p →
      exec (.acquire p first count mode wait len) s = .next (endAccepted p s [] len (countEvent .park (some p)
        (setSlot p (nextSerial p s) .parked
          ((takenByLe p 0x10#8 s).modLe (fun x => { x with queue := x.queue ++ [e] }))))))

/-- UPGRADE of a SHARED lease that no other lease overlaps and no parked request conflicts with: the lease becomes
EXCLUSIVE and renewed, keeping its slot, range and id, and the command completes DONE (R29, R30). DOWNGRADE of an
EXCLUSIVE lease with nothing staged: the pending clear range is dropped if it overlaps, the lease becomes SHARED and
renewed, the command completes DONE and the grant scan runs (R31). UPGRADE whose range fails the region check is refused
DENIED with the lowest failing sector and the named lease's id (R29; against R6's words: log 36). UPGRADE that meets a
conflict completes CONFLICT with wait 0, and with a wait is refused WOULD_DEADLOCK or parked, with the named lease's id
(R30, R46, R62; the detail's form for a waiter: log 18). DOWNGRADE of a lease with STAGED slots, no earlier job and no
hold issues a DRAIN of them and leaves the lease EXCLUSIVE for now (R32, R83). -/
def Obligations.LeaseModesChange : Prop :=
  (∀ (p : Port) (id wait : Byte) (len : Nat) (s : State) (l : Lease),
    freePort p s = true → 4 ≤ len → ownHeldLease p id.toNat s = some l → l.mode = .shared →
    requestCheck p true l.range s = none →
    (∀ y ∈ leases s, y.1 ≠ id.toNat → l.range.overlaps y.2.range = false) →
    (∀ e ∈ s.le.queue, l.range.overlaps e.range = false) →
    exec (.upgrade p id wait len) s = .next (endAccepted p s [] len (countEvent .grant (some p) (finish p
      { status := .done, leaseId := some id.toNat, lastSector := some (l.first + l.count - 1), count := l.count }
      (renewLease id.toNat (setLeaseMode id.toNat .exclusive (takenByLe p 0x11#8 s)))))) ∧
    findLease (renewLease id.toNat (setLeaseMode id.toNat .exclusive (takenByLe p 0x11#8 s))) id.toNat =
      some { l with mode := .exclusive, stamp := s.eu.epoch }) ∧
  (∀ (p : Port) (id : Byte) (len : Nat) (s : State) (l : Lease),
    freePort p s = true → 3 ≤ len → ownHeldLease p id.toNat s = some l → l.mode = .exclusive →
    (∀ x ∈ (s.pwu.get p).slots, x.state = .staged → x.leaseId ≠ id.toNat) →
    exec (.downgrade p id len) s = .next (endAccepted p s [] len (grantScan (finish p
      { status := .done, leaseId := some id.toNat }
      (renewLease id.toNat (setLeaseMode id.toNat .shared
        ((takenByLe p 0x12#8 s).modPwu p (fun u => u.dropPending l.range))))))) ∧
    findLease (renewLease id.toNat (setLeaseMode id.toNat .shared (takenByLe p 0x12#8 s))) id.toNat =
      some { l with mode := .shared, stamp := s.eu.epoch }) ∧
  (∀ (p : Port) (id wait : Byte) (len : Nat) (s : State) (l : Lease) (n : Nat),
    freePort p s = true → 4 ≤ len → ownHeldLease p id.toNat s = some l → l.mode = .shared →
    requestCheck p true l.range s = some (.denied, n) →
    exec (.upgrade p id wait len) s = .next (endAccepted p s [] len (finish p
      { status := .denied, leaseId := some id.toNat, lastSector := some n } (takenByLe p 0x11#8 s)))) ∧
  (∀ (p : Port) (id wait : Byte) (len : Nat) (s : State) (l : Lease) (e : WaitEntry) (b : Blocker),
    freePort p s = true → 4 ≤ len → ownHeldLease p id.toNat s = some l → l.mode = .shared →
    requestCheck p true l.range s = none →
    e = { port := p, kind := .upgrade id.toNat, range := l.range, mode := .exclusive, waitMs := 10 * wait.toNat,
          serial := nextSerial p s } →
    blockerOf e s.le.queue s = some b →
    (wait = 0#8 →
      exec (.upgrade p id wait len) s = .next (endAccepted p s [] len (countEvent .refuse (some p)
        (finish p { status := .conflict, leaseId := some id.toNat, detail := b.detail } (takenByLe p 0x11#8 s))))) ∧
    (wait ≠ 0#8 → p ∈ reachable (waitForEdges e s) p →
      exec (.upgrade p id wait len) s = .next (endAccepted p s [] len (countEvent .refuse (some p)
        (finish p { status := .wouldDeadlock, leaseId := some id.toNat,
                    detail := portSetItem (circleOf (waitForEdges e s) p) } (takenByLe p 0x11#8 s))))) ∧
    (wait ≠ 0#8 → p ∉ reachable (waitForEdges e s) p →
      exec (.upgrade p id wait len) s = .next (endAccepted p s [] len (countEvent .park (some p)
        (setSlot p (nextSerial p s) .parked
          ((takenByLe p 0x11#8 s).modLe (fun x => { x with queue := x.queue ++ [e] }))))))) ∧
  (∀ (p : Port) (id : Byte) (len : Nat) (s : State) (l : Lease) (items : List SectorItem),
    freePort p s = true → 3 ≤ len → ownHeldLease p id.toNat s = some l → l.mode = .exclusive →
    items = ((s.pwu.get p).slots.filter (fun x => decide (x.state = .staged) && decide (x.leaseId = id.toNat))).map
      (fun x => { sector := x.sector, data := x.data : SectorItem }) → items ≠ [] → noJob p s = true →
    blocked p .committed (items.map (fun x => Range.single x.sector)) s = false →
    exec (.downgrade p id len) s = .next (endAccepted p s [] len
      (enqueueJob (.port { issuer := p, serial := nextSerial p s, abandoned := false } (.drain items))
        ((takenByLe p 0x12#8 s).modPwu p (fun u =>
          { u.dropPending l.range with
            slots := u.slots.map (fun x => if decide (x.state = .staged) && decide (x.leaseId = id.toNat) = true
              then { x with state := .draining } else x),
            command := some { serial := nextSerial p s, action := .downgrade id.toNat, bound := [id.toNat],
                              stage := .issued, holdExpired := false, broken := [] } })))))

/-- RENEW of a HELD lease of the port sets its stamp to the current epoch and completes DONE with a count of 1; RENEW ALL
renews every HELD lease of the port and completes DONE with their number (R34, R70). -/
def Obligations.RenewSetsTheStamp : Prop :=
  (∀ (p : Port) (id : Byte) (len : Nat) (s : State) (l : Lease),
    freePort p s = true → 4 ≤ len → ownHeldLease p id.toNat s = some l →
    exec (.renew p id len) s = .next (endAccepted p s [] len (finish p
      { status := .done, leaseId := some id.toNat, count := 1 } (renewLease id.toNat (takenByLe p 0x13#8 s)))) ∧
    findLease (renewLease id.toNat (takenByLe p 0x13#8 s)) id.toNat = some { l with stamp := s.eu.epoch }) ∧
  (∀ (p : Port) (selector : Byte) (len : Nat) (s : State), freePort p s = true → 4 ≤ len →
    exec (.renewAll p selector len) s = .next (endAccepted p s [] len (finish p
      { status := .done, count := (heldLeases p s).length }
      (renewLeases (heldLeases p s) (takenByLe p 0x13#8 s)))))

/-- RELEASE of a HELD lease: with the discard flag the lease's STAGED slots are discarded, their number in the detail; with
nothing staged the lease is removed at once; with STAGED slots, no earlier job and no hold, a DRAIN of them is issued,
they become DRAINING and the lease ENDING with cause RELEASED (R36, R37, R83). -/
def Obligations.ReleaseEndsTheLease : Prop :=
  ∀ (p : Port) (id discard : Byte) (len : Nat) (s : State) (l : Lease),
    freePort p s = true → 4 ≤ len → ownHeldLease p id.toNat s = some l →
    (discard ≠ 0#8 →
      exec (.release p id discard len) s = .next (endAccepted p s [] len (grantScan (finish p
        { status := .done, leaseId := some id.toNat, detail := [BitVec.ofNat 8 ((s.pwu.get p).stagedCount id.toNat)] }
        (removeLease id.toNat ((takenByLe p 0x14#8 s).modPwu p (fun u =>
          (u.dropPending l.range).discardStaged id.toNat))))))) ∧
    (discard = 0#8 → (s.pwu.get p).stagedCount id.toNat = 0 →
      exec (.release p id discard len) s = .next (endAccepted p s [] len (grantScan (finish p
        { status := .done, leaseId := some id.toNat, detail := [0#8] }
        (removeLease id.toNat ((takenByLe p 0x14#8 s).modPwu p (fun u => u.dropPending l.range))))))) ∧
    (∀ items, discard = 0#8 → (s.pwu.get p).stagedCount id.toNat ≠ 0 → noJob p s = true →
      items = ((s.pwu.get p).slots.filter (fun x => decide (x.state = .staged) && decide (x.leaseId = id.toNat))).map
        (fun x => { sector := x.sector, data := x.data : SectorItem }) →
      blocked p .committed (items.map (fun x => Range.single x.sector)) s = false →
      exec (.release p id discard len) s = .next (endAccepted p s [] len
        (enqueueJob (.port { issuer := p, serial := nextSerial p s, abandoned := false } (.drain items))
          (setLeaseEnding id.toNat .released ((takenByLe p 0x14#8 s).modPwu p (fun u =>
            { u.dropPending l.range with
              slots := u.slots.map (fun x => if decide (x.state = .staged) && decide (x.leaseId = id.toNat) = true
                then { x with state := .draining } else x),
              command := some { serial := nextSerial p s, action := .release id.toNat, bound := [id.toNat],
                                stage := .issued, holdExpired := false, broken := [] } }))))))

/-- BREAK by the supervisor of a HELD lease: the lease is ended BROKEN, the grant scan runs, and BREAK completes DONE with
the holder, REMOVED or ENDING, the STAGED slots discarded, and whether a command was bound (R75, R76; the bytes of a
yes/no item: log 19). With no command bound nothing else happens. A parked UPGRADE of the lease leaves the queue and
completes LEASE_LOST; one that its port's reset abandoned leaves it without a completion (R58, R168, R176); a bound
command whose job is not issued leaves the hold list and completes LEASE_LOST, a flush with FLUSHED (R77, R88); one whose
job is issued is marked and runs on (R78); a break touches no command of a holder whose slot is IDLE (R78). BREAK of an id
that names no HELD lease completes NO_LEASE with that id (R75). -/
def Obligations.BreakEndsTheLease : Prop :=
  (∀ (p : Port) (id : Nat) (l : Lease) (s : State), (s.plu.get l.holder).slot = .idle →
    ((breakLease p id l s).pwu.get l.holder).command = (s.pwu.get l.holder).command ∧
      (breakLease p id l s).holdList = s.holdList) ∧
  (∀ (p : Port) (id : Byte) (len : Nat) (s : State), freePort p s = true → p = s.ac.supervisor → 3 ≤ len →
    ((∀ l, findLease s id.toNat = some l → l.state ≠ .held) →
      exec (.breakLease p id len) s = .next (endAccepted p s [] len (finish p
        { status := .noLease, leaseId := some id.toNat } (takenByLe p 0x65#8 s)))) ∧
    (∀ (l : Lease) (done : Bool → Completion), findLease s id.toNat = some l → l.state = .held →
      done = (fun bound =>
        { status := .done, leaseId := some id.toNat, lastSector := some (l.first + l.count - 1), count := l.count,
          detail := [BitVec.ofNat 8 l.holder.num,
                     if (s.pwu.get l.holder).drainingUnder id.toNat then 1#8 else 0#8,
                     BitVec.ofNat 8 ((s.pwu.get l.holder).stagedCount id.toNat), if bound then 1#8 else 0#8] }) →
      ((∀ e ∈ s.le.queue, e.kind ≠ .upgrade id.toNat) →
        (∀ c, (s.pwu.get l.holder).command = some c → id.toNat ∉ c.bound) →
        exec (.breakLease p id len) s = .next (endAccepted p s [] len (grantScan (finish p (done false)
          (endLease id.toNat .broken (takenByLe p 0x65#8 s)))))) ∧
      (∀ (earlier later : List WaitEntry) (e : WaitEntry), s.le.queue = earlier ++ e :: later →
        e.kind = .upgrade id.toNat → (∀ f ∈ earlier ++ later, f.kind ≠ .upgrade id.toNat) →
        (s.plu.get e.port).slot = .parked → (s.plu.get e.port).serial = e.serial →
        (∀ c, (s.pwu.get l.holder).command = some c → id.toNat ∉ c.bound) →
        exec (.breakLease p id len) s = .next (endAccepted p s [] len (grantScan (finish p (done true)
          (complete e.port e.serial { status := .leaseLost, leaseId := some id.toNat }
            (endLease id.toNat .broken ((takenByLe p 0x65#8 s).modLe (fun x =>
              { x with queue := earlier ++ later })))))))) ∧
      (∀ (earlier later : List WaitEntry) (e : WaitEntry), s.le.queue = earlier ++ e :: later →
        e.kind = .upgrade id.toNat → (∀ f ∈ earlier ++ later, f.kind ≠ .upgrade id.toNat) →
        (s.plu.get e.port).slot = .idle → e.serial ≤ (s.plu.get e.port).serial →
        (∀ c, (s.pwu.get l.holder).command = some c → id.toNat ∉ c.bound) →
        exec (.breakLease p id len) s = .next (endAccepted p s [] len (grantScan (finish p (done false)
          (endLease id.toNat .broken ((takenByLe p 0x65#8 s).modLe (fun x =>
            { x with queue := earlier ++ later }))))))) ∧
      (∀ c : PwuCommand, (∀ e ∈ s.le.queue, e.kind ≠ .upgrade id.toNat) →
        (s.pwu.get l.holder).command = some c → id.toNat ∈ c.bound →
        (s.plu.get l.holder).slot ≠ .idle → (s.plu.get l.holder).serial = c.serial →
        (c.stage ≠ .issued →
          exec (.breakLease p id len) s = .next (endAccepted p s [] len (grantScan (finish p (done true)
            (complete l.holder c.serial
              { status := .leaseLost, flags := { flushed := c.action.isFlush }, leaseId := some id.toNat }
              (((endLease id.toNat .broken (takenByLe p 0x65#8 s)).modPwu l.holder (fun u =>
                { u with command := none })).setHoldList
                  (s.holdList.filter (fun h => decide (h.port ≠ l.holder))))))))) ∧
        (c.stage = .issued →
          exec (.breakLease p id len) s = .next (endAccepted p s [] len (grantScan (finish p (done true)
            ((endLease id.toNat .broken (takenByLe p 0x65#8 s)).modPwu l.holder (fun u =>
              { u with command := some { c with broken := c.broken ++ [id.toNat] } })))))))))

/-- UPGRADE, DOWNGRADE, RENEW, RELEASE and COMMIT of an id that names no HELD lease of the port complete NO_LEASE and
change no lease, slot or word (R29, R31, R34, R36, R94). -/
def Obligations.OnlyOwnHeldLeasesAreActedOn : Prop :=
  ∀ (p : Port) (id x : Byte) (len : Nat) (s : State), freePort p s = true →
    (∀ l, findLease s id.toNat = some l → l.holder = p → l.state ≠ .held) →
    (3 ≤ len → exec (.downgrade p id len) s =
      .next (endAccepted p s [] len (finish p { status := .noLease } (takenByLe p 0x12#8 s)))) ∧
    (4 ≤ len →
      exec (.upgrade p id x len) s =
        .next (endAccepted p s [] len (finish p { status := .noLease } (takenByLe p 0x11#8 s))) ∧
      exec (.renew p id len) s = .next (endAccepted p s [] len (finish p { status := .noLease } (takenByLe p 0x13#8 s))) ∧
      exec (.release p id x len) s =
        .next (endAccepted p s [] len (finish p { status := .noLease } (takenByLe p 0x14#8 s))) ∧
      exec (.commit p id len) s = .next (endAccepted p s [] len (finish p { status := .noLease } (takenByLe p 0x22#8 s))))

/-- The end of a HELD lease with a cause other than RELEASED: the holder's STAGED slots of the lease are discarded and no
other slot, its pending clear range dropped if it overlaps; EXPIRED and BROKEN then place a LOST record for the holder,
PORT_RESET and FENCED none; with DRAINING slots under it the lease is ENDING with the cause, otherwise its id names nothing
and its FREED event is handed, after the LOST; nothing else changes (R39, R41 to R43, R98). -/
def Obligations.EndingALease : Prop :=
  ∀ (id : Nat) (cause : EndCause) (s : State) (l : Lease), findLease s id = some l →
    (∀ x, x ∈ ((endLease id cause s).pwu.get l.holder).slots ↔
      x ∈ (s.pwu.get l.holder).slots ∧ ¬ (x.state = .staged ∧ x.leaseId = id)) ∧
    ((endLease id cause s).pwu.get l.holder).pendingClear =
      (s.pwu.get l.holder).pendingClear.filter (fun q => !q.overlaps l.range) ∧
    (∀ q, q ≠ l.holder → (endLease id cause s).pwu.get q = s.pwu.get q) ∧
    ((s.pwu.get l.holder).drainingUnder id = true →
      findLease (endLease id cause s) id = some { l with state := .ending cause }) ∧
    ((s.pwu.get l.holder).drainingUnder id = false → findLease (endLease id cause s) id = none) ∧
    (∀ t u : State, t = s.modPwu l.holder (fun w =>
        { w with
          slots := w.slots.filter (fun x => !(decide (x.state = .staged) && decide (x.leaseId = id))),
          pendingClear := w.pendingClear.filter (fun q => !q.overlaps l.range) }) →
      (cause = .expired ∨ cause = .broken) ∧
          u = placeNotice l.holder t { body := .lost l.holder id l.range, watch := none } ∨
        (cause = .portReset ∨ cause = .fenced) ∧ u = t →
      ((s.pwu.get l.holder).drainingUnder id = true → endLease id cause s = setLeaseEnding id cause u) ∧
      ((s.pwu.get l.holder).drainingUnder id = false →
        endLease id cause s = freedEvent id l (emptyLeaseSlot id u)))

/-- After a grant scan no parked entry is grantable: each one left meets a lease or an earlier parked entry (R50, R51). The
scan walks the queue from the oldest entry: one that is not grantable stays in its place, and a grantable one is granted
and leaves, those left keeping their order (R51). An entry is grantable when no lease, but the one that an UPGRADE names,
and no entry parked before it conflicts with it (R23, R51). An ACQUIRE's grant fills the lowest empty slot with its tag
advanced and completes DONE (R21, R52); an UPGRADE's makes the lease EXCLUSIVE and renewed, and completes DONE (R53); each
counts one GRANT (R188). -/
def Obligations.GrantScanLeavesNoneGrantable : Prop :=
  (∀ (s : State) (earlier later : List WaitEntry) (e : WaitEntry),
    (grantScan s).le.queue = earlier ++ e :: later → (blockerOf e earlier (grantScan s)).isSome = true) ∧
  (∀ s : State, grantScan s = scanWalk [] s.le.queue s ∧ (grantScan s).le.queue.Sublist s.le.queue) ∧
  (∀ (parked rest : List WaitEntry) (e : WaitEntry) (s : State),
    scanWalk parked [] s = s.modLe (fun x => { x with queue := parked }) ∧
    ((blockerOf e parked s).isSome = true → scanWalk parked (e :: rest) s = scanWalk (parked ++ [e]) rest s) ∧
    (blockerOf e parked s = none → scanWalk parked (e :: rest) s = scanWalk parked rest (grant e s)) ∧
    (blockerOf e parked s = none ↔
      (∀ x ∈ leases s, e.kind ≠ .upgrade x.1 → e.range.overlaps x.2.range = true →
        e.mode = .shared ∧ x.2.mode = .shared) ∧
      (∀ f ∈ parked, e.range.overlaps f.range = true → e.mode = .shared ∧ f.mode = .shared))) ∧
  (∀ (e : WaitEntry) (s : State) (done : Nat → Completion),
    done = (fun id => { status := .done, leaseId := some id, lastSector := some (e.range.first + e.range.count - 1),
                        count := e.range.count }) →
    (∀ i x, e.kind = .acquire → firstEmptySlot s.le.table = some i → s.le.table[i]? = some x →
      grant e s = countEvent .grant (some e.port) (complete e.port e.serial (done (i + 64 * (x.tag + 1#2).toNat))
        (s.modLe (fun y =>
          { y with
            table := y.table.set i
              { tag := x.tag + 1#2,
                lease := some { holder := e.port, mode := e.mode, first := e.range.first, count := e.range.count,
                                stamp := s.eu.epoch, state := .held } } })))) ∧
    (∀ id l, e.kind = .upgrade id → findLease s id = some l → l.state = .held →
      grant e s = countEvent .grant (some e.port) (complete e.port e.serial (done id)
        (renewLease id (setLeaseMode id .exclusive s))) ∧
      findLease (renewLease id (setLeaseMode id .exclusive s)) id =
        some { l with mode := .exclusive, stamp := s.eu.epoch }))

/-- A supervisor-only command from another port completes NOT_SUPERVISOR and changes no other port, lease, waiter, fence,
teardown, epoch, write unit, setting, notice, hold or word, and nothing at the media engine (R13, R180). -/
def Obligations.OtherPortsAreNotSupervisor : Prop :=
  ∀ (i : Instr) (d : Nat) (p : Port) (op : Byte) (ps : List Byte) (n : Nat) (s : State),
    supervisorOnly i = true → slotLength? i = some d → frameLayout i = some (p, op, ps, n) → d ≤ n →
    freePort p s = true → p ≠ s.ac.supervisor →
    ∃ t, exec i s = .next t ∧
      (t.plu.get p).record = some { opcode := op, completion := { status := .notSupervisor } } ∧
      (t.plu.get p).slot = .idle ∧ (t.plu.get p).resultReady = true ∧ (∀ q, q ≠ p → t.plu.get q = s.plu.get q) ∧
      t.le.table = s.le.table ∧ t.le.queue = s.le.queue ∧ t.le.fences = s.le.fences ∧ t.teardown = s.teardown ∧
      t.eu = s.eu ∧ t.pwu = s.pwu ∧ t.me = s.me ∧ t.ac = s.ac ∧ t.nu = s.nu ∧ t.holdList = s.holdList ∧ t.swb = s.swb

/-! ### Data (chapters 5 and 7) -/

/-- READ, WRITE and CLEAR with a sector that fails are refused and stage, read and clear nothing: DENIED with the lowest
sector in no region or below the access level asked for, and otherwise NOT_COVERED with the lowest sector of a LEASED
region with no covering lease (R5). -/
def Obligations.DataCommandsAreChecked : Prop :=
  ∀ (p : Port) (i : Instr) (op : Byte) (w : Bool) (r : Range) (len : Nat) (s : State) (st : Status) (n : Nat),
    freePort p s = true →
    ((∃ (first : Word16) (count : Byte), i = .read p first count len ∧ op = 0x20#8 ∧ w = false ∧ 5 ≤ len ∧
        1 ≤ count.toNat ∧ count.toNat ≤ 4 ∧ first.toNat + count.toNat ≤ 32768 ∧
        r = { first := first.toNat, count := count.toNat }) ∨
      (∃ (first : Word16) (count : Byte) (payload : List Byte), i = .write p first count payload len ∧ op = 0x21#8 ∧
        w = true ∧ 5 + 512 * count.toNat ≤ len ∧ 512 * count.toNat ≤ payload.length ∧ 1 ≤ count.toNat ∧
        count.toNat ≤ 4 ∧ first.toNat < 32768 ∧
        r = { first := first.toNat, count := min count.toNat (32768 - first.toNat) }) ∨
      (∃ first count : Word16, i = .clear p first count len ∧ op = 0x23#8 ∧ w = true ∧ 6 ≤ len ∧ 1 ≤ count.toNat ∧
        count.toNat ≤ 32768 ∧ first.toNat < 32768 ∧
        r = { first := first.toNat, count := min count.toNat (32768 - first.toNat) })) →
    r.first ≤ n → n < r.first + r.count →
    (st = .denied ∧ accessFails p w s n = true ∧ (∀ m, r.first ≤ m → m < n → accessFails p w s m = false) ∨
      st = .notCovered ∧ (∀ m, r.first ≤ m → m < r.first + r.count → accessFails p w s m = false) ∧
        leaseFails p w s n = true ∧ (∀ m, r.first ≤ m → m < n → leaseFails p w s m = false)) →
    exec i s = .next (endAccepted p s [] len (finish p { status := st, lastSector := some n } (takenByLe p op s)))

/-- The forms of each command whose parameters its rule refuses complete BAD_PARAM and have no effect, from the command's
defined length on (R1, R14, R29, R31, R84, R91, R125, R163, R178, R181, R184, R186). A READ, WRITE or CLEAR so refused asks
the lease engine nothing: with no teardown ahead of it at the write unit it completes at once, also while a sweep is pending
and requests wait, and the round-robin stays where it is (R24, R84, R91, R126, R176). -/
def Obligations.BadParametersAreRefused : Prop :=
  (∀ (p : Port) (len : Nat) (s : State), openPort p s = true → (s.plu.get p).slot = .idle → s.released = [] →
    (s.teardown.get p).pwu = false →
    (∀ (first : Word16) (count : Byte), 5 ≤ len → count = 0#8 ∨ 4 < count.toNat ∨ 32768 < first.toNat + count.toNat →
      exec (.read p first count len) s =
        .next (endAccepted p s [] len (finish p { status := .badParam } (acceptedIn p 0x20#8 s)))) ∧
    (∀ (first : Word16) (count : Byte) (payload : List Byte), payloadLength count ≤ payload.length →
      5 + payloadLength count ≤ len → count = 0#8 ∨ 4 < count.toNat ∨ 32768 ≤ first.toNat →
      exec (.write p first count payload len) s =
        .next (endAccepted p s [] len (finish p { status := .badParam } (acceptedIn p 0x21#8 s)))) ∧
    (∀ first count : Word16, 6 ≤ len → count = 0#16 ∨ 32768 < count.toNat ∨ 32768 ≤ first.toNat →
      exec (.clear p first count len) s =
        .next (endAccepted p s [] len (finish p { status := .badParam } (acceptedIn p 0x23#8 s))))) ∧
  (∀ (p : Port) (len : Nat) (s : State), freePort p s = true →
    (∀ (id wait : Byte) (l : Lease), ownHeldLease p id.toNat s = some l →
      (4 ≤ len → l.mode = .exclusive → exec (.upgrade p id wait len) s = .next (endAccepted p s [] len
        (finish p { status := .badParam, leaseId := some id.toNat } (takenByLe p 0x11#8 s)))) ∧
      (3 ≤ len → l.mode = .shared → exec (.downgrade p id len) s = .next (endAccepted p s [] len
        (finish p { status := .badParam, leaseId := some id.toNat } (takenByLe p 0x12#8 s))))) ∧
    (∀ counter event qualifier : Byte, 5 ≤ len →
      1 < counter.toNat ∨ 11 < event.toNat ∨ 1 < qualifier.toNat ∨ (qualifier = 0#8 ∧ 10 ≤ event.toNat) →
      exec (.counterSetup p counter event qualifier len) s =
        .next (endAccepted p s [] len (finish p { status := .badParam } (acceptedIn p 0x51#8 s)))) ∧
    (∀ counter : Byte, 3 ≤ len → 1 < counter.toNat → exec (.counterRead p counter len) s =
      .next (endAccepted p s [] len (finish p { status := .badParam } (acceptedIn p 0x52#8 s)))) ∧
    (p = s.ac.supervisor →
      (∀ (index : Byte) (first last : Word16) (access mode : Byte), 10 ≤ len →
        8 ≤ index.toNat ∨ regionOf first last access mode = none ∨
          (∃ g, regionOf first last access mode = some g ∧ overlapsOther index.toNat g s = true) →
        exec (.setRegion p index first last access mode len) s = .next (endAccepted p s [] len
          (finish p { status := .badParam, detail := [index] } (takenByLe p 0x60#8 s)))) ∧
      (∀ index action : Byte, 10 ≤ len → 8 ≤ index.toNat → exec (.setRegionUndefine p index action len) s =
        .next (endAccepted p s [] len (finish p { status := .badParam, detail := [index] } (takenByLe p 0x60#8 s)))) ∧
      (∀ target : Byte, 3 ≤ len → 4 ≤ target.toNat ∨ target.toNat = p.num → exec (.fence p target len) s =
        .next (endAccepted p s [] len (finish p { status := .badParam } (takenByLe p 0x66#8 s)))) ∧
      (∀ target : Byte, 3 ≤ len → 4 ≤ target.toNat → exec (.unfence p target len) s =
        .next (endAccepted p s [] len (finish p { status := .badParam } (takenByLe p 0x67#8 s))))))

/-- READ that passes its checks: the covering leases are renewed, the buffer emptied and the STAGED sectors copied to their
positions; with every sector staged it completes at once, otherwise, with no earlier job, a READ job of the remaining
sectors is issued (R71, R91, R171). -/
def Obligations.ReadCopiesStagedAndReadsTheRest : Prop :=
  ∀ (p : Port) (first : Word16) (count : Byte) (len : Nat) (s : State) (r : Range) (t : State),
    freePort p s = true → 5 ≤ len → r = { first := first.toNat, count := count.toNat } →
    1 ≤ r.count → r.count ≤ 4 → r.first + r.count ≤ 32768 →
    (∀ n ∈ r.sectors, accessFails p false s n = false ∧ leaseFails p false s n = false) →
    t = (renewLeases (coveringLeases p false r s) (takenByLe p 0x20#8 s)).modPlu p (fun u =>
      { u with buffer := copyStaged (s.pwu.get p) r [[], [], [], []], valid := 0 }) →
    ((∀ n ∈ r.sectors, (s.pwu.get p).hasStaged n = true) →
      exec (.read p first count len) s = .next (endAccepted p s [] len (completeRead p (nextSerial p s)
        { status := .done, flags := { staged := true }, lastSector := some (r.first + r.count - 1), count := r.count } t))) ∧
    (∀ rest, rest = r.sectors.filter (fun n => !(s.pwu.get p).hasStaged n) → rest ≠ [] → noJob p s = true →
      exec (.read p first count len) s = .next (endAccepted p s [] len
        (enqueueJob (.port { issuer := p, serial := nextSerial p s, abandoned := false } (.read rest))
          (t.modPwu p (fun u =>
            { u with command := some { serial := nextSerial p s, action := .read r rest,
                                       bound := coveringLeases p false r s, stage := .issued,
                                       holdExpired := false, broken := [] } })))))

/-- WRITE of leased sectors for which there is room: leases renewed, the pending clear range dropped, the sectors staged at
once, and DONE, or OVERFLOW if truncated, with STAGED, the last sector kept and the number kept (R1, R84 to R86). WRITE with
open sectors, or with too few free slots, has a job: the plan is a flush exactly when its new slots outnumber the free ones
(R85); with no earlier job and no hold, a DRAIN of the open sectors, and for a flush of every STAGED slot as well, in one
ascending list, is issued, and the slots taken become DRAINING (R87, R83). To stage sectors is to stage one after another,
each leased sector with its data and its covering lease's id: a STAGED slot of the sector keeps its lease id and takes the
new data, one STAGE_MERGE counted; with no slot of the sector, a STAGED slot of it is filled and nothing else changes (R25,
R86). -/
def Obligations.WriteStagesAtOnce : Prop :=
  ∀ (p : Port) (first : Word16) (count : Byte) (payload : List Byte) (len : Nat) (s : State) (r : Range) (cut : Bool),
    freePort p s = true → 1 ≤ count.toNat → count.toNat ≤ 4 → 5 + 512 * count.toNat ≤ len →
    512 * count.toNat ≤ payload.length → first.toNat < 32768 →
    (cut = false ∧ first.toNat + count.toNat ≤ 32768 ∧ r = { first := first.toNat, count := count.toNat } ∨
      cut = true ∧ 32768 < first.toNat + count.toNat ∧ r = { first := first.toNat, count := 32768 - first.toNat }) →
    (∀ n ∈ r.sectors, accessFails p true s n = false ∧ leaseFails p true s n = false) →
    ((∀ n ∈ r.sectors, inMode .opened s n = false) →
      newSlots (s.pwu.get p) (leasedItems p (writeItems r payload) s) ≤ 8 - (s.pwu.get p).slots.length →
      exec (.write p first count payload len) s = .next (endAccepted p s [] len (finish p
        { status := if cut then .overflow else .done, flags := { staged := true },
          lastSector := some (r.first + r.count - 1), count := r.count }
        (stageSectors p (leasedItems p (writeItems r payload) s)
          ((renewLeases (coveringLeases p true r s) (takenByLe p 0x21#8 s)).modPwu p (fun u =>
            { u with pendingClear := none })))))) ∧
    (∀ (flush : Bool) (leased : List LeasedSector) (opens items : List SectorItem),
      leased = leasedItems p (writeItems r payload) s → opens = openItemsOf (writeItems r payload) s →
      flush = decide (8 - (s.pwu.get p).slots.length < newSlots (s.pwu.get p) leased) →
      opens ≠ [] ∨ flush = true →
      items = opens.foldl (fun l x => insertItem x l)
        (if flush then ((s.pwu.get p).slots.filter (fun x => decide (x.state = .staged))).map
          (fun x => { sector := x.sector, data := x.data : SectorItem }) else []) →
      ((s.pwu.get p).slotsSound = true → items.Pairwise (fun x y => x.sector < y.sector)) ∧
      (items ≠ [] → noJob p s = true →
      blocked p .committed (items.map (fun x => Range.single x.sector)) s = false →
      exec (.write p first count payload len) s = .next (endAccepted p s [] len
        (enqueueJob (.port { issuer := p, serial := nextSerial p s, abandoned := false } (.drain items))
          ((renewLeases (coveringLeases p true r s) (takenByLe p 0x21#8 s)).modPwu p (fun u =>
            { u with pendingClear := none,
                     slots := u.slots.map (fun x =>
                       if decide (x.state = .staged) && flush then { x with state := .draining } else x),
                     command := some { serial := nextSerial p s, action := .write r cut flush leased opens,
                                       bound := coveringLeases p true r s, stage := .issued,
                                       holdExpired := false, broken := [] } })))))) ∧
    (∀ x, x ∈ leasedItems p (writeItems r payload) s ↔
      ∃ i, i < r.count ∧ inMode .leased s (r.first + i) = true ∧ x.sector = r.first + i ∧
        x.data = (payload.drop (512 * i)).take 512 ∧ coveringLease p true s (r.first + i) = some x.leaseId) ∧
    (leasedItems p (writeItems r payload) s).Pairwise (fun x y => x.sector < y.sector) ∧
    (∀ (xs : List LeasedSector) (x : LeasedSector) (t : State),
      stageSectors p [] t = t ∧ stageSectors p (x :: xs) t = stageSectors p xs (stageSector p t x)) ∧
    (∀ (x : LeasedSector) (t : State),
      ((∃ y ∈ (t.pwu.get p).slots, y.sector = x.sector ∧ y.state = .staged) →
        stageSector p t x = countEvent .stageMerge (some p) (t.modPwu p (fun u =>
          { u with slots := u.slots.map (fun y =>
              if y.sector = x.sector ∧ y.state = .staged then { y with data := x.data } else y) }))) ∧
      ((∀ y ∈ (t.pwu.get p).slots, y.sector ≠ x.sector) → (t.pwu.get p).slots.length < 8 →
        ∃ slots, stageSector p t x = t.modPwu p (fun u => { u with slots := slots }) ∧
          slots.length = (t.pwu.get p).slots.length + 1 ∧
          ∀ z, z ∈ slots ↔ z ∈ (t.pwu.get p).slots ∨
            z = { sector := x.sector, data := x.data, leaseId := x.leaseId, state := .staged }))

/-- COMMIT of a HELD lease, and COMMIT ALL: with no slot to take they complete DONE at once with a count of 0; with slots,
no earlier job and no hold, a DRAIN of the slots is issued, in ascending order since a write unit's slots stand in it
(R80), and they become DRAINING (R72, R83, R94). -/
def Obligations.CommitDrainsTheStagedSlots : Prop :=
  ∀ (p : Port) (i : Instr) (id? : Option Nat) (bound : List Nat) (renewed : List Nat) (len : Nat) (s : State),
    freePort p s = true → 4 ≤ len →
    ((∃ (id : Byte) (l : Lease), i = .commit p id len ∧ id? = some id.toNat ∧ bound = [id.toNat] ∧
        renewed = [id.toNat] ∧ ownHeldLease p id.toNat s = some l) ∨
      (∃ selector : Byte, i = .commitAll p selector len ∧ id? = none ∧ bound = stagedLeases (s.pwu.get p) ∧
        renewed = (heldLeases p s).filter (fun id => (stagedLeases (s.pwu.get p)).contains id))) →
    (((s.pwu.get p).slots.filter (PwuAction.commit id?).takes = [] →
      exec i s = .next (endAccepted p s [] len (finish p { status := .done, leaseId := id? }
        (renewLeases renewed (takenByLe p 0x22#8 s))))) ∧
    (∀ items, items = ((s.pwu.get p).slots.filter (PwuAction.commit id?).takes).map
        (fun x => { sector := x.sector, data := x.data : SectorItem }) →
      ((s.pwu.get p).slotsSound = true → items.Pairwise (fun x y => x.sector < y.sector) ∧ items.length ≤ 8) ∧
      (items ≠ [] → noJob p s = true →
      blocked p .committed (items.map (fun x => Range.single x.sector)) s = false →
      exec i s = .next (endAccepted p s [] len
        (enqueueJob (.port { issuer := p, serial := nextSerial p s, abandoned := false } (.drain items))
          ((renewLeases renewed (takenByLe p 0x22#8 s)).modPwu p (fun u =>
            { u with slots := u.slots.map (fun x =>
                       if (PwuAction.commit id?).takes x then { x with state := .draining } else x),
                     command := some { serial := nextSerial p s, action := .commit id?, bound := bound,
                                       stage := .issued, holdExpired := false, broken := [] } })))))))

/-- CLEAR that passes its checks: leases renewed, effective range and pending range formed; with no whole block it
completes at once DONE, or OVERFLOW if truncated, with PENDING and the new pending range; with whole blocks, no earlier
job and no hold, a CLEAR job of them is issued and the STAGED slots in them are discarded (R71, R125 to R130). The effective
range is the smallest range that contains the pending range and the command's when they overlap or adjoin, and the command's
otherwise (R127). -/
def Obligations.ClearFormsItsRanges : Prop :=
  ∀ (p : Port) (first count : Word16) (len : Nat) (s : State) (cmd eff : Range) (cut : Bool) (t : State),
    freePort p s = true → 6 ≤ len → 1 ≤ count.toNat → count.toNat ≤ 32768 → first.toNat < 32768 →
    (cut = false ∧ first.toNat + count.toNat ≤ 32768 ∧ cmd = { first := first.toNat, count := count.toNat } ∨
      cut = true ∧ 32768 < first.toNat + count.toNat ∧ cmd = { first := first.toNat, count := 32768 - first.toNat }) →
    dataCheck p true cmd s = none →
    eff = effectiveRange cmd (s.pwu.get p).pendingClear →
    t = (renewLeases (coveringLeases p true cmd s) (takenByLe p 0x23#8 s)).modPwu p (fun u =>
      { u with pendingClear := pendingAfter eff }) →
    (wholeBlocks eff = [] →
      exec (.clear p first count len) s = .next (endAccepted p s [] len (finish p
        { status := if cut then .overflow else .done, flags := { pending := true },
          detail := pendingDetail (pendingAfter eff) } t))) ∧
    (wholeBlocks eff ≠ [] → noJob p s = true → blocked p .cleared ((wholeBlocks eff).map blockRange) s = false →
      exec (.clear p first count len) s = .next (endAccepted p s [] len
        (enqueueJob (.port { issuer := p, serial := nextSerial p s, abandoned := false } (.clear (wholeBlocks eff)))
          (t.modPwu p (fun u =>
            { u with slots := u.slots.filter (fun x =>
                       !(decide (x.state = .staged) && (wholeBlocks eff).contains (x.sector / 32))),
                     command := some { serial := nextSerial p s,
                                       action := .clear (wholeBlocks eff) cut (pendingAfter eff),
                                       bound := clearBound p cmd (wholeBlocks eff) s, stage := .issued,
                                       holdExpired := false, broken := [] } }))))) ∧
    ((s.pwu.get p).pendingClear = none → eff = cmd) ∧
    (∀ q, (s.pwu.get p).pendingClear = some q → 1 ≤ q.count →
      (q.first ≤ cmd.first + cmd.count → cmd.first ≤ q.first + q.count →
        eff = { first := min q.first cmd.first,
                count := max (q.first + q.count) (cmd.first + cmd.count) - min q.first cmd.first }) ∧
      (cmd.first + cmd.count < q.first ∨ q.first + q.count < cmd.first → eff = cmd))

/-- A job is blocked exactly when another port is CONGESTED and has a SECTORS watch with hold yes, the job's kind among
its kinds and a range over one of the job's sectors (R150). A WRITE's, COMMIT's, COMMIT ALL's, RELEASE's or DOWNGRADE's
drain or a CLEAR's blocks that would go out but are blocked go on the hold list, last, with the live H; the slot becomes
HELD, no slot drains or is discarded, no lease ends and no job is issued (R32, R37, R83, R87, R130, R151). A
re-examination takes off the list exactly the entries that are blocked no longer and releases them in the list's order, as
one event's list: the slot of each becomes BUSY, and its hold has ended with HOLD_EXPIRED clear (R152). -/
def Obligations.BlockedJobsAreHeld : Prop :=
  (∀ (p : Port) (k : ChangeKind) (changed : List Range) (s : State), blocked p k changed s = true ↔
    ∃ (q : Port) (i : Nat) (r : Range) (kinds : WatchKinds) (self : Bool), q ≠ p ∧ (s.nu.get q).congested = true ∧
      (s.nu.get q).watches[i]? = some (some (.sectors r kinds self true)) ∧
      (k = .committed ∧ kinds.committed = true ∨ k = .cleared ∧ kinds.cleared = true) ∧
      ∃ c ∈ changed, c.overlaps r = true) ∧
  (∀ (p : Port) (id : Byte) (len : Nat) (s : State) (l : Lease) (changed : List Range),
    freePort p s = true → 4 ≤ len → ownHeldLease p id.toNat s = some l → noJob p s = true →
    changed = ((s.pwu.get p).slots.filter (PwuAction.commit (some id.toNat)).takes).map (fun x => Range.single x.sector) →
    blocked p .committed changed s = true →
    exec (.commit p id len) s = .next (endAccepted p s [] len (setSlot p (nextSerial p s) .held
      (((renewLease id.toNat (takenByLe p 0x22#8 s)).modPwu p (fun u =>
        { u with command := some { serial := nextSerial p s, action := .commit (some id.toNat), bound := [id.toNat],
                                   stage := .onHold, holdExpired := false, broken := [] } })).setHoldList
        (s.holdList ++ [{ port := p, kind := .committed, sectors := changed, holdMs := s.ac.holdLimit,
                          serial := nextSerial p s }]))))) ∧
  (∀ (p : Port) (first count : Word16) (len : Nat) (s : State) (cmd eff : Range),
    freePort p s = true → 6 ≤ len → cmd = { first := first.toNat, count := count.toNat } → 1 ≤ cmd.count →
    cmd.first + cmd.count ≤ 32768 → dataCheck p true cmd s = none →
    eff = effectiveRange cmd (s.pwu.get p).pendingClear → wholeBlocks eff ≠ [] → noJob p s = true →
    blocked p .cleared ((wholeBlocks eff).map blockRange) s = true →
    exec (.clear p first count len) s = .next (endAccepted p s [] len (setSlot p (nextSerial p s) .held
      (((renewLeases (coveringLeases p true cmd s) (takenByLe p 0x23#8 s)).modPwu p (fun u =>
        { u with pendingClear := pendingAfter eff,
                 command := some { serial := nextSerial p s, action := .clear (wholeBlocks eff) false (pendingAfter eff),
                                   bound := clearBound p cmd (wholeBlocks eff) s, stage := .onHold,
                                   holdExpired := false, broken := [] } })).setHoldList
        (s.holdList ++ [{ port := p, kind := .cleared, sectors := (wholeBlocks eff).map blockRange,
                          holdMs := s.ac.holdLimit, serial := nextSerial p s }]))))) ∧
  (∀ (p : Port) (i : Instr) (a : PwuAction) (bound : List Nat) (len : Nat) (s t : State) (k : ChangeKind)
    (changed : List Range), freePort p s = true → noJob p s = true → HasJob p len s i a bound t →
    AsksHold a (s.pwu.get p) k changed → blocked p k changed s = true →
    exec i s = .next (endAccepted p s [] len (setSlot p (nextSerial p s) .held
      ((t.modPwu p (fun u =>
        { u with command := some { serial := nextSerial p s, action := a, bound := bound, stage := .onHold,
                                   holdExpired := false, broken := [] } })).setHoldList
        (s.holdList ++ [{ port := p, kind := k, sectors := changed, holdMs := s.ac.holdLimit,
                          serial := nextSerial p s }]))))) ∧
  (∀ s : State, (reexamine s).holdList = s.holdList.filter (fun h => blocked h.port h.kind h.sectors s) ∧
    (∀ gone, gone = (s.holdList.filter (fun h => !blocked h.port h.kind h.sectors s)).map (fun h => (h.port, h.serial)) →
      (reexamine s).released = if gone = [] then s.released else s.released ++ [gone]) ∧
    (reexamine s).nu = s.nu ∧ (reexamine s).le = s.le ∧ (reexamine s).me = s.me ∧
    (∀ h c, h ∈ s.holdList → blocked h.port h.kind h.sectors s = false → (∀ g ∈ s.holdList, g.port = h.port → g = h) →
      (s.pwu.get h.port).command = some c → c.serial = h.serial → c.stage = .onHold →
      (s.plu.get h.port).slot = .held → (s.plu.get h.port).serial = h.serial →
      (reexamine s).pwu.get h.port =
        { s.pwu.get h.port with command := some { c with stage := .holdEnded, holdExpired := false } } ∧
      (reexamine s).plu.get h.port = { s.plu.get h.port with slot := .busy }))

/-- The whole blocks of a range are the logical blocks b with 32b ≥ f and 32b + 31 ≤ l, in ascending order, and the new
pending clear range is the whole range when there are none, and otherwise the tail after the last (R128). -/
def Obligations.WholeBlocksAndPendingRange : Prop :=
  ∀ r : Range, 1 ≤ r.count →
    (∀ b, b ∈ wholeBlocks r ↔ r.first ≤ 32 * b ∧ 32 * b + 31 ≤ r.first + r.count - 1) ∧
    (wholeBlocks r).Pairwise (· < ·) ∧
    (wholeBlocks r = [] → pendingAfter r = some r ∧ r.count ≤ 62) ∧
    (∀ m, (wholeBlocks r).getLast? = some m →
      (32 * m + 31 < r.first + r.count - 1 →
        pendingAfter r = some { first := 32 * m + 32, count := r.first + r.count - (32 * m + 32) } ∧
          r.first + r.count - (32 * m + 32) ≤ 31) ∧
      (32 * m + 31 = r.first + r.count - 1 → pendingAfter r = none))

/-- QUERY SECTOR of a sector in bounds reports region index, access, mode, covering lease with holder, mode and state, the
number of leases, staging, pending clear and physical block, and changes no other state (R19; the byte of a region index
"none": log 37; the byte of a yes/no item: log 19; section 1.7). The lease reported is one that contains the sector: the
port's own if it has one, the first in slot order among several (R19). A sector above 32767 completes BAD_PARAM (R1, R19),
at once also while a sweep is pending, a teardown of the port waits or requests do, and the round-robin stays where it is: no
lease item is read (R19, R24, R167, R176). QUERY LEASE of an id that names a lease reports it, renewing nothing; an id that names none completes NO_LEASE (R35). -/
def Obligations.QueriesReport : Prop :=
  (∀ (p : Port) (sector : Word16) (len : Nat) (s : State), freePort p s = true → 4 ≤ len →
    (∀ (region : Option (Nat × Region)) (lease : Option (Nat × Lease)), sector.toNat ≤ 32767 →
      region = regionIn s.ac.regions sector.toNat → lease = reportedLease p sector.toNat s →
      exec (.querySector p sector len) s = .next (endAccepted p s [] len (finish p
        { status := .done, leaseId := lease.map Prod.fst, lastSector := some sector.toNat,
          detail := [
            match region with | some x => BitVec.ofNat 8 x.1 | none => 0xFF#8,
            match region with | some x => BitVec.ofNat 8 (x.2.access.get p).code | none => 0#8,
            match region with | some x => BitVec.ofNat 8 x.2.mode.code | none => 0xFF#8,
            match lease with | some x => BitVec.ofNat 8 x.1 | none => 0xFF#8,
            match lease with | some x => BitVec.ofNat 8 x.2.holder.num | none => 0xFF#8,
            match lease with | some x => BitVec.ofNat 8 x.2.mode.code | none => 0xFF#8,
            match lease with | some x => BitVec.ofNat 8 x.2.state.code | none => 0xFF#8,
            BitVec.ofNat 8 ((leases s).filter (fun x => x.2.range.contains sector.toNat)).length,
            match (s.pwu.get p).slots.find? (fun x => decide (x.sector = sector.toNat)) with
              | some x => match x.state with | .staged => 1#8 | .draining => 2#8
              | none => 0#8,
            match (s.pwu.get p).pendingClear with
              | some q => if q.first ≤ sector.toNat ∧ sector.toNat < q.first + q.count then 1#8 else 0#8
              | none => 0#8,
            BitVec.ofNat 8 (servingBlock s.me (sector.toNat / 32) / 256),
            BitVec.ofNat 8 (servingBlock s.me (sector.toNat / 32))] } (takenByLe p 0x24#8 s))))) ∧
  (∀ (p : Port) (sector : Word16) (len : Nat) (s : State), openPort p s = true → (s.plu.get p).slot = .idle →
    s.released = [] → 4 ≤ len → 32767 < sector.toNat →
    exec (.querySector p sector len) s = .next (endAccepted p s [] len (finish p { status := .badParam }
      (acceptedIn p 0x24#8 s)))) ∧
  (∀ (p : Port) (n : Nat) (s : State),
    (reportedLease p n s = none ↔ ∀ x ∈ leases s, x.2.range.contains n = false) ∧
    (∀ x, reportedLease p n s = some x → x.2.range.contains n = true ∧ ∃ before after,
      leases s = before ++ x :: after ∧
        (x.2.holder = p → ∀ y ∈ before, y.2.holder = p → y.2.range.contains n = false) ∧
        (x.2.holder ≠ p → (∀ y ∈ before, y.2.range.contains n = false) ∧
          (∀ y ∈ leases s, y.2.holder = p → y.2.range.contains n = false)))) ∧
  (∀ (p : Port) (id : Byte) (len : Nat) (s : State), freePort p s = true → 3 ≤ len →
    (∀ l, findLease s id.toNat = some l →
      exec (.queryLease p id len) s = .next (endAccepted p s [] len (finish p
        { status := .done, leaseId := some id.toNat, lastSector := some (l.first + l.count - 1), count := l.count,
          detail := [BitVec.ofNat 8 l.holder.num, BitVec.ofNat 8 l.mode.code, BitVec.ofNat 8 l.state.code,
                     match l.state with | .held => 0xFF#8 | .ending c => BitVec.ofNat 8 c.code,
                     BitVec.ofNat 8 (l.first / 256), BitVec.ofNat 8 l.first, BitVec.ofNat 8 l.stamp.toNat,
                     BitVec.ofNat 8 (s.eu.epoch - l.stamp).toNat] }
        (takenByLe p 0x15#8 s)))) ∧
    (findLease s id.toNat = none →
      exec (.queryLease p id len) s = .next (endAccepted p s [] len (finish p { status := .noLease }
        (takenByLe p 0x15#8 s)))))

/-! ### Watches, notices, signal words (chapters 8 and 9) -/

/-- SET WATCH puts a watch that passes its checks in the entry and completes DONE with the index and a count of 1; DROP
WATCH empties the entry and completes DONE with a count of 1 or 0; each re-examines the hold list when the watch that
goes had hold yes and the port is CONGESTED. SET LEVELS sets levels in range with low below high, and the congestion
state against the queue's count, re-examining the hold list when the port goes from CONGESTED to NORMAL. The jobs that a
re-examination releases then go on. Each completes BAD_PARAM with no effect on parameters that its rule refuses (R136,
R137, R148, R152). -/
def Obligations.WatchesAndLevelsAreSet : Prop :=
  (∀ (p : Port) (index target : Byte) (first count wordSet : Word16) (kinds self hold : Byte) (len : Nat) (s t : State),
    freePort p s = true → 13 ≤ len →
    (∀ w, index.toNat < 8 → watchOf target first count wordSet kinds self hold = some w →
      t = (acceptedIn p 0x30#8 s).modNu p (fun u => { u with watches := u.watches.set index.toNat (some w) }) →
      exec (.setWatch p index target first count wordSet kinds self hold len) s = .next (endAccepted p s [] len
        (goOn (finish p { status := .done, count := 1, detail := [index] }
          (if (watchAt p index.toNat s).any Watch.hasHold && (s.nu.get p).congested then reexamine t else t))))) ∧
    (8 ≤ index.toNat ∨ watchOf target first count wordSet kinds self hold = none →
      exec (.setWatch p index target first count wordSet kinds self hold len) s = .next (endAccepted p s [] len
        (finish p { status := .badParam } (acceptedIn p 0x30#8 s))))) ∧
  (∀ (p : Port) (index : Byte) (len : Nat) (s t : State), freePort p s = true → 3 ≤ len →
    (index.toNat < 8 →
      t = (acceptedIn p 0x31#8 s).modNu p (fun u => { u with watches := u.watches.set index.toNat none }) →
      exec (.dropWatch p index len) s = .next (endAccepted p s [] len (goOn (finish p
        { status := .done, count := if (watchAt p index.toNat s).isSome then 1 else 0, detail := [index] }
        (if (watchAt p index.toNat s).any Watch.hasHold && (s.nu.get p).congested then reexamine t else t))))) ∧
    (8 ≤ index.toNat → exec (.dropWatch p index len) s = .next (endAccepted p s [] len
      (finish p { status := .badParam } (acceptedIn p 0x31#8 s))))) ∧
  (∀ (p : Port) (high low : Byte) (len : Nat) (s t : State) (now : Bool), freePort p s = true → 4 ≤ len →
    (1 ≤ high.toNat → high.toNat ≤ 16 → low.toNat < high.toNat →
      now = (if high.toNat ≤ (s.nu.get p).queue.length then true
        else if (s.nu.get p).queue.length ≤ low.toNat then false else (s.nu.get p).congested) →
      t = (acceptedIn p 0x32#8 s).modNu p (fun u =>
        { u with high := high.toNat, low := low.toNat, congested := now }) →
      exec (.setLevels p high low len) s = .next (endAccepted p s [] len (goOn (finish p
        { status := .done, count := (s.nu.get p).queue.length, detail := [if now then 1#8 else 0#8] }
        (if (s.nu.get p).congested && !now then reexamine t else t))))) ∧
    (high = 0#8 ∨ 16 < high.toNat ∨ high.toNat ≤ low.toNat →
      exec (.setLevels p high low len) s = .next (endAccepted p s [] len
        (finish p { status := .badParam } (acceptedIn p 0x32#8 s)))))

/-- A record placed in a port's queue is appended when the queue holds fewer than 16, making the port CONGESTED at its high
level; at a full queue it is dropped, the overrun flag set and one NOTICE_DROP counted (R145, R147). An event gives every
port its records, in watch order (R139): COMMITTED and CLEARED for each SECTORS watch of a port that is not fenced which
asks for the kind, with include self in the source's own table, over the sectors inside its range, from the lowest to the
highest (R140); FREED likewise at a lease's removal, with the lease's id (R141; of a fenced port too: log 32); LOST one
record to the holder (R142); SIGNAL for each SIGNALS watch with the word in its set (R143); a media event one record for
the lowest MEDIA entry (R144). -/
def Obligations.NoticePlacement : Prop :=
  (∀ (p : Port) (s : State) (n : Notice),
    ((s.nu.get p).queue.length < 16 →
      placeNotice p s n = s.modNu p (fun u =>
        { u with queue := u.queue ++ [n], congested := u.congested || decide (u.high ≤ u.queue.length + 1) })) ∧
    (16 ≤ (s.nu.get p).queue.length →
      placeNotice p s n = countEvent .noticeDrop (some p) (s.modNu p (fun u => { u with overrun := true })))) ∧
  (∀ (records : Port → List Notice) (s : State) (q : Port),
    (deliver records s).nu.get q = ((records q).foldl (placeNotice q) s).nu.get q) ∧
  (∀ (source : Port) (sectors : List Nat) (s : State), ∃ records : Port → List Notice,
    committedEvent source sectors s = deliver records s ∧
    ∀ q, (records q).Pairwise (fun x y => x.watch.getD 0 < y.watch.getD 0) ∧ ∀ x, x ∈ records q ↔
      (s.plu.get q).fenced = false ∧ ∃ (i : Nat) (r : Range) (k : WatchKinds) (self hold : Bool) (a b : Nat),
        (s.nu.get q).watches[i]? = some (some (.sectors r k self hold)) ∧ k.committed = true ∧
        (q ≠ source ∨ self = true) ∧ a ∈ sectors ∧ b ∈ sectors ∧ r.contains a = true ∧ r.contains b = true ∧
        (∀ n ∈ sectors, r.contains n = true → a ≤ n ∧ n ≤ b) ∧
        x = { body := .committed source { first := a, count := b + 1 - a }, watch := some i }) ∧
  (∀ (source : Port) (c : Range) (s : State), ∃ records : Port → List Notice,
    clearedEvent source c s = deliver records s ∧
    ∀ q, (records q).Pairwise (fun x y => x.watch.getD 0 < y.watch.getD 0) ∧ ∀ x, x ∈ records q ↔
      (s.plu.get q).fenced = false ∧ ∃ (i : Nat) (r : Range) (k : WatchKinds) (self hold : Bool) (d : Range),
        (s.nu.get q).watches[i]? = some (some (.sectors r k self hold)) ∧ k.cleared = true ∧
        (q ≠ source ∨ self = true) ∧ c.common r = some d ∧ x = { body := .cleared source d, watch := some i }) ∧
  (∀ (id : Nat) (l : Lease) (s : State), ∃ records : Port → List Notice,
    freedEvent id l s = deliver records s ∧
    ∀ q, (records q).Pairwise (fun x y => x.watch.getD 0 < y.watch.getD 0) ∧ ∀ x, x ∈ records q ↔
      ∃ (i : Nat) (r : Range) (k : WatchKinds) (self hold : Bool) (d : Range),
        (s.nu.get q).watches[i]? = some (some (.sectors r k self hold)) ∧ k.freed = true ∧
        (q ≠ l.holder ∨ self = true) ∧ l.range.common r = some d ∧
        x = { body := .freed l.holder id d, watch := some i }) ∧
  (∀ (id : Nat) (l : Lease) (s : State),
    lostEvent id l s = placeNotice l.holder s { body := .lost l.holder id l.range, watch := none }) ∧
  (∀ (source : Port) (word : Nat) (value : Word16) (s : State), ∃ records : Port → List Notice,
    signalEvent source word value s = deliver records s ∧
    ∀ q, (records q).Pairwise (fun x y => x.watch.getD 0 < y.watch.getD 0) ∧ ∀ x, x ∈ records q ↔
      (s.plu.get q).fenced = false ∧ ∃ (i : Nat) (words : Word16) (self : Bool),
        (s.nu.get q).watches[i]? = some (some (.signals words self)) ∧ words.getLsbD word = true ∧
        (q ≠ source ∨ self = true) ∧ x = { body := .signal source word value, watch := some i }) ∧
  (∀ (k : MediaKind) (block : Nat) (s : State), ∃ records : Port → List Notice,
    mediaEvent k block s = deliver records s ∧
    ∀ q, ((s.plu.get q).fenced = true ∨ (∀ i : Nat, (s.nu.get q).watches[i]? ≠ some (some Watch.media)) → records q = []) ∧
      (∀ i : Nat, (s.plu.get q).fenced = false → (s.nu.get q).watches[i]? = some (some Watch.media) →
        (∀ j, j < i → (s.nu.get q).watches[j]? ≠ some (some Watch.media)) →
        records q = [{ body := .media k block, watch := some i }]))

/-- SIGNAL READ of a word 0 to 15 reports it and changes no word; SIGNAL MODIFY gives each bit whose mask bit is 1 the
value's bit and keeps the others, reports the old and the new value, and hands a SIGNAL event when the word changed,
before its completion; a word above 15 completes BAD_PARAM with no effect (R157 to R159). -/
def Obligations.SignalWordsAreReadAndModified : Prop :=
  (∀ (p : Port) (word : Byte) (len : Nat) (s : State), freePort p s = true → 3 ≤ len → word.toNat < 16 →
    exec (.signalRead p word len) s = .next (endAccepted p s [] len (finish p
      { status := .done, detail := [word,
          BitVec.ofNat 8 ((signalWord s word.toNat).toNat / 256), BitVec.ofNat 8 (signalWord s word.toNat).toNat] }
      (acceptedIn p 0x40#8 s)))) ∧
  (∀ (p : Port) (word : Byte) (mask value : Word16) (len : Nat) (s : State) (old new : Word16),
    freePort p s = true → 7 ≤ len → word.toNat < 16 → old = signalWord s word.toNat →
    (∀ k, k < 16 → new.getLsbD k = if mask.getLsbD k then value.getLsbD k else old.getLsbD k) →
    exec (.signalModify p word mask value len) s = .next (endAccepted p s [] len (finish p
      { status := .done, count := if new = old then 0 else 1,
        detail := [word, BitVec.ofNat 8 (old.toNat / 256), BitVec.ofNat 8 old.toNat,
                   BitVec.ofNat 8 (new.toNat / 256), BitVec.ofNat 8 new.toNat] }
      (if new = old then acceptedIn p 0x41#8 s
       else signalEvent p word.toNat new ((acceptedIn p 0x41#8 s).setSwb (s.swb.set word.toNat new)))))) ∧
  (∀ (p : Port) (word : Byte) (mask value : Word16) (len : Nat) (s : State), freePort p s = true → 16 ≤ word.toNat →
    (3 ≤ len → exec (.signalRead p word len) s =
      .next (endAccepted p s [] len (finish p { status := .badParam } (acceptedIn p 0x40#8 s)))) ∧
    (7 ≤ len → exec (.signalModify p word mask value len) s =
      .next (endAccepted p s [] len (finish p { status := .badParam } (acceptedIn p 0x41#8 s)))))

/-! ### The port link units' own commands (chapters 10 and 11) -/

/-- DEVICE INFO completes at once with its twelve items and changes no other state (R185). SET ATTN MASK with bits 7 to 4
clear sets the port's mask and completes DONE with the mask in the detail; any other mask completes BAD_PARAM and leaves
it (R174, R178). -/
def Obligations.PortLinkUnitAnswersAtOnce : Prop :=
  (∀ (p : Port) (len : Nat) (s : State), freePort p s = true → 2 ≤ len →
    exec (.deviceInfo p len) s = .next (endAccepted p s [] len (finish p
      { status := .done,
        detail := [65#8, 1#8, BitVec.ofNat 8 s.ac.supervisor.num, BitVec.ofNat 8 s.eu.epoch.toNat,
                   BitVec.ofNat 8 s.me.pool.length, BitVec.ofNat 8 s.me.remap.length,
                   BitVec.ofNat 8 s.me.retired.length, if s.ac.metaInvalid then 1#8 else 0#8,
                   if s.ac.metaFault then 1#8 else 0#8, BitVec.ofNat 8 s.eu.period, BitVec.ofNat 8 s.ac.holdLimit,
                   BitVec.ofNat 8 s.ac.quota] }
      (acceptedIn p 0x50#8 s)))) ∧
  (∀ (p : Port) (mask : Byte) (len : Nat) (s : State), freePort p s = true → 3 ≤ len →
    (mask.toNat < 16 →
      exec (.setAttnMask p mask len) s = .next (endAccepted p s [] len (finish p { status := .done, detail := [mask] }
        ((acceptedIn p 0x33#8 s).modPlu p (fun u => { u with mask := BitVec.ofNat 4 mask.toNat }))))) ∧
    (16 ≤ mask.toNat →
      exec (.setAttnMask p mask len) s = .next (endAccepted p s [] len (finish p { status := .badParam }
        (acceptedIn p 0x33#8 s)))))

/-- COUNTER SETUP with a selection that R186 admits, or with event code 00h, none (log 47), sets the counter's event and
qualifier and makes its value 0; COUNTER READ reports them with the value's four bytes and changes nothing (R186). One
occurrence of an event adds one, from 4294967295 to 0, to every counter of every port that selects it, under ANY whatever
the attribution and under SELF for its own port, and changes nothing else: every other block, pin, list and queue stays as
it was (R187). -/
def Obligations.CountersCount : Prop :=
  (∀ (p : Port) (counter event qualifier : Byte) (len : Nat) (s : State) (e : Option CounterEvent) (q : Qualifier),
    freePort p s = true → 5 ≤ len → counterEventOf event = some e → qualifierOf qualifier = some q →
    ¬ (q = .self ∧ (e = some .relocation ∨ e = some .relocDropped)) → counter = 0#8 ∨ counter = 1#8 →
    exec (.counterSetup p counter event qualifier len) s = .next (endAccepted p s [] len (finish p
      { status := .done, detail := [counter, event, qualifier] }
      ((acceptedIn p 0x51#8 s).modPlu p (fun u =>
        if counter = 0#8 then { u with counter0 := { event := e, qualifier := q, value := 0#32 } }
        else { u with counter1 := { event := e, qualifier := q, value := 0#32 } }))))) ∧
  (∀ (p : Port) (counter : Byte) (len : Nat) (s : State) (c : Counter),
    freePort p s = true → 3 ≤ len →
    (counter = 0#8 ∧ c = (s.plu.get p).counter0 ∨ counter = 1#8 ∧ c = (s.plu.get p).counter1) →
    exec (.counterRead p counter len) s = .next (endAccepted p s [] len (finish p
      { status := .done,
        detail := [counter, BitVec.ofNat 8 (counterEventCode c.event), BitVec.ofNat 8 c.qualifier.code,
                   c.value.extractLsb' 24 8, c.value.extractLsb' 16 8, c.value.extractLsb' 8 8,
                   c.value.extractLsb' 0 8] }
      (acceptedIn p 0x52#8 s)))) ∧
  (∀ (e : CounterEvent) (attr : Option Port) (s : State),
    countEvent e attr s = { s with plu := (countEvent e attr s).plu } ∧
    ∀ q, (countEvent e attr s).plu.get q =
      { s.plu.get q with
        counter0 := { (s.plu.get q).counter0 with value := (s.plu.get q).counter0.value +
          (if (s.plu.get q).counter0.event = some e ∧
            ((s.plu.get q).counter0.qualifier = .any ∨ attr = some q) then 1#32 else 0#32) },
        counter1 := { (s.plu.get q).counter1 with value := (s.plu.get q).counter1.value +
          (if (s.plu.get q).counter1.event = some e ∧
            ((s.plu.get q).counter1.qualifier = .any ∨ attr = some q) then 1#32 else 0#32) } })

/-! ### The supervisor port's commands (chapters 1 and 11) -/

/-- SET REGION by the supervisor, with a valid entry that overlaps no other defined entry, or with "undefine": when no lease
and no waiter overlaps the old or the new range, the entry is replaced and the pending clear ranges that overlap either
range are dropped; otherwise it completes REGION_BUSY and changes nothing, with the index, the kind, the id of the
lowest-slot overlapping lease or else the port of the earliest overlapping waiter, the absent one of the two as FFh (R14,
R15). -/
def Obligations.SetRegionReplacesTheEntry : Prop :=
  ∀ (p : Port) (i : Instr) (index : Byte) (new : Option Region) (len : Nat) (s : State) (ranges : List Range),
    freePort p s = true → p = s.ac.supervisor → 10 ≤ len → index.toNat < 8 →
    ((∃ (first last : Word16) (access mode : Byte) (g : Region), i = .setRegion p index first last access mode len ∧
        regionOf first last access mode = some g ∧ overlapsOther index.toNat g s = false ∧ new = some g) ∨
      (∃ action : Byte, i = .setRegionUndefine p index action len ∧ new = none)) →
    ranges = ((regionEntry index.toNat s).toList ++ new.toList).map Region.range →
    ((∀ y ∈ leases s, ∀ r ∈ ranges, r.overlaps y.2.range = false) →
      (∀ e ∈ s.le.queue, ∀ r ∈ ranges, r.overlaps e.range = false) →
      exec i s = .next (endAccepted p s [] len (finish p { status := .done } (dropPendings ranges
        ((takenByLe p 0x60#8 s).modAc (fun a => { a with regions := a.regions.set index.toNat new })))))) ∧
    (∀ before after x r, leases s = before ++ x :: after → r ∈ ranges → r.overlaps x.2.range = true →
      (∀ y ∈ before, ∀ q ∈ ranges, q.overlaps y.2.range = false) →
      exec i s = .next (endAccepted p s [] len (finish p
        { status := .regionBusy, detail := [index, 0#8, BitVec.ofNat 8 x.1, 0xFF#8] } (takenByLe p 0x60#8 s)))) ∧
    (∀ before after e r, (∀ y ∈ leases s, ∀ q ∈ ranges, q.overlaps y.2.range = false) →
      s.le.queue = before ++ e :: after → r ∈ ranges → r.overlaps e.range = true →
      (∀ f ∈ before, ∀ q ∈ ranges, q.overlaps f.range = false) →
      exec i s = .next (endAccepted p s [] len (finish p
        { status := .regionBusy, detail := [index, 1#8, 0xFF#8, BitVec.ofNat 8 e.port.num] } (takenByLe p 0x60#8 s))))

/-- SET LEASE PERIOD, SET HOLD LIMIT and SET QUOTA by the supervisor set the live P, H and Q when the value is in range,
and complete BAD_PARAM with no change otherwise; the running period keeps its length (R16, R17). SAVE CONFIG by the
supervisor, with no earlier job of the port, copies the live settings into the saved image and issues a META job (R8,
R18). Behind the port's teardown at its write unit it copies them at its acceptance all the same, and its META job alone
waits, to be issued in the step that takes the teardown when no earlier job and no teardown at the media engine keeps it
(R8, R167, R176; log 33); a port reset meanwhile leaves the image as copied and drops the job (R18). From another port it
completes NOT_SUPERVISOR at once behind such a teardown too (R13). -/
def Obligations.SettingsAreSetAndSaved : Prop :=
  (∀ (p : Port) (v : Byte) (len : Nat) (s : State), freePort p s = true → p = s.ac.supervisor → 3 ≤ len →
    exec (.setLeasePeriod p v len) s = .next (endAccepted p s [] len
      (if v = 0#8 then finish p { status := .badParam } (acceptedIn p 0x61#8 s)
       else finish p { status := .done } ((acceptedIn p 0x61#8 s).modEu (fun e => { e with period := v.toNat })))) ∧
    exec (.setHoldLimit p v len) s = .next (endAccepted p s [] len
      (if v = 0#8 then finish p { status := .badParam } (acceptedIn p 0x62#8 s)
       else finish p { status := .done } ((acceptedIn p 0x62#8 s).modAc (fun a => { a with holdLimit := v.toNat })))) ∧
    exec (.setQuota p v len) s = .next (endAccepted p s [] len
      (if 1 ≤ v.toNat ∧ v.toNat ≤ 64 then
        finish p { status := .done } ((acceptedIn p 0x63#8 s).modAc (fun a => { a with quota := v.toNat }))
       else finish p { status := .badParam } (acceptedIn p 0x63#8 s)))) ∧
  (∀ (p : Port) (len : Nat) (s : State), freePort p s = true → p = s.ac.supervisor → 2 ≤ len → noJob p s = true →
    exec (.saveConfig p len) s = .next (endAccepted p s [] len
      (enqueueJob (.port { issuer := p, serial := nextSerial p s, abandoned := false } .metadata)
        (((acceptedIn p 0x64#8 s).modAc (fun a =>
          { a with image := { regions := s.ac.regions, period := s.eu.period, hold := s.ac.holdLimit,
                              quota := s.ac.quota } })).modPwu p (fun u =>
          { u with command := some { serial := nextSerial p s, action := .saveConfig, bound := [], stage := .issued,
                                     holdExpired := false, broken := [] } }))))) ∧
  (∀ (p : Port) (len : Nat) (s : State), openPort p s = true → (s.plu.get p).slot = .idle → s.released = [] → 2 ≤ len →
    (s.teardown.get p).pwu = true →
    (p = s.ac.supervisor → exec (.saveConfig p len) s = .next (endAccepted p s [] len
      (((acceptedIn p 0x64#8 s).modAc (fun a =>
        { a with image := { regions := s.ac.regions, period := s.eu.period, hold := s.ac.holdLimit,
                            quota := s.ac.quota } })).modPlu p (fun u => { u with waiting := some .metaJob })))) ∧
    (p ≠ s.ac.supervisor → exec (.saveConfig p len) s = .next (endAccepted p s [] len
      (finish p { status := .notSupervisor } (acceptedIn p 0x64#8 s))))) ∧
  (∀ (p : Port) (s t : State), (s.plu.get p).waiting = some .metaJob → (s.teardown.get p).pwu = true →
    (s.teardown.get p).me = false → noJob p s = true → s.released = [] →
    t = finishFences (((s.modTeardown p (fun t => { t with pwu := false })).modPwu p (fun u =>
      { u with slots := u.slots.filter (fun x => decide (x.state = .draining)), pendingClear := none,
               command := none })).setHoldList (s.holdList.filter (fun h => decide (h.port ≠ p)))) →
    exec (.pwuTeardown p) s = .next (enqueueJob
      (.port { issuer := p, serial := (s.plu.get p).serial, abandoned := false } .metadata)
      ((t.modPlu p (fun u => { u with waiting := none })).modPwu p (fun u =>
        { u with command := some { serial := (s.plu.get p).serial, action := .saveConfig, bound := [], stage := .issued,
                                   holdExpired := false, broken := [] } })))) ∧
  (∀ (p : Port) (n : Nat) (s : State), openPort p s = true → 1 ≤ n →
    ∃ t, exec (.portReset p n) s = .next t ∧ t.ac = s.ac ∧ t.me = s.me ∧ (t.plu.get p).waiting = none)

/-- FENCE of another port that is not fenced: the target's port link unit is reset and fenced, its command withdrawn from
the lease engine if that has not taken it, four teardowns are handed out, the target's HELD leases are ended FENCED with
its parked entry removed, and the FENCE waits for the teardowns with its counts; of a port already fenced it completes DONE
at once. UNFENCE clears the flag, REJECTED and the reject reason (R180 to R182, R184; the byte of a yes/no item: log 19; the
target's requests other than its command stay: log 43; a port reset's teardown that still waits: log 44). -/
def Obligations.FenceAndUnfence : Prop :=
  ∀ (p target : Port) (b : Byte) (len : Nat) (s : State),
    freePort p s = true → p = s.ac.supervisor → 3 ≤ len → b.toNat = target.num →
    (∀ u : State, target ≠ p → (s.plu.get target).fenced = false →
      u = leaseTeardown target .fenced ((((takenByLe p 0x66#8 s).modPlu target (fun l =>
        { l with slot := .idle, record := none, resultReady := false, buffer := [[], [], [], []], valid := 0,
                 mask := 3#4, rejected := false, waiting := none, fenced := true,
                 counter0 := { event := none, qualifier := .self, value := 0#32 },
                 counter1 := { event := none, qualifier := .self, value := 0#32 } })).modLe (fun e =>
        { e with requests := e.requests.modify target (fun l => l.filter (fun r => !r.isCommand)) })).modTeardown target
          (fun t => { t with pwu := true, me := true, nu := true, swb := true })) →
      exec (.fence p b len) s = .next (endAccepted p s [] len (u.modLe (fun e =>
        { e with fences := e.fences ++ [{ target := target, serial := nextSerial p s,
                                          abandoned := decide ((s.plu.get target).slot ≠ .idle),
                                          ended := (heldLeases target s).length,
                                          ending := (endingLeases target u).length }] })))) ∧
    (target ≠ p → (s.plu.get target).fenced = true →
      exec (.fence p b len) s = .next (endAccepted p s [] len (finish p
        { status := .done, detail := [BitVec.ofNat 8 target.num, 0#8, 0#8,
            BitVec.ofNat 8 (endingLeases target s).length] } (takenByLe p 0x66#8 s)))) ∧
    ((s.plu.get target).fenced = true →
      exec (.unfence p b len) s = .next (endAccepted p s [] len (finish p
        { status := .done, detail := [BitVec.ofNat 8 target.num, 1#8] }
        ((takenByLe p 0x67#8 s).modPlu target (fun u =>
          { u with fenced := false, rejected := false, reason := .none }))))) ∧
    ((s.plu.get target).fenced = false →
      exec (.unfence p b len) s = .next (endAccepted p s [] len (finish p
        { status := .done, detail := [BitVec.ofNat 8 target.num, 0#8] } (takenByLe p 0x67#8 s))))

/-! ### Timers, sweeps, cancels, teardowns (chapters 3, 4, 8, 10) -/

/-- A rotation expiry asks for one sweep and begins the next period with the live P (R64, R65). A pending sweep, with no
request waiting behind it: the epoch advances by one modulo 4, the HELD leases of ports with an occupied slot are
renewed, the HELD leases of age 3 are ended EXPIRED in slot order, and the grant scan runs (R66 to R68). While a sweep is
pending the lease engine takes no request (R65): a slot command accepted then that is a request there (R24, R167) makes
the slot BUSY and waits there as the last of its port's requests, with no check and no effect yet, and the step that takes the last sweep then takes it, if it
is the only one (R65, R167; log 6); otherwise it takes the oldest request of the first port that has one, in
round-robin order from the port after the last served, and goes on to the next port (R24). With no request
and no released job it takes nothing. -/
def Obligations.SweepsAdvanceTheEpoch : Prop :=
  (∀ s : State, s.eu.running = true →
    exec .rotationExpiry s = .next ((s.modLe (fun e => { e with sweepsAsked := e.sweepsAsked + 1 })).modEu (fun e =>
      { e with periodLength := e.period }))) ∧
  (∀ (s s1 : State) (expired : List (Nat × Port)), s.le.sweepsAsked ≠ 0 →
    s1 = renewLeases (((leases s).filter (fun x => decide ((s.plu.get x.2.holder).slot ≠ .idle) &&
        decide (x.2.state = .held))).map Prod.fst)
      ((s.modLe (fun e => { e with sweepsAsked := e.sweepsAsked - 1 })).modEu (fun e =>
        { e with epoch := e.epoch + 1#2 })) →
    expired = ((leases s1).filter (fun x => decide (x.2.state = .held) &&
      decide (s1.eu.epoch - x.2.stamp = 3#2))).map (fun x => (x.1, x.2.holder)) →
    (engineIdle s = true → exec .sweep s = .next (grantScan (expired.foldl (fun t x =>
      countEvent .expire (some x.2) (endLease x.1 .expired t)) s1))) ∧
    (∀ p c, s.le.sweepsAsked = 1 → s.released = [] → s.le.requests.get p = [.command c] →
      (∀ q, q ≠ p → s.le.requests.get q = []) → c.owners.nu = false →
      exec .sweep s = .next (takeCommand p c (tookRequest p (grantScan (expired.foldl (fun t x =>
        countEvent .expire (some x.2) (endLease x.1 .expired t)) s1)))))) ∧
  (∀ (i : Instr) (c : SlotCommand) (d : Nat) (p : Port) (op : Byte) (ps : List Byte) (n : Nat) (s : State),
    slotCommand? i = some c → slotLength? i = some d → frameLayout i = some (p, op, ps, n) → i.wf = true → d ≤ n →
    openPort p s = true → (s.plu.get p).slot = .idle → s.released = [] → s.le.sweepsAsked ≠ 0 →
    c.owners.le = true → c.behindTeardown (s.teardown.get p) = false →
    exec i s = .next (endAccepted p s [] n ((acceptedIn p op s).modLe (fun e =>
      { e with requests := e.requests.modify p (fun l => l ++ [.command c]) })))) ∧
  (∀ s : State, s.le.sweepsAsked ≠ 0 → serveOne s = none) ∧
  (∀ (p : Port) (r : LeRequest) (rest : List LeRequest) (before after : List Port) (s : State), s.le.sweepsAsked = 0 →
    [s.le.rrNext, s.le.rrNext.next, s.le.rrNext.next.next, s.le.rrNext.next.next.next] = before ++ p :: after →
    (∀ q ∈ before, s.le.requests.get q = []) → s.le.requests.get p = r :: rest →
    serveOne s = some (takeRequest p r (s.modLe (fun e =>
      { e with requests := e.requests.set p rest, rrNext := p.next })))) ∧
  (∀ s : State, engineIdle s = true → serveOne s = none ∧ serveWaiting s = s)

/-- The deadlines: a wait deadline, with nothing ahead of it, removes the port's entry, completes it WAIT_TIMEOUT naming what
still blocks it and runs the grant scan (R55; the detail's form for a waiter: log 18); behind a pending sweep its expiry
waits as the last of the port's requests (R24, R65). A hold deadline takes the port's entry off the hold list, makes the
slot BUSY and issues the job, a DRAIN's within a request at the lease engine, whose completion will carry HOLD_EXPIRED
(R153, R83; in the same step: log 7); a RELEASE's lease becomes ENDING (R37). -/
def Obligations.DeadlinesExpire : Prop :=
  (∀ (p : Port) (s : State) (earlier later : List WaitEntry) (e : WaitEntry),
    s.le.queue = earlier ++ e :: later → e.port = p → (∀ f ∈ earlier ++ later, f.port ≠ p) → engineIdle s = true →
    (s.le.sweepsAsked = 0 →
      exec (.waitDeadlineExpiry p) s = .next (grantScan (complete p e.serial
        { status := .waitTimeout,
          leaseId := match e.kind with | .acquire => none | .upgrade id => some id,
          detail := match blockerOf e earlier s with | some b => b.detail | none => [] }
        (s.modLe (fun x => { x with queue := earlier ++ later, rrNext := p.next }))))) ∧
    (s.le.sweepsAsked ≠ 0 →
      exec (.waitDeadlineExpiry p) s = .next (s.modLe (fun x =>
        { x with requests := x.requests.set p [.expiry e.serial] })))) ∧
  (∀ (p : Port) (s : State) (h : HoldEntry) (c : PwuCommand), s.holdList = [h] → h.port = p →
    (s.pwu.get p).command = some c → c.serial = h.serial → c.stage = .onHold →
    (∀ blocks cut formed, c.action = .clear blocks cut formed →
      exec (.holdDeadlineExpiry p) s = .next (enqueueJob
        (.port { issuer := p, serial := c.serial, abandoned := false } (.clear blocks))
        ((setSlot p c.serial .busy (s.setHoldList [])).modPwu p (fun u =>
          { u with slots := u.slots.filter (fun x =>
                     !(decide (x.state = .staged) && blocks.contains (x.sector / 32))),
                   command := some { c with stage := .issued, holdExpired := true } })))) ∧
    (∀ (items : List SectorItem) (t : State), c.action.isDrain = true → s.le.sweepsAsked = 0 → engineIdle s = true →
      items = drainItems c.action (s.pwu.get p) → items ≠ [] →
      t = (setSlot p c.serial .busy ((servedPort p s).setHoldList [])).modPwu p (fun u =>
        { u with slots := u.slots.map (fun x => if c.action.takes x then { x with state := .draining } else x),
                 command := some { c with stage := .issued, holdExpired := true } }) →
      exec (.holdDeadlineExpiry p) s = .next (enqueueJob
        (.port { issuer := p, serial := c.serial, abandoned := false } (.drain items))
        (match c.action with | .release id => setLeaseEnding id .released t | _ => t))))

/-- A CANCEL taken by the lease engine removes the parked entry, completes it CANCELLED and runs the grant scan (R57; when
it is taken: log 34); one taken by the notice unit takes the command off the hold list, completes it CANCELLED, a flush
with FLUSHED, and issues no job (R83, R88, R154); a CANCEL that finds no entry, at the lease engine or on the hold list,
changes no command, and with no CANCEL handed over nothing changes (R57, R154, R172; log 5). A CLEAR's CANCELLED carries
no pending range (log 40). -/
def Obligations.CancelsAreTaken : Prop :=
  (∀ (p : Port) (s : State) (earlier later : List WaitEntry) (e : WaitEntry), onlyRequest p (.cancel e.serial) s = true →
    s.le.queue = earlier ++ e :: later → e.port = p → (∀ f ∈ earlier ++ later, f.port ≠ p) →
    exec (.cancelParked p) s = .next (grantScan (complete p e.serial
      { status := .cancelled, leaseId := match e.kind with | .acquire => none | .upgrade id => some id }
      (s.modLe (fun x => { x with requests := x.requests.set p [], queue := earlier ++ later, rrNext := p.next }))))) ∧
  (∀ (p : Port) (s : State) (n : Nat), onlyRequest p (.cancel n) s = true → (∀ f ∈ s.le.queue, f.port ≠ p) →
    exec (.cancelParked p) s = .next (s.modLe (fun x => { x with requests := x.requests.set p [], rrNext := p.next }))) ∧
  (∀ (p : Port) (s : State) (c : PwuCommand), (s.nu.get p).cancel = some c.serial → (s.pwu.get p).command = some c →
    (∃ h ∈ s.holdList, h.port = p ∧ h.serial = c.serial) →
    exec (.cancelHeld p) s = .next (complete p c.serial
      { status := .cancelled, flags := { flushed := c.action.isFlush },
        leaseId := match c.action with
          | .commit id => id
          | .release id => some id
          | .downgrade id => some id
          | _ => none }
      (((s.modNu p (fun u => { u with cancel := none })).setHoldList
        (s.holdList.filter (fun h => decide (h.port ≠ p)))).modPwu p (fun u => { u with command := none })))) ∧
  (∀ (p : Port) (s : State) (n : Nat), (s.nu.get p).cancel = some n → (∀ h ∈ s.holdList, h.port = p → h.serial ≠ n) →
    exec (.cancelHeld p) s = .next (s.modNu p (fun u => { u with cancel := none }))) ∧
  (∀ (p : Port) (s : State), (s.nu.get p).cancel = none → exec (.cancelHeld p) s = .next s)

/-- Each block's teardown of a port, when it has been handed one, with nothing waiting behind it: the lease engine's, as
the port's only request there (R24, R44; when: log 34), the write unit's, which also withdraws the port's jobs that have
not started where the media engine has taken its teardown before (R18, R99; when: log 48), the media engine's (R108), the
notice unit's, which re-examines the hold list and lets the released jobs go on (R149, R152), and the signal word bank's,
which leaves every word as it is (R155, R161); each of the last four completes the FENCEs whose four teardowns are now
taken, DONE with target, abandoned, ended and ENDING (R182; the byte of a yes/no item: log 19). The notice unit takes a
CANCEL of the port that waits there first, as CANCEL_HELD takes it (R154, R167; log 8). A slot command accepted while its
port's teardown waits at a block behind whose teardown it is taken makes the slot BUSY and stays at its port, with no
check and no effect; the step that takes that teardown hands it on: to the lease engine, which takes it unless a sweep is
pending, or to its other owner, which takes it (R65, R167, R176; log 6). A READ, WRITE, CLEAR or QUERY SECTOR with
parameters that its rule refuses is no request at the lease engine (R19, R24, R84, R91, R125), and such a QUERY SECTOR waits
for no teardown (R176). Of a SAVE CONFIG the META job alone waits so (log
33). The lease engine's teardown, of a port reset or a FENCE: the port's parked entry leaves the queue, every HELD lease
of the port is ended with the cause, in ascending slot order, and one grant scan runs (R44, R59). At the media engine
queued READ, CLEAR and META jobs of the port leave, a queued DRAIN stays, abandoned, a running job runs on, abandoned, and
other ports' and RELOCATE jobs stay as they are (R108). -/
def Obligations.TeardownsAreTaken : Prop :=
  (∀ (p : Port) (s : State), onlyRequest p .teardown s = true →
    exec (.leTeardown p) s = .next (leaseTeardown p .portReset (s.modLe (fun x =>
      { x with requests := x.requests.set p [], rrNext := p.next })))) ∧
  (∀ (p : Port) (s : State), (s.plu.get p).waiting = none →
    (∀ u, (s.teardown.get p).pwu = true →
      ((s.teardown.get p).me = true ∧ u = s ∨ (s.teardown.get p).me = false ∧ u = s.modMe (fun m =>
        { m with queue := m.queue.filterMap (Job.tornDown p), running := m.running.map (Running.tornDown p) })) →
      exec (.pwuTeardown p) s = .next (goOn (finishFences
        (((u.modTeardown p (fun t => { t with pwu := false })).modPwu p (fun u =>
          { u with slots := u.slots.filter (fun x => decide (x.state = .draining)), pendingClear := none,
                   command := none })).setHoldList (s.holdList.filter (fun h => decide (h.port ≠ p))))))) ∧
    (∀ u, (s.teardown.get p).nu = true → u = cancelHeld p s →
      exec (.nuTeardown p) s = .next (goOn (finishFences (reexamine
        (((u.modTeardown p (fun t => { t with nu := false })).modNu p (fun _ => NuPort.reset)).setHoldList
          (u.holdList.filter (fun h => decide (h.port ≠ p)))))))) ∧
    ((s.teardown.get p).swb = true →
      exec (.swbTeardown p) s = .next (goOn (finishFences (s.modTeardown p (fun t => { t with swb := false })))))) ∧
  (∀ (p : Port) (s : State), exec (.cancelHeld p) s = .next (cancelHeld p s) ∧
    ((s.teardown.get p).me = true →
      exec (.meTeardown p) s = .next (finishFences ((s.modTeardown p (fun t => { t with me := false })).modMe (fun m =>
        { m with queue := m.queue.filterMap (Job.tornDown p), running := m.running.map (Running.tornDown p) }))))) ∧
  (∀ (i : Instr) (c : SlotCommand) (d : Nat) (p : Port) (op : Byte) (ps : List Byte) (n : Nat) (s : State),
    slotCommand? i = some c → slotLength? i = some d → frameLayout i = some (p, op, ps, n) →
    (c.owners.le = true ↔ op ∈ [0x10#8, 0x11#8, 0x12#8, 0x13#8, 0x14#8, 0x15#8, 0x20#8, 0x21#8, 0x22#8, 0x23#8, 0x24#8,
      0x60#8, 0x65#8, 0x66#8, 0x67#8] ∧ c.paramsRefused = false) ∧
    (c.owners.pwu = true ↔ op ∈ [0x12#8, 0x14#8, 0x20#8, 0x21#8, 0x22#8, 0x23#8] ∨
      op = 0x24#8 ∧ c.paramsRefused = false) ∧
    (c.owners.nu = true ↔ op ∈ [0x30#8, 0x31#8, 0x32#8]) ∧ (c.owners.swb = true ↔ op ∈ [0x40#8, 0x41#8]) ∧
    (i.wf = true → d ≤ n → openPort p s = true → (s.plu.get p).slot = .idle → s.released = [] →
      c.behindTeardown (s.teardown.get p) = true →
      exec i s = .next (endAccepted p s [] n ((acceptedIn p op s).modPlu p (fun u => { u with waiting := some c }))))) ∧
  (∀ (p : Port) (c : SlotCommand) (i : Instr) (s u t w : State), (s.plu.get p).waiting = some c →
    ((s.teardown.get p).me = true ∧ u = s ∨ (s.teardown.get p).me = false ∧ u = s.modMe (fun m =>
      { m with queue := m.queue.filterMap (Job.tornDown p), running := m.running.map (Running.tornDown p) })) →
    (i = .pwuTeardown p ∧ (s.teardown.get p).pwu = true ∧ t = finishFences
        (((u.modTeardown p (fun t => { t with pwu := false })).modPwu p (fun u =>
          { u with slots := u.slots.filter (fun x => decide (x.state = .draining)), pendingClear := none,
                   command := none })).setHoldList (s.holdList.filter (fun h => decide (h.port ≠ p)))) ∨
      i = .nuTeardown p ∧ (s.teardown.get p).nu = true ∧ t = finishFences (reexamine
        ((((cancelHeld p s).modTeardown p (fun t => { t with nu := false })).modNu p (fun _ => NuPort.reset)).setHoldList
          ((cancelHeld p s).holdList.filter (fun h => decide (h.port ≠ p))))) ∨
      i = .swbTeardown p ∧ (s.teardown.get p).swb = true ∧
        t = finishFences (s.modTeardown p (fun t => { t with swb := false }))) →
    w = t.modPlu p (fun u => { u with waiting := none }) →
    (c.behindTeardown (t.teardown.get p) = true → exec i s = .next (goOn t)) ∧
    (c.behindTeardown (t.teardown.get p) = false →
      (c.owners.le = false → exec i s = .next (goOn (takeCommand p c w))) ∧
      (c.owners.le = true → t.le.sweepsAsked = 0 → engineIdle t = true →
        exec i s = .next (takeCommand p c (servedPort p w))) ∧
      (c.owners.le = true → t.le.sweepsAsked ≠ 0 → t.released = [] →
        exec i s = .next (w.modLe (fun e =>
          { e with requests := e.requests.modify p (fun l => l ++ [.command c]) }))))) ∧
  (∀ (f : FenceRecord) (s : State), s.le.fences = [f] →
    ((s.teardown.get f.target).fourTaken = false → finishFences s = s) ∧
    (s.teardown.get f.target = Teardowns.clear →
      finishFences s = complete s.ac.supervisor f.serial
        { status := .done,
          detail := [BitVec.ofNat 8 f.target.num, if f.abandoned then 1#8 else 0#8, BitVec.ofNat 8 f.ended,
                     BitVec.ofNat 8 f.ending] }
        (s.modLe (fun x => { x with fences := [] })))) ∧
  (∀ s : State, s.released = [] → goOn s = s) ∧
  (∀ (p : Port) (cause : EndCause) (s : State),
    leaseTeardown p cause s = grantScan ((heldLeases p s).foldl (fun t id => endLease id cause t)
      (s.modLe (fun x => { x with queue := x.queue.filter (fun e => decide (e.port ≠ p)) }))) ∧
    (s.le.table.length = 64 → (heldLeases p s).Pairwise (fun a b => a % 64 < b % 64) ∧
      ∀ id, id ∈ heldLeases p s ↔ ∃ l, findLease s id = some l ∧ l.holder = p ∧ l.state = .held)) ∧
  (∀ (p : Port) (o a : JobOwner),
    (o.issuer ≠ p ∧ a = o ∨ o.issuer = p ∧ a = { issuer := p, serial := o.serial, abandoned := true }) →
    (∀ w, o.issuer ≠ p → Job.tornDown p (.port o w) = some (.port o w)) ∧
    (o.issuer = p → (∀ l, Job.tornDown p (.port o (.read l)) = none) ∧ (∀ l, Job.tornDown p (.port o (.clear l)) = none) ∧
      Job.tornDown p (.port o .metadata) = none) ∧
    (∀ l, Job.tornDown p (.port o (.drain l)) = some (.port a (.drain l))) ∧
    (∀ b, Job.tornDown p (.relocate b) = some (.relocate b)) ∧
    (∀ l d k r, Running.tornDown p (.read o l d k r) = .read a l d k r) ∧
    (∀ l d f r, Running.tornDown p (.drain o l d f r) = .drain a l d f r) ∧
    (∀ l d r, Running.tornDown p (.clear o l d r) = .clear a l d r) ∧
    (∀ r, Running.tornDown p (.metadata o r) = .metadata a r) ∧
    (∀ b x st, Running.tornDown p (.relocate b x st) = .relocate b x st))

/-- A READ, WRITE, COMMIT, COMMIT ALL, CLEAR, RELEASE, DOWNGRADE or SAVE CONFIG that passes its checks and has a job,
accepted while an earlier job of its port is at the media engine, has its other effects at once, keeps the slot BUSY and
waits at the write unit: no job is issued, no hold asked, no slot drained or discarded and no lease ended, and JOB_ISSUE
changes nothing until that job has ended (R82). After a port reset or a FENCE, until its write unit takes the teardown, a
command that waits so issues no job, nor does its request at the lease engine (R18, R99). A command that waits for its
port's earlier job goes on when that job has ended: the job of a READ or a SAVE CONFIG is issued, that of a CLEAR with no
hold as well, discarding the STAGED slots of its blocks, and a WRITE, COMMIT, RELEASE or DOWNGRADE with no hold has its
DRAIN issued and its slots DRAINING, within a request at the lease engine (R82, R83, R114, R130); a RELEASE's lease
becomes ENDING (R37). A DRAIN whose hold has ended is issued in the request that was handed for it; a job that a
re-examination released goes on, a CLEAR's at once and a DRAIN's as such a request (R83, R152; in the same step: log 7).
Two DRAINs that one event released are issued in the list's order, when no sweep is pending, whatever port is examined
first (R24, R152). While a sweep keeps a released DRAIN back, a job that a later event released goes on, a CLEAR issued
and a DRAIN's request handed, and one that the same event released after it waits: a CLEAR is not issued and a DRAIN's
request is not handed yet (R65, R152; log 42). -/
def Obligations.WaitingCommandGoesOn : Prop :=
  (∀ (p : Port) (i : Instr) (a : PwuAction) (bound : List Nat) (len : Nat) (s t : State), freePort p s = true →
    noJob p s = false → HasJob p len s i a bound t →
    exec i s = .next (endAccepted p s [] len (t.modPwu p (fun u =>
      { u with command := some { serial := nextSerial p s, action := a, bound := bound, stage := .waiting,
                                 holdExpired := false, broken := [] } })))) ∧
  (∀ (p : Port) (s : State) (c : PwuCommand), (s.pwu.get p).command = some c → c.stage = .waiting →
    noJob p s = false → exec (.jobIssue p) s = .next s) ∧
  (∀ (p : Port) (s : State) (c : PwuCommand), (s.pwu.get p).command = some c → c.stage = .waiting →
    (s.teardown.get p).pwu = true →
    exec (.jobIssue p) s = .next s ∧
    (onlyRequest p (.issue c.serial) s = true → serveWaiting s = tookRequest p s)) ∧
  (∀ (p : Port) (s : State) (c : PwuCommand), (s.pwu.get p).command = some c → c.stage = .waiting →
    noJob p s = true → s.teardown.get p = Teardowns.clear →
    (∀ r rest, c.action = .read r rest →
      exec (.jobIssue p) s = .next (enqueueJob
        (.port { issuer := p, serial := c.serial, abandoned := false } (.read rest))
        (s.modPwu p (fun u => { u with command := some { c with stage := .issued } })))) ∧
    (c.action = .saveConfig →
      exec (.jobIssue p) s = .next (enqueueJob
        (.port { issuer := p, serial := c.serial, abandoned := false } .metadata)
        (s.modPwu p (fun u => { u with command := some { c with stage := .issued } })))) ∧
    (∀ blocks cut formed, c.action = .clear blocks cut formed → blocked p .cleared (blocks.map blockRange) s = false →
      exec (.jobIssue p) s = .next (enqueueJob
        (.port { issuer := p, serial := c.serial, abandoned := false } (.clear blocks))
        (s.modPwu p (fun u =>
          { u with slots := u.slots.filter (fun x => !(decide (x.state = .staged) && blocks.contains (x.sector / 32))),
                   command := some { c with stage := .issued } })))) ∧
    (∀ (items : List SectorItem) (t : State), c.action.isDrain = true → s.le.sweepsAsked = 0 → engineIdle s = true →
      items = drainItems c.action (s.pwu.get p) → items ≠ [] →
      blocked p .committed (items.map (fun x => Range.single x.sector)) s = false →
      t = (servedPort p s).modPwu p (fun u =>
        { u with slots := u.slots.map (fun x => if c.action.takes x then { x with state := .draining } else x),
                 command := some { c with stage := .issued } }) →
      exec (.jobIssue p) s = .next (enqueueJob
        (.port { issuer := p, serial := c.serial, abandoned := false } (.drain items))
        (match c.action with | .release id => setLeaseEnding id .released t | _ => t)))) ∧
  (∀ (p : Port) (s t : State) (c : PwuCommand) (items : List SectorItem), (s.pwu.get p).command = some c →
    c.stage = .holdEnded → c.action.isDrain = true → onlyRequest p (.issue c.serial) s = true →
    items = drainItems c.action (s.pwu.get p) → items ≠ [] →
    t = (tookRequest p s).modPwu p (fun u =>
      { u with slots := u.slots.map (fun x => if c.action.takes x then { x with state := .draining } else x),
               command := some { c with stage := .issued } }) →
    exec (.jobIssue p) s = .next (enqueueJob
      (.port { issuer := p, serial := c.serial, abandoned := false } (.drain items))
      (match c.action with | .release id => setLeaseEnding id .released t | _ => t))) ∧
  (∀ (p : Port) (s : State) (c : PwuCommand), (s.pwu.get p).command = some c → c.stage = .holdEnded →
    s.released = [[(p, c.serial)]] → (∀ q, s.le.requests.get q = []) →
    (∀ blocks cut formed, c.action = .clear blocks cut formed →
      goOn s = enqueueJob (.port { issuer := p, serial := c.serial, abandoned := false } (.clear blocks))
        ((s.setReleased []).modPwu p (fun u =>
          { u with slots := u.slots.filter (fun x => !(decide (x.state = .staged) && blocks.contains (x.sector / 32))),
                   command := some { c with stage := .issued } }))) ∧
    (∀ (items : List SectorItem) (t : State), c.action.isDrain = true → s.le.sweepsAsked = 0 →
      items = drainItems c.action (s.pwu.get p) → items ≠ [] →
      t = ((servedPort p s).setReleased []).modPwu p (fun u =>
        { u with slots := u.slots.map (fun x => if c.action.takes x then { x with state := .draining } else x),
                 command := some { c with stage := .issued } }) →
      goOn s = enqueueJob (.port { issuer := p, serial := c.serial, abandoned := false } (.drain items))
        (match c.action with | .release id => setLeaseEnding id .released t | _ => t)) ∧
    (c.action.isDrain = true → s.le.sweepsAsked ≠ 0 →
      goOn s = s.modLe (fun x => { x with requests := x.requests.set p [.issue c.serial] }))) ∧
  (∀ (p q : Port) (s t : State) (c d : PwuCommand) (blocks : List Nat) (cut : Bool) (formed : Option Range), p ≠ q →
    (s.pwu.get p).command = some c → c.stage = .holdEnded → c.action = .clear blocks cut formed →
    (s.pwu.get q).command = some d → d.stage = .holdEnded → d.action.isDrain = true → s.le.sweepsAsked ≠ 0 →
    (∀ x, s.le.requests.get x = []) → t = s.modLe (fun x => { x with requests := x.requests.set q [.issue d.serial] }) →
    (s.released = [[(q, d.serial)], [(p, c.serial)]] →
      goOn s = enqueueJob (.port { issuer := p, serial := c.serial, abandoned := false } (.clear blocks))
        ((t.setReleased [[(q, d.serial)]]).modPwu p (fun u =>
          { u with slots := u.slots.filter (fun x => !(decide (x.state = .staged) && blocks.contains (x.sector / 32))),
                   command := some { c with stage := .issued } }))) ∧
    (s.released = [[(q, d.serial), (p, c.serial)]] → goOn s = t)) ∧
  (∀ (p q : Port) (s : State) (c d : PwuCommand), p ≠ q →
    (s.pwu.get p).command = some c → c.stage = .holdEnded → c.action.isDrain = true →
    (s.pwu.get q).command = some d → d.stage = .holdEnded → d.action.isDrain = true → (∀ x, s.le.requests.get x = []) →
    (s.le.sweepsAsked ≠ 0 →
      (s.released = [[(q, d.serial), (p, c.serial)]] →
        goOn s = s.modLe (fun x => { x with requests := x.requests.set q [.issue d.serial] })) ∧
      (s.released = [[(q, d.serial)], [(p, c.serial)]] →
        goOn s = s.modLe (fun x =>
          { x with requests := (x.requests.set q [.issue d.serial]).set p [.issue c.serial] }))) ∧
    (∀ (first second : List SectorItem) (t mid v : State), s.le.sweepsAsked = 0 →
      s.released = [[(q, d.serial), (p, c.serial)]] → first = drainItems d.action (s.pwu.get q) → first ≠ [] →
      second = drainItems c.action (s.pwu.get p) → second ≠ [] →
      t = (servedPort q s).modPwu q (fun u =>
        { u with slots := u.slots.map (fun x => if d.action.takes x then { x with state := .draining } else x),
                 command := some { d with stage := .issued } }) →
      mid = enqueueJob (.port { issuer := q, serial := d.serial, abandoned := false } (.drain first))
        (match d.action with | .release id => setLeaseEnding id .released t | _ => t) →
      v = ((servedPort p mid).setReleased []).modPwu p (fun u =>
        { u with slots := u.slots.map (fun x => if c.action.takes x then { x with state := .draining } else x),
                 command := some { c with stage := .issued } }) →
      goOn s = enqueueJob (.port { issuer := p, serial := c.serial, abandoned := false } (.drain second))
        (match c.action with | .release id => setLeaseEnding id .released v | _ => v)))

/-- The lease engine takes a drain-end report as the port's only request (R24, R98; when: log 34). A COMMIT completes DONE
with the number of sectors programmed, or WRITE_FAULT with the first faulty sector and the number programmed OK (R95). A
WRITE in flight whose leases are live stages its leased sectors and completes DONE, or OVERFLOW, with STAGED if there was one and
FLUSHED for a flush, or WRITE_FAULT (R88, R89). A DOWNGRADE's lease becomes SHARED and renewed, the command completes, and
the grant scan runs (R32). A RELEASE's lease, with no slot DRAINING, is removed with its FREED event, the command completes
with a last byte of 0, and the grant scan runs (R37, R41, R50); a lease that ended while a COMMIT's drain ran goes likewise
(R98). A command whose lease was broken after the issue completes LEASE_LOST with that lease's id and the fields that the
outcome would have given, STAGED left out (log 17); the lease, if its slots kept it ENDING until then, is removed with its
FREED event, and the grant scan runs (R78, R96, R98). The report of an abandoned drain, after a port reset or a FENCE,
completes no command and stages nothing: the port's ENDING leases that no DRAINING slot keeps are removed, each with its
FREED event (the order of several: log 39), and the grant scan runs if there was one (R41, R98, R99). So it is for a WRITE
that the reset abandoned and the write unit still notes, its teardown not yet taken, whatever lease its sectors' ids name
(R90, R175, R181). -/
def Obligations.CommitCompletesAtItsReport : Prop :=
  (∀ (p : Port) (s t : State) (r : DrainReport) (gone : List Nat), onlyRequest p (.report r) s = true →
    (∀ c, (s.pwu.get p).command = some c → c.serial = r.serial → c.stage ≠ .issued) →
    t = (tookRequest p s).modPwu p (fun u => { u with drained := [] }) →
    gone = (endingLeases p s).filter (fun id =>
      !(s.pwu.get p).slots.any (fun x => decide (x.state = .draining) && decide (x.leaseId = id))) →
    exec (.drainEndReport p) s = .next (if gone = [] then t else grantScan (removeLeases gone t))) ∧
  (∀ (id : Nat) (l : Lease) (more : List Nat) (t : State),
    removeLeases [] t = t ∧ removeLeases (id :: more) t = removeLeases more (removeLeases [id] t) ∧
    (findLease t id = some l → removeLeases [id] t = freedEvent id l (emptyLeaseSlot id t))) ∧
  (∀ (p : Port) (s t : State) (r : DrainReport) (c : PwuCommand), onlyRequest p (.report r) s = true →
    (s.pwu.get p).command = some c → c.serial = r.serial → c.stage = .issued →
    t = (tookRequest p s).modPwu p (fun u => { u with drained := [] }) →
    (c.broken = [] → endingLeases p s = [] →
      (∀ id?, c.action = .commit id? →
        exec (.drainEndReport p) s = .next (complete p c.serial
          { status := if r.firstFault = none then .done else .writeFault, flags := { holdExpired := c.holdExpired },
            leaseId := id?, lastSector := r.firstFault, count := r.okCount }
          (t.modPwu p (fun u => { u with command := none })))) ∧
      (∀ kept cut flush leased opens, c.action = .write kept cut flush leased opens →
        (s.plu.get p).slot ≠ .idle → (s.plu.get p).serial = c.serial →
        (∀ x ∈ leased, ∃ l, findLease s x.leaseId = some l ∧ l.holder = p ∧ l.state = .held) →
        exec (.drainEndReport p) s = .next (complete p c.serial
          (match r.firstFault with
            | none => { status := if cut then .overflow else .done,
                        flags := { staged := !leased.isEmpty, flushed := flush, holdExpired := c.holdExpired },
                        lastSector := some (kept.first + kept.count - 1), count := kept.count }
            | some n => { status := .writeFault,
                          flags := { staged := !leased.isEmpty, flushed := flush, holdExpired := c.holdExpired },
                          lastSector := some n, count := r.okCount })
          ((stageSectors p leased t).modPwu p (fun u => { u with command := none })))) ∧
      (∀ id l, c.action = .downgrade id → findLease s id = some l → l.holder = p → l.state = .held →
        exec (.drainEndReport p) s = .next (grantScan (complete p c.serial
          { status := if r.firstFault = none then .done else .writeFault, flags := { holdExpired := c.holdExpired },
            leaseId := some id, lastSector := r.firstFault, count := r.okCount }
          ((renewLease id (setLeaseMode id .shared t)).modPwu p (fun u => { u with command := none })))))) ∧
    (∀ kept cut flush leased opens gone, c.action = .write kept cut flush leased opens →
      (s.plu.get p).slot = .idle ∨ (s.plu.get p).serial ≠ c.serial →
      gone = (endingLeases p s).filter (fun id =>
        !(s.pwu.get p).slots.any (fun x => decide (x.state = .draining) && decide (x.leaseId = id))) →
      exec (.drainEndReport p) s = .next (if gone = [] then t.modPwu p (fun u => { u with command := none })
        else grantScan ((removeLeases gone t).modPwu p (fun u => { u with command := none })))) ∧
    (∀ id l, endingLeases p s = [id] → findLease s id = some l →
      (∀ x ∈ (s.pwu.get p).slots, x.state = .draining → x.leaseId ≠ id) →
      (c.broken = [] → c.action = .release id →
        exec (.drainEndReport p) s = .next (grantScan (complete p c.serial
          { status := if r.firstFault = none then .done else .writeFault, flags := { holdExpired := c.holdExpired },
            leaseId := some id, lastSector := r.firstFault, count := r.okCount, detail := [0#8] }
          ((freedEvent id l (emptyLeaseSlot id t)).modPwu p (fun u => { u with command := none }))))) ∧
      (∀ id?, c.broken = [] → c.action = .commit id? →
        exec (.drainEndReport p) s = .next (grantScan (complete p c.serial
          { status := if r.firstFault = none then .done else .writeFault, flags := { holdExpired := c.holdExpired },
            leaseId := id?, lastSector := r.firstFault, count := r.okCount }
          ((freedEvent id l (emptyLeaseSlot id t)).modPwu p (fun u => { u with command := none })))))) ∧
    (∀ id lost, c.broken = [id] → c.action.isDrain = true →
      lost = (match c.action, r.firstFault with
        | .write kept _ flush _ _, none =>
          { status := .leaseLost, flags := { flushed := flush, holdExpired := c.holdExpired }, leaseId := some id,
            lastSector := some (kept.first + kept.count - 1), count := kept.count : Completion }
        | .write _ _ flush _ _, some n =>
          { status := .leaseLost, flags := { flushed := flush, holdExpired := c.holdExpired }, leaseId := some id,
            lastSector := some n, count := r.okCount }
        | _, fault =>
          { status := .leaseLost, flags := { holdExpired := c.holdExpired }, leaseId := some id, lastSector := fault,
            count := r.okCount }) →
      (endingLeases p s = [] →
        exec (.drainEndReport p) s = .next (complete p c.serial lost
          (t.modPwu p (fun u => { u with command := none })))) ∧
      (∀ l, endingLeases p s = [id] → findLease s id = some l →
        (∀ x ∈ (s.pwu.get p).slots, x.state = .draining → x.leaseId ≠ id) →
        exec (.drainEndReport p) s = .next (grantScan (complete p c.serial lost
          ((freedEvent id l (emptyLeaseSlot id t)).modPwu p (fun u => { u with command := none })))))))

/-! ### The array's outcomes (chapter 6) -/

/-- A read of a READ job that ends CLEAN or CORRECTED delivers the sector's bytes to its position and counts READ_SECTOR;
CORRECTED also counts CORRECTED and raises the block; a job's last read completes the READ DONE, with the CORRECTED flag
if this or an earlier one was CORRECTED; UNCORRECTABLE ends it with that sector and the positions before it (R92, R110,
R116): an unreadable sector's read, whatever the command says; of a readable sector it is no outcome and changes nothing
(R101, R103; the model's form: log 15). A READ whose bound lease was broken after the issue reads on and completes
LEASE_LOST with that lease's id and the fields that the outcome would have given, STAGED left out (R78, R93; log 17). An
abandoned READ delivers nothing and completes no command; its reads count and raise candidates as any job's (R108). A
candidate is handled by the first row of R117 that matches: dropped with an empty pool, and the SPARES_OUT rule applied;
queued as a RELOCATE job when none is queued; dropped when one for it is queued; placed in an empty latch; dropped. Each
drop counts one RELOC_DROPPED, attributed to no port (R117). The SPARES_OUT rule sets the marker and hands SPARES_OUT when
the pool is empty and the marker clear (R123). -/
def Obligations.ReadSectorIsDelivered : Prop :=
  (∀ (s : State) (o : JobOwner) (n : Nat) (todo : List Nat) (d : Nat) (k : Bool) (raised : List Nat) (c : PwuCommand)
    (r : Range) (rest : List Nat) (read : State) (lost : Option Nat),
    s.me.running = some (.read o (n :: todo) d k raised) → o.abandoned = false →
    (s.pwu.get o.issuer).command = some c → c.serial = o.serial → c.stage = .issued → c.action = .read r rest →
    (c.broken = [] ∧ lost = none ∨ ∃ id, c.broken = [id] ∧ lost = some id) → (s.plu.get o.issuer).slot = .busy → (s.plu.get o.issuer).serial = o.serial →
    servingBlock s.me (n / 32) < 1041 →
    read = countEvent .readSector (some o.issuer) (s.modPlu o.issuer (fun u =>
      { u with buffer := u.buffer.set (n - r.first) (readSectorData s.me.array (servingSector s.me n)) })) →
    (servingSector s.me n ∉ s.me.unreadable →
      (todo ≠ [] →
        exec (.readSectorOutcome .clean) s = .next (setRunning (.read o todo (d + 1) k raised) read) ∧
        exec (.readSectorOutcome .corrected) s = .next (setRunning
          (.read o todo (d + 1) true (raisedWith raised (n / 32)))
          (raiseOnce raised (n / 32) (countEvent .corrected (some o.issuer) read)))) ∧
      (todo = [] →
        exec (.readSectorOutcome .clean) s = .next (endRunning (completeRead o.issuer o.serial
          { status := if lost = none then .done else .leaseLost,
            flags := { corrected := k, staged := decide (lost = none ∧ rest.length < r.count) }, leaseId := lost,
            lastSector := some (r.first + r.count - 1), count := r.count }
          (read.modPwu o.issuer (fun u => { u with command := none })))) ∧
        exec (.readSectorOutcome .corrected) s = .next (endRunning (completeRead o.issuer o.serial
          { status := if lost = none then .done else .leaseLost,
            flags := { corrected := true, staged := decide (lost = none ∧ rest.length < r.count) }, leaseId := lost,
            lastSector := some (r.first + r.count - 1), count := r.count }
          ((raiseOnce raised (n / 32) (countEvent .corrected (some o.issuer) read)).modPwu o.issuer (fun u =>
            { u with command := none })))))) ∧
    (servingSector s.me n ∉ s.me.unreadable → exec (.readSectorOutcome .uncorrectable) s = .next s) ∧
    (servingSector s.me n ∈ s.me.unreadable → ∀ out, exec (.readSectorOutcome out) s = .next (endRunning
      (completeRead o.issuer o.serial
        { status := if lost = none then .uncorrectable else .leaseLost,
          flags := { corrected := k, staged := decide (lost = none ∧ rest.length < r.count) }, leaseId := lost,
          lastSector := some n, count := n - r.first }
        (s.modPwu o.issuer (fun u => { u with command := none })))))) ∧
  (∀ (s read : State) (o : JobOwner) (n : Nat) (todo : List Nat) (d : Nat) (k : Bool) (raised : List Nat),
    s.me.running = some (.read o (n :: todo) d k raised) → servingBlock s.me (n / 32) < 1041 →
    o.abandoned = true ∨ (∀ c, (s.pwu.get o.issuer).command = some c → c.serial = o.serial → c.stage ≠ .issued) →
    read = countEvent .readSector (some o.issuer) s →
    (servingSector s.me n ∉ s.me.unreadable →
      exec (.readSectorOutcome .clean) s = .next
        (if todo = [] then endRunning read else setRunning (.read o todo (d + 1) k raised) read) ∧
      exec (.readSectorOutcome .corrected) s = .next
        (if todo = [] then endRunning (raiseOnce raised (n / 32) (countEvent .corrected (some o.issuer) read))
         else setRunning (.read o todo (d + 1) true (raisedWith raised (n / 32)))
           (raiseOnce raised (n / 32) (countEvent .corrected (some o.issuer) read)))) ∧
    (servingSector s.me n ∈ s.me.unreadable → ∀ out, exec (.readSectorOutcome out) s = .next (endRunning s))) ∧
  (∀ (raised : List Nat) (b : Nat) (s : State),
    raiseOnce raised b s = (if b ∈ raised then s else candidate b s) ∧
      raisedWith raised b = (if b ∈ raised then raised else raised ++ [b])) ∧
  (∀ (b : Nat) (s : State),
    (s.me.pool = [] → candidate b s = sparesOutRule b (countEvent .relocDropped none s)) ∧
    (s.me.pool ≠ [] → (∀ a, Job.relocate a ∉ s.me.queue) →
      candidate b s = s.modMe (fun m => { m with queue := m.queue ++ [.relocate b] })) ∧
    (∀ a, s.me.pool ≠ [] → Job.relocate a ∈ s.me.queue → (∀ x, Job.relocate x ∈ s.me.queue → x = a) →
      (a = b → candidate b s = countEvent .relocDropped none s) ∧
      (a ≠ b → s.me.latch = none → candidate b s = s.modMe (fun m => { m with latch := some b })) ∧
      (a ≠ b → s.me.latch ≠ none → candidate b s = countEvent .relocDropped none s)) ∧
    (s.me.pool = [] → s.me.sparesOut = false →
      sparesOutRule b s = mediaEvent .sparesOut b (s.modMe (fun m => { m with sparesOut := true }))) ∧
    (s.me.pool ≠ [] ∨ s.me.sparesOut = true → sparesOutRule b s = s))

/-- A program of a DRAIN job that ends OK stores its data at the sector's place in the serving block and changes no other
byte of the array; one that ends FAULT changes none (R101, R102, R107). The slot leaves the write unit whatever the
outcome, and the first faulty sector is kept; the last program hands the end report to the lease engine, behind the port's
requests that wait there (R24, R87, R98, R111, R112, R116). OK counts DRAIN_SECTOR and FAULT raises the block (R111, R116);
an open sector's part of the payload is released (R87). The last program hands one COMMITTED event with the sectors
programmed OK, or none if there were none, then the report, and the next job is selected (R89, R95, R97, R106, R112). -/
def Obligations.ProgramStoresItsSectorOnly : Prop :=
  (∀ (s : State) (o : JobOwner) (x : SectorItem) (todo : List SectorItem) (done : List Nat) (f : Option Nat)
    (raised : List Nat) (base : Nat),
    s.me.running = some (.drain o (x :: todo) done f raised) → x.data.length = 512 →
    servingBlock s.me (x.sector / 32) < 1041 →
    base = (32 * servingBlock s.me (x.sector / 32) + x.sector % 32) * 512 →
    (∃ t, exec (.programSectorOutcome .ok) s = .next t ∧
      (∀ j, j < 512 → Memory.read t.me.array (base + j) = x.data.getD j 0#8) ∧
      (∀ a, a < base ∨ base + 512 ≤ a → Memory.read t.me.array a = Memory.read s.me.array a) ∧
      servingSector s.me x.sector ∉ t.me.unreadable) ∧
    (∃ t, exec (.programSectorOutcome .fault) s = .next t ∧ t.me.array = s.me.array ∧
      t.me.unreadable = s.me.unreadable)) ∧
  (∀ (s : State) (o : JobOwner) (x : SectorItem) (todo : List SectorItem) (done : List Nat) (f : Option Nat)
    (raised : List Nat) (out : OpOutcome),
    s.me.running = some (.drain o (x :: todo) done f raised) → servingBlock s.me (x.sector / 32) < 1041 →
    ∃ t, exec (.programSectorOutcome out) s = .next t ∧
      (t.pwu.get o.issuer).slots = (s.pwu.get o.issuer).slots.filter (fun z =>
        !(decide (z.sector = x.sector) && decide (z.state = .draining))) ∧
      (∀ q, q ≠ o.issuer → t.pwu.get q = s.pwu.get q) ∧ t.ac = s.ac ∧
      (todo ≠ [] → t.le = s.le ∧ t.me.running = some (.drain o todo (if out = .ok then done ++ [x.sector] else done)
        (if out = .fault then some (f.getD x.sector) else f)
        (if out = .fault then raisedWith raised (x.sector / 32) else raised))) ∧
      (todo = [] → t.le = { s.le with requests := s.le.requests.modify o.issuer (fun l => l ++
        [.report { serial := o.serial, okCount := if out = .ok then done.length + 1 else done.length,
                   firstFault := if out = .fault then some (f.getD x.sector) else f }]) })) ∧
  (∀ (s ended u : State) (o : JobOwner) (x : SectorItem) (todo : List SectorItem) (done : List Nat) (f : Option Nat)
    (raised : List Nat) (out : OpOutcome) (ok : List Nat) (fault : Option Nat),
    s.me.running = some (.drain o (x :: todo) done f raised) → servingBlock s.me (x.sector / 32) < 1041 →
    ok = (if out = .ok then done ++ [x.sector] else done) →
    fault = (if out = .fault then some (f.getD x.sector) else f) →
    ended = (match out with
      | .ok => countEvent .drainSector (some o.issuer) (s.modMe (fun m => m.programOk (servingSector m x.sector) x.data))
      | .fault => raiseOnce raised (x.sector / 32) s) →
    u = ended.modPwu o.issuer (fun w =>
        { w with
          slots := w.slots.filter (fun z => !(decide (z.sector = x.sector) && decide (z.state = .draining))),
          drained := w.drained ++ (w.slots.filter (fun z =>
            decide (z.sector = x.sector) && decide (z.state = .draining))).map (fun z => z.leaseId),
          command := w.command.map (fun c =>
            if o.abandoned = false ∧ c.serial = o.serial ∧ c.stage = .issued then
              { c with action := match c.action with
                | .write kept cut flush leased opens =>
                  .write kept cut flush leased (opens.filter (fun z => decide (z.sector ≠ x.sector)))
                | a => a }
            else c) }) →
    (todo ≠ [] → exec (.programSectorOutcome out) s = .next (setRunning
      (.drain o todo ok fault (if out = .fault then raisedWith raised (x.sector / 32) else raised)) u)) ∧
    (todo = [] → exec (.programSectorOutcome out) s = .next (endRunning
      ((if ok = [] then u else committedEvent o.issuer ok u).modLe (fun e =>
        { e with requests := e.requests.modify o.issuer (fun l => l ++
          [.report { serial := o.serial, okCount := ok.length, firstFault := fault }]) })))))

/-- A block clear of a CLEAR job that ends OK makes the 32 sectors of the serving block read FFh and changes no other byte;
FAULT changes no byte (R101, R102, R113). A clear that is not the last, OK, goes on to the next block. The last, OK, hands
the CLEARED event for the blocks cleared, first to last, and completes the CLEAR DONE or OVERFLOW, with the pending clear
range if the one formed at its acceptance still exists, and without it if that was dropped meanwhile (R131). FAULT ends
the job at its block, raised as a candidate: the CLEARED event for the blocks before it, if any, and WRITE_FAULT with the
pending range or absent items and then the block (R131, R178; the order: log 18). After a break the CLEAR completes
LEASE_LOST with the broken lease's id and the same last sector and count (R78; an absent item of the detail takes no byte:
log 18; without the pending range: log 17). An abandoned CLEAR hands its CLEARED event likewise and completes no command
(R108). -/
def Obligations.ClearBlanksItsBlockOnly : Prop :=
  ∀ (s : State) (o : JobOwner) (b : Nat) (todo : List Nat) (done raised : List Nat) (base : Nat),
    s.me.running = some (.clear o (b :: todo) done raised) → servingBlock s.me b < 1041 →
    base = 32 * servingBlock s.me b * 512 →
    (∃ t, exec (.clearBlockOutcome .ok) s = .next t ∧
      (∀ a, base ≤ a ∧ a < base + 32 * 512 → Memory.read t.me.array a = 0xFF#8) ∧
      (∀ a, a < base ∨ base + 32 * 512 ≤ a → Memory.read t.me.array a = Memory.read s.me.array a)) ∧
    (∃ t, exec (.clearBlockOutcome .fault) s = .next t ∧ t.me.array = s.me.array) ∧
    (todo ≠ [] → exec (.clearBlockOutcome .ok) s = .next (setRunning (.clear o todo (done ++ [b]) raised)
      (s.modMe (fun m => m.clearOk (servingBlock m b))))) ∧
    (o.abandoned = true ∨ (∀ c, (s.pwu.get o.issuer).command = some c → c.serial = o.serial → c.stage ≠ .issued) →
      (∀ first, todo = [] → (done ++ [b]).Pairwise (· < ·) → (done ++ [b]).head? = some first →
        exec (.clearBlockOutcome .ok) s = .next (endRunning
          (clearedEvent o.issuer { first := 32 * first, count := 32 * b + 32 - 32 * first }
            (s.modMe (fun m => m.clearOk (servingBlock m b)))))) ∧
      (done = [] → exec (.clearBlockOutcome .fault) s = .next (endRunning (raiseOnce raised b s))) ∧
      (∀ first last, done.Pairwise (· < ·) → done.head? = some first → done.getLast? = some last →
        exec (.clearBlockOutcome .fault) s = .next (endRunning
          (clearedEvent o.issuer { first := 32 * first, count := 32 * last + 32 - 32 * first }
            (raiseOnce raised b s))))) ∧
    (∀ c blocks cut formed pend, o.abandoned = false → (s.pwu.get o.issuer).command = some c →
      c.serial = o.serial → c.stage = .issued → c.action = .clear blocks cut formed →
      pend = (if (s.pwu.get o.issuer).pendingClear = formed then formed else none) →
      (∀ first, todo = [] → (done ++ [b]).Pairwise (· < ·) → (done ++ [b]).head? = some first →
        (c.broken = [] →
          exec (.clearBlockOutcome .ok) s = .next (endRunning (complete o.issuer o.serial
            { status := if cut then .overflow else .done,
              flags := { holdExpired := c.holdExpired, pending := pend.isSome },
              lastSector := some (32 * b + 31), count := 32 * (done.length + 1),
              detail := match pend with
                | some q => [BitVec.ofNat 8 (q.first / 256), BitVec.ofNat 8 q.first, BitVec.ofNat 8 (q.count / 256),
                             BitVec.ofNat 8 q.count]
                | none => [] }
            ((clearedEvent o.issuer { first := 32 * first, count := 32 * b + 32 - 32 * first }
              (s.modMe (fun m => m.clearOk (servingBlock m b)))).modPwu o.issuer (fun u =>
                { u with command := none }))))) ∧
        (∀ id, c.broken = [id] →
          exec (.clearBlockOutcome .ok) s = .next (endRunning (complete o.issuer o.serial
            { status := .leaseLost, flags := { holdExpired := c.holdExpired }, leaseId := some id,
              lastSector := some (32 * b + 31), count := 32 * (done.length + 1) }
            ((clearedEvent o.issuer { first := 32 * first, count := 32 * b + 32 - 32 * first }
              (s.modMe (fun m => m.clearOk (servingBlock m b)))).modPwu o.issuer (fun u =>
                { u with command := none })))))) ∧
      (∀ faulted : Option Nat → Completion,
        (c.broken = [] ∧ faulted = (fun last =>
          { status := .writeFault, flags := { holdExpired := c.holdExpired, pending := pend.isSome },
            lastSector := last, count := 32 * done.length,
            detail := (match pend with
              | some q => [BitVec.ofNat 8 (q.first / 256), BitVec.ofNat 8 q.first, BitVec.ofNat 8 (q.count / 256),
                           BitVec.ofNat 8 q.count]
              | none => [0xFF#8, 0xFF#8, 0xFF#8, 0xFF#8]) ++ [BitVec.ofNat 8 (b / 256), BitVec.ofNat 8 b] }) ∨
          ∃ id, c.broken = [id] ∧ faulted = (fun last =>
            { status := .leaseLost, flags := { holdExpired := c.holdExpired }, leaseId := some id, lastSector := last,
              count := 32 * done.length })) →
        (done = [] →
          exec (.clearBlockOutcome .fault) s = .next (endRunning (complete o.issuer o.serial (faulted none)
            ((raiseOnce raised b s).modPwu o.issuer (fun u => { u with command := none }))))) ∧
        (∀ first last, done.Pairwise (· < ·) → done.head? = some first → done.getLast? = some last →
          exec (.clearBlockOutcome .fault) s = .next (endRunning (complete o.issuer o.serial
            (faulted (some (32 * last + 31)))
            ((clearedEvent o.issuer { first := 32 * first, count := 32 * last + 32 - 32 * first }
              (raiseOnce raised b s)).modPwu o.issuer (fun u => { u with command := none })))))))

/-- The last program of a META job: OK puts the record in the metadata block, clears both flags and completes SAVE CONFIG
DONE with a count of 1; FAULT leaves the record, sets METADATA_FAULT and completes it WRITE_FAULT (R9, R18, R114). An
abandoned META job updates the record and the flags likewise and completes no command (R9, R18, R108, R114). When the
running job has ended, a queued RELOCATE job starts on the lowest-numbered spare of the pool, else the oldest queued job;
a META job forms its record then; with an empty queue, and in LOADING, none starts (R104, R106, R114, R118). -/
def Obligations.MetaProgramEnds : Prop :=
  (∀ (s : State) (o : JobOwner) (r : MetaRecord) (c : PwuCommand),
    s.me.running = some (.metadata o r) → o.abandoned = false → (s.pwu.get o.issuer).command = some c →
    c.serial = o.serial → c.stage = .issued →
    exec (.metaProgramOutcome .ok) s = .next (endRunning (complete o.issuer o.serial { status := .done, count := 1 }
      (((s.modMe (fun m => { m with record := some r, unreadable := eraseNat (32 * 1040) m.unreadable })).modAc
        (fun a => { a with metaInvalid := false, metaFault := false })).modPwu o.issuer (fun u =>
          { u with command := none })))) ∧
    exec (.metaProgramOutcome .fault) s = .next (endRunning (complete o.issuer o.serial { status := .writeFault }
      ((s.modAc (fun a => { a with metaFault := true })).modPwu o.issuer (fun u => { u with command := none }))))) ∧
  (∀ (s : State) (o : JobOwner) (r : MetaRecord), s.me.running = some (.metadata o r) →
    o.abandoned = true ∨ (∀ c, (s.pwu.get o.issuer).command = some c → c.serial = o.serial → c.stage ≠ .issued) →
    exec (.metaProgramOutcome .ok) s = .next (endRunning
      ((s.modMe (fun m => { m with record := some r, unreadable := eraseNat (32 * 1040) m.unreadable })).modAc (fun a =>
        { a with metaInvalid := false, metaFault := false }))) ∧
    exec (.metaProgramOutcome .fault) s = .next (endRunning (s.modAc (fun a => { a with metaFault := true })))) ∧
  (∀ s : State, endRunning s = selectJob (s.modMe (fun m => { m with running := none }))) ∧
  (∀ s : State, s.device = .ready → s.me.running = none →
    (∀ before b after x rest, s.me.queue = before ++ .relocate b :: after → (∀ a, Job.relocate a ∉ before) →
      s.me.pool = x :: rest →
      selectJob s = s.modMe (fun m =>
        { m with queue := before ++ after, running := some (.relocate b x .clearSpare) })) ∧
    (∀ o work rest, s.me.queue = .port o work :: rest → (∀ a, Job.relocate a ∉ rest) →
      selectJob s = s.modMe (fun m =>
        { m with queue := rest, running := some (match work with
          | .read l => .read o l 0 false []
          | .drain l => .drain o l [] none []
          | .clear l => .clear o l [] []
          | .metadata => .metadata o { settings := s.ac.image, remap := s.me.remap, retired := s.me.retired,
                                       checkOk := true }) })) ∧
    (s.me.queue = [] → selectJob s = s)) ∧
  (∀ s : State, s.device = .starting ∨ s.me.running ≠ none → selectJob s = s)

/-- The steps of a RELOCATE job of block `b` to spare `x`: the clear, each copy read and program, the record's program and
the switch; a clear or program FAULT retires the spare, a read UNCORRECTABLE or a record FAULT leaves it in the pool, and
the job then ends RELOCATE_FAILED (R118 to R121); a read is UNCORRECTABLE when its sector is unreadable, and of a readable
sector that is no outcome and changes nothing (R101, R103; the model's form: log 15). The end of the job hands its media
event, applies the SPARES_OUT rule, and empties the latch: its block enters the queue as a RELOCATE job, or with an empty
pool is dropped, one RELOC_DROPPED counted and the SPARES_OUT rule applied for it; then the next job is selected (R122,
R123). -/
def Obligations.RelocationSteps : Prop :=
  (∀ (k : MediaKind) (b : Nat) (s t : State), t = sparesOutRule b (mediaEvent k b s) →
    (t.me.latch = none → endRelocate k b s = endRunning t) ∧
    (∀ c, t.me.latch = some c → t.me.pool ≠ [] →
      endRelocate k b s = endRunning (t.modMe (fun m => { m with latch := none, queue := m.queue ++ [.relocate c] }))) ∧
    (∀ c, t.me.latch = some c → t.me.pool = [] →
      endRelocate k b s = endRunning (sparesOutRule c (countEvent .relocDropped none
        (t.modMe (fun m => { m with latch := none })))))) ∧
  (∀ (s : State) (b x : Nat), x < 1041 → servingBlock s.me b < 1041 →
    (s.me.running = some (.relocate b x .clearSpare) →
      exec (.relocateSpareClearOutcome .ok) s = .next (setRunning (.relocate b x (.copyRead 0))
        (s.modMe (fun m => m.clearOk x))) ∧
      exec (.relocateSpareClearOutcome .fault) s = .next (endRelocate .relocateFailed b (s.modMe (fun m =>
        { m with pool := eraseNat x m.pool, retired := insertAsc x m.retired })))) ∧
    (∀ i, s.me.running = some (.relocate b x (.copyRead i)) →
      (32 * servingBlock s.me b + i ∉ s.me.unreadable → ∀ out, out ≠ .uncorrectable →
        exec (.relocateCopyReadOutcome out) s = .next (setRunning (.relocate b x (.copyProgram i
          (readSectorData s.me.array (32 * servingBlock s.me b + i)))) s)) ∧
      (32 * servingBlock s.me b + i ∈ s.me.unreadable → ∀ out,
        exec (.relocateCopyReadOutcome out) s = .next (endRelocate .relocateFailed b s)) ∧
      (32 * servingBlock s.me b + i ∉ s.me.unreadable →
        exec (.relocateCopyReadOutcome .uncorrectable) s = .next s)) ∧
    (∀ i data, s.me.running = some (.relocate b x (.copyProgram i data)) →
      (i < 31 → exec (.relocateCopyProgramOutcome .ok) s = .next (setRunning (.relocate b x (.copyRead (i + 1)))
        (s.modMe (fun m => m.programOk (32 * x + i) data)))) ∧
      (i = 31 → exec (.relocateCopyProgramOutcome .ok) s = .next (setRunning (.relocate b x (.writeRecord
          { settings := s.ac.image, remap := (remapWith s.me b x).1, retired := (remapWith s.me b x).2,
            checkOk := true })) (s.modMe (fun m => m.programOk (32 * x + i) data)))) ∧
      exec (.relocateCopyProgramOutcome .fault) s = .next (endRelocate .relocateFailed b (s.modMe (fun m =>
        { m with pool := eraseNat x m.pool, retired := insertAsc x m.retired })))) ∧
    (∀ r, s.me.running = some (.relocate b x (.writeRecord r)) →
      exec (.relocateMetadataOutcome .ok) s = .next (endRelocate .relocated b (countEvent .relocation none
        ((s.modMe (fun m => { m with record := some r, unreadable := eraseNat (32 * 1040) m.unreadable,
                                     remap := (remapWith m b x).1, retired := (remapWith m b x).2,
                                     pool := eraseNat x m.pool })).modAc
          (fun a => { a with metaInvalid := false, metaFault := false })))) ∧
      exec (.relocateMetadataOutcome .fault) s = .next (endRelocate .relocateFailed b
        (s.modAc (fun a => { a with metaFault := true })))))

/-! ### Invariants -/

/-- The array's bytes keep their canonical form in every step (the model's form of the array: section 6.1, R101). Once the
device is READY, remap table, pool and retired list together hold each of the 16 spares once, each in its order, in every
step, and the target of a running RELOCATE is in the pool (R115, R118). -/
def Obligations.StepKeepsTheArrayCanonical : Prop :=
  (∀ s t : State, arraySound s = true → step s = .next t → arraySound t = true) ∧
    (∀ s t : State, sparesSound s = true → step s = .next t → sparesSound t = true)

/-- In every step each port's notice queue stays at most 16 long, CONGESTED at its high level and NORMAL at its low level
(R145, R147), and each write unit's staging slots stay at most 8 and in ascending order, no two of one sector (R80; log
25). -/
def Obligations.StepKeepsTheNoticeQueuesSound : Prop :=
  (∀ s t : State, noticesSound s = true → step s = .next t → noticesSound t = true) ∧
    (∀ s t : State, stagingSound s = true → step s = .next t → stagingSound t = true)

/-- In every step filled slots and parked ACQUIRE entries stay at most 64 (R22). -/
def Obligations.StepKeepsTheTableBounded : Prop :=
  ∀ s t : State, tableBounded s = true → step s = .next t → tableBounded t = true

/-- In every step every HELD lease's age stays at most 2 (R68), in a table of 64 slots. -/
def Obligations.StepKeepsHeldLeasesYoung : Prop :=
  ∀ s t : State, s.le.table.length = 64 → heldYoung s = true → step s = .next t →
    t.le.table.length = 64 ∧ heldYoung t = true

/-- In every step the slot of a port is IDLE while the device is in STARTING and while the port is fenced (R164). -/
def Obligations.StepKeepsClosedPortsIdle : Prop :=
  ∀ s t : State, closedIdle s = true → step s = .next t → closedIdle t = true

/-- The machine right after reset satisfies the invariants. -/
def Obligations.ResetSatisfiesTheInvariants : Prop :=
  arraySound State.reset = true ∧ noticesSound State.reset = true ∧ tableBounded State.reset = true ∧
    State.reset.le.table.length = 64 ∧ heldYoung State.reset = true ∧ closedIdle State.reset = true ∧
    sparesSound State.reset = true ∧ stagingSound State.reset = true
end

