-- ==== Sys2Proof/Laws/State.lean ====
section
/-! SUPPORT. One lemma per field per update of State, and the laws of one value per port. -/

namespace Sys2Proof

namespace PortMap

variable {α : Type}

@[simp] theorem get_set_same (m : PortMap α) (p : Port) (a : α) : (m.set p a).get p = a := by cases p <;> rfl

theorem get_set_ne (m : PortMap α) {p q : Port} (a : α) (h : q ≠ p) : (m.set p a).get q = m.get q := by
  cases p <;> cases q <;> first | rfl | exact absurd rfl h

theorem get_set (m : PortMap α) (p q : Port) (a : α) : (m.set p a).get q = if q = p then a else m.get q := by
  by_cases h : q = p
  · subst h; simp
  · simp [h, get_set_ne]

@[simp] theorem set_set (m : PortMap α) (p : Port) (a b : α) : (m.set p a).set p b = m.set p b := by cases p <;> rfl

@[simp] theorem set_get (m : PortMap α) (p : Port) : m.set p (m.get p) = m := by cases p <;> rfl

@[simp] theorem get_modify_same (m : PortMap α) (p : Port) (f : α → α) : (m.modify p f).get p = f (m.get p) := by
  simp [modify]

theorem get_modify_ne (m : PortMap α) {p q : Port} (f : α → α) (h : q ≠ p) : (m.modify p f).get q = m.get q := by
  simp [modify, get_set_ne, h]

theorem get_modify (m : PortMap α) (p q : Port) (f : α → α) :
    (m.modify p f).get q = if q = p then f (m.get q) else m.get q := by
  by_cases h : q = p
  · subst h; simp
  · simp [h, get_modify_ne]

@[simp] theorem modify_modify (m : PortMap α) (p : Port) (f g : α → α) :
    (m.modify p f).modify p g = m.modify p (fun a => g (f a)) := by simp [modify]

@[simp] theorem modify_id (m : PortMap α) (p : Port) : m.modify p (fun a => a) = m := by simp [modify]

@[simp] theorem get_const (a : α) (p : Port) : (const a).get p = a := by cases p <;> rfl

theorem ext_get {m n : PortMap α} (h : ∀ p, m.get p = n.get p) : m = n := by
  obtain ⟨a, b, c, d⟩ := m
  obtain ⟨a', b', c', d'⟩ := n
  have h0 := h .p0
  have h1 := h .p1
  have h2 := h .p2
  have h3 := h .p3
  simp only [get] at h0 h1 h2 h3
  subst h0 h1 h2 h3
  rfl

end PortMap

namespace Port

theorem mem_all (p : Port) : p ∈ all := by cases p <;> simp [all]

@[simp] theorem next_ne (p : Port) : p.next ≠ p := by cases p <;> decide

end Port

namespace Machine

namespace State

@[simp] theorem modPlu_device (s : State) (p : Port) (f : Plu → Plu) : (s.modPlu p f).device = s.device := rfl
@[simp] theorem modPlu_rstHeld (s : State) (p : Port) (f : Plu → Plu) : (s.modPlu p f).rstHeld = s.rstHeld := rfl
@[simp] theorem modPlu_supsel (s : State) (p : Port) (f : Plu → Plu) : (s.modPlu p f).supsel = s.supsel := rfl
@[simp] theorem modPlu_plu (s : State) (p : Port) (f : Plu → Plu) : (s.modPlu p f).plu = s.plu.modify p f := rfl
@[simp] theorem modPlu_teardown (s : State) (p : Port) (f : Plu → Plu) : (s.modPlu p f).teardown = s.teardown := rfl
@[simp] theorem modPlu_le (s : State) (p : Port) (f : Plu → Plu) : (s.modPlu p f).le = s.le := rfl
@[simp] theorem modPlu_eu (s : State) (p : Port) (f : Plu → Plu) : (s.modPlu p f).eu = s.eu := rfl
@[simp] theorem modPlu_pwu (s : State) (p : Port) (f : Plu → Plu) : (s.modPlu p f).pwu = s.pwu := rfl
@[simp] theorem modPlu_me (s : State) (p : Port) (f : Plu → Plu) : (s.modPlu p f).me = s.me := rfl
@[simp] theorem modPlu_ac (s : State) (p : Port) (f : Plu → Plu) : (s.modPlu p f).ac = s.ac := rfl
@[simp] theorem modPlu_nu (s : State) (p : Port) (f : Plu → Plu) : (s.modPlu p f).nu = s.nu := rfl
@[simp] theorem modPlu_holdList (s : State) (p : Port) (f : Plu → Plu) : (s.modPlu p f).holdList = s.holdList := rfl
@[simp] theorem modPlu_released (s : State) (p : Port) (f : Plu → Plu) : (s.modPlu p f).released = s.released := rfl
@[simp] theorem modPlu_swb (s : State) (p : Port) (f : Plu → Plu) : (s.modPlu p f).swb = s.swb := rfl
@[simp] theorem modPlu_pending (s : State) (p : Port) (f : Plu → Plu) : (s.modPlu p f).pending = s.pending := rfl

@[simp] theorem modPwu_device (s : State) (p : Port) (f : WriteUnit → WriteUnit) : (s.modPwu p f).device = s.device := rfl
@[simp] theorem modPwu_rstHeld (s : State) (p : Port) (f : WriteUnit → WriteUnit) : (s.modPwu p f).rstHeld = s.rstHeld := rfl
@[simp] theorem modPwu_supsel (s : State) (p : Port) (f : WriteUnit → WriteUnit) : (s.modPwu p f).supsel = s.supsel := rfl
@[simp] theorem modPwu_plu (s : State) (p : Port) (f : WriteUnit → WriteUnit) : (s.modPwu p f).plu = s.plu := rfl
@[simp] theorem modPwu_teardown (s : State) (p : Port) (f : WriteUnit → WriteUnit) : (s.modPwu p f).teardown = s.teardown := rfl
@[simp] theorem modPwu_le (s : State) (p : Port) (f : WriteUnit → WriteUnit) : (s.modPwu p f).le = s.le := rfl
@[simp] theorem modPwu_eu (s : State) (p : Port) (f : WriteUnit → WriteUnit) : (s.modPwu p f).eu = s.eu := rfl
@[simp] theorem modPwu_pwu (s : State) (p : Port) (f : WriteUnit → WriteUnit) : (s.modPwu p f).pwu = s.pwu.modify p f := rfl
@[simp] theorem modPwu_me (s : State) (p : Port) (f : WriteUnit → WriteUnit) : (s.modPwu p f).me = s.me := rfl
@[simp] theorem modPwu_ac (s : State) (p : Port) (f : WriteUnit → WriteUnit) : (s.modPwu p f).ac = s.ac := rfl
@[simp] theorem modPwu_nu (s : State) (p : Port) (f : WriteUnit → WriteUnit) : (s.modPwu p f).nu = s.nu := rfl
@[simp] theorem modPwu_holdList (s : State) (p : Port) (f : WriteUnit → WriteUnit) : (s.modPwu p f).holdList = s.holdList := rfl
@[simp] theorem modPwu_released (s : State) (p : Port) (f : WriteUnit → WriteUnit) : (s.modPwu p f).released = s.released := rfl
@[simp] theorem modPwu_swb (s : State) (p : Port) (f : WriteUnit → WriteUnit) : (s.modPwu p f).swb = s.swb := rfl
@[simp] theorem modPwu_pending (s : State) (p : Port) (f : WriteUnit → WriteUnit) : (s.modPwu p f).pending = s.pending := rfl

@[simp] theorem modNu_device (s : State) (p : Port) (f : NuPort → NuPort) : (s.modNu p f).device = s.device := rfl
@[simp] theorem modNu_rstHeld (s : State) (p : Port) (f : NuPort → NuPort) : (s.modNu p f).rstHeld = s.rstHeld := rfl
@[simp] theorem modNu_supsel (s : State) (p : Port) (f : NuPort → NuPort) : (s.modNu p f).supsel = s.supsel := rfl
@[simp] theorem modNu_plu (s : State) (p : Port) (f : NuPort → NuPort) : (s.modNu p f).plu = s.plu := rfl
@[simp] theorem modNu_teardown (s : State) (p : Port) (f : NuPort → NuPort) : (s.modNu p f).teardown = s.teardown := rfl
@[simp] theorem modNu_le (s : State) (p : Port) (f : NuPort → NuPort) : (s.modNu p f).le = s.le := rfl
@[simp] theorem modNu_eu (s : State) (p : Port) (f : NuPort → NuPort) : (s.modNu p f).eu = s.eu := rfl
@[simp] theorem modNu_pwu (s : State) (p : Port) (f : NuPort → NuPort) : (s.modNu p f).pwu = s.pwu := rfl
@[simp] theorem modNu_me (s : State) (p : Port) (f : NuPort → NuPort) : (s.modNu p f).me = s.me := rfl
@[simp] theorem modNu_ac (s : State) (p : Port) (f : NuPort → NuPort) : (s.modNu p f).ac = s.ac := rfl
@[simp] theorem modNu_nu (s : State) (p : Port) (f : NuPort → NuPort) : (s.modNu p f).nu = s.nu.modify p f := rfl
@[simp] theorem modNu_holdList (s : State) (p : Port) (f : NuPort → NuPort) : (s.modNu p f).holdList = s.holdList := rfl
@[simp] theorem modNu_released (s : State) (p : Port) (f : NuPort → NuPort) : (s.modNu p f).released = s.released := rfl
@[simp] theorem modNu_swb (s : State) (p : Port) (f : NuPort → NuPort) : (s.modNu p f).swb = s.swb := rfl
@[simp] theorem modNu_pending (s : State) (p : Port) (f : NuPort → NuPort) : (s.modNu p f).pending = s.pending := rfl

@[simp] theorem modTeardown_device (s : State) (p : Port) (f : Teardowns → Teardowns) : (s.modTeardown p f).device = s.device := rfl
@[simp] theorem modTeardown_rstHeld (s : State) (p : Port) (f : Teardowns → Teardowns) : (s.modTeardown p f).rstHeld = s.rstHeld := rfl
@[simp] theorem modTeardown_supsel (s : State) (p : Port) (f : Teardowns → Teardowns) : (s.modTeardown p f).supsel = s.supsel := rfl
@[simp] theorem modTeardown_plu (s : State) (p : Port) (f : Teardowns → Teardowns) : (s.modTeardown p f).plu = s.plu := rfl
@[simp] theorem modTeardown_teardown (s : State) (p : Port) (f : Teardowns → Teardowns) : (s.modTeardown p f).teardown = s.teardown.modify p f := rfl
@[simp] theorem modTeardown_le (s : State) (p : Port) (f : Teardowns → Teardowns) : (s.modTeardown p f).le = s.le := rfl
@[simp] theorem modTeardown_eu (s : State) (p : Port) (f : Teardowns → Teardowns) : (s.modTeardown p f).eu = s.eu := rfl
@[simp] theorem modTeardown_pwu (s : State) (p : Port) (f : Teardowns → Teardowns) : (s.modTeardown p f).pwu = s.pwu := rfl
@[simp] theorem modTeardown_me (s : State) (p : Port) (f : Teardowns → Teardowns) : (s.modTeardown p f).me = s.me := rfl
@[simp] theorem modTeardown_ac (s : State) (p : Port) (f : Teardowns → Teardowns) : (s.modTeardown p f).ac = s.ac := rfl
@[simp] theorem modTeardown_nu (s : State) (p : Port) (f : Teardowns → Teardowns) : (s.modTeardown p f).nu = s.nu := rfl
@[simp] theorem modTeardown_holdList (s : State) (p : Port) (f : Teardowns → Teardowns) : (s.modTeardown p f).holdList = s.holdList := rfl
@[simp] theorem modTeardown_released (s : State) (p : Port) (f : Teardowns → Teardowns) : (s.modTeardown p f).released = s.released := rfl
@[simp] theorem modTeardown_swb (s : State) (p : Port) (f : Teardowns → Teardowns) : (s.modTeardown p f).swb = s.swb := rfl
@[simp] theorem modTeardown_pending (s : State) (p : Port) (f : Teardowns → Teardowns) : (s.modTeardown p f).pending = s.pending := rfl

@[simp] theorem modLe_device (s : State) (f : LeaseEngine → LeaseEngine) : (s.modLe f).device = s.device := rfl
@[simp] theorem modLe_rstHeld (s : State) (f : LeaseEngine → LeaseEngine) : (s.modLe f).rstHeld = s.rstHeld := rfl
@[simp] theorem modLe_supsel (s : State) (f : LeaseEngine → LeaseEngine) : (s.modLe f).supsel = s.supsel := rfl
@[simp] theorem modLe_plu (s : State) (f : LeaseEngine → LeaseEngine) : (s.modLe f).plu = s.plu := rfl
@[simp] theorem modLe_teardown (s : State) (f : LeaseEngine → LeaseEngine) : (s.modLe f).teardown = s.teardown := rfl
@[simp] theorem modLe_le (s : State) (f : LeaseEngine → LeaseEngine) : (s.modLe f).le = f s.le := rfl
@[simp] theorem modLe_eu (s : State) (f : LeaseEngine → LeaseEngine) : (s.modLe f).eu = s.eu := rfl
@[simp] theorem modLe_pwu (s : State) (f : LeaseEngine → LeaseEngine) : (s.modLe f).pwu = s.pwu := rfl
@[simp] theorem modLe_me (s : State) (f : LeaseEngine → LeaseEngine) : (s.modLe f).me = s.me := rfl
@[simp] theorem modLe_ac (s : State) (f : LeaseEngine → LeaseEngine) : (s.modLe f).ac = s.ac := rfl
@[simp] theorem modLe_nu (s : State) (f : LeaseEngine → LeaseEngine) : (s.modLe f).nu = s.nu := rfl
@[simp] theorem modLe_holdList (s : State) (f : LeaseEngine → LeaseEngine) : (s.modLe f).holdList = s.holdList := rfl
@[simp] theorem modLe_released (s : State) (f : LeaseEngine → LeaseEngine) : (s.modLe f).released = s.released := rfl
@[simp] theorem modLe_swb (s : State) (f : LeaseEngine → LeaseEngine) : (s.modLe f).swb = s.swb := rfl
@[simp] theorem modLe_pending (s : State) (f : LeaseEngine → LeaseEngine) : (s.modLe f).pending = s.pending := rfl

@[simp] theorem modEu_device (s : State) (f : EpochUnit → EpochUnit) : (s.modEu f).device = s.device := rfl
@[simp] theorem modEu_rstHeld (s : State) (f : EpochUnit → EpochUnit) : (s.modEu f).rstHeld = s.rstHeld := rfl
@[simp] theorem modEu_supsel (s : State) (f : EpochUnit → EpochUnit) : (s.modEu f).supsel = s.supsel := rfl
@[simp] theorem modEu_plu (s : State) (f : EpochUnit → EpochUnit) : (s.modEu f).plu = s.plu := rfl
@[simp] theorem modEu_teardown (s : State) (f : EpochUnit → EpochUnit) : (s.modEu f).teardown = s.teardown := rfl
@[simp] theorem modEu_le (s : State) (f : EpochUnit → EpochUnit) : (s.modEu f).le = s.le := rfl
@[simp] theorem modEu_eu (s : State) (f : EpochUnit → EpochUnit) : (s.modEu f).eu = f s.eu := rfl
@[simp] theorem modEu_pwu (s : State) (f : EpochUnit → EpochUnit) : (s.modEu f).pwu = s.pwu := rfl
@[simp] theorem modEu_me (s : State) (f : EpochUnit → EpochUnit) : (s.modEu f).me = s.me := rfl
@[simp] theorem modEu_ac (s : State) (f : EpochUnit → EpochUnit) : (s.modEu f).ac = s.ac := rfl
@[simp] theorem modEu_nu (s : State) (f : EpochUnit → EpochUnit) : (s.modEu f).nu = s.nu := rfl
@[simp] theorem modEu_holdList (s : State) (f : EpochUnit → EpochUnit) : (s.modEu f).holdList = s.holdList := rfl
@[simp] theorem modEu_released (s : State) (f : EpochUnit → EpochUnit) : (s.modEu f).released = s.released := rfl
@[simp] theorem modEu_swb (s : State) (f : EpochUnit → EpochUnit) : (s.modEu f).swb = s.swb := rfl
@[simp] theorem modEu_pending (s : State) (f : EpochUnit → EpochUnit) : (s.modEu f).pending = s.pending := rfl

@[simp] theorem modMe_device (s : State) (f : MediaEngine → MediaEngine) : (s.modMe f).device = s.device := rfl
@[simp] theorem modMe_rstHeld (s : State) (f : MediaEngine → MediaEngine) : (s.modMe f).rstHeld = s.rstHeld := rfl
@[simp] theorem modMe_supsel (s : State) (f : MediaEngine → MediaEngine) : (s.modMe f).supsel = s.supsel := rfl
@[simp] theorem modMe_plu (s : State) (f : MediaEngine → MediaEngine) : (s.modMe f).plu = s.plu := rfl
@[simp] theorem modMe_teardown (s : State) (f : MediaEngine → MediaEngine) : (s.modMe f).teardown = s.teardown := rfl
@[simp] theorem modMe_le (s : State) (f : MediaEngine → MediaEngine) : (s.modMe f).le = s.le := rfl
@[simp] theorem modMe_eu (s : State) (f : MediaEngine → MediaEngine) : (s.modMe f).eu = s.eu := rfl
@[simp] theorem modMe_pwu (s : State) (f : MediaEngine → MediaEngine) : (s.modMe f).pwu = s.pwu := rfl
@[simp] theorem modMe_me (s : State) (f : MediaEngine → MediaEngine) : (s.modMe f).me = f s.me := rfl
@[simp] theorem modMe_ac (s : State) (f : MediaEngine → MediaEngine) : (s.modMe f).ac = s.ac := rfl
@[simp] theorem modMe_nu (s : State) (f : MediaEngine → MediaEngine) : (s.modMe f).nu = s.nu := rfl
@[simp] theorem modMe_holdList (s : State) (f : MediaEngine → MediaEngine) : (s.modMe f).holdList = s.holdList := rfl
@[simp] theorem modMe_released (s : State) (f : MediaEngine → MediaEngine) : (s.modMe f).released = s.released := rfl
@[simp] theorem modMe_swb (s : State) (f : MediaEngine → MediaEngine) : (s.modMe f).swb = s.swb := rfl
@[simp] theorem modMe_pending (s : State) (f : MediaEngine → MediaEngine) : (s.modMe f).pending = s.pending := rfl

@[simp] theorem modAc_device (s : State) (f : AccessChecker → AccessChecker) : (s.modAc f).device = s.device := rfl
@[simp] theorem modAc_rstHeld (s : State) (f : AccessChecker → AccessChecker) : (s.modAc f).rstHeld = s.rstHeld := rfl
@[simp] theorem modAc_supsel (s : State) (f : AccessChecker → AccessChecker) : (s.modAc f).supsel = s.supsel := rfl
@[simp] theorem modAc_plu (s : State) (f : AccessChecker → AccessChecker) : (s.modAc f).plu = s.plu := rfl
@[simp] theorem modAc_teardown (s : State) (f : AccessChecker → AccessChecker) : (s.modAc f).teardown = s.teardown := rfl
@[simp] theorem modAc_le (s : State) (f : AccessChecker → AccessChecker) : (s.modAc f).le = s.le := rfl
@[simp] theorem modAc_eu (s : State) (f : AccessChecker → AccessChecker) : (s.modAc f).eu = s.eu := rfl
@[simp] theorem modAc_pwu (s : State) (f : AccessChecker → AccessChecker) : (s.modAc f).pwu = s.pwu := rfl
@[simp] theorem modAc_me (s : State) (f : AccessChecker → AccessChecker) : (s.modAc f).me = s.me := rfl
@[simp] theorem modAc_ac (s : State) (f : AccessChecker → AccessChecker) : (s.modAc f).ac = f s.ac := rfl
@[simp] theorem modAc_nu (s : State) (f : AccessChecker → AccessChecker) : (s.modAc f).nu = s.nu := rfl
@[simp] theorem modAc_holdList (s : State) (f : AccessChecker → AccessChecker) : (s.modAc f).holdList = s.holdList := rfl
@[simp] theorem modAc_released (s : State) (f : AccessChecker → AccessChecker) : (s.modAc f).released = s.released := rfl
@[simp] theorem modAc_swb (s : State) (f : AccessChecker → AccessChecker) : (s.modAc f).swb = s.swb := rfl
@[simp] theorem modAc_pending (s : State) (f : AccessChecker → AccessChecker) : (s.modAc f).pending = s.pending := rfl

@[simp] theorem setHoldList_device (s : State) (l : List HoldEntry) : (s.setHoldList l).device = s.device := rfl
@[simp] theorem setHoldList_rstHeld (s : State) (l : List HoldEntry) : (s.setHoldList l).rstHeld = s.rstHeld := rfl
@[simp] theorem setHoldList_supsel (s : State) (l : List HoldEntry) : (s.setHoldList l).supsel = s.supsel := rfl
@[simp] theorem setHoldList_plu (s : State) (l : List HoldEntry) : (s.setHoldList l).plu = s.plu := rfl
@[simp] theorem setHoldList_teardown (s : State) (l : List HoldEntry) : (s.setHoldList l).teardown = s.teardown := rfl
@[simp] theorem setHoldList_le (s : State) (l : List HoldEntry) : (s.setHoldList l).le = s.le := rfl
@[simp] theorem setHoldList_eu (s : State) (l : List HoldEntry) : (s.setHoldList l).eu = s.eu := rfl
@[simp] theorem setHoldList_pwu (s : State) (l : List HoldEntry) : (s.setHoldList l).pwu = s.pwu := rfl
@[simp] theorem setHoldList_me (s : State) (l : List HoldEntry) : (s.setHoldList l).me = s.me := rfl
@[simp] theorem setHoldList_ac (s : State) (l : List HoldEntry) : (s.setHoldList l).ac = s.ac := rfl
@[simp] theorem setHoldList_nu (s : State) (l : List HoldEntry) : (s.setHoldList l).nu = s.nu := rfl
@[simp] theorem setHoldList_holdList (s : State) (l : List HoldEntry) : (s.setHoldList l).holdList = l := rfl
@[simp] theorem setHoldList_released (s : State) (l : List HoldEntry) : (s.setHoldList l).released = s.released := rfl
@[simp] theorem setHoldList_swb (s : State) (l : List HoldEntry) : (s.setHoldList l).swb = s.swb := rfl
@[simp] theorem setHoldList_pending (s : State) (l : List HoldEntry) : (s.setHoldList l).pending = s.pending := rfl

@[simp] theorem setReleased_device (s : State) (l : List (List (Port × Nat))) : (s.setReleased l).device = s.device := rfl
@[simp] theorem setReleased_rstHeld (s : State) (l : List (List (Port × Nat))) : (s.setReleased l).rstHeld = s.rstHeld := rfl
@[simp] theorem setReleased_supsel (s : State) (l : List (List (Port × Nat))) : (s.setReleased l).supsel = s.supsel := rfl
@[simp] theorem setReleased_plu (s : State) (l : List (List (Port × Nat))) : (s.setReleased l).plu = s.plu := rfl
@[simp] theorem setReleased_teardown (s : State) (l : List (List (Port × Nat))) : (s.setReleased l).teardown = s.teardown := rfl
@[simp] theorem setReleased_le (s : State) (l : List (List (Port × Nat))) : (s.setReleased l).le = s.le := rfl
@[simp] theorem setReleased_eu (s : State) (l : List (List (Port × Nat))) : (s.setReleased l).eu = s.eu := rfl
@[simp] theorem setReleased_pwu (s : State) (l : List (List (Port × Nat))) : (s.setReleased l).pwu = s.pwu := rfl
@[simp] theorem setReleased_me (s : State) (l : List (List (Port × Nat))) : (s.setReleased l).me = s.me := rfl
@[simp] theorem setReleased_ac (s : State) (l : List (List (Port × Nat))) : (s.setReleased l).ac = s.ac := rfl
@[simp] theorem setReleased_nu (s : State) (l : List (List (Port × Nat))) : (s.setReleased l).nu = s.nu := rfl
@[simp] theorem setReleased_holdList (s : State) (l : List (List (Port × Nat))) : (s.setReleased l).holdList = s.holdList := rfl
@[simp] theorem setReleased_released (s : State) (l : List (List (Port × Nat))) : (s.setReleased l).released = l := rfl
@[simp] theorem setReleased_swb (s : State) (l : List (List (Port × Nat))) : (s.setReleased l).swb = s.swb := rfl
@[simp] theorem setReleased_pending (s : State) (l : List (List (Port × Nat))) : (s.setReleased l).pending = s.pending := rfl

@[simp] theorem setSwb_device (s : State) (l : List Word16) : (s.setSwb l).device = s.device := rfl
@[simp] theorem setSwb_rstHeld (s : State) (l : List Word16) : (s.setSwb l).rstHeld = s.rstHeld := rfl
@[simp] theorem setSwb_supsel (s : State) (l : List Word16) : (s.setSwb l).supsel = s.supsel := rfl
@[simp] theorem setSwb_plu (s : State) (l : List Word16) : (s.setSwb l).plu = s.plu := rfl
@[simp] theorem setSwb_teardown (s : State) (l : List Word16) : (s.setSwb l).teardown = s.teardown := rfl
@[simp] theorem setSwb_le (s : State) (l : List Word16) : (s.setSwb l).le = s.le := rfl
@[simp] theorem setSwb_eu (s : State) (l : List Word16) : (s.setSwb l).eu = s.eu := rfl
@[simp] theorem setSwb_pwu (s : State) (l : List Word16) : (s.setSwb l).pwu = s.pwu := rfl
@[simp] theorem setSwb_me (s : State) (l : List Word16) : (s.setSwb l).me = s.me := rfl
@[simp] theorem setSwb_ac (s : State) (l : List Word16) : (s.setSwb l).ac = s.ac := rfl
@[simp] theorem setSwb_nu (s : State) (l : List Word16) : (s.setSwb l).nu = s.nu := rfl
@[simp] theorem setSwb_holdList (s : State) (l : List Word16) : (s.setSwb l).holdList = s.holdList := rfl
@[simp] theorem setSwb_released (s : State) (l : List Word16) : (s.setSwb l).released = s.released := rfl
@[simp] theorem setSwb_swb (s : State) (l : List Word16) : (s.setSwb l).swb = l := rfl
@[simp] theorem setSwb_pending (s : State) (l : List Word16) : (s.setSwb l).pending = s.pending := rfl

@[simp] theorem modPlu_modPlu (s : State) (p : Port) (f g : Plu → Plu) :
    (s.modPlu p f).modPlu p g = s.modPlu p (fun a => g (f a)) := by simp [modPlu]

@[simp] theorem modPlu_id (s : State) (p : Port) : s.modPlu p (fun a => a) = s := by simp [modPlu]

@[simp] theorem modPwu_modPwu (s : State) (p : Port) (f g : WriteUnit → WriteUnit) :
    (s.modPwu p f).modPwu p g = s.modPwu p (fun a => g (f a)) := by simp [modPwu]

@[simp] theorem modPwu_id (s : State) (p : Port) : s.modPwu p (fun a => a) = s := by simp [modPwu]

@[simp] theorem modNu_modNu (s : State) (p : Port) (f g : NuPort → NuPort) :
    (s.modNu p f).modNu p g = s.modNu p (fun a => g (f a)) := by simp [modNu]

@[simp] theorem modNu_id (s : State) (p : Port) : s.modNu p (fun a => a) = s := by simp [modNu]

@[simp] theorem modTeardown_modTeardown (s : State) (p : Port) (f g : Teardowns → Teardowns) :
    (s.modTeardown p f).modTeardown p g = s.modTeardown p (fun a => g (f a)) := by simp [modTeardown]

@[simp] theorem modTeardown_id (s : State) (p : Port) : s.modTeardown p (fun a => a) = s := by simp [modTeardown]

@[simp] theorem modLe_modLe (s : State) (f g : LeaseEngine → LeaseEngine) : (s.modLe f).modLe g = s.modLe (fun a => g (f a)) := rfl

@[simp] theorem modEu_modEu (s : State) (f g : EpochUnit → EpochUnit) : (s.modEu f).modEu g = s.modEu (fun a => g (f a)) := rfl

@[simp] theorem modMe_modMe (s : State) (f g : MediaEngine → MediaEngine) : (s.modMe f).modMe g = s.modMe (fun a => g (f a)) := rfl

@[simp] theorem modAc_modAc (s : State) (f g : AccessChecker → AccessChecker) : (s.modAc f).modAc g = s.modAc (fun a => g (f a)) := rfl

@[simp] theorem setHoldList_setHoldList (s : State) (l l' : List HoldEntry) :
    (s.setHoldList l).setHoldList l' = s.setHoldList l' := rfl

@[simp] theorem setReleased_setReleased (s : State) (l l' : List (List (Port × Nat))) :
    (s.setReleased l).setReleased l' = s.setReleased l' := rfl

@[simp] theorem setSwb_setSwb (s : State) (l l' : List Word16) : (s.setSwb l).setSwb l' = s.setSwb l' := rfl

/-- States are equal when all their fields are. -/
theorem ext_fields {s t : State} (h1 : s.device = t.device) (h2 : s.rstHeld = t.rstHeld) (h3 : s.supsel = t.supsel)
    (h4 : s.plu = t.plu) (h5 : s.teardown = t.teardown) (h6 : s.le = t.le) (h7 : s.eu = t.eu) (h8 : s.pwu = t.pwu)
    (h9 : s.me = t.me) (h10 : s.ac = t.ac) (h11 : s.nu = t.nu) (h12 : s.holdList = t.holdList) (h13 : s.swb = t.swb)
    (h14 : s.pending = t.pending) (h15 : s.released = t.released) : s = t := by
  cases s
  cases t
  simp_all

end State

end Machine

end Sys2Proof
end

