-- ==== Sys2Proof/Laws/Keeps.lean ====
section
/-! SUPPORT. What the operations of the blocks leave alone, said once for each: the relations Still and Keeps. -/

namespace Sys2Proof.Machine

/-! ### Staging slots and spares under an update (R80, R115) -/

/-- Fewer slots of a sound unit are sound. -/
theorem slotsSound_sublist {u v : WriteUnit} (h : v.slots.Sublist u.slots) (k : u.slotsSound = true) :
    v.slotsSound = true := by
  simp only [WriteUnit.slotsSound, Bool.and_eq_true, decide_eq_true_eq] at k ⊢
  exact ⟨h.length_le.trans k.1, k.2.sublist h⟩

/-- Slots that keep their sectors stay sound. -/
theorem slotsSound_map {u v : WriteUnit} {f : StagingSlot → StagingSlot} (h : v.slots = u.slots.map f)
    (hf : ∀ x, (f x).sector = x.sector) (k : u.slotsSound = true) : v.slotsSound = true := by
  simp only [WriteUnit.slotsSound, Bool.and_eq_true, decide_eq_true_eq, h, List.length_map, List.pairwise_map, hf] at k ⊢
  exact k

/-- What a slot put in its place leaves in the list. -/
theorem mem_insertSlot {x y : StagingSlot} {l : List StagingSlot} (h : y ∈ insertSlot x l) : y = x ∨ y ∈ l := by
  induction l with
  | nil => simpa [insertSlot] using h
  | cons a t ih =>
    simp only [insertSlot] at h
    split at h
    · simpa using h
    · split at h
      · exact Or.inr h
      · rcases List.mem_cons.mp h with e | e
        · exact Or.inr (by simp [e])
        · rcases ih e with e | e
          · exact Or.inl e
          · exact Or.inr (by simp [e])

/-- A slot put in its place adds at most one. -/
theorem length_insertSlot (x : StagingSlot) (l : List StagingSlot) : (insertSlot x l).length ≤ l.length + 1 := by
  induction l with
  | nil => simp [insertSlot]
  | cons a t ih =>
    simp only [insertSlot]
    split
    · simp
    · split <;> simp_all

/-- A slot put in its place keeps the ascending order (R80). -/
theorem pairwise_insertSlot {x : StagingSlot} {l : List StagingSlot} (h : l.Pairwise (fun a b => a.sector < b.sector)) :
    (insertSlot x l).Pairwise (fun a b => a.sector < b.sector) := by
  induction l with
  | nil => simp [insertSlot]
  | cons a t ih =>
    rw [List.pairwise_cons] at h
    simp only [insertSlot]
    split
    · rename_i k
      refine List.pairwise_cons.mpr ⟨fun b hb => ?_, List.pairwise_cons.mpr h⟩
      rcases List.mem_cons.mp hb with e | e
      · rw [e]; exact k
      · exact k.trans (h.1 b e)
    · split
      · exact List.pairwise_cons.mpr h
      · rename_i k1 k2
        refine List.pairwise_cons.mpr ⟨fun b hb => ?_, ih h.2⟩
        rcases mem_insertSlot hb with e | e
        · rw [e]; omega
        · exact h.1 b e

/-- A new slot filled keeps a unit sound (R80). -/
theorem slotsSound_fill {u : WriteUnit} (x : StagingSlot) (k : u.slotsSound = true) : (u.fill x).slotsSound = true := by
  unfold WriteUnit.fill
  split
  · rename_i h
    simp only [WriteUnit.slotsSound, Bool.and_eq_true, decide_eq_true_eq] at k ⊢
    have := length_insertSlot x u.slots
    exact ⟨by omega, pairwise_insertSlot k.2⟩
  · exact k

/-- The spares are read from the device's state, the running job and the three sets. -/
theorem sparesSound_congr {s t : State} (h1 : t.device = s.device) (h2 : t.me.running = s.me.running)
    (h3 : t.me.remap = s.me.remap) (h4 : t.me.pool = s.me.pool) (h5 : t.me.retired = s.me.retired) :
    sparesSound t = sparesSound s := by
  simp only [sparesSound, sparesOnce, targetInPool, h1, h2, h3, h4, h5]

/-! ### The relations -/

/-- What no operation of a block touches: the device's state, its pins and the queue of commands; an IDLE slot stays IDLE
and only an IDLE slot's port becomes fenced; the notice state, the staging slots and the spares stay sound; the array's
bytes are unchanged. -/
structure Still (s t : State) : Prop where
  device : t.device = s.device
  rstHeld : t.rstHeld = s.rstHeld
  supsel : t.supsel = s.supsel
  pending : t.pending = s.pending
  sweepsAsked : t.le.sweepsAsked = s.le.sweepsAsked
  idle : ∀ q, (s.plu.get q).slot = .idle → (t.plu.get q).slot = .idle
  fenced : ∀ q, (t.plu.get q).fenced = true → (s.plu.get q).fenced = true ∨ (t.plu.get q).slot = .idle
  sound : ∀ q, (s.nu.get q).sound = true → (t.nu.get q).sound = true
  slots : ∀ q, (s.pwu.get q).slotsSound = true → (t.pwu.get q).slotsSound = true
  array : t.me.array = s.me.array
  copy : copyInBlock s.me = true → copyInBlock t.me = true
  spares : sparesSound s = true → sparesSound t = true

/-- Still, and nothing is handed to the lease engine, nor released from the hold list. -/
structure Keeps (s t : State) : Prop extends Still s t where
  requests : ∀ q, (t.le.requests.get q).Sublist (s.le.requests.get q)
  released : t.released = s.released

namespace Still

theorem refl (s : State) : Still s s := by
  constructor <;> intros <;> first | rfl | exact Or.inl rfl | assumption | exact Or.inl ‹_›

theorem trans {s t u : State} (h : Still s t) (k : Still t u) : Still s u where
  device := k.device.trans h.device
  rstHeld := k.rstHeld.trans h.rstHeld
  supsel := k.supsel.trans h.supsel
  pending := k.pending.trans h.pending
  sweepsAsked := k.sweepsAsked.trans h.sweepsAsked
  idle q a := k.idle q (h.idle q a)
  fenced q a := by
    rcases k.fenced q a with e | e
    · rcases h.fenced q e with e | e
      · exact Or.inl e
      · exact Or.inr (k.idle q e)
    · exact Or.inr e
  sound q a := k.sound q (h.sound q a)
  slots q a := k.slots q (h.slots q a)
  array := k.array.trans h.array
  copy a := k.copy (h.copy a)
  spares a := k.spares (h.spares a)

theorem ite {c : Prop} [Decidable c] {s t u : State} (h : Still s t) (k : Still s u) : Still s (if c then t else u) := by
  split <;> assumption

end Still

namespace Keeps

theorem refl (s : State) : Keeps s s where
  toStill := Still.refl s
  requests _ := List.Sublist.refl _
  released := rfl

theorem trans {s t u : State} (h : Keeps s t) (k : Keeps t u) : Keeps s u where
  toStill := h.toStill.trans k.toStill
  requests q := (k.requests q).trans (h.requests q)
  released := k.released.trans h.released

/-- A fold of operations that each keep. -/
theorem foldl {α : Type} {f : State → α → State} (h : ∀ t x, Keeps t (f t x)) (l : List α) (s : State) :
    Keeps s (l.foldl f s) := by
  induction l generalizing s with
  | nil => exact refl s
  | cons a t ih => exact (h s a).trans (ih _)

theorem ite {c : Prop} [Decidable c] {s t u : State} (h : Keeps s t) (k : Keeps s u) : Keeps s (if c then t else u) := by
  split <;> assumption

/-! ### Updates of one block -/

theorem modLe {f : LeaseEngine → LeaseEngine} {s : State} (h : (f s.le).sweepsAsked = s.le.sweepsAsked)
    (k : ∀ q, ((f s.le).requests.get q).Sublist (s.le.requests.get q)) : Keeps s (s.modLe f) where
  toStill := by constructor <;> intros <;> first | rfl | exact Or.inl rfl | assumption | exact Or.inl ‹_›
  requests := k
  released := rfl

/-- An update of the lease engine that leaves the requests alone. -/
theorem modLe_same {f : LeaseEngine → LeaseEngine} {s : State} (h : (f s.le).sweepsAsked = s.le.sweepsAsked)
    (k : (f s.le).requests = s.le.requests) : Keeps s (s.modLe f) :=
  modLe h (fun q => by rw [k])

theorem modEu {f : EpochUnit → EpochUnit} {s : State} : Keeps s (s.modEu f) where
  toStill := by constructor <;> intros <;> first | rfl | exact Or.inl rfl | assumption | exact Or.inl ‹_›
  requests _ := List.Sublist.refl _
  released := rfl

theorem modAc {f : AccessChecker → AccessChecker} {s : State} : Keeps s (s.modAc f) where
  toStill := by constructor <;> intros <;> first | rfl | exact Or.inl rfl | assumption | exact Or.inl ‹_›
  requests _ := List.Sublist.refl _
  released := rfl

theorem modTeardown {p : Port} {f : Teardowns → Teardowns} {s : State} : Keeps s (s.modTeardown p f) where
  toStill := by constructor <;> intros <;> first | rfl | exact Or.inl rfl | assumption | exact Or.inl ‹_›
  requests _ := List.Sublist.refl _
  released := rfl

theorem setHoldList {l : List HoldEntry} {s : State} : Keeps s (s.setHoldList l) where
  toStill := by constructor <;> intros <;> first | rfl | exact Or.inl rfl | assumption | exact Or.inl ‹_›
  requests _ := List.Sublist.refl _
  released := rfl

theorem setSwb {l : List Word16} {s : State} : Keeps s (s.setSwb l) where
  toStill := by constructor <;> intros <;> first | rfl | exact Or.inl rfl | assumption | exact Or.inl ‹_›
  requests _ := List.Sublist.refl _
  released := rfl

theorem modPwu {p : Port} {f : WriteUnit → WriteUnit} {s : State}
    (h : (s.pwu.get p).slotsSound = true → (f (s.pwu.get p)).slotsSound = true) : Keeps s (s.modPwu p f) where
  toStill := by
    constructor <;> try (intros; first | rfl | exact Or.inl rfl | assumption | exact Or.inl ‹_›)
    intro q
    by_cases e : q = p
    · subst e; simpa using h
    · simp [PortMap.get_modify_ne, e]
  requests _ := List.Sublist.refl _
  released := rfl

/-- An update of a write unit that leaves its slots alone. -/
theorem modPwu_same {p : Port} {f : WriteUnit → WriteUnit} {s : State} (h : ∀ u, (f u).slots = u.slots) :
    Keeps s (s.modPwu p f) := modPwu (slotsSound_sublist (by rw [h]))

/-- An update of a write unit that discards slots. -/
theorem modPwu_fewer {p : Port} {f : WriteUnit → WriteUnit} {s : State} (h : ∀ u, (f u).slots.Sublist u.slots) :
    Keeps s (s.modPwu p f) := modPwu (slotsSound_sublist (h _))

theorem modMe {f : MediaEngine → MediaEngine} {s : State} (h : (f s.me).array = s.me.array)
    (k : copyInBlock s.me = true → copyInBlock (f s.me) = true)
    (l : sparesSound s = true → sparesSound (s.modMe f) = true) : Keeps s (s.modMe f) where
  toStill := by
    constructor <;> intros <;>
      first | rfl | exact Or.inl rfl | assumption | exact Or.inl ‹_› | exact h | exact k ‹_› | exact l ‹_›
  requests _ := List.Sublist.refl _
  released := rfl

/-- An update of the media engine that leaves the array, the running job and the spares alone. -/
theorem modMe_same {f : MediaEngine → MediaEngine} {s : State} (h : (f s.me).array = s.me.array)
    (k : (f s.me).running = s.me.running) (h1 : (f s.me).remap = s.me.remap) (h2 : (f s.me).pool = s.me.pool)
    (h3 : (f s.me).retired = s.me.retired) : Keeps s (s.modMe f) :=
  modMe h (by simp [copyInBlock, k]) (fun a => (sparesSound_congr (s := s) (t := s.modMe f) rfl k h1 h2 h3).trans a)

theorem modPlu {p : Port} {f : Plu → Plu} {s : State}
    (hi : (s.plu.get p).slot = .idle → (f (s.plu.get p)).slot = .idle)
    (hf : (f (s.plu.get p)).fenced = true → (s.plu.get p).fenced = true ∨ (f (s.plu.get p)).slot = .idle) :
    Keeps s (s.modPlu p f) where
  toStill := by
    constructor <;> try (intros; first | rfl | exact Or.inl rfl | assumption)
    · intro q
      by_cases h : q = p
      · subst h; simpa using hi
      · simp [PortMap.get_modify_ne, h]
    · intro q
      by_cases h : q = p
      · subst h; simpa using hf
      · intro a
        left
        simpa [PortMap.get_modify_ne, h] using a
  requests _ := List.Sublist.refl _
  released := rfl

/-- An update of a port link unit that leaves its slot and its fence flag alone. -/
theorem modPlu_same {p : Port} {f : Plu → Plu} {s : State} (hi : ∀ u, (f u).slot = u.slot) (hf : ∀ u, (f u).fenced = u.fenced) : Keeps s (s.modPlu p f) :=
  modPlu (fun h => by rw [hi, h]) (fun h => Or.inl (by rw [← hf, h]))

theorem modNu {p : Port} {f : NuPort → NuPort} {s : State}
    (h : (s.nu.get p).sound = true → (f (s.nu.get p)).sound = true) : Keeps s (s.modNu p f) where
  toStill := by
    constructor <;> try (intros; first | rfl | exact Or.inl rfl | assumption | exact Or.inl ‹_›)
    intro q
    by_cases e : q = p
    · subst e; simpa using h
    · simp [PortMap.get_modify_ne, e]
  requests _ := List.Sublist.refl _
  released := rfl

/-! ### Completions, slot states, counters -/

theorem complete (p : Port) (n : Nat) (c : Completion) (s : State) : Keeps s (Machine.complete p n c s) := by
  refine modPlu ?_ ?_
  · intro h; split <;> simp_all
  · intro h; left; revert h; split <;> exact id

theorem completeRead (p : Port) (n : Nat) (c : Completion) (s : State) : Keeps s (Machine.completeRead p n c s) := by
  refine trans (modPlu_same (p := p) ?_ ?_) (complete p n c _) <;> intro u <;> split <;> rfl

theorem finish (p : Port) (c : Completion) (s : State) : Keeps s (Machine.finish p c s) := complete _ _ _ _

theorem setSlot (p : Port) (n : Nat) (st : SlotState) (s : State) : Keeps s (Machine.setSlot p n st s) := by
  refine modPlu ?_ ?_
  · intro h; simp [Plu.holdsCommand, h]
  · intro h; left; revert h; split <;> exact id

theorem countEvent (e : CounterEvent) (a : Option Port) (s : State) : Keeps s (Machine.countEvent e a s) := by
  refine foldl (fun t q => ?_) _ _
  exact modPlu_same (fun _ => rfl) (fun _ => rfl)

/-! ### The notice unit -/

theorem sound_append {u : NuPort} {n : Notice} (h : u.sound = true) (k : u.queue.length < Config.noticeCapacity) :
    (u.append n).sound = true := by
  simp only [NuPort.sound, Bool.and_eq_true, Bool.or_eq_true, Bool.not_eq_true', decide_eq_true_eq,
    decide_eq_false_iff_not] at h ⊢
  obtain ⟨⟨⟨⟨⟨h1, h2⟩, h3⟩, h4⟩, h5⟩, h6⟩ := h
  have hl : (u.append n).queue.length = u.queue.length + 1 := by simp [NuPort.append]
  have hc : (u.append n).congested = (u.congested || decide (u.high ≤ u.queue.length + 1)) := rfl
  refine ⟨⟨⟨⟨⟨by omega, h2⟩, h3⟩, h4⟩, ?_⟩, ?_⟩
  · rw [hl, hc]
    by_cases e : u.high ≤ u.queue.length + 1
    · right; simp [e]
    · left; exact e
  · rw [hl, hc]
    by_cases e : u.queue.length + 1 ≤ u.low
    · right
      have e' : ¬ u.high ≤ u.queue.length + 1 := by omega
      rcases h6 with h6 | h6
      · omega
      · simp [h6, e']
    · left; exact e

theorem sound_overrun {u : NuPort} (b : Bool) (h : u.sound = true) : ({ u with overrun := b } : NuPort).sound = true := h

theorem placeNotice (p : Port) (s : State) (n : Notice) : Keeps s (Machine.placeNotice p s n) := by
  unfold Machine.placeNotice
  split
  · exact modNu (fun h => sound_append h ‹_›)
  · exact trans (modNu (fun h => sound_overrun true h)) (countEvent _ _ _)

theorem placeAll (p : Port) (ns : List Notice) (s : State) : Keeps s (Machine.placeAll p ns s) :=
  foldl (fun t n => placeNotice p t n) _ _

theorem deliver (r : Port → List Notice) (s : State) : Keeps s (Machine.deliver r s) :=
  foldl (fun t p => placeAll p (r p) t) _ _

theorem committedEvent (p : Port) (l : List Nat) (s : State) : Keeps s (Machine.committedEvent p l s) := deliver _ _

theorem clearedEvent (p : Port) (r : Range) (s : State) : Keeps s (Machine.clearedEvent p r s) := deliver _ _

theorem freedEvent (id : Nat) (l : Lease) (s : State) : Keeps s (Machine.freedEvent id l s) := deliver _ _

theorem lostEvent (id : Nat) (l : Lease) (s : State) : Keeps s (Machine.lostEvent id l s) := placeNotice _ _ _

theorem signalEvent (p : Port) (w : Nat) (v : Word16) (s : State) : Keeps s (Machine.signalEvent p w v s) :=
  deliver _ _

theorem mediaEvent (k : MediaKind) (b : Nat) (s : State) : Keeps s (Machine.mediaEvent k b s) := deliver _ _

/-! ### The lease engine -/

theorem updateLease (id : Nat) (f : Lease → Option Lease) (s : State) : Keeps s (Machine.updateLease id f s) :=
  modLe_same rfl rfl

theorem renewLease (id : Nat) (s : State) : Keeps s (Machine.renewLease id s) := updateLease _ _ _

theorem renewLeases (ids : List Nat) (s : State) : Keeps s (Machine.renewLeases ids s) :=
  foldl (fun t i => renewLease i t) _ _

theorem setLeaseMode (id : Nat) (m : LeaseMode) (s : State) : Keeps s (Machine.setLeaseMode id m s) :=
  updateLease _ _ _

theorem setLeaseEnding (id : Nat) (c : EndCause) (s : State) : Keeps s (Machine.setLeaseEnding id c s) :=
  updateLease _ _ _

theorem emptyLeaseSlot (id : Nat) (s : State) : Keeps s (Machine.emptyLeaseSlot id s) := updateLease _ _ _

theorem grant (e : WaitEntry) (s : State) : Keeps s (Machine.grant e s) := by
  unfold Machine.grant
  split
  · exact trans (trans (modLe_same rfl rfl) (complete _ _ _ _)) (countEvent _ _ _)
  · exact trans (trans (trans (setLeaseMode _ _ _) (renewLease _ _)) (complete _ _ _ _)) (countEvent _ _ _)

theorem scanWalk (todo : List WaitEntry) (parked : List WaitEntry) (s : State) :
    Keeps s (Machine.scanWalk parked todo s) := by
  induction todo generalizing parked s with
  | nil => exact modLe_same rfl rfl
  | cons e t ih =>
    unfold Machine.scanWalk
    split
    · exact ih _ _
    · exact trans (grant e s) (ih _ _)

theorem grantScan (s : State) : Keeps s (Machine.grantScan s) := scanWalk _ _ _

theorem grantScanIf (b : Bool) (s : State) : Keeps s (Machine.grantScanIf b s) := ite (grantScan s) (refl s)

theorem park (e : WaitEntry) (s : State) : Keeps s (Machine.park e s) :=
  trans (trans (modLe_same rfl rfl) (setSlot _ _ _ _)) (countEvent _ _ _)

theorem judge (e : WaitEntry) (s : State) : Keeps s (Machine.judge e s) := by
  unfold Machine.judge
  split
  · exact grant _ _
  · split
    · exact trans (complete _ _ _ _) (countEvent _ _ _)
    · simp only
      split
      · exact trans (complete _ _ _ _) (countEvent _ _ _)
      · exact park _ _

theorem removeLease (id : Nat) (s : State) : Keeps s (Machine.removeLease id s) := by
  unfold Machine.removeLease
  split
  · exact trans (emptyLeaseSlot _ _) (freedEvent _ _ _)
  · exact refl s

theorem removeLeases (ids : List Nat) (s : State) : Keeps s (Machine.removeLeases ids s) :=
  foldl (fun t i => removeLease i t) _ _

theorem endLease (id : Nat) (c : EndCause) (s : State) : Keeps s (Machine.endLease id c s) := by
  unfold Machine.endLease
  split
  · exact refl s
  · simp only
    refine trans (trans (modPwu_fewer (fun _ => List.filter_sublist)) (ite (lostEvent _ _ _) (refl _))) (ite (setLeaseEnding _ _ _) (removeLease _ _))

theorem leaseTeardown (p : Port) (c : EndCause) (s : State) : Keeps s (Machine.leaseTeardown p c s) :=
  trans (trans (modLe_same rfl rfl) (foldl (fun t i => endLease i c t) _ _)) (grantScan _)

theorem expireLease (x : Nat × Port) (s : State) : Keeps s (Machine.expireLease x s) :=
  trans (endLease _ _ _) (countEvent _ _ _)

theorem sweepLeases (s : State) : Keeps s (Machine.sweepLeases s) :=
  trans (trans (trans modEu (renewLeases _ _)) (foldl (fun t x => expireLease x t) _ _)) (grantScan _)

/-! ### The media engine's queue -/

theorem startedJob_copy {j : Job} {s : State} {m : MediaEngine} (h : m.running = startedJob j s) :
    copyInBlock m = true := by
  rw [copyInBlock, h]
  cases j with
  | port o w => cases w <;> rfl
  | relocate b =>
    simp only [startedJob]
    cases s.me.pool <;> rfl

/-- A job that starts takes its target from the pool (R118). -/
theorem startedJob_target {j : Job} {s : State} {m : MediaEngine} (h : m.running = startedJob j s)
    (k : m.pool = s.me.pool) : targetInPool m = true := by
  rw [targetInPool, h, k]
  cases j with
  | port o w => cases w <;> rfl
  | relocate b =>
    simp only [startedJob]
    cases s.me.pool <;> simp

theorem selectJob (s : State) : Keeps s (Machine.selectJob s) := by
  unfold Machine.selectJob
  split
  · exact refl s
  · exact refl s
  · rename_i hd hr
    split
    · exact refl s
    · rename_i j rest _
      refine modMe rfl (fun _ => startedJob_copy (j := j) (s := s) rfl) (fun a => ?_)
      simp only [sparesSound, State.modMe_device, hd, Bool.and_eq_true] at a ⊢
      exact ⟨a.1, startedJob_target (j := j) (s := s) rfl rfl⟩

theorem enqueueJob (j : Job) (s : State) : Keeps s (Machine.enqueueJob j s) :=
  trans (modMe_same rfl rfl rfl rfl rfl) (selectJob _)

theorem endRunning (s : State) : Keeps s (Machine.endRunning s) := by
  refine trans (modMe rfl (fun _ => rfl) (fun a => ?_)) (selectJob _)
  simp only [sparesSound, State.modMe_device] at a ⊢
  split
  · rfl
  · rename_i hd
    rw [hd] at a
    simp only [Bool.and_eq_true] at a ⊢
    exact ⟨a.1, rfl⟩

theorem sparesOutRule (b : Nat) (s : State) : Keeps s (Machine.sparesOutRule b s) :=
  ite (trans (modMe_same rfl rfl rfl rfl rfl) (mediaEvent _ _ _)) (refl s)

theorem dropCandidate (s : State) : Keeps s (Machine.dropCandidate s) := countEvent _ _ _

theorem candidate (c : Nat) (s : State) : Keeps s (Machine.candidate c s) := by
  unfold Machine.candidate
  split
  · exact trans (dropCandidate s) (sparesOutRule _ _)
  · split
    · exact modMe_same rfl rfl rfl rfl rfl
    · split
      · exact dropCandidate s
      · split
        · exact modMe_same rfl rfl rfl rfl rfl
        · exact dropCandidate s

theorem raiseOnce (l : List Nat) (b : Nat) (s : State) : Keeps s (Machine.raiseOnce l b s) :=
  ite (refl s) (candidate _ _)

theorem releaseLatch (s : State) : Keeps s (Machine.releaseLatch s) := by
  unfold Machine.releaseLatch
  split
  · exact refl s
  · simp only
    refine trans (modMe_same rfl rfl rfl rfl rfl) (ite (trans (dropCandidate _) (sparesOutRule _ _)) (modMe_same rfl rfl rfl rfl rfl))

theorem endRelocate (k : MediaKind) (b : Nat) (s : State) : Keeps s (Machine.endRelocate k b s) :=
  trans (trans (trans (mediaEvent _ _ _) (sparesOutRule _ _)) (releaseLatch _)) (endRunning _)

/-! ### The port write units -/

theorem setCommand (p : Port) (c : Option PwuCommand) (s : State) : Keeps s (Machine.setCommand p c s) :=
  modPwu_same (fun _ => rfl)

theorem stageSector (p : Port) (s : State) (x : LeasedSector) : Keeps s (Machine.stageSector p s x) := by
  refine ite (trans (modPwu (slotsSound_map rfl (fun y => ?_))) (countEvent _ _ _)) (modPwu (slotsSound_fill _))
  unfold StagingSlot.merge
  split <;> rfl

theorem stageSectors (p : Port) (xs : List LeasedSector) (s : State) : Keeps s (Machine.stageSectors p xs s) :=
  foldl (fun t x => stageSector p t x) _ _

theorem drainEndEffect (p : Port) (c : PwuCommand) (s : State) : Keeps s (Machine.drainEndEffect p c s).1 := by
  unfold Machine.drainEndEffect
  split
  · exact ite (stageSectors _ _ _) (refl s)
  · split
    · split
      · exact trans (setLeaseMode _ _ _) (renewLease _ _)
      · exact refl s
    · exact refl s
  · exact refl s

theorem drainEnd (p : Port) (r : DrainReport) (s : State) : Keeps s (Machine.drainEnd p r s) := by
  have h : Keeps s (s.modPwu p (fun u => { u with drained := [] })) := modPwu_same (fun _ => rfl)
  unfold Machine.drainEnd
  simp only
  refine trans ?_ (grantScanIf _ _)
  split
  · exact trans (trans (trans (trans h (drainEndEffect _ _ _)) (removeLeases _ _)) (setCommand _ _ _))
      (complete _ _ _ _)
  · exact trans h (removeLeases _ _)

theorem issueDrain (p : Port) (c : PwuCommand) (s : State) : Keeps s (Machine.issueDrain p c s) := by
  unfold Machine.issueDrain
  simp only
  have h : ∀ (b : Nat → State → Bool) (t : State), Keeps t (match c.action with
      | .release id => if b id t = true then t else Machine.setLeaseEnding id .released t
      | _ => t) := by
    intro b t
    split
    · exact ite (refl t) (setLeaseEnding _ _ _)
    · exact refl t
  have k : Keeps s (s.modPwu p (fun u =>
      { u with slots := u.slots.map (fun x => if c.action.takes x then { x with state := .draining } else x),
               command := some { c with stage := .issued } })) :=
    modPwu (slotsSound_map rfl (fun x => by split <;> rfl))
  have g := h (fun id t => (drainItems c.action (s.pwu.get p)).isEmpty && (ownHeldLease p id t).isNone)
  exact ite (trans (trans k (g _)) (drainEnd _ _ _)) (trans (trans k (g _)) (enqueueJob _ _))

theorem issueJob (p : Port) (c : PwuCommand) (s : State) : Keeps s (Machine.issueJob p c s) := by
  unfold Machine.issueJob
  split
  · exact trans (setCommand _ _ _) (enqueueJob _ _)
  · exact trans (trans (setCommand _ _ _) (modPwu_fewer (fun _ => List.filter_sublist))) (enqueueJob _ _)
  · exact trans (setCommand _ _ _) (enqueueJob _ _)
  all_goals exact issueDrain _ _ _

theorem holdOrIssue (p : Port) (c : PwuCommand) (s : State) : Keeps s (Machine.holdOrIssue p c s) := by
  unfold Machine.holdOrIssue
  split
  · exact issueJob _ _ _
  · exact ite (trans (trans (setCommand _ _ _) setHoldList) (setSlot _ _ _ _)) (issueJob _ _ _)

theorem startCommand (p : Port) (c : PwuCommand) (s : State) : Keeps s (Machine.startCommand p c s) :=
  ite (setCommand _ _ _) (trans (setCommand _ _ _) (holdOrIssue _ _ _))

theorem takeIssue (p : Port) (n : Nat) (s : State) : Keeps s (Machine.takeIssue p n s) := by
  unfold Machine.takeIssue
  split
  · exact refl s
  · split
    · exact ite (refl s) (holdOrIssue _ _ _)
    · exact issueJob _ _ _
    · exact refl s
    · exact refl s

theorem endHold (p : Port) (n : Nat) (b : Bool) (s : State) : Keeps s (Machine.endHold p n b s) := by
  unfold Machine.endHold
  split
  · exact refl s
  · exact ite (trans (setCommand _ _ _) (setSlot _ _ _ _)) (refl s)

theorem dropHold (p : Port) (s : State) : Keeps s (Machine.dropHold p s) := setHoldList

theorem finishFences (s : State) : Keeps s (Machine.finishFences s) :=
  trans (modLe_same rfl rfl) (foldl (fun t _ => complete _ _ _ t) _ _)

theorem withdrawCommand (p : Port) (s : State) : Keeps s (Machine.withdrawCommand p s) := by
  refine modLe rfl (fun q => ?_)
  by_cases h : q = p
  · subst h
    simp
  · simp [PortMap.get_modify_ne, h]

end Keeps

/-! ### Operations that hand a request to the lease engine, or release a job -/

namespace Still

theorem handRequest (p : Port) (r : LeRequest) (s : State) : Still s (Machine.handRequest p r s) := by
  constructor <;> intros <;> first | rfl | exact Or.inl rfl | assumption | exact Or.inl ‹_›

theorem handOnce (p : Port) (r : LeRequest) (s : State) : Still s (Machine.handOnce p r s) :=
  ite (refl s) (handRequest _ _ _)

theorem setReleased {l : List (List (Port × Nat))} {s : State} : Still s (s.setReleased l) := by
  constructor <;> intros <;> first | rfl | exact Or.inl rfl | assumption | exact Or.inl ‹_›

/-- The jobs of one event that go on: CLEARs' jobs, and a DRAIN's request handed to the lease engine. -/
theorem issueInOrder (l : List (Port × Nat)) (s : State) : Still s (Machine.issueInOrder l s).2 := by
  induction l generalizing s with
  | nil => exact refl s
  | cons x t ih =>
    obtain ⟨p, n⟩ := x
    unfold Machine.issueInOrder
    split
    · exact ih _
    · split
      · exact handOnce _ _ _
      · exact trans (Keeps.issueJob _ _ _).toStill (ih _)

theorem issueEach (l kept : List (List (Port × Nat))) (s : State) : Still s (Machine.issueEach kept l s) := by
  induction l generalizing kept s with
  | nil => exact setReleased
  | cons x t ih => exact trans (issueInOrder x s) (ih _ _)

theorem issueReleased (s : State) : Still s (Machine.issueReleased s) := issueEach _ _ _

theorem noteReleased (l : List (Port × Nat)) (s : State) : Still s (Machine.noteReleased l s) :=
  ite (refl s) setReleased

theorem reexamineFrom (l kept : List HoldEntry) (gone : List (Port × Nat)) (s : State) :
    Still s (Machine.reexamineFrom kept gone l s) := by
  induction l generalizing kept gone s with
  | nil => exact trans Keeps.setHoldList.toStill (noteReleased _ _)
  | cons e t ih =>
    unfold Machine.reexamineFrom
    exact ite (ih _ _ _) (trans (Keeps.endHold _ _ _ _).toStill (ih _ _ _))

theorem reexamine (s : State) : Still s (Machine.reexamine s) := reexamineFrom _ _ _ _

theorem noticeTeardown (p : Port) (s : State) : Still s (Machine.noticeTeardown p s) :=
  trans ((Keeps.modNu (fun _ => rfl)).trans (Keeps.dropHold _ _)).toStill (reexamine _)

end Still

end Sys2Proof.Machine
end

