-- ==== Sys2Proof/Laws/Serving.lean ====
section
/-! SUPPORT. What the owners of the slot commands leave alone, and how a command that finds nothing waiting is served. -/

namespace Sys2Proof.Machine

namespace Keeps

/-! ### The lease commands -/

theorem asSupervisor {p : Port} {f : State → State} (h : ∀ s, Keeps s (f s)) (s : State) :
    Keeps s (Machine.asSupervisor p f s) := ite (h s) (finish _ _ _)

theorem acquireChecked (p : Port) (r : Range) (m : LeaseMode) (w : Byte) (s : State) :
    Keeps s (Machine.acquireChecked p r m w s) := by
  unfold Machine.acquireChecked
  split
  · exact finish _ _ _
  · split
    · exact finish _ _ _
    · exact ite (trans (finish _ _ _) (countEvent _ _ _)) (ite (trans (finish _ _ _) (countEvent _ _ _)) (judge _ _))

theorem takeAcquire (p : Port) (f c : Word16) (m w : Byte) (s : State) : Keeps s (Machine.takeAcquire p f c m w s) := by
  unfold Machine.takeAcquire
  simp only
  split
  · exact ite (acquireChecked _ _ _ _ _) (finish _ _ _)
  · exact finish _ _ _

theorem takeUpgrade (p : Port) (i w : Byte) (s : State) : Keeps s (Machine.takeUpgrade p i w s) := by
  unfold Machine.takeUpgrade
  simp only
  split
  · exact finish _ _ _
  · split
    · exact finish _ _ _
    · split
      · exact finish _ _ _
      · exact judge _ _

theorem dropPending (p : Port) (r : Range) (s : State) : Keeps s (s.modPwu p (fun u => u.dropPending r)) :=
  modPwu_same (fun _ => rfl)

theorem setPending (p : Port) (q : Option Range) (s : State) :
    Keeps s (s.modPwu p (fun u => { u with pendingClear := q })) := modPwu_same (fun _ => rfl)

theorem discardStaged (p : Port) (n : Nat) (s : State) : Keeps s (s.modPwu p (fun u => u.discardStaged n)) :=
  modPwu_fewer (fun _ => List.filter_sublist)

theorem takeDowngrade (p : Port) (i : Byte) (s : State) : Keeps s (Machine.takeDowngrade p i s) := by
  unfold Machine.takeDowngrade
  simp only
  split
  · exact finish _ _ _
  · refine ite (finish _ _ _) (ite ?_ ?_)
    · exact trans (trans (trans (trans (dropPending _ _ _) (setLeaseMode _ _ _)) (renewLease _ _)) (finish _ _ _)) (grantScan _)
    · exact trans (dropPending _ _ _) (startCommand _ _ _)

theorem takeRenew (p : Port) (i : Byte) (s : State) : Keeps s (Machine.takeRenew p i s) := by
  unfold Machine.takeRenew
  split
  · exact finish _ _ _
  · exact trans (renewLease _ _) (finish _ _ _)

theorem takeRenewAll (p : Port) (s : State) : Keeps s (Machine.takeRenewAll p s) :=
  trans (renewLeases _ _) (finish _ _ _)

theorem takeRelease (p : Port) (i d : Byte) (s : State) : Keeps s (Machine.takeRelease p i d s) := by
  unfold Machine.takeRelease
  simp only
  split
  · exact finish _ _ _
  · refine ite ?_ (ite ?_ ?_)
    · exact trans (trans (trans (trans (dropPending _ _ _) (discardStaged _ _ _)) (removeLease _ _)) (finish _ _ _)) (grantScan _)
    · exact trans (trans (trans (dropPending _ _ _) (removeLease _ _)) (finish _ _ _)) (grantScan _)
    · exact trans (dropPending _ _ _) (startCommand _ _ _)

theorem takeQueryLease (p : Port) (i : Byte) (s : State) : Keeps s (Machine.takeQueryLease p i s) := by
  unfold Machine.takeQueryLease
  split <;> exact finish _ _ _

theorem breakCommand (h : Port) (i : Nat) (c : PwuCommand) (s : State) : Keeps s (Machine.breakCommand h i c s) :=
  ite (setCommand _ _ _) (trans (trans (setCommand _ _ _) (dropHold _ _)) (complete _ _ _ _))

theorem breakLease (p : Port) (i : Nat) (l : Lease) (s : State) : Keeps s (Machine.breakLease p i l s) := by
  unfold Machine.breakLease
  simp only
  have h1 : ∀ t : State, Keeps t (match boundCommand l.holder i s with
      | some c => Machine.breakCommand l.holder i c t
      | none => t) := by
    intro t
    split
    · exact breakCommand _ _ _ _
    · exact refl _
  have h2 : ∀ t : State, Keeps t (match upgradeOf i s with
      | some e => Machine.complete e.port e.serial (lostAtOnce i false) t
      | none => t) := by
    intro t
    split
    · exact complete _ _ _ _
    · exact refl _
  refine trans (trans (trans (trans (trans ?_ (endLease _ _ _)) (h2 _)) (h1 _)) (finish _ _ _)) (grantScan _)
  split
  · exact modLe_same rfl rfl
  · exact refl _

theorem takeBreak (p : Port) (i : Byte) (s : State) : Keeps s (Machine.takeBreak p i s) := by
  refine asSupervisor (fun s => ?_) s
  split
  · exact finish _ _ _
  · exact breakLease _ _ _ _

/-! ### The write unit's commands -/

theorem acceptRead (p : Port) (r : Range) (s : State) : Keeps s (Machine.acceptRead p r s) := by
  unfold Machine.acceptRead
  simp only
  have h : ∀ t : State, ∀ b : List SectorData, Keeps t (t.modPlu p (fun l => { l with buffer := b, valid := 0 })) :=
    fun t b => modPlu_same (fun _ => rfl) (fun _ => rfl)
  exact ite (trans (trans (renewLeases _ _) (h _ _)) (completeRead _ _ _ _))
    (trans (trans (renewLeases _ _) (h _ _)) (startCommand _ _ _))

theorem takeRead (p : Port) (f : Word16) (c : Byte) (s : State) : Keeps s (Machine.takeRead p f c s) := by
  unfold Machine.takeRead
  simp only
  refine ite ?_ (finish _ _ _)
  split
  · exact finish _ _ _
  · exact acceptRead _ _ _

theorem acceptWrite (p : Port) (r : Range) (o : Bool) (d : List Byte) (s : State) :
    Keeps s (Machine.acceptWrite p r o d s) := by
  unfold Machine.acceptWrite
  simp only
  exact ite (trans (trans (trans (renewLeases _ _) (setPending _ _ _)) (stageSectors _ _ _)) (finish _ _ _))
    (trans (trans (renewLeases _ _) (setPending _ _ _)) (startCommand _ _ _))

theorem takeWrite (p : Port) (f : Word16) (c : Byte) (d : List Byte) (s : State) :
    Keeps s (Machine.takeWrite p f c d s) := by
  unfold Machine.takeWrite
  simp only
  refine ite ?_ (finish _ _ _)
  split
  · exact finish _ _ _
  · exact acceptWrite _ _ _ _ _

theorem acceptCommit (p : Port) (i : Option Nat) (l : List Nat) (s : State) :
    Keeps s (Machine.acceptCommit p i l s) := ite (finish _ _ _) (startCommand _ _ _)

theorem takeCommit (p : Port) (i : Byte) (s : State) : Keeps s (Machine.takeCommit p i s) := by
  unfold Machine.takeCommit
  split
  · exact finish _ _ _
  · exact trans (renewLease _ _) (acceptCommit _ _ _ _)

theorem takeCommitAll (p : Port) (s : State) : Keeps s (Machine.takeCommitAll p s) :=
  trans (renewLeases _ _) (acceptCommit _ _ _ _)

theorem acceptClear (p : Port) (r : Range) (o : Bool) (s : State) : Keeps s (Machine.acceptClear p r o s) := by
  unfold Machine.acceptClear
  simp only
  exact ite (trans (trans (renewLeases _ _) (setPending _ _ _)) (finish _ _ _))
    (trans (trans (renewLeases _ _) (setPending _ _ _)) (startCommand _ _ _))

theorem takeClear (p : Port) (f c : Word16) (s : State) : Keeps s (Machine.takeClear p f c s) := by
  unfold Machine.takeClear
  refine ite ?_ (finish _ _ _)
  simp only
  split
  · exact finish _ _ _
  · exact acceptClear _ _ _ _

theorem takeQuerySector (p : Port) (n : Word16) (s : State) : Keeps s (Machine.takeQuerySector p n s) :=
  ite (finish _ _ _) (finish _ _ _)

/-! ### The notice unit's and the signal word bank's commands -/

theorem setWatchAt (p : Port) (i : Nat) (w : Option Watch) (s : State) : Keeps s (Machine.setWatchAt p i w s) :=
  modNu (fun h => h)

theorem takeSignalRead (p : Port) (w : Byte) (s : State) : Keeps s (Machine.takeSignalRead p w s) :=
  ite (finish _ _ _) (finish _ _ _)

theorem takeSignalModify (p : Port) (w : Byte) (m v : Word16) (s : State) :
    Keeps s (Machine.takeSignalModify p w m v s) := by
  unfold Machine.takeSignalModify
  simp only
  exact ite (trans (ite setSwb (trans setSwb (signalEvent _ _ _ _))) (finish _ _ _)) (finish _ _ _)

/-! ### The supervisor's commands -/

theorem dropPendings (l : List Range) (s : State) : Keeps s (Machine.dropPendings l s) :=
  foldl (fun _ _ => foldl (fun _ _ => dropPending _ _ _) _ _) _ _

theorem changeRegion (p : Port) (i : Nat) (g : Option Region) (s : State) : Keeps s (Machine.changeRegion p i g s) := by
  unfold Machine.changeRegion
  simp only
  split
  · exact finish _ _ _
  · exact trans (trans modAc (dropPendings _ _)) (finish _ _ _)

theorem takeSetRegion (p : Port) (i : Byte) (f l : Word16) (a m : Byte) (s : State) :
    Keeps s (Machine.takeSetRegion p i f l a m s) := by
  refine asSupervisor (fun s => ?_) s
  split
  · exact ite (changeRegion _ _ _ _) (finish _ _ _)
  · exact finish _ _ _

theorem takeSetRegionUndefine (p : Port) (i : Byte) (s : State) : Keeps s (Machine.takeSetRegionUndefine p i s) :=
  asSupervisor (fun _ => ite (changeRegion _ _ _ _) (finish _ _ _)) s

theorem takeSetLeasePeriod (p : Port) (x : Byte) (s : State) : Keeps s (Machine.takeSetLeasePeriod p x s) :=
  asSupervisor (fun _ => ite (trans modEu (finish _ _ _)) (finish _ _ _)) s

theorem takeSetHoldLimit (p : Port) (x : Byte) (s : State) : Keeps s (Machine.takeSetHoldLimit p x s) :=
  asSupervisor (fun _ => ite (trans modAc (finish _ _ _)) (finish _ _ _)) s

theorem takeSetQuota (p : Port) (x : Byte) (s : State) : Keeps s (Machine.takeSetQuota p x s) :=
  asSupervisor (fun _ => ite (trans modAc (finish _ _ _)) (finish _ _ _)) s

theorem takeMetaJob (p : Port) (s : State) : Keeps s (Machine.takeMetaJob p s) := startCommand _ _ _

theorem handMetaJob (p : Port) (s : State) : Keeps s (Machine.handMetaJob p s) :=
  ite (modPlu_same (fun _ => rfl) (fun _ => rfl)) (takeMetaJob _ _)

theorem takeSaveConfig (p : Port) (s : State) : Keeps s (Machine.takeSaveConfig p s) :=
  asSupervisor (fun _ => trans modAc (handMetaJob _ _)) s

theorem portReset (p : Port) (s : State) (b : Bool) :
    Keeps s (s.modPlu p (fun u => { u.portReset with fenced := b })) :=
  modPlu (fun _ => rfl) (fun _ => Or.inr rfl)

theorem carryOutFence (p q : Port) (s : State) : Keeps s (Machine.carryOutFence p q s) := by
  unfold Machine.carryOutFence
  simp only
  exact trans (trans (trans (trans (portReset q s true) (withdrawCommand _ _)) modTeardown) (leaseTeardown _ _ _))
    (modLe_same rfl rfl)

theorem takeFence (p : Port) (t : Byte) (s : State) : Keeps s (Machine.takeFence p t s) := by
  refine asSupervisor (fun s => ?_) s
  split
  · exact finish _ _ _
  · exact ite (finish _ _ _) (ite (finish _ _ _) (carryOutFence _ _ _))

theorem takeUnfence (p : Port) (t : Byte) (s : State) : Keeps s (Machine.takeUnfence p t s) := by
  refine asSupervisor (fun s => ?_) s
  split
  · exact finish _ _ _
  · exact trans (ite (modPlu (fun h => h) (fun h => by simp at h)) (refl _)) (finish _ _ _)

/-! ### The port link unit's own commands -/

theorem takeSetAttnMask (p : Port) (m : Byte) (s : State) : Keeps s (Machine.takeSetAttnMask p m s) := by
  unfold Machine.takeSetAttnMask
  refine ite (trans (modPlu_same (p := p) ?_ ?_) (finish _ _ _)) (finish _ _ _) <;> intro u <;> rfl

theorem takeDeviceInfo (p : Port) (s : State) : Keeps s (Machine.takeDeviceInfo p s) := finish _ _ _

theorem takeCounterSetup (p : Port) (c e q : Byte) (s : State) : Keeps s (Machine.takeCounterSetup p c e q s) := by
  unfold Machine.takeCounterSetup
  split
  · refine ite (trans (modPlu_same (p := p) ?_ ?_) (finish _ _ _)) (finish _ _ _) <;> intro u <;>
      (unfold Plu.setCounter; split <;> rfl)
  · exact finish _ _ _

theorem takeCounterRead (p : Port) (c : Byte) (s : State) : Keeps s (Machine.takeCounterRead p c s) :=
  ite (finish _ _ _) (finish _ _ _)

/-- A command that no notice unit owns neither hands a request to the lease engine nor releases a job. -/
theorem takeCommand (p : Port) {c : SlotCommand} (h : c.owners.nu = false) (s : State) :
    Keeps s (Machine.takeCommand p c s) := by
  cases c with
  | acquire f n m w => exact takeAcquire p f n m w s
  | upgrade i w => exact takeUpgrade p i w s
  | downgrade i => exact takeDowngrade p i s
  | renew i => exact takeRenew p i s
  | renewAll => exact takeRenewAll p s
  | release i d => exact takeRelease p i d s
  | queryLease i => exact takeQueryLease p i s
  | read f n => exact takeRead p f n s
  | write f n d => exact takeWrite p f n d s
  | commit i => exact takeCommit p i s
  | commitAll => exact takeCommitAll p s
  | clear f n => exact takeClear p f n s
  | querySector n => exact takeQuerySector p n s
  | setWatch i t f n w k is h => simp [SlotCommand.owners] at h
  | dropWatch i => simp [SlotCommand.owners] at h
  | setLevels h l => simp [SlotCommand.owners] at h
  | setAttnMask m => exact takeSetAttnMask p m s
  | signalRead w => exact takeSignalRead p w s
  | signalModify w m v => exact takeSignalModify p w m v s
  | deviceInfo => exact takeDeviceInfo p s
  | counterSetup c e q => exact takeCounterSetup p c e q s
  | counterRead c => exact takeCounterRead p c s
  | setRegion i f l a m => exact takeSetRegion p i f l a m s
  | setRegionUndefine i => exact takeSetRegionUndefine p i s
  | setLeasePeriod x => exact takeSetLeasePeriod p x s
  | setHoldLimit x => exact takeSetHoldLimit p x s
  | setQuota x => exact takeSetQuota p x s
  | saveConfig => exact takeSaveConfig p s
  | metaJob => exact takeMetaJob p s
  | breakLease i => exact takeBreak p i s
  | fence t => exact takeFence p t s
  | unfence t => exact takeUnfence p t s

theorem removeEntry (p : Port) (n : Nat) (s : State) : Keeps s (Machine.removeEntry p n s) := modLe_same rfl rfl

theorem takeExpiry (p : Port) (n : Nat) (s : State) : Keeps s (Machine.takeExpiry p n s) := by
  unfold Machine.takeExpiry
  split
  · exact trans (trans (removeEntry _ _ _) (complete _ _ _ _)) (grantScan _)
  · exact refl s

theorem takeCancelParked (p : Port) (n : Nat) (s : State) : Keeps s (Machine.takeCancelParked p n s) := by
  unfold Machine.takeCancelParked
  split
  · exact trans (trans (removeEntry _ _ _) (complete _ _ _ _)) (grantScan _)
  · exact refl s

/-- A request of a port at the lease engine hands it no other and releases no job; a slot command among them is one of
the lease engine's (R167). -/
theorem takeRequest (p : Port) {r : LeRequest} (h : ∀ c, r = .command c → c.owners.nu = false) (s : State) :
    Keeps s (Machine.takeRequest p r s) := by
  cases r with
  | command c => exact takeCommand p (h c rfl) s
  | issue n => exact takeIssue p n s
  | report d => exact drainEnd p d s
  | cancel n => exact takeCancelParked p n s
  | expiry n => exact takeExpiry p n s
  | teardown => exact leaseTeardown p _ s

theorem servedPort (p : Port) (s : State) : Keeps s (Machine.servedPort p s) := modLe_same rfl rfl

theorem takeCancelHeld (p : Port) (n : Nat) (s : State) : Keeps s (Machine.takeCancelHeld p n s) := by
  have h : Keeps s (s.modNu p (fun u => { u with cancel := none })) := modNu (fun k => k)
  unfold Machine.takeCancelHeld
  split
  · exact ite (trans (trans (trans h (dropHold _ _)) (setCommand _ _ _)) (complete _ _ _ _)) h
  · exact h

theorem cancelHeld (p : Port) (s : State) : Keeps s (Machine.cancelHeld p s) := by
  unfold Machine.cancelHeld
  split
  · exact takeCancelHeld _ _ _
  · exact refl s

end Keeps

/-! ### The notice unit's commands, which may release a held job (R152) -/

theorem sound_setLevels {u : NuPort} {h l : Nat} (k : u.sound = true) (a : 1 ≤ h) (b : h ≤ Config.noticeCapacity)
    (c : l < h) : (u.setLevels h l).sound = true := by
  simp only [NuPort.sound, Bool.and_eq_true, Bool.or_eq_true, Bool.not_eq_true', decide_eq_true_eq,
    decide_eq_false_iff_not] at k ⊢
  refine ⟨⟨⟨⟨⟨k.1.1.1.1.1, a⟩, b⟩, c⟩, ?_⟩, ?_⟩
  · show ¬ h ≤ u.queue.length ∨ (if h ≤ u.queue.length then true else if u.queue.length ≤ l then false
      else u.congested) = true
    by_cases e : h ≤ u.queue.length
    · right; simp [e]
    · left; exact e
  · show ¬ u.queue.length ≤ l ∨ (if h ≤ u.queue.length then true else if u.queue.length ≤ l then false
      else u.congested) = false
    by_cases e : u.queue.length ≤ l
    · right
      rw [if_neg (by omega), if_pos e]
    · left; exact e

theorem sound_removeHead {u : NuPort} (k : u.sound = true) : u.removeHead.sound = true := by
  unfold NuPort.removeHead
  split
  · exact k
  · rename_i n t e
    simp only [NuPort.sound, Bool.and_eq_true, Bool.or_eq_true, Bool.not_eq_true', decide_eq_true_eq,
      decide_eq_false_iff_not, e, List.length_cons] at k ⊢
    obtain ⟨⟨⟨⟨⟨h1, h2⟩, h3⟩, h4⟩, h5⟩, h6⟩ := k
    refine ⟨⟨⟨⟨⟨by omega, h2⟩, h3⟩, h4⟩, ?_⟩, ?_⟩
    · by_cases a : u.high ≤ t.length
      · right
        have b : u.low < t.length := by omega
        rcases h5 with h5 | h5
        · omega
        · simp [h5, b]
      · left; exact a
    · by_cases a : t.length ≤ u.low
      · right
        have b : ¬ u.low < t.length := by omega
        simp [b]
      · left; exact a

namespace Still

theorem reexamineAfter (p : Port) (w : Option Watch) (s : State) : Still s (Machine.reexamineAfter p w s) :=
  ite (reexamine s) (refl s)

theorem reexamineIfFreed (p : Port) (b : Bool) (s : State) : Still s (Machine.reexamineIfFreed p b s) :=
  ite (reexamine s) (refl s)

theorem takeSetWatch (p : Port) (i t : Byte) (f c ws : Word16) (k is h : Byte) (s : State) :
    Still s (Machine.takeSetWatch p i t f c ws k is h s) := by
  unfold Machine.takeSetWatch
  split
  · exact ite (trans (trans (Keeps.setWatchAt _ _ _ _).toStill (reexamineAfter _ _ _)) (Keeps.finish _ _ _).toStill)
      (Keeps.finish _ _ _).toStill
  · exact (Keeps.finish _ _ _).toStill

theorem takeDropWatch (p : Port) (i : Byte) (s : State) : Still s (Machine.takeDropWatch p i s) :=
  ite (trans (trans (Keeps.setWatchAt _ _ _ _).toStill (reexamineAfter _ _ _)) (Keeps.finish _ _ _).toStill)
    (Keeps.finish _ _ _).toStill

theorem takeSetLevels (p : Port) (h l : Byte) (s : State) : Still s (Machine.takeSetLevels p h l s) := by
  unfold Machine.takeSetLevels
  split
  · rename_i e
    have k : Keeps s (s.modNu p (fun u => u.setLevels h.toNat l.toNat)) :=
      Keeps.modNu (fun k => sound_setLevels k e.1 e.2.1 e.2.2)
    exact trans (trans k.toStill (reexamineIfFreed _ _ _)) (Keeps.finish _ _ _).toStill
  · exact (Keeps.finish _ _ _).toStill

theorem takeFetchNotice (p : Port) (s : State) : Still s (Machine.takeFetchNotice p s).2 := by
  have k : Keeps s ((s.modPlu p (fun l => { l with fetches := l.fetches + 1 })).modNu p (fun u =>
      { u.removeHead with overrun := false })) :=
    Keeps.trans (Keeps.modPlu_same (f := fun l => { l with fetches := l.fetches + 1 }) (fun _ => rfl)
        (fun _ => rfl))
      (Keeps.modNu (f := fun u => { u.removeHead with overrun := false })
        (fun h => Keeps.sound_overrun false (sound_removeHead h)))
  exact trans k.toStill (reexamineIfFreed _ _ _)

/-! ### Serving -/

theorem takeCommand (p : Port) (c : SlotCommand) (s : State) : Still s (Machine.takeCommand p c s) := by
  cases c with
  | acquire f n m w => exact (Keeps.takeCommand p rfl s).toStill
  | upgrade i w => exact (Keeps.takeCommand p rfl s).toStill
  | downgrade i => exact (Keeps.takeCommand p rfl s).toStill
  | renew i => exact (Keeps.takeCommand p rfl s).toStill
  | renewAll => exact (Keeps.takeCommand p rfl s).toStill
  | release i d => exact (Keeps.takeCommand p rfl s).toStill
  | queryLease i => exact (Keeps.takeCommand p rfl s).toStill
  | read f n => exact (Keeps.takeCommand p rfl s).toStill
  | write f n d => exact (Keeps.takeCommand p rfl s).toStill
  | commit i => exact (Keeps.takeCommand p rfl s).toStill
  | commitAll => exact (Keeps.takeCommand p rfl s).toStill
  | clear f n => exact (Keeps.takeCommand p rfl s).toStill
  | querySector n => exact (Keeps.takeCommand p rfl s).toStill
  | setWatch i t f n w k is h => exact takeSetWatch p i t f n w k is h s
  | dropWatch i => exact takeDropWatch p i s
  | setLevels h l => exact takeSetLevels p h l s
  | setAttnMask m => exact (Keeps.takeCommand p rfl s).toStill
  | signalRead w => exact (Keeps.takeCommand p rfl s).toStill
  | signalModify w m v => exact (Keeps.takeCommand p rfl s).toStill
  | deviceInfo => exact (Keeps.takeCommand p rfl s).toStill
  | counterSetup c e q => exact (Keeps.takeCommand p rfl s).toStill
  | counterRead c => exact (Keeps.takeCommand p rfl s).toStill
  | setRegion i f l a m => exact (Keeps.takeCommand p rfl s).toStill
  | setRegionUndefine i => exact (Keeps.takeCommand p rfl s).toStill
  | setLeasePeriod x => exact (Keeps.takeCommand p rfl s).toStill
  | setHoldLimit x => exact (Keeps.takeCommand p rfl s).toStill
  | setQuota x => exact (Keeps.takeCommand p rfl s).toStill
  | saveConfig => exact (Keeps.takeCommand p rfl s).toStill
  | metaJob => exact (Keeps.takeCommand p rfl s).toStill
  | breakLease i => exact (Keeps.takeCommand p rfl s).toStill
  | fence t => exact (Keeps.takeCommand p rfl s).toStill
  | unfence t => exact (Keeps.takeCommand p rfl s).toStill

theorem takeRequest (p : Port) (r : LeRequest) (s : State) : Still s (Machine.takeRequest p r s) := by
  cases r with
  | command c => exact takeCommand p c s
  | issue n => exact (Keeps.takeIssue p n s).toStill
  | report d => exact (Keeps.drainEnd p d s).toStill
  | cancel n => exact (Keeps.takeCancelParked p n s).toStill
  | expiry n => exact (Keeps.takeExpiry p n s).toStill
  | teardown => exact (Keeps.leaseTeardown p _ s).toStill

theorem modLe {f : LeaseEngine → LeaseEngine} {s : State} (h : (f s.le).sweepsAsked = s.le.sweepsAsked) :
    Still s (s.modLe f) := by
  constructor <;> intros <;> first | rfl | exact Or.inl rfl | assumption | exact Or.inl ‹_›

theorem popRequest (p : Port) (l : List LeRequest) (s : State) : Still s (Machine.popRequest p l s) :=
  trans (modLe rfl) (Keeps.servedPort _ _).toStill

theorem servePort {p : Port} {s t : State} (h : Machine.servePort p s = some t) : Still s t := by
  unfold Machine.servePort at h
  split at h
  · simp at h
  · injection h with h; subst h; exact trans (popRequest _ _ _) (takeRequest _ _ _)

theorem serveOne {s t : State} (h : Machine.serveOne s = some t) : Still s t := by
  unfold Machine.serveOne at h
  split at h
  · obtain ⟨p, _, h⟩ := List.exists_of_findSome?_eq_some h
    exact servePort h
  · simp at h

theorem serveUpTo (n : Nat) (s : State) : Still s (Machine.serveUpTo n s) := by
  induction n generalizing s with
  | zero => exact refl s
  | succ n ih =>
    unfold Machine.serveUpTo
    split
    · exact trans (trans (serveOne ‹_›) (issueReleased _)) (ih _)
    · exact refl s

theorem serveWaiting (s : State) : Still s (Machine.serveWaiting s) := trans (issueReleased _) (serveUpTo _ _)

theorem goOn (s : State) : Still s (Machine.goOn s) := ite (refl s) (serveWaiting s)

theorem passCommand (p : Port) (s : State) : Still s (Machine.passCommand p s) := by
  unfold Machine.passCommand
  have h : Still s (s.modPlu p (fun u => { u with waiting := none })) :=
    (Keeps.modPlu (fun h => h) (fun h => Or.inl h)).toStill
  split
  · exact goOn s
  · exact ite (goOn s) (ite (trans (trans h (handRequest _ _ _)) (serveWaiting _))
      (trans (trans h (takeCommand _ _ _)) (goOn _)))

end Still

/-! ### The lease engine's round-robin (R24, R65, R152) -/

/-- With no released job there is nothing to go on with. -/
theorem goOn_idle {s : State} (h : s.released = []) : goOn s = s := by simp [goOn, h]

/-- With no released job none is issued. -/
theorem issueReleased_nil {s : State} (h : s.released = []) : issueReleased s = s := by
  rw [issueReleased, h, issueEach, ← h]
  rfl

theorem engineIdle_iff (s : State) :
    engineIdle s = true ↔ s.released = [] ∧ ∀ q, s.le.requests.get q = [] := by
  simp only [engineIdle, Bool.and_eq_true, List.isEmpty_iff, List.all_eq_true]
  exact ⟨fun h => ⟨h.1, fun q => h.2 q (Port.mem_all q)⟩, fun h => ⟨h.1, fun q _ => h.2 q⟩⟩

/-- The conditions that quiet states. -/
theorem quiet_iff (s : State) : quiet s = true ↔
    s.le.sweepsAsked = 0 ∧ (s.released = [] ∧ ∀ q, s.le.requests.get q = []) ∧
      ∀ q, s.teardown.get q = Teardowns.clear ∧ (s.plu.get q).waiting = none := by
  simp only [quiet, Bool.and_eq_true, decide_eq_true_eq, engineIdle_iff, List.all_eq_true, Option.isNone_iff_eq_none]
  exact ⟨fun h => ⟨h.1.1, h.1.2, fun q => h.2 q (Port.mem_all q)⟩, fun h => ⟨⟨h.1, h.2.1⟩, fun q _ => h.2.2 q⟩⟩

theorem mem_servingOrder (f p : Port) : p ∈ servingOrder f := by cases f <;> cases p <;> decide

/-- A findSome? whose function answers on one element only answers there. -/
theorem findSome?_only {α β : Type} {f : α → Option β} {l : List α} {a : α} {b : β} (ha : a ∈ l) (hb : f a = some b)
    (h : ∀ x, x ≠ a → f x = none) [DecidableEq α] : l.findSome? f = some b := by
  induction l with
  | nil => simp at ha
  | cons x t ih =>
    by_cases e : x = a
    · subst e; simp [hb]
    · rw [List.findSome?_cons, h x e]
      rcases List.mem_cons.mp ha with e' | e'
      · exact absurd e'.symm e
      · exact ih e'

/-- With no request nothing is taken. -/
theorem serveOne_empty {s : State} (h : ∀ q, s.le.requests.get q = []) : serveOne s = none := by
  unfold serveOne
  split
  · rw [List.findSome?_eq_none_iff]
    intro q _
    simp [servePort, h]
  · rfl

/-- Where nothing is taken the state stays. -/
theorem serveUpTo_none {s : State} (n : Nat) (h : serveOne s = none) : serveUpTo n s = s := by
  cases n <;> simp [serveUpTo, h]

/-- The next request is the only port's that has one (R24). -/
theorem serveOne_only {p : Port} {r : LeRequest} {rest : List LeRequest} {s : State} (h0 : s.le.sweepsAsked = 0)
    (hp : s.le.requests.get p = r :: rest) (hq : ∀ q, q ≠ p → s.le.requests.get q = []) :
    serveOne s = some (takeRequest p r (popRequest p rest s)) := by
  rw [serveOne, if_pos h0]
  refine findSome?_only (mem_servingOrder _ p) ?_ (fun q e => ?_)
  · simp [servePort, hp]
  · simp [servePort, hq q e]

theorem requestCount_only {p : Port} {s : State} (hq : ∀ q, q ≠ p → s.le.requests.get q = []) :
    requestCount s = (s.le.requests.get p).length := by
  have h : ∀ q, q ≠ p → (s.le.requests.get q).length = 0 := fun q e => by rw [hq q e]; rfl
  have h0 := h .p0; have h1 := h .p1; have h2 := h .p2; have h3 := h .p3
  cases p <;> simp_all [requestCount, Port.all]

/-- A single waiting request that hands over no other is taken, and nothing else (R24). -/
theorem serveWaiting_only {p : Port} {r : LeRequest} {s : State} (h0 : s.le.sweepsAsked = 0) (hr : s.released = [])
    (hp : s.le.requests.get p = [r]) (hq : ∀ q, q ≠ p → s.le.requests.get q = [])
    (k : ∀ c, r = .command c → c.owners.nu = false) :
    serveWaiting s = takeRequest p r (popRequest p [] s) := by
  have e : (takeRequest p r (popRequest p [] s)).released = [] := by
    rw [(Keeps.takeRequest p k _).released]; exact hr
  simp only [serveWaiting, issueReleased_nil hr, requestCount_only hq, hp, hr, List.flatten_nil, List.length_cons,
    List.length_nil, Nat.zero_add, Nat.add_zero, serveUpTo, serveOne_only h0 hp hq, issueReleased_nil e]

theorem popRequest_eq (p : Port) (s : State) : popRequest p [] s = tookRequest p s := by
  simp [popRequest, servedPort, tookRequest]

theorem onlyRequest_iff (p : Port) (r : LeRequest) (s : State) : onlyRequest p r s = true ↔
    s.le.sweepsAsked = 0 ∧ s.released = [] ∧ s.le.requests.get p = [r] ∧
      ∀ q, q ≠ p → s.le.requests.get q = [] := by
  simp only [onlyRequest, Bool.and_eq_true, Bool.or_eq_true, decide_eq_true_eq, List.all_eq_true, List.isEmpty_iff]
  constructor
  · rintro ⟨⟨⟨a, b⟩, c⟩, d⟩
    exact ⟨a, b, c, fun q e => (d q (Port.mem_all q)).resolve_left e⟩
  · rintro ⟨a, b, c, d⟩
    refine ⟨⟨⟨a, b⟩, c⟩, fun q _ => ?_⟩
    by_cases e : q = p
    · exact Or.inl e
    · exact Or.inr (d q e)

/-- The port's only request taken (R24). -/
theorem serveWaiting_onlyRequest {p : Port} {r : LeRequest} {s : State} (h : onlyRequest p r s = true)
    (k : ∀ c, r = .command c → c.owners.nu = false) : serveWaiting s = takeRequest p r (tookRequest p s) := by
  obtain ⟨a, b, c, d⟩ := (onlyRequest_iff p r s).mp h
  rw [serveWaiting_only a b c d k, popRequest_eq]

/-- A request handed to an idle lease engine is taken at once, and nothing else (R24). -/
theorem serveWaiting_handRequest {p : Port} {r : LeRequest} {s : State} (h0 : s.le.sweepsAsked = 0)
    (hi : engineIdle s = true) (k : ∀ c, r = .command c → c.owners.nu = false) :
    serveWaiting (handRequest p r s) = takeRequest p r (servedPort p s) := by
  obtain ⟨hr, hq⟩ := (engineIdle_iff s).mp hi
  have e : onlyRequest p r (handRequest p r s) = true := by
    rw [onlyRequest_iff]
    refine ⟨h0, hr, by simp [handRequest, hq], fun q e => ?_⟩
    simp [handRequest, PortMap.get_modify_ne, e, hq]
  rw [serveWaiting_onlyRequest e k]
  congr 1
  have : (s.le.requests.modify p (fun l => l ++ [r])).set p [] = s.le.requests := by
    apply PortMap.ext_get
    intro q
    by_cases e : q = p
    · subst e; simp [hq]
    · simp [PortMap.get_set_ne, PortMap.get_modify_ne, e]
  simp [handRequest, tookRequest, servedPort, State.modLe, this]

/-- A request handed over while a sweep is pending waits, with every other request (R65). -/
theorem serveWaiting_sweep {s : State} (h : s.le.sweepsAsked ≠ 0) (hr : s.released = []) : serveWaiting s = s := by
  have k : serveOne s = none := by simp [serveOne, h]
  rw [serveWaiting, issueReleased_nil hr, serveUpTo_none _ k]

/-! ### A port's command passed on (R167, R176) -/

/-- A command behind a teardown of its port is kept back. -/
theorem passCommand_kept {p : Port} {c : SlotCommand} {s : State} (hw : (s.plu.get p).waiting = some c)
    (hb : c.behindTeardown (s.teardown.get p) = true) : passCommand p s = goOn s := by
  have h : heldBack p c s = true := hb
  simp [passCommand, hw, h]

/-- A command in which the lease engine takes no part is taken by its owner. -/
theorem passCommand_taken {p : Port} {c : SlotCommand} {s : State} (hw : (s.plu.get p).waiting = some c)
    (hb : c.behindTeardown (s.teardown.get p) = false) (hl : c.owners.le = false) :
    passCommand p s = goOn (takeCommand p c (s.modPlu p (fun u => { u with waiting := none }))) := by
  have h : heldBack p c s = false := hb
  simp [passCommand, hw, h, hl]

/-- A command in which the lease engine takes part is handed to it. -/
theorem passCommand_handed {p : Port} {c : SlotCommand} {s : State} (hw : (s.plu.get p).waiting = some c)
    (hb : c.behindTeardown (s.teardown.get p) = false) (hl : c.owners.le = true) :
    passCommand p s = serveWaiting (handRequest p (.command c) (s.modPlu p (fun u => { u with waiting := none }))) := by
  have h : heldBack p c s = false := hb
  simp [passCommand, hw, h, hl]

/-- Accepting a slot command at a free port has its owner take it at once, and nothing else but the jobs that it releases
(R65, R152, R167). -/
theorem passCommand_accept {p : Port} {s : State} (h : quiet s = true) (op : Byte) (c : SlotCommand) :
    passCommand p (s.modPlu p (fun u => u.accept op c)) = goOn (takeCommand p c (takenState p op c s)) := by
  obtain ⟨h0, ⟨hr, hq⟩, ht⟩ := (quiet_iff s).mp h
  have hb : heldBack p c (s.modPlu p (fun u => u.accept op c)) = false := by
    simp [heldBack, (ht p).1, Teardowns.clear]
  have hs : (s.modPlu p (fun u => u.accept op c)).modPlu p (fun u => { u with waiting := none }) = acceptedIn p op s := by
    simp [acceptedIn, Plu.accept, Plu.busyWith]
  have hw : ((s.modPlu p (fun u => u.accept op c)).plu.get p).waiting = some c := by simp [Plu.accept]
  simp only [passCommand, hw, hb, hs, takenState]
  by_cases e : c.owners.le = true
  · have hn : c.owners.nu = false := by revert e; cases c <;> simp [SlotCommand.owners]
    have hi : engineIdle (acceptedIn p op s) = true := (engineIdle_iff _).mpr ⟨hr, hq⟩
    have k := serveWaiting_handRequest (p := p) (r := .command c) (s := acceptedIn p op s) h0 hi
      (fun d hd => by injection hd with hd; rw [← hd]; exact hn)
    simp only [e, if_true, if_false, Bool.false_eq_true, k, takenByLe, takeRequest]
    exact (goOn_idle (by rw [(Keeps.takeCommand p hn _).released]; exact hr)).symm
  · simp [e]

/-- A slot command's frame, whole, at a free port: its owner takes the command at once, the jobs that it releases go on,
and the frame ends accepted (R165 to R167). -/
theorem slotFrame_freeNu {p : Port} {s : State} (h : freePort p s = true) (op : Byte) (c : SlotCommand) {len : Nat}
    (hl : 1 ≤ len) :
    slotFrame p op true c len s = endAccepted p s [] len (goOn (takeCommand p c (takenState p op c s))) := by
  simp only [freePort, openPort, Bool.and_eq_true, decide_eq_true_eq, Bool.not_eq_true'] at h
  obtain ⟨⟨⟨⟨h1, h2⟩, h3⟩, h4⟩, h5⟩ := h
  have hc : slotCheck p true s = none := by simp [slotCheck, portCloses, h2, h3, h4]
  simp [slotFrame, onFrame, takesFrame, hl, h1, hc, passCommand_accept h5]

/-- The same for a command that no notice unit owns: it releases no job. -/
theorem slotFrame_free {p : Port} {s : State} (h : freePort p s = true) (op : Byte) {c : SlotCommand}
    (hn : c.owners.nu = false) {len : Nat} (hl : 1 ≤ len) :
    slotFrame p op true c len s = endAccepted p s [] len (takeCommand p c (takenState p op c s)) := by
  have hq : quiet s = true := by
    simp only [freePort, Bool.and_eq_true] at h; exact h.2
  rw [slotFrame_freeNu h op c hl, goOn_idle]
  rw [(Keeps.takeCommand p hn _).released]
  have := ((quiet_iff s).mp hq).2.1.1
  unfold takenState
  split <;> exact this

end Sys2Proof.Machine
end

