-- ==== Sys2Proof/Laws/Taken.lean ====
section
/-! SUPPORT. What a slot command's owner finds when it takes the command at a free port, and how a frame ends: one lemma
per field, and the two forms in which a frame's statement is proved. -/

namespace Sys2Proof.Machine

/-! ### The state in which the lease engine takes a command -/

@[simp] theorem takenByLe_table (p : Port) (op : Byte) (s : State) : (takenByLe p op s).le.table = s.le.table := rfl
@[simp] theorem takenByLe_queue (p : Port) (op : Byte) (s : State) : (takenByLe p op s).le.queue = s.le.queue := rfl
@[simp] theorem takenByLe_leases (p : Port) (op : Byte) (s : State) : leases (takenByLe p op s) = leases s := rfl
@[simp] theorem takenByLe_findLease (p : Port) (op : Byte) (s : State) (n : Nat) :
    findLease (takenByLe p op s) n = findLease s n := rfl
@[simp] theorem takenByLe_ownHeldLease (p q : Port) (op : Byte) (s : State) (n : Nat) :
    ownHeldLease q n (takenByLe p op s) = ownHeldLease q n s := rfl
@[simp] theorem takenByLe_ownOverlap (p q : Port) (op : Byte) (s : State) (r : Range) :
    ownOverlap q r (takenByLe p op s) = ownOverlap q r s := rfl
@[simp] theorem takenByLe_heldLeases (p q : Port) (op : Byte) (s : State) :
    heldLeases q (takenByLe p op s) = heldLeases q s := rfl
@[simp] theorem takenByLe_leaseCount (p q : Port) (op : Byte) (s : State) :
    leaseCount q (takenByLe p op s) = leaseCount q s := rfl
@[simp] theorem takenByLe_occupancy (p : Port) (op : Byte) (s : State) : occupancy (takenByLe p op s) = occupancy s := rfl
@[simp] theorem takenByLe_eu (p : Port) (op : Byte) (s : State) : (takenByLe p op s).eu = s.eu := rfl
@[simp] theorem takenByLe_me (p : Port) (op : Byte) (s : State) : (takenByLe p op s).me = s.me := rfl
@[simp] theorem takenByLe_pwu (p : Port) (op : Byte) (s : State) : (takenByLe p op s).pwu = s.pwu := rfl
@[simp] theorem takenByLe_ac (p : Port) (op : Byte) (s : State) : (takenByLe p op s).ac = s.ac := rfl
@[simp] theorem takenByLe_nu (p : Port) (op : Byte) (s : State) : (takenByLe p op s).nu = s.nu := rfl
@[simp] theorem takenByLe_teardown (p : Port) (op : Byte) (s : State) : (takenByLe p op s).teardown = s.teardown := rfl
@[simp] theorem takenByLe_holdList (p : Port) (op : Byte) (s : State) : (takenByLe p op s).holdList = s.holdList := rfl
@[simp] theorem takenByLe_swb (p : Port) (op : Byte) (s : State) : (takenByLe p op s).swb = s.swb := rfl
@[simp] theorem takenByLe_requestCheck (p q : Port) (op : Byte) (s : State) (w : Bool) (r : Range) :
    requestCheck q w r (takenByLe p op s) = requestCheck q w r s := rfl
@[simp] theorem takenByLe_dataCheck (p q : Port) (op : Byte) (s : State) (w : Bool) (r : Range) :
    dataCheck q w r (takenByLe p op s) = dataCheck q w r s := rfl
@[simp] theorem takenByLe_coveringLeases (p q : Port) (op : Byte) (s : State) (w : Bool) (r : Range) :
    coveringLeases q w r (takenByLe p op s) = coveringLeases q w r s := rfl
@[simp] theorem takenByLe_blockerOf (p : Port) (op : Byte) (s : State) (e : WaitEntry) (l : List WaitEntry) :
    blockerOf e l (takenByLe p op s) = blockerOf e l s := rfl
@[simp] theorem takenByLe_waitForEdges (p : Port) (op : Byte) (s : State) (e : WaitEntry) :
    waitForEdges e (takenByLe p op s) = waitForEdges e s := by
  have h : ∀ (todo earlier : List WaitEntry), edgesFrom (takenByLe p op s) earlier todo = edgesFrom s earlier todo := by
    intro todo
    induction todo with
    | nil => intro _; rfl
    | cons e t ih => intro earlier; simp only [edgesFrom, ih]; rfl
  exact h _ _
@[simp] theorem takenByLe_serial (p : Port) (op : Byte) (s : State) :
    ((takenByLe p op s).plu.get p).serial = nextSerial p s := by
  simp [takenByLe, acceptedIn, servedPort, nextSerial, Plu.busyWith]
@[simp] theorem takenByLe_slot (p : Port) (op : Byte) (s : State) : ((takenByLe p op s).plu.get p).slot = .busy := by
  simp [takenByLe, acceptedIn, servedPort, Plu.busyWith]
@[simp] theorem takenByLe_plu_ne {p q : Port} (op : Byte) (s : State) (h : q ≠ p) :
    (takenByLe p op s).plu.get q = s.plu.get q := by
  simp [takenByLe, acceptedIn, servedPort, PortMap.get_modify_ne, h]

/-! ### The state in which another block takes a command -/

@[simp] theorem acceptedIn_le (p : Port) (op : Byte) (s : State) : (acceptedIn p op s).le = s.le := rfl
@[simp] theorem acceptedIn_eu (p : Port) (op : Byte) (s : State) : (acceptedIn p op s).eu = s.eu := rfl
@[simp] theorem acceptedIn_me (p : Port) (op : Byte) (s : State) : (acceptedIn p op s).me = s.me := rfl
@[simp] theorem acceptedIn_pwu (p : Port) (op : Byte) (s : State) : (acceptedIn p op s).pwu = s.pwu := rfl
@[simp] theorem acceptedIn_ac (p : Port) (op : Byte) (s : State) : (acceptedIn p op s).ac = s.ac := rfl
@[simp] theorem acceptedIn_nu (p : Port) (op : Byte) (s : State) : (acceptedIn p op s).nu = s.nu := rfl
@[simp] theorem acceptedIn_teardown (p : Port) (op : Byte) (s : State) : (acceptedIn p op s).teardown = s.teardown := rfl
@[simp] theorem acceptedIn_holdList (p : Port) (op : Byte) (s : State) : (acceptedIn p op s).holdList = s.holdList := rfl
@[simp] theorem acceptedIn_swb (p : Port) (op : Byte) (s : State) : (acceptedIn p op s).swb = s.swb := rfl
@[simp] theorem acceptedIn_serial (p : Port) (op : Byte) (s : State) :
    ((acceptedIn p op s).plu.get p).serial = nextSerial p s := by simp [acceptedIn, nextSerial, Plu.busyWith]
@[simp] theorem acceptedIn_slot (p : Port) (op : Byte) (s : State) : ((acceptedIn p op s).plu.get p).slot = .busy := by
  simp [acceptedIn, Plu.busyWith]

/-! ### The parameters that a command's rule refuses -/

/-- When READ's parameters are in range (R91). -/
theorem readParams_iff (f : Word16) (n : Byte) :
    readParams f n = true ↔ 1 ≤ n.toNat ∧ n.toNat ≤ 4 ∧ f.toNat + n.toNat ≤ 32768 := by
  simp only [readParams, Range.inBounds, Bool.and_eq_true, decide_eq_true_eq]; unfold Config.userSectors; omega

/-- When WRITE's parameters are in range (R84). -/
theorem writeParams_iff (f : Word16) (n : Byte) :
    writeParams f n = true ↔ 1 ≤ n.toNat ∧ n.toNat ≤ 4 ∧ f.toNat < 32768 := by
  simp only [writeParams, Bool.and_eq_true, decide_eq_true_eq, and_assoc]; rfl

/-- When CLEAR's parameters are in range (R125). -/
theorem clearParams_iff (f n : Word16) :
    clearParams f n = true ↔ 1 ≤ n.toNat ∧ n.toNat ≤ 32768 ∧ f.toNat < 32768 := by
  simp only [clearParams, Bool.and_eq_true, decide_eq_true_eq, and_assoc]; rfl

/-- When QUERY SECTOR's sector is in range (R19). -/
theorem querySectorParams_iff (n : Word16) : querySectorParams n = true ↔ n.toNat < 32768 := by
  simp only [querySectorParams, decide_eq_true_eq]; rfl

/-- A command with refused parameters is no request at the lease engine, nor at the notice unit or the word bank. -/
theorem paramsRefused_owners {c : SlotCommand} (h : c.paramsRefused = true) :
    c.owners.le = false ∧ c.owners.nu = false ∧ c.owners.swb = false := by
  cases c <;> simp [SlotCommand.paramsRefused, ← BitVec.toNat_inj] at h <;>
    simp [SlotCommand.owners, ← Bool.not_eq_true, readParams_iff, writeParams_iff, clearParams_iff,
      querySectorParams_iff] <;> omega

/-- A command with refused parameters completes BAD_PARAM, and nothing else (R19, R84, R91, R125). -/
theorem takeCommand_refused (p : Port) {c : SlotCommand} (h : c.paramsRefused = true) (s : State) :
    takeCommand p c s = finish p { status := .badParam } s := by
  have k := (paramsRefused_owners h).1
  cases c <;> simp [SlotCommand.paramsRefused] at h <;> simp only [SlotCommand.owners] at k <;>
    simp [takeCommand, takeRead, takeWrite, takeClear, takeQuerySector, k]

/-! ### How a frame ends -/

/-- A command that the lease engine takes part in is not one of the notice unit's (R167). -/
theorem owners_nu {c : SlotCommand} (h : c.owners.le = true) : c.owners.nu = false := by
  revert h; cases c <;> simp [SlotCommand.owners]

/-- A whole frame of a command that the lease engine takes part in, at a free port. -/
theorem slotFrame_takenByLe {p : Port} {s t : State} {op : Byte} {c : SlotCommand} {len d : Nat}
    (h : freePort p s = true) (hd : d ≤ len) (h1 : 1 ≤ d) (hc : c.owners.le = true)
    (e : takeCommand p c (takenByLe p op s) = t) :
    (Host.Outcome.next (slotFrame p op (decide (d ≤ len)) c len s) : Outcome) = .next (endAccepted p s [] len t) := by
  rw [decide_eq_true hd, slotFrame_free h op (owners_nu hc) (by omega), takenState, if_pos hc, e]

/-- A whole frame of a slot command that neither the lease engine nor the notice unit takes, at a free port. -/
theorem slotFrame_acceptedIn {p : Port} {s t : State} {op : Byte} {c : SlotCommand} {len d : Nat}
    (h : freePort p s = true) (hd : d ≤ len) (h1 : 1 ≤ d) (hc : c.owners.le = false) (hn : c.owners.nu = false)
    (e : takeCommand p c (acceptedIn p op s) = t) :
    (Host.Outcome.next (slotFrame p op (decide (d ≤ len)) c len s) : Outcome) = .next (endAccepted p s [] len t) := by
  rw [decide_eq_true hd, slotFrame_free h op hn (by omega), takenState, if_neg (by simp [hc]), e]

/-- A whole frame of a command of the notice unit, at a free port: the jobs that it releases go on (R152). -/
theorem slotFrame_acceptedInNu {p : Port} {s t : State} {op : Byte} {c : SlotCommand} {len d : Nat}
    (h : freePort p s = true) (hd : d ≤ len) (h1 : 1 ≤ d) (hc : c.owners.le = false)
    (e : takeCommand p c (acceptedIn p op s) = t) :
    (Host.Outcome.next (slotFrame p op (decide (d ≤ len)) c len s) : Outcome) =
      .next (endAccepted p s [] len (goOn t)) := by
  rw [decide_eq_true hd, slotFrame_freeNu h op c (by omega), takenState, if_neg (by simp [hc]), e]

/-- The defined length of a slot command's frame is at least 2 bytes (R163). -/
theorem slotLength_pos {i : Instr} {d : Nat} (h : slotLength? i = some d) : 2 ≤ d := by
  cases i <;> simp [slotLength?] at h <;> omega

/-- A slot command's frame received whole (R163, R178): one form for every opcode. -/
theorem exec_slotFrame {i : Instr} {c : SlotCommand} {d : Nat} {p : Port} {op : Byte} {ps : List Byte} {n : Nat}
    (hc : slotCommand? i = some c) (hd : slotLength? i = some d) (hf : frameLayout i = some (p, op, ps, n))
    (hw : i.wf = true) (hn : d ≤ n) (s : State) : exec i s = .next (slotFrame p op true c n s) := by
  cases i <;> simp only [slotCommand?, reduceCtorEq, Option.some.injEq] at hc <;>
    simp only [slotLength?, Option.some.injEq] at hd <;>
    simp only [frameLayout, Option.some.injEq, Prod.mk.injEq] at hf <;> obtain ⟨rfl, rfl, -, rfl⟩ := hf <;>
    subst hc <;> subst hd
  case write p f k pl n =>
    have hpl : pl.length = n - 5 := by
      simp only [Instr.wf, Instr.payloadAgrees, Bool.and_eq_true, decide_eq_true_eq] at hw; exact hw.2
    have : writeWhole k pl n = true := by
      simp only [writeWhole, Bool.and_eq_true, decide_eq_true_eq]; omega
    simp only [exec, execWrite, this]
  all_goals
    simp only [exec, execAcquire, execUpgrade, execDowngrade, execRenew, execRenewAll, execRelease, execQueryLease,
      execRead, execCommit, execCommitAll, execClear, execQuerySector, execSetWatch, execDropWatch, execSetLevels,
      execSetAttnMask, execSignalRead, execSignalModify, execDeviceInfo, execCounterSetup, execCounterRead,
      execSetRegion, execSetRegionUndefine, execSetLeasePeriod, execSetHoldLimit, execSetQuota, execSaveConfig,
      execBreak, execFence, execUnfence, hn, decide_true]

/-- A slot command accepted at an open port with an IDLE slot, whatever waits elsewhere: it is passed to its owner
(R165 to R167). -/
theorem slotFrame_accept {p : Port} {op : Byte} {c : SlotCommand} {n : Nat} {s : State} (ho : openPort p s = true)
    (hi : (s.plu.get p).slot = .idle) (hn : 1 ≤ n) :
    slotFrame p op true c n s = endAccepted p s [] n (passCommand p (s.modPlu p (fun u => u.accept op c))) := by
  simp only [openPort, Bool.and_eq_true, decide_eq_true_eq, Bool.not_eq_true'] at ho
  obtain ⟨⟨h1, h2⟩, h3⟩ := ho
  have hc : slotCheck p true s = none := by simp [slotCheck, portCloses, h2, h3, hi]
  simp [slotFrame, onFrame, takesFrame, hn, h1, hc]

/-- A slot command that neither the lease engine nor the notice unit takes, accepted at an open port with an IDLE slot and
behind no teardown: its owner takes it at once, whatever waits elsewhere (R24, R65, R167, R176). -/
theorem slotFrame_atOnce {p : Port} {op : Byte} {c : SlotCommand} {n : Nat} {s : State} (ho : openPort p s = true)
    (hi : (s.plu.get p).slot = .idle) (hr : s.released = []) (hn : 1 ≤ n) (hl : c.owners.le = false)
    (hu : c.owners.nu = false) (hb : c.behindTeardown (s.teardown.get p) = false) :
    slotFrame p op true c n s = endAccepted p s [] n (takeCommand p c (acceptedIn p op s)) := by
  have hw : ((s.modPlu p (fun u => u.accept op c)).plu.get p).waiting = some c := by simp [Plu.accept]
  have hs : (s.modPlu p (fun u => u.accept op c)).modPlu p (fun u => { u with waiting := none }) = acceptedIn p op s := by
    simp [acceptedIn, Plu.accept, Plu.busyWith]
  rw [slotFrame_accept ho hi hn, passCommand_taken hw hb hl, hs, goOn_idle]
  rw [(Keeps.takeCommand p hu _).released]
  exact hr

/-- So it is for a command with refused parameters, behind no teardown: it completes BAD_PARAM at once. -/
theorem slotFrame_refused {p : Port} {op : Byte} {c : SlotCommand} {n : Nat} {s : State} (ho : openPort p s = true)
    (hi : (s.plu.get p).slot = .idle) (hr : s.released = []) (hn : 1 ≤ n) (h : c.paramsRefused = true)
    (hb : c.owners.pwu = false ∨ (s.teardown.get p).pwu = false) :
    slotFrame p op true c n s = endAccepted p s [] n (finish p { status := .badParam } (acceptedIn p op s)) := by
  obtain ⟨hl, hu, hw⟩ := paramsRefused_owners h
  rw [slotFrame_atOnce ho hi hr hn hl hu, takeCommand_refused p h]
  simp only [SlotCommand.behindTeardown, hu, hw, Bool.false_and, Bool.or_false, Bool.and_eq_false_iff]
  exact hb

/-- A change of a port link unit is what it does to that unit. -/
theorem modPlu_congr {p : Port} {s : State} {f g : Plu → Plu} (h : f (s.plu.get p) = g (s.plu.get p)) :
    s.modPlu p f = s.modPlu p g := by simp [State.modPlu, PortMap.modify, h]

/-- The end of a rejected frame, in the statements' words. -/
theorem rejectFrame_eq (p : Port) (r : RejectReason) (len : Nat) (s : State) :
    rejectFrame p r len s =
      s.modPlu p (fun u => { u with reason := r, rejected := true, sdo := shownBytes p s [] len }) :=
  modPlu_congr rfl

/-- The end of an accepted frame, in the statements' words. -/
theorem endAccepted_eq (p : Port) (b : State) (l : List Byte) (len : Nat) (s : State) :
    endAccepted p b l len s = s.modPlu p (fun u => { u with reason := .none, sdo := shownBytes p b l len }) := rfl

/-- An immediate frame at an open port is accepted (R165). -/
theorem onFrame_open {p : Port} {s : State} {len : Nat} (h : openPort p s = true) (hl : 1 ≤ len)
    (f : State → List Byte × State) : onFrame p len (portCloses p s) f s = endAccepted p s (f s).1 len (f s).2 := by
  simp only [openPort, Bool.and_eq_true, decide_eq_true_eq, Bool.not_eq_true'] at h
  simp [onFrame, takesFrame, portCloses, hl, h]

end Sys2Proof.Machine
end

