-- ==== Sys2Proof/Laws/Issue.lean ====
section
/-! SUPPORT. How a write unit's command starts and issues its job when nothing keeps it from doing so, for each kind of
job; what a slot command that has a job leaves to its start (R82, R83); the leases of the table by slot and by id, and after
an update; a request that meets nothing. -/

namespace Sys2Proof.Machine

/-! ### Starting a command (R82, R83) -/

/-- No earlier job of the port and no waiting teardown: the command does not wait. -/
theorem jobWaits_false {p : Port} {s : State} (hj : noJob p s = true) (ht : s.teardown.get p = Teardowns.clear)
    (c : PwuCommand) : jobWaits p c s = false := by
  simp only [noJob, Bool.not_eq_true'] at hj
  simp [jobWaits, hj, ht, Teardowns.clear]

/-- Whether the port has a job is read from the media engine. -/
theorem noJob_congr {p : Port} {s t : State} (h : t.me = s.me) : noJob p t = noJob p s := by
  simp [noJob, jobAtMe, h]

/-- A free port has no waiting teardown. -/
theorem teardown_of_freePort {p : Port} {s : State} (h : freePort p s = true) (q : Port) :
    s.teardown.get q = Teardowns.clear := by
  simp only [freePort, Bool.and_eq_true] at h
  exact (((quiet_iff s).mp h.2).2.2 q).1

/-- Renewing touches the lease table only. -/
theorem renewLeases_fields (l : List Nat) (s : State) :
    (renewLeases l s).pwu = s.pwu ∧ (renewLeases l s).nu = s.nu ∧ (renewLeases l s).teardown = s.teardown ∧
      (renewLeases l s).me = s.me ∧ (renewLeases l s).plu = s.plu ∧ (renewLeases l s).ac = s.ac := by
  unfold renewLeases
  induction l generalizing s with
  | nil => simp
  | cons a t ih =>
    simp only [List.foldl_cons]
    have h := ih (renewLease a s)
    simpa [renewLease, updateLease] using h

/-- A command that does not wait goes on to its hold check. -/
theorem startCommand_free {p : Port} {c : PwuCommand} {s : State} (hj : noJob p s = true)
    (ht : s.teardown.get p = Teardowns.clear) : startCommand p c s = holdOrIssue p c (setCommand p (some c) s) := by
  simp [startCommand, jobWaits_false hj ht c]

/-- What RELEASE adds at the issue of its drain: its lease becomes ENDING (R37). -/
def endingAtIssue (a : PwuAction) (s : State) : State :=
  match a with
  | .release id => setLeaseEnding id .released s
  | _ => s

/-- A drain with something to drain and no hold: its slots become DRAINING, its job is issued (R37, R83). -/
theorem holdOrIssue_drain {p : Port} {c : PwuCommand} {s : State} (hd : c.action.isDrain = true)
    (hne : drainItems c.action (s.pwu.get p) ≠ [])
    (hb : blocked p .committed ((drainItems c.action (s.pwu.get p)).map (fun x => Range.single x.sector)) s = false) :
    holdOrIssue p c s =
      enqueueJob (.port (ownerOf p c) (.drain (drainItems c.action (s.pwu.get p))))
        (endingAtIssue c.action (s.modPwu p (fun u =>
          { u with slots := u.slots.map (fun x => if c.action.takes x then { x with state := .draining } else x),
                   command := some { c with stage := .issued } }))) := by
  have hq : holdQuestion c.action (s.pwu.get p) =
      some (.committed, (drainItems c.action (s.pwu.get p)).map (fun x => Range.single x.sector)) := by
    revert hd
    cases c.action <;> intro hd <;> first | rfl | exact absurd hd (by simp [PwuAction.isDrain])
  have hi : issueJob p c s = issueDrain p c s := by
    unfold issueJob
    revert hd
    cases c.action <;> intro hd <;> first | rfl | exact absurd hd (by simp [PwuAction.isDrain])
  rw [holdOrIssue, hq]
  simp only [hb, Bool.false_eq_true, if_false, hi]
  unfold issueDrain
  simp only [List.isEmpty_eq_false_iff.mpr hne, Bool.false_eq_true, if_false]
  rfl

/-- The same from the command's acceptance. -/
theorem startCommand_drain {p : Port} {c : PwuCommand} {s : State} (hj : noJob p s = true)
    (ht : s.teardown.get p = Teardowns.clear) (hd : c.action.isDrain = true)
    (hne : drainItems c.action (s.pwu.get p) ≠ [])
    (hb : blocked p .committed ((drainItems c.action (s.pwu.get p)).map (fun x => Range.single x.sector)) s = false) :
    startCommand p c s =
      enqueueJob (.port (ownerOf p c) (.drain (drainItems c.action (s.pwu.get p))))
        (endingAtIssue c.action (s.modPwu p (fun u =>
          { u with slots := u.slots.map (fun x => if c.action.takes x then { x with state := .draining } else x),
                   command := some { c with stage := .issued } }))) := by
  have hdr : drainItems c.action ((setCommand p (some c) s).pwu.get p) = drainItems c.action (s.pwu.get p) := by
    simp [setCommand, drainItems]
  rw [startCommand_free hj ht, holdOrIssue_drain hd (by rw [hdr]; exact hne) (by rw [hdr]; exact hb), hdr]
  simp [setCommand]

/-- A READ's job, or a META job, issued at the command's acceptance (R91, R114). -/
theorem startCommand_plain {p : Port} {c : PwuCommand} {s : State} {w : JobWork} (hj : noJob p s = true)
    (ht : s.teardown.get p = Teardowns.clear)
    (hw : (∃ r l, c.action = .read r l ∧ w = .read l) ∨ (c.action = .saveConfig ∧ w = .metadata)) :
    startCommand p c s =
      enqueueJob (.port (ownerOf p c) w) (s.modPwu p (fun u => { u with command := some { c with stage := .issued } })) := by
  rw [startCommand_free hj ht]
  rcases hw with ⟨r, l, h, rfl⟩ | ⟨h, rfl⟩ <;> simp [holdOrIssue, holdQuestion, issueJob, h, setCommand]

/-- A CLEAR's job issued, with the STAGED slots in its blocks discarded, when no hold stands against it (R83, R130). -/
theorem holdOrIssue_clear {p : Port} {c : PwuCommand} {s : State} {blocks : List Nat} {cut : Bool} {formed : Option Range}
    (ha : c.action = .clear blocks cut formed) (hb : blocked p .cleared (blocks.map blockRange) s = false) :
    holdOrIssue p c s =
      enqueueJob (.port (ownerOf p c) (.clear blocks)) ((s.modPwu p (fun u =>
        { u with command := some { c with stage := .issued } })).modPwu p (discardInBlocks blocks)) := by
  simp [holdOrIssue, holdQuestion, issueJob, ha, hb, setCommand]

/-- The same from the command's acceptance. -/
theorem startCommand_clear {p : Port} {c : PwuCommand} {s : State} {blocks : List Nat} {cut : Bool}
    {formed : Option Range} (hj : noJob p s = true) (ht : s.teardown.get p = Teardowns.clear)
    (ha : c.action = .clear blocks cut formed) (hb : blocked p .cleared (blocks.map blockRange) s = false) :
    startCommand p c s =
      enqueueJob (.port (ownerOf p c) (.clear blocks)) ((s.modPwu p (fun u =>
        { u with command := some { c with stage := .issued } })).modPwu p (discardInBlocks blocks)) := by
  rw [startCommand_free hj ht, holdOrIssue_clear ha (by exact hb)]
  simp [setCommand]

/-! ### The lease that an id names after its update (R21) -/

/-- The slot of `id` updated by `f`: `id` names what `f` makes of its lease. -/
theorem tableLookup_tableUpdate (t : List LeaseSlot) (id : Nat) (f : Lease → Option Lease) :
    tableLookup (tableUpdate t id f) id = (tableLookup t id).bind f := by
  unfold tableLookup tableUpdate
  rw [List.getElem?_modify]
  cases h : t[id % Config.leaseSlots]? with
  | none => simp
  | some x => by_cases k : x.tag.toNat = id / Config.leaseSlots <;> simp [k]

/-- The same for the state. -/
theorem findLease_updateLease (s : State) (id : Nat) (f : Lease → Option Lease) :
    findLease (updateLease id f s) id = (findLease s id).bind f := tableLookup_tableUpdate _ _ _

/-- A HELD lease of the port, as its id names it. -/
theorem ownHeldLease_iff {p : Port} {id : Nat} {s : State} {l : Lease} :
    ownHeldLease p id s = some l ↔ findLease s id = some l ∧ l.holder = p ∧ l.state = .held := by
  simp [ownHeldLease, Option.filter_eq_some_iff]

/-! ### The leases of the table, by slot and by id (R20, R21) -/

/-- The leases listed are those of the filled slots, with their ids. -/
theorem mem_leasesFrom (l : List LeaseSlot) (k : Nat) (x : Nat × Lease) : x ∈ leasesFrom k l ↔
    ∃ j y, l[j]? = some y ∧ y.lease = some x.2 ∧ x.1 = leaseIdOf (k + j) y.tag := by
  induction l generalizing k with
  | nil => simp [leasesFrom]
  | cons a t ih =>
    have cut : (∃ j y, (a :: t)[j]? = some y ∧ y.lease = some x.2 ∧ x.1 = leaseIdOf (k + j) y.tag) ↔
        (a.lease = some x.2 ∧ x.1 = leaseIdOf k a.tag) ∨
        ∃ j y, t[j]? = some y ∧ y.lease = some x.2 ∧ x.1 = leaseIdOf (k + 1 + j) y.tag := by
      constructor
      · rintro ⟨j, y, h, h1, h2⟩
        cases j with
        | zero => simp at h; subst h; exact Or.inl ⟨h1, h2⟩
        | succ j => exact Or.inr ⟨j, y, by simpa using h, h1, by rw [h2]; congr 1; omega⟩
      · rintro (⟨h1, h2⟩ | ⟨j, y, h, h1, h2⟩)
        · exact ⟨0, a, by simp, h1, h2⟩
        · exact ⟨j + 1, y, by simpa using h, h1, by rw [h2]; congr 1; omega⟩
    rw [cut, leasesFrom]
    split
    · rename_i l hl
      rw [List.mem_cons, ih]
      constructor
      · rintro (h | h)
        · subst h; exact Or.inl ⟨hl, rfl⟩
        · exact Or.inr h
      · rintro (⟨h1, h2⟩ | h)
        · rw [hl] at h1; injection h1 with h1; subst h1; exact Or.inl (by ext1 <;> simp [h2])
        · exact Or.inr h
    · rename_i hl
      rw [ih]; simp [hl]

/-- Slot and tag of an id (R21). -/
theorem leaseIdOf_slot {slot : Nat} (h : slot < 64) (tag : BitVec 2) :
    leaseIdOf slot tag % 64 = slot ∧ leaseIdOf slot tag / 64 = tag.toNat := by
  simp only [leaseIdOf, Config.leaseSlots]; omega

/-- In a table of 64 slots the leases listed are those that an id names. -/
theorem mem_leases {s : State} (h : s.le.table.length = 64) (id : Nat) (l : Lease) :
    (id, l) ∈ leases s ↔ findLease s id = some l := by
  rw [leases, mem_leasesFrom]
  simp only [Nat.zero_add, findLease, tableLookup]
  constructor
  · rintro ⟨j, y, hj, hy, hid⟩
    obtain ⟨a, b⟩ := leaseIdOf_slot (h ▸ (List.getElem?_eq_some_iff.mp hj).1) y.tag
    have hid : leaseIdOf j y.tag = id := hid.symm
    subst hid
    simp only [Config.leaseSlots, a, b, hj, hy, if_true]
  · intro k
    split at k
    · rename_i y hy
      by_cases ht : y.tag.toNat = id / Config.leaseSlots
      · rw [if_pos ht] at k
        refine ⟨_, y, hy, k, ?_⟩
        simp only [leaseIdOf, ht, Config.leaseSlots]
        omega
      · rw [if_neg ht] at k; cases k
    · cases k

/-- The list goes by ascending slot. -/
theorem pairwise_leasesFrom (l : List LeaseSlot) (k : Nat) (hk : k + l.length ≤ 64) :
    (leasesFrom k l).Pairwise (fun a b => a.1 % 64 < b.1 % 64) := by
  induction l generalizing k with
  | nil => simp [leasesFrom]
  | cons a t ih =>
    simp only [List.length_cons] at hk
    rw [leasesFrom]
    split
    · refine List.pairwise_cons.mpr ⟨?_, ih _ (by omega)⟩
      intro b hb
      obtain ⟨j, y, hj, _, hid⟩ := (mem_leasesFrom _ _ _).mp hb
      have : j < t.length := (List.getElem?_eq_some_iff.mp hj).1
      rw [hid, (leaseIdOf_slot (by omega) _).1, (leaseIdOf_slot (by omega) _).1]
      omega
    · exact ih _ (by omega)

/-! ### A request that meets nothing (R28, R30, R51) -/

/-- A request that no lease and no earlier entry conflicts with has no blocker. -/
theorem blockerOf_none {e : WaitEntry} {l : List WaitEntry} {s : State} (h1 : ∀ x ∈ leases s, e.meetsLease x = false)
    (h2 : ∀ f ∈ l, e.meetsEntry f = false) : blockerOf e l s = none := by
  unfold blockerOf
  rw [List.find?_eq_none.mpr (by simpa using h1)]
  simpa using h2

/-- Sectors that fail no check of R5 pass the check of their range. -/
theorem dataCheck_none {p : Port} {w : Bool} {r : Range} {s : State}
    (h : ∀ n ∈ r.sectors, accessFails p w s n = false ∧ leaseFails p w s n = false) : dataCheck p w r s = none := by
  unfold dataCheck
  rw [List.find?_eq_none.mpr (by intro n hn; simp [(h n hn).1]),
    List.find?_eq_none.mpr (by intro n hn; simp [(h n hn).2])]

/-! ### The commands that have a job (R82, R83) -/

/-- What a WRITE or CLEAR keeps of its range (R1). -/
theorem truncateRange_kept {f n : Nat} {r : Range} {cut : Bool} (h : KeptRange f n r cut) :
    truncateRange { first := f, count := n } = (r, cut) := by
  rcases h with ⟨rfl, h, rfl⟩ | ⟨rfl, h, rfl⟩
  · simp [truncateRange, Config.userSectors, h]
  · simp [truncateRange, Config.userSectors, Nat.not_le.mpr h]

/-- A command with a job is noted at the write unit and started (R82, R83). -/
theorem exec_hasJob {p : Port} {len : Nat} {s t : State} {i : Instr} {a : PwuAction} {bound : List Nat}
    (h : HasJob p len s i a bound t) (hp : freePort p s = true) :
    exec i s = .next (endAccepted p s [] len (startCommand p
      { serial := nextSerial p s, action := a, bound := bound, stage := .waiting, holdExpired := false,
        broken := [] } t)) := by
  cases h with
  | read first count r rest hl hr h1 h2 h3 hc hrest hne =>
    subst hr
    have hb := (readParams_iff first count).mpr ⟨h1, h2, h3⟩
    refine slotFrame_takenByLe hp hl (by omega) hb ?_
    have e : unstagedSectors (s.pwu.get p) { first := first.toNat, count := count.toNat } = rest := hrest.symm
    simp only [takeCommand, takeRead, hb, if_true, takenByLe_dataCheck, dataCheck_none hc, acceptRead, takenByLe_pwu, e,
      List.isEmpty_eq_false_iff.mpr hne, Bool.false_eq_true, if_false, takenByLe_coveringLeases, takenByLe_serial]
    rfl
  | write first count payload r cut flush leased opens h1 h2 hl hpl hf hk hc hle ho hfl hj =>
    have hw : writeWhole count payload len = decide (5 + 512 * count.toNat ≤ len) := by
      have : payloadLength count = 512 * count.toNat := by
        simp [payloadLength, h1, h2, Config.sectorBytes]; omega
      simp [writeWhole, this, hpl]
    show Host.Outcome.next (slotFrame p 0x21#8 (writeWhole count payload len) _ len s) = _
    rw [hw]
    have hb := (writeParams_iff first count).mpr ⟨h1, h2, hf⟩
    refine slotFrame_takenByLe hp hl (by omega) hb ?_
    have e : ((openItemsOf (writeItems r payload) s).isEmpty &&
        !decide (freeSlots (s.pwu.get p) < newSlots (s.pwu.get p) (leasedItems p (writeItems r payload) s))) = false := by
      rw [← ho, ← hle]
      have : decide (freeSlots (s.pwu.get p) < newSlots (s.pwu.get p) leased) = flush := hfl.symm
      rw [this]
      rcases hj with h | h
      · simp [List.isEmpty_eq_false_iff.mpr h]
      · simp [h]
    subst hle ho hfl
    simp only [takeCommand, takeWrite, if_pos hb, truncateRange_kept hk, takenByLe_dataCheck, dataCheck_none hc,
      acceptWrite]
    have ei : ∀ l, leasedItems p l (takenByLe p 0x21#8 s) = leasedItems p l s := fun _ => rfl
    have eo : ∀ l, openItemsOf l (takenByLe p 0x21#8 s) = openItemsOf l s := fun _ => rfl
    simp only [ei, eo, takenByLe_pwu, e, Bool.false_eq_true, if_false, takenByLe_coveringLeases, takenByLe_serial]
    rfl
  | commit id l hl ho hne =>
    refine slotFrame_takenByLe hp hl (by omega) rfl ?_
    have e : ((renewLease id.toNat (takenByLe p 0x22#8 s)).pwu.get p) = s.pwu.get p := rfl
    have es : ((renewLease id.toNat (takenByLe p 0x22#8 s)).plu.get p).serial = nextSerial p s := takenByLe_serial p _ s
    simp only [takeCommand, takeCommit, takenByLe_ownHeldLease, ho, acceptCommit, e, es,
      List.isEmpty_eq_false_iff.mpr hne, Bool.false_eq_true, if_false]
  | commitAll selector hl hne =>
    refine slotFrame_takenByLe hp hl (by omega) rfl ?_
    simp only [takeCommand, takeCommitAll, acceptCommit, takenByLe_pwu, takenByLe_heldLeases]
    have f := renewLeases_fields ((heldLeases p s).filter (fun id => (stagedLeases (s.pwu.get p)).contains id))
      (takenByLe p 0x22#8 s)
    simp only [f.1, f.2.2.2.2.1, takenByLe_pwu, takenByLe_serial, List.isEmpty_eq_false_iff.mpr hne, Bool.false_eq_true,
      if_false]
  | clear first count cmd eff cut hl h1 h2 hf hk hc he hw =>
    have hb := (clearParams_iff first count).mpr ⟨h1, h2, hf⟩
    refine slotFrame_takenByLe hp hl (by omega) hb ?_
    subst he
    simp only [takeCommand, takeClear, if_pos hb, truncateRange_kept hk, takenByLe_dataCheck, dataCheck_none hc,
      acceptClear, takenByLe_pwu, List.isEmpty_eq_false_iff.mpr hw, Bool.false_eq_true, if_false,
      takenByLe_coveringLeases, takenByLe_serial]
    rfl
  | release id l hl ho hne =>
    refine slotFrame_takenByLe hp hl (by omega) rfl ?_
    simp [takeCommand, takeRelease, ho, yes, hne]
  | downgrade id l hl ho hm hne =>
    refine slotFrame_takenByLe hp hl (by omega) rfl ?_
    simp [takeCommand, takeDowngrade, ho, hm, hne]
  | saveConfig hl hs =>
    refine slotFrame_acceptedIn hp hl (by omega) rfl rfl ?_
    have ht : (s.teardown.get p).pwu = false := by rw [teardown_of_freePort hp p]; rfl
    simp only [takeCommand, takeSaveConfig, asSupervisor, acceptedIn_ac, ← hs, if_true, handMetaJob, State.modAc_teardown,
      acceptedIn_teardown, ht, Bool.false_eq_true, if_false, takeMetaJob, State.modAc_plu, acceptedIn_serial]
    rfl

/-- What a command with a job leaves alone until the job: the media engine, the notice unit, the hold list, the teardowns,
H and the staging slots. -/
theorem hasJob_fields {p : Port} {len : Nat} {s t : State} {i : Instr} {a : PwuAction} {bound : List Nat}
    (h : HasJob p len s i a bound t) : t.me = s.me ∧ t.nu = s.nu ∧ t.holdList = s.holdList ∧ t.teardown = s.teardown ∧
      t.ac.holdLimit = s.ac.holdLimit ∧ (t.pwu.get p).slots = (s.pwu.get p).slots := by
  have f := renewLeases_fields
  have fh : ∀ l u, (renewLeases l u).holdList = u.holdList := by
    intro l u; unfold renewLeases
    induction l generalizing u with
    | nil => rfl
    | cons a t ih => exact ih _
  have fd : ∀ (u : WriteUnit) r, (u.dropPending r).slots = u.slots := by
    intro u r; rfl
  cases h <;> simp [f, fh, fd, renewLease, updateLease]

/-- Overlap is symmetric. -/
theorem Range.overlaps_comm (a b : Range) : a.overlaps b = b.overlaps a := by
  simp only [Range.overlaps, Nat.max_comm, Nat.min_comm]

end Sys2Proof.Machine
end

