-- ==== Sys2Proof/Laws/Memory.lean ====
section
/-! SUPPORT. The array's bytes: what a read gives after a write or a clear, and that both keep the canonical form. -/

namespace Sys2Proof.Machine

/-- The Bool test of rising addresses says that each address is below every later one. -/
theorem cellsRise_iff (m : List Host.Cell) : cellsRise m = true ↔ m.Pairwise (fun a b => a.1 < b.1) := by
  induction m with
  | nil => simp [cellsRise]
  | cons a t ih =>
    cases t with
    | nil => simp [cellsRise]
    | cons b u =>
      rw [cellsRise, Bool.and_eq_true, ih, List.pairwise_cons (a := a)]
      constructor
      · rintro ⟨h, hp⟩
        refine ⟨?_, hp⟩
        intro c hc
        have hab : a.1 < b.1 := by simpa using h
        rcases List.mem_cons.mp hc with rfl | hc'
        · exact hab
        · exact lt_trans hab ((List.pairwise_cons.mp hp).1 c hc')
      · rintro ⟨h, hp⟩
        exact ⟨by simpa using h b (by simp), hp⟩

/-- The canonical form, as a proposition. -/
theorem wf_iff (m : List Host.Cell) :
    Memory.wf m = true ↔
      m.Pairwise (fun a b => a.1 < b.1) ∧ ∀ c ∈ m, c.1 < arrayBytes ∧ c.2 ≠ blankByte := by
  simp [Memory.wf, cellsRise_iff]

/-- The cells of a run of bytes lie within the run and list no blank byte. -/
theorem cellsOf_mem {data : List Byte} {base : Nat} {c : Host.Cell} (h : c ∈ cellsOf base data) :
    base ≤ c.1 ∧ c.1 < base + data.length ∧ c.2 ≠ blankByte := by
  induction data generalizing base with
  | nil => simp [cellsOf] at h
  | cons b t ih =>
    simp only [cellsOf] at h
    split at h
    · have := ih h
      simp only [List.length_cons]
      exact ⟨by omega, by omega, this.2.2⟩
    · rename_i hb
      rcases List.mem_cons.mp h with rfl | h'
      · simp [hb]
      · have := ih h'
        simp only [List.length_cons]
        refine ⟨by omega, by omega, this.2.2⟩

theorem cellsOf_pairwise (data : List Byte) (base : Nat) :
    (cellsOf base data).Pairwise (fun a b => a.1 < b.1) := by
  induction data generalizing base with
  | nil => simp [cellsOf]
  | cons b t ih =>
    simp only [cellsOf]
    split
    · exact ih _
    · refine List.pairwise_cons.mpr ⟨?_, ih _⟩
      intro c hc
      have := (cellsOf_mem hc).1
      simp only
      omega

/-- A write inside the array keeps the canonical form. -/
theorem wf_write {m : List Host.Cell} {base : Nat} {data : List Byte} (h : Memory.wf m = true)
    (hb : base + data.length ≤ arrayBytes) : Memory.wf (Memory.write m base data) = true := by
  rw [wf_iff] at h ⊢
  obtain ⟨hp, hm⟩ := h
  constructor
  · rw [Memory.write, List.pairwise_append, List.pairwise_append]
    refine ⟨⟨hp.filter _, cellsOf_pairwise _ _, ?_⟩, hp.filter _, ?_⟩
    · intro a ha b hb'
      have h1 : a.1 < base := by simpa using (List.mem_filter.mp ha).2
      have h2 := (cellsOf_mem hb').1
      omega
    · intro a ha b hb'
      have h2 : base + data.length ≤ b.1 := by simpa using (List.mem_filter.mp hb').2
      rcases List.mem_append.mp ha with ha | ha
      · have h1 : a.1 < base := by simpa using (List.mem_filter.mp ha).2
        omega
      · have h1 := (cellsOf_mem ha).2.1
        omega
  · intro c hc
    rw [Memory.write, List.mem_append, List.mem_append] at hc
    rcases hc with (hc | hc) | hc
    · exact hm c (List.mem_filter.mp hc).1
    · have := cellsOf_mem hc
      exact ⟨by omega, this.2.2⟩
    · exact hm c (List.mem_filter.mp hc).1

/-- A clear keeps the canonical form. -/
theorem wf_clear {m : List Host.Cell} (base n : Nat) (h : Memory.wf m = true) :
    Memory.wf (Memory.clear m base n) = true := by
  rw [wf_iff] at h ⊢
  exact ⟨h.1.filter _, fun c hc => h.2 c (List.mem_filter.mp hc).1⟩

theorem read_append_of_not_mem {l r : List Host.Cell} {a : Nat} (h : ∀ c ∈ l, c.1 ≠ a) :
    Memory.read (l ++ r) a = Memory.read r a := by
  induction l with
  | nil => rfl
  | cons c t ih =>
    rw [List.cons_append, Memory.read, if_neg (h c (by simp))]
    exact ih (fun d hd => h d (by simp [hd]))

theorem read_of_not_mem {m : List Host.Cell} {a : Nat} (h : ∀ c ∈ m, c.1 ≠ a) : Memory.read m a = blankByte := by
  induction m with
  | nil => rfl
  | cons c t ih =>
    rw [Memory.read, if_neg (h c (by simp))]
    exact ih (fun d hd => h d (by simp [hd]))

theorem read_append_of_no_right {l r : List Host.Cell} {a : Nat} (h : ∀ c ∈ r, c.1 ≠ a) :
    Memory.read (l ++ r) a = Memory.read l a := by
  induction l with
  | nil => simpa [Memory.read] using read_of_not_mem h
  | cons c t ih => rw [List.cons_append, Memory.read, Memory.read, ih]

theorem read_filter {m : List Host.Cell} {p : Host.Cell → Bool} {a : Nat} (h : ∀ c : Host.Cell, c.1 = a → p c = true) :
    Memory.read (m.filter p) a = Memory.read m a := by
  induction m with
  | nil => rfl
  | cons c t ih =>
    by_cases hc : c.1 = a
    · rw [List.filter_cons_of_pos (h c hc), Memory.read, Memory.read, if_pos hc, if_pos hc]
    · by_cases hp : p c = true
      · rw [List.filter_cons_of_pos hp, Memory.read, Memory.read, if_neg hc, if_neg hc, ih]
      · rw [List.filter_cons_of_neg hp, Memory.read, if_neg hc, ih]

theorem read_cellsOf (data : List Byte) (base i : Nat) (h : i < data.length) :
    Memory.read (cellsOf base data) (base + i) = data.getD i 0#8 := by
  induction data generalizing base i with
  | nil => simp at h
  | cons b t ih =>
    cases i with
    | zero =>
      simp only [cellsOf, Nat.add_zero, List.getD_cons_zero]
      split
      · rename_i hb
        rw [hb]
        exact read_of_not_mem (fun c hc => by have := (cellsOf_mem hc).1; omega)
      · simp [Memory.read]
    | succ j =>
      have hj : j < t.length := by simpa using h
      have := ih (base + 1) j hj
      rw [show base + 1 + j = base + (j + 1) from by omega] at this
      simp only [cellsOf, List.getD_cons_succ]
      split
      · exact this
      · rw [Memory.read, if_neg (by simp), this]

/-- A byte inside a written run reads as the run's byte. -/
theorem read_write_inside (m : List Host.Cell) (base i : Nat) (data : List Byte) (h : i < data.length) :
    Memory.read (Memory.write m base data) (base + i) = data.getD i 0#8 := by
  rw [Memory.write, List.append_assoc, read_append_of_not_mem, read_append_of_no_right, read_cellsOf _ _ _ h]
  · intro c hc
    have h2 : base + data.length ≤ c.1 := by simpa using (List.mem_filter.mp hc).2
    omega
  · intro c hc
    have h2 : c.1 < base := by simpa using (List.mem_filter.mp hc).2
    omega

/-- A byte outside a written run reads as before. -/
theorem read_write_outside (m : List Host.Cell) (base a : Nat) (data : List Byte)
    (h : a < base ∨ base + data.length ≤ a) : Memory.read (Memory.write m base data) a = Memory.read m a := by
  rw [Memory.write]
  rcases h with h | h
  · rw [List.append_assoc, read_append_of_no_right, read_filter]
    · intro c hc
      simp [hc, h]
    · intro c hc
      rcases List.mem_append.mp hc with hc | hc
      · have := (cellsOf_mem hc).1
        omega
      · have h2 : base + data.length ≤ c.1 := by simpa using (List.mem_filter.mp hc).2
        omega
  · rw [read_append_of_not_mem, read_filter]
    · intro c hc
      simp [hc, h]
    · intro c hc
      rcases List.mem_append.mp hc with hc | hc
      · have h2 : c.1 < base := by simpa using (List.mem_filter.mp hc).2
        omega
      · have := (cellsOf_mem hc).2.1
        omega

/-- A byte inside a cleared run reads FFh. -/
theorem read_clear_inside (m : List Host.Cell) (base n a : Nat) (h : base ≤ a ∧ a < base + n) :
    Memory.read (Memory.clear m base n) a = blankByte := by
  refine read_of_not_mem (fun c hc => ?_)
  have h2 : c.1 < base ∨ base + n ≤ c.1 := by simpa using (List.mem_filter.mp hc).2
  omega

/-- A byte outside a cleared run reads as before. -/
theorem read_clear_outside (m : List Host.Cell) (base n a : Nat) (h : a < base ∨ base + n ≤ a) :
    Memory.read (Memory.clear m base n) a = Memory.read m a := by
  rw [Memory.clear, read_filter]
  intro c hc
  simpa [hc] using h

/-- The array of a reset machine has the canonical form. -/
theorem wf_reset : Memory.wf State.reset.me.array = true := rfl

end Sys2Proof.Machine
end

