-- ==== Sys2Proof/Laws/Notices.lean ====
section
/-! SUPPORT. What an event delivered by the notice unit changes and leaves alone, and which records it gives each port: the
watches of a table, the part of a change inside a watch (R139 to R145). -/

namespace Sys2Proof.Machine

/-! ### What delivery leaves alone -/

/-- Only the port link units (their counters) and the notice unit's state differ. -/
structure NoticesOnly (s t : State) : Prop where
  eq : t = { s with plu := t.plu, nu := t.nu }

namespace NoticesOnly

theorem refl (s : State) : NoticesOnly s s := ⟨rfl⟩

theorem trans {s t u : State} (h : NoticesOnly s t) (k : NoticesOnly t u) : NoticesOnly s u :=
  ⟨by rw [k.eq, h.eq]⟩

theorem foldl {α : Type} {f : State → α → State} (h : ∀ t x, NoticesOnly t (f t x)) (l : List α) (s : State) :
    NoticesOnly s (l.foldl f s) := by
  induction l generalizing s with
  | nil => exact refl s
  | cons a t ih => exact (h s a).trans (ih _)

theorem placeNotice (p : Port) (s : State) (n : Notice) : NoticesOnly s (Machine.placeNotice p s n) := by
  unfold Machine.placeNotice
  split <;> exact ⟨rfl⟩

theorem deliver (r : Port → List Notice) (s : State) : NoticesOnly s (Machine.deliver r s) :=
  foldl (fun t p => foldl (fun t n => placeNotice p t n) (r p) t) _ _

theorem le {s t : State} (h : NoticesOnly s t) : t.le = s.le := by rw [h.eq]
theorem me {s t : State} (h : NoticesOnly s t) : t.me = s.me := by rw [h.eq]
theorem pwu {s t : State} (h : NoticesOnly s t) : t.pwu = s.pwu := by rw [h.eq]
theorem ac {s t : State} (h : NoticesOnly s t) : t.ac = s.ac := by rw [h.eq]
theorem eu {s t : State} (h : NoticesOnly s t) : t.eu = s.eu := by rw [h.eq]
theorem device {s t : State} (h : NoticesOnly s t) : t.device = s.device := by rw [h.eq]
theorem teardown {s t : State} (h : NoticesOnly s t) : t.teardown = s.teardown := by rw [h.eq]
theorem holdList {s t : State} (h : NoticesOnly s t) : t.holdList = s.holdList := by rw [h.eq]
theorem released {s t : State} (h : NoticesOnly s t) : t.released = s.released := by rw [h.eq]
theorem swb {s t : State} (h : NoticesOnly s t) : t.swb = s.swb := by rw [h.eq]

end NoticesOnly

/-! ### One port's queue under a delivery (R139, R145) -/

theorem placeNotice_nu_ne {p q : Port} (h : q ≠ p) (n : Notice) (s : State) :
    (placeNotice p s n).nu.get q = s.nu.get q := by
  unfold placeNotice
  split
  · simp [PortMap.get_modify_ne, h]
  · show (s.modNu p (fun u => { u with overrun := true })).nu.get q = _
    simp [PortMap.get_modify_ne, h]

theorem placeAll_nu_ne {p q : Port} (h : q ≠ p) (ns : List Notice) (s : State) :
    (placeAll p ns s).nu.get q = s.nu.get q := by
  unfold placeAll
  induction ns generalizing s with
  | nil => rfl
  | cons a t ih =>
    simp only [List.foldl_cons]
    rw [ih]
    exact placeNotice_nu_ne h a s

/-- What a record does to a port's queue is read from that port's notice state. -/
theorem placeNotice_nu_congr {q : Port} {s t : State} (h : s.nu.get q = t.nu.get q) (n : Notice) :
    (placeNotice q s n).nu.get q = (placeNotice q t n).nu.get q := by
  unfold placeNotice
  rw [h]
  split
  · simp [h]
  · show (s.modNu q _).nu.get q = (t.modNu q _).nu.get q
    simp [h]

theorem placeAll_nu_congr {q : Port} {s t : State} (h : s.nu.get q = t.nu.get q) (ns : List Notice) :
    (placeAll q ns s).nu.get q = (placeAll q ns t).nu.get q := by
  unfold placeAll
  induction ns generalizing s t with
  | nil => exact h
  | cons a l ih =>
    simp only [List.foldl_cons]
    exact ih (placeNotice_nu_congr h a)

/-- A delivery gives each port its own records, as if no other port had any. -/
theorem deliver_nu (r : Port → List Notice) (s : State) (q : Port) :
    (deliver r s).nu.get q = (placeAll q (r q) s).nu.get q := by
  simp only [deliver, Port.all, List.foldl_cons, List.foldl_nil]
  cases q
  · simp [placeAll_nu_ne]
  · rw [placeAll_nu_ne (by decide), placeAll_nu_ne (by decide)]
    exact placeAll_nu_congr (by simp [placeAll_nu_ne]) _
  · rw [placeAll_nu_ne (by decide)]
    exact placeAll_nu_congr (by simp [placeAll_nu_ne]) _
  · exact placeAll_nu_congr (by simp [placeAll_nu_ne]) _

/-! ### The watches of a table, in index order (R135) -/

theorem mem_watchesFrom (l : List (Option Watch)) (n i : Nat) (w : Watch) :
    (i, w) ∈ watchesFrom n l ↔ n ≤ i ∧ l[i - n]? = some (some w) := by
  induction l generalizing n with
  | nil => simp [watchesFrom]
  | cons a t ih =>
    have key : (n + 1 ≤ i ∧ t[i - (n + 1)]? = some (some w)) ↔ (n < i ∧ (a :: t)[i - n]? = some (some w)) := by
      constructor
      · rintro ⟨h1, h2⟩
        refine ⟨h1, ?_⟩
        rw [show i - n = (i - (n + 1)) + 1 by omega]
        simpa using h2
      · rintro ⟨h1, h2⟩
        refine ⟨h1, ?_⟩
        rw [show i - n = (i - (n + 1)) + 1 by omega] at h2
        simpa using h2
    cases a with
    | none =>
      simp only [watchesFrom, ih, key]
      constructor
      · rintro ⟨h1, h2⟩
        exact ⟨by omega, h2⟩
      · rintro ⟨h1, h2⟩
        refine ⟨?_, h2⟩
        rcases Nat.lt_or_eq_of_le h1 with k | k
        · exact k
        · subst k
          simp at h2
    | some v =>
      simp only [watchesFrom, List.mem_cons, ih, key, Prod.mk.injEq]
      constructor
      · rintro (⟨rfl, rfl⟩ | ⟨h1, h2⟩)
        · simp
        · exact ⟨by omega, h2⟩
      · rintro ⟨h1, h2⟩
        rcases Nat.lt_or_eq_of_le h1 with k | k
        · exact Or.inr ⟨k, h2⟩
        · subst k
          left
          simp at h2
          exact ⟨rfl, h2.symm⟩

theorem pairwise_watchesFrom (l : List (Option Watch)) (n : Nat) :
    (watchesFrom n l).Pairwise (fun x y => x.1 < y.1) := by
  induction l generalizing n with
  | nil => simp [watchesFrom]
  | cons a t ih =>
    cases a with
    | none => exact ih _
    | some v =>
      simp only [watchesFrom]
      refine List.pairwise_cons.mpr ⟨?_, ih _⟩
      rintro ⟨i, w⟩ h
      have := (mem_watchesFrom _ _ _ _).mp h
      simp only
      omega

theorem mem_watchesOf (p : Port) (s : State) (i : Nat) (w : Watch) :
    (i, w) ∈ watchesOf p s ↔ (s.nu.get p).watches[i]? = some (some w) := by
  simp [watchesOf, mem_watchesFrom]

/-- Records taken from a port's watches, each with its watch's index, stand in watch order (R139). -/
theorem pairwise_records {f : Nat × Watch → Option Notice} {p : Port} {s : State}
    (h : ∀ x n, f x = some n → n.watch = some x.1) :
    ((watchesOf p s).filterMap f).Pairwise (fun x y => x.watch.getD 0 < y.watch.getD 0) := by
  rw [List.pairwise_filterMap]
  refine (pairwise_watchesFrom _ _).imp ?_
  intro a b hab x hx y hy
  rw [h _ _ hx, h _ _ hy]
  exact hab

/-! ### The part of a change inside a watch (R140) -/

theorem single_common (n : Nat) (r : Range) :
    (Range.single n).common r = if r.contains n then some { first := n, count := 1 } else none := by
  unfold Range.common Range.single Range.overlaps Range.contains
  by_cases h : r.first ≤ n ∧ n < r.first + r.count
  · have e : max n r.first < min (n + 1) (r.first + r.count) := by omega
    simp [h]
  · have e : ¬ (max n r.first < min (n + 1) (r.first + r.count)) := by omega
    rw [if_neg (by simpa using e), if_neg (by simpa using h)]

/-- The hull of single sectors goes from the lowest to the highest. -/
theorem hull_singles (l : List Nat) (c : Range) :
    hull (l.map (fun n => ({ first := n, count := 1 } : Range))) = some c ↔
      ∃ a b, a ∈ l ∧ b ∈ l ∧ (∀ n ∈ l, a ≤ n ∧ n ≤ b) ∧ c = { first := a, count := b + 1 - a } := by
  induction l generalizing c with
  | nil => simp [hull]
  | cons x t ih =>
    simp only [List.map_cons, hull]
    cases ht : hull (t.map (fun n => ({ first := n, count := 1 } : Range))) with
    | none =>
      have : t = [] := by
        cases t with
        | nil => rfl
        | cons y u => simp [hull] at ht; split at ht <;> simp at ht
      subst this
      simp only [Option.some.injEq]
      constructor
      · intro h
        exact ⟨x, x, by simp, by simp, by simp, by rw [← h]; simp⟩
      · rintro ⟨a, b, ha, hb, h, rfl⟩
        simp at ha hb
        subst ha hb
        simp
    | some d =>
      obtain ⟨a, b, ha, hb, hab, hd⟩ := (ih d).mp ht
      have hle : a ≤ b := (hab a ha).2
      simp only [Option.some.injEq]
      constructor
      · intro hc
        subst hc
        refine ⟨min x a, max x b, ?_, ?_, ?_, ?_⟩
        · rcases Nat.le_total x a with k | k
          · simp [Nat.min_eq_left k]
          · simp [Nat.min_eq_right k, ha]
        · rcases Nat.le_total x b with k | k
          · simp [Nat.max_eq_right k, hb]
          · simp [Nat.max_eq_left k]
        · intro n hn
          rcases List.mem_cons.mp hn with k | k
          · omega
          · have := hab n k
            omega
        · subst hd
          simp only [Range.span, Range.mk.injEq, true_and]
          omega
      · rintro ⟨a', b', ha', hb', hab', rfl⟩
        have hx := hab' x (by simp)
        have h1 := hab' a (by simp [ha])
        have h2 := hab' b (by simp [hb])
        have h3 : min x a ≤ a' := by
          rcases List.mem_cons.mp ha' with k | k
          · omega
          · have := hab a' k
            omega
        have h4 : b' ≤ max x b := by
          rcases List.mem_cons.mp hb' with k | k
          · omega
          · have := hab b' k
            omega
        subst hd
        simp only [Range.span, Range.mk.injEq]
        omega

/-- The part of some changed sectors inside a watch, from the lowest to the highest (R140). -/
theorem changedWithin_singles (l : List Nat) (r c : Range) : changedWithin (l.map Range.single) r = some c ↔
    ∃ a b, a ∈ l ∧ b ∈ l ∧ r.contains a = true ∧ r.contains b = true ∧
      (∀ n ∈ l, r.contains n = true → a ≤ n ∧ n ≤ b) ∧ c = { first := a, count := b + 1 - a } := by
  have e : (l.map Range.single).filterMap (fun c => c.common r) =
      (l.filter (fun n => r.contains n)).map (fun n => ({ first := n, count := 1 } : Range)) := by
    induction l with
    | nil => rfl
    | cons x t ih =>
      simp only [List.map_cons, List.filterMap_cons, single_common, List.filter_cons]
      split <;> simp_all
  rw [changedWithin, e, hull_singles]
  simp only [List.mem_filter]
  constructor
  · rintro ⟨a, b, ⟨h1, h2⟩, ⟨h3, h4⟩, h5, h6⟩
    exact ⟨a, b, h1, h3, h2, h4, fun n hn k => h5 n ⟨hn, k⟩, h6⟩
  · rintro ⟨a, b, h1, h3, h2, h4, h5, h6⟩
    exact ⟨a, b, ⟨h1, h2⟩, ⟨h3, h4⟩, fun n hn => h5 n hn.1 hn.2, h6⟩

theorem changedWithin_one (c r d : Range) : changedWithin [c] r = some d ↔ c.common r = some d := by
  unfold changedWithin
  cases h : c.common r <;> simp [h, hull]

/-- The records of a change of sectors at a port (R140, R141). -/
theorem mem_sectorRecords (q source : Port) (wants : WatchKinds → Bool) (changed : List Range)
    (body : Range → NoticeBody) (s : State) (x : Notice) :
    x ∈ sectorRecords q source wants changed body s ↔
      ∃ (i : Nat) (r : Range) (k : WatchKinds) (self hold : Bool) (d : Range),
        (s.nu.get q).watches[i]? = some (some (.sectors r k self hold)) ∧ wants k = true ∧
        (q ≠ source ∨ self = true) ∧ changedWithin changed r = some d ∧ x = { body := body d, watch := some i } := by
  simp only [sectorRecords, List.mem_filterMap]
  constructor
  · rintro ⟨⟨i, w⟩, hm, hx⟩
    cases w with
    | sectors r k self hold =>
      simp only at hx
      split at hx
      · rename_i hc
        simp [sourceCounts] at hc
        rw [Option.map_eq_some_iff] at hx
        obtain ⟨d, hd, rfl⟩ := hx
        exact ⟨i, r, k, self, hold, d, (mem_watchesOf _ _ _ _).mp hm, hc.1, by tauto, hd, rfl⟩
      · simp at hx
    | signals _ _ => simp at hx
    | media => simp at hx
  · rintro ⟨i, r, k, self, hold, d, h1, h2, h3, h4, rfl⟩
    refine ⟨(i, .sectors r k self hold), (mem_watchesOf _ _ _ _).mpr h1, ?_⟩
    have : sourceCounts q source self = true := by
      simp [sourceCounts]
      tauto
    simp [h2, this, h4]

theorem pairwise_sectorRecords (q source : Port) (wants : WatchKinds → Bool) (changed : List Range)
    (body : Range → NoticeBody) (s : State) :
    (sectorRecords q source wants changed body s).Pairwise (fun x y => x.watch.getD 0 < y.watch.getD 0) := by
  apply pairwise_records
  rintro ⟨i, w⟩ n hn
  cases w with
  | sectors r k self hold =>
    simp only at hn
    split at hn
    · rw [Option.map_eq_some_iff] at hn
      obtain ⟨d, _, rfl⟩ := hn
      rfl
    · simp at hn
  | signals _ _ => simp at hn
  | media => simp at hn

/-- The records of a changed signal word at a port (R143). -/
theorem mem_signalRecords (q source : Port) (word : Nat) (value : Word16) (s : State) (x : Notice) :
    x ∈ signalRecords q source word value s ↔ ∃ (i : Nat) (words : Word16) (self : Bool),
      (s.nu.get q).watches[i]? = some (some (.signals words self)) ∧ words.getLsbD word = true ∧
      (q ≠ source ∨ self = true) ∧ x = { body := .signal source word value, watch := some i } := by
  simp only [signalRecords, List.mem_filterMap]
  constructor
  · rintro ⟨⟨i, w⟩, hm, hx⟩
    cases w with
    | signals ws self =>
      simp only at hx
      split at hx
      · rename_i hc
        simp [sourceCounts] at hc
        injection hx with hx
        subst hx
        exact ⟨i, ws, self, (mem_watchesOf _ _ _ _).mp hm, hc.1, by tauto, rfl⟩
      · simp at hx
    | sectors _ _ _ _ => simp at hx
    | media => simp at hx
  · rintro ⟨i, ws, self, h1, h2, h3, rfl⟩
    refine ⟨(i, .signals ws self), (mem_watchesOf _ _ _ _).mpr h1, ?_⟩
    have : sourceCounts q source self = true := by
      simp [sourceCounts]
      tauto
    simp [h2, this]

theorem pairwise_signalRecords (q source : Port) (word : Nat) (value : Word16) (s : State) :
    (signalRecords q source word value s).Pairwise (fun x y => x.watch.getD 0 < y.watch.getD 0) := by
  apply pairwise_records
  rintro ⟨i, w⟩ n hn
  cases w with
  | signals ws self =>
    simp only at hn
    split at hn
    · injection hn with hn
      subst hn
      rfl
    · simp at hn
  | sectors _ _ _ _ => simp at hn
  | media => simp at hn

/-- The lowest MEDIA entry is found first (R144). -/
theorem find_media {q : Port} {s : State} {i : Nat} (hi : (s.nu.get q).watches[i]? = some (some Watch.media))
    (hj : ∀ j, j < i → (s.nu.get q).watches[j]? ≠ some (some Watch.media)) :
    (watchesOf q s).find? (fun x => x.2.isMedia) = some (i, .media) := by
  have hm := (mem_watchesOf q s i .media).mpr hi
  obtain ⟨as, bs, e⟩ := List.append_of_mem hm
  rw [e, List.find?_append, List.find?_eq_none.mpr, List.find?_cons]
  · simp [Watch.isMedia]
  · rintro ⟨j, w⟩ hjm
    have hlt : j < i := by
      have := pairwise_watchesFrom (s.nu.get q).watches 0
      rw [show watchesFrom 0 (s.nu.get q).watches = watchesOf q s from rfl, e, List.pairwise_append] at this
      exact this.2.2 _ hjm (i, Watch.media) (by simp)
    have hw := (mem_watchesOf q s j w).mp (by rw [e]; simp [hjm])
    cases w <;> simp [Watch.isMedia]
    exact hj j hlt hw

end Sys2Proof.Machine
end

