-- ==== Sys2Proof/Laws/Requests.lean ====
section
/-! SUPPORT. What the taking of one request does, said once: the wait queue without an entry (R55, R57), a drain issued
(R83), a CANCEL taken by the notice unit (R154), the ascending list of a drain (R87), a program's end at the write unit
(R87, R111), the end of a lease and the grant scan seen from the write units (R39, R50, R98), the hold list's
re-examination and the jobs that it releases (R152). -/

namespace Sys2Proof.Machine

/-! ### A port's entry of the wait queue (R55, R57) -/

/-- The port's entry is found by its number, with the entries before it. -/
theorem entryOf_found {p : Port} {e : WaitEntry} {earlier later l : List WaitEntry} (hp : e.port = p)
    (ho : ∀ f ∈ earlier ++ later, f.port ≠ p) :
    entryOf p e.serial l (earlier ++ e :: later) = some (e, l ++ earlier) := by
  induction earlier generalizing l with
  | nil => simp [entryOf, hp]
  | cons a t ih =>
    simp only [List.cons_append, entryOf]
    rw [if_neg (by intro h; exact ho a (by simp) h.1), ih (fun f hf => ho f (by simp at hf ⊢; tauto))]
    simp

/-- A port with no entry: none is found. -/
theorem entryOf_none {p : Port} {n : Nat} {q : List WaitEntry} (h : ∀ f ∈ q, f.port ≠ p) (l : List WaitEntry) :
    entryOf p n l q = none := by
  induction q generalizing l with
  | nil => rfl
  | cons a t ih => simp [entryOf, h a, ih (fun f hf => h f (by simp [hf]))]

/-- The entry removed leaves the entries before and after it. -/
theorem removeEntry_found {p : Port} {e : WaitEntry} {earlier later : List WaitEntry} {s : State}
    (hq : s.le.queue = earlier ++ e :: later) (hp : e.port = p) (ho : ∀ f ∈ earlier ++ later, f.port ≠ p) :
    removeEntry p e.serial s = s.modLe (fun x => { x with queue := earlier ++ later }) := by
  have h : (earlier ++ e :: later).filter (fun f => !(decide (f.port = p) && decide (f.serial = e.serial))) =
      earlier ++ later := by
    rw [List.filter_append, List.filter_cons,
      List.filter_eq_self.mpr (by intro a ha; simp [ho a (by simp [ha])]),
      List.filter_eq_self.mpr (by intro a ha; simp [ho a (by simp [ha])])]
    simp [hp]
  simp only [removeEntry, State.modLe, hq, h]

/-- A request handed to a lease engine at which the port has none waiting. -/
theorem handOnce_none {p : Port} {r : LeRequest} {s : State} (h : s.le.requests.get p = []) :
    handOnce p r s = handRequest p r s := by simp [handOnce, h]

/-- A completion for a command that the port link unit no longer holds is discarded (R168). -/
theorem complete_gone {p : Port} {n : Nat} {c : Completion} {s : State} (h : (s.plu.get p).holdsCommand n = false) :
    complete p n c s = s := by simp [complete, State.modPlu, PortMap.modify, h]

/-! ### A CANCEL taken by the notice unit (R154, R172) -/

/-- A CANCEL that finds no entry of its command on the hold list changes no command. -/
theorem takeCancelHeld_none {p : Port} {n : Nat} {s : State} (h : ∀ e ∈ s.holdList, e.port = p → e.serial ≠ n) :
    takeCancelHeld p n s = s.modNu p (fun u => { u with cancel := none }) := by
  have k : s.holdList.any (fun e => decide (e.port = p) && decide (e.serial = n)) = false := by
    rw [List.any_eq_false]
    intro e he
    simpa using h e he
  unfold takeCancelHeld
  simp only [k, Bool.false_and, Bool.false_eq_true, if_false]
  split <;> rfl

/-- With no CANCEL handed over none is taken. -/
theorem cancelHeld_none {p : Port} {s : State} (h : (s.nu.get p).cancel = none) : cancelHeld p s = s := by
  simp [cancelHeld, h]

/-- What the taking of a CANCEL leaves alone: of the notice unit all but the mark, and every block that it does not reach. -/
theorem cancelHeld_fields (p : Port) (s : State) :
    (cancelHeld p s).nu = s.nu.modify p (fun u => { u with cancel := none }) ∧
    (cancelHeld p s).teardown = s.teardown ∧ (cancelHeld p s).le = s.le ∧ (cancelHeld p s).me = s.me ∧
    (cancelHeld p s).released = s.released ∧
    ∀ q, ((cancelHeld p s).plu.get q).waiting = (s.plu.get q).waiting ∧
      ((cancelHeld p s).plu.get q).fetches = (s.plu.get q).fetches := by
  have hc : ∀ (n : Nat) (c : Completion) (t : State) (q : Port),
      ((complete p n c t).plu.get q).waiting = (t.plu.get q).waiting ∧
        ((complete p n c t).plu.get q).fetches = (t.plu.get q).fetches := by
    intro n c t q
    by_cases e : q = p
    · subst e
      by_cases k : (t.plu.get q).holdsCommand n <;> simp [complete, k]
    · simp [complete, PortMap.get_modify_ne, e]
  cases h : (s.nu.get p).cancel with
  | none =>
    rw [cancelHeld_none h]
    refine ⟨?_, rfl, rfl, rfl, rfl, fun q => ⟨rfl, rfl⟩⟩
    apply PortMap.ext_get
    intro q
    by_cases e : q = p
    · subst e; simp [← h]
    · simp [PortMap.get_modify_ne, e]
  | some n =>
    simp only [cancelHeld, h, takeCancelHeld]
    split
    · split
      · exact ⟨rfl, rfl, rfl, rfl, rfl, fun q => hc _ _ _ q⟩
      · exact ⟨rfl, rfl, rfl, rfl, rfl, fun q => ⟨rfl, rfl⟩⟩
    · exact ⟨rfl, rfl, rfl, rfl, rfl, fun q => ⟨rfl, rfl⟩⟩

/-! ### A drain issued (R37, R83) and its list (R87) -/

/-- A drain with something to drain: the job is queued, the slots taken are DRAINING, a RELEASE's lease is ENDING. -/
theorem issueJob_drain {p : Port} {c : PwuCommand} {s t : State} {items : List SectorItem} (hd : c.action.isDrain = true)
    (hi : items = drainItems c.action (s.pwu.get p)) (hne : items ≠ [])
    (ht : t = s.modPwu p (fun u =>
      { u with slots := u.slots.map (fun x => if c.action.takes x then { x with state := .draining } else x),
               command := some { c with stage := .issued } })) :
    issueJob p c s = enqueueJob (.port { issuer := p, serial := c.serial, abandoned := false } (.drain items))
      (match c.action with | .release id => setLeaseEnding id .released t | _ => t) := by
  have h : issueJob p c s = issueDrain p c s := by
    revert hd; unfold issueJob; cases c.action <;> simp [PwuAction.isDrain]
  rw [h]
  unfold issueDrain
  simp only [← hi, List.isEmpty_eq_false_iff.mpr hne, Bool.false_eq_true, if_false, ownerOf, ← ht]
  all_goals (cases c.action <;> rfl)

theorem insertItem_mem {x y : SectorItem} {l : List SectorItem} (h : y ∈ insertItem x l) : y = x ∨ y ∈ l := by
  induction l with
  | nil => simpa [insertItem] using h
  | cons a t ih =>
    simp only [insertItem] at h
    split at h
    · simpa using h
    · split at h
      · rcases List.mem_cons.mp h with e | e
        · exact Or.inl e
        · exact Or.inr (by simp [e])
      · rcases List.mem_cons.mp h with e | e
        · exact Or.inr (by simp [e])
        · exact (ih e).imp_right (List.mem_cons_of_mem _)

/-- An item put into an ascending list leaves it ascending. -/
theorem insertItem_sorted {x : SectorItem} {l : List SectorItem} (h : l.Pairwise (fun a b => a.sector < b.sector)) :
    (insertItem x l).Pairwise (fun a b => a.sector < b.sector) := by
  induction l with
  | nil => simp [insertItem]
  | cons a t ih =>
    rw [List.pairwise_cons] at h
    simp only [insertItem]
    split
    · rename_i k
      refine List.pairwise_cons.mpr ⟨fun b hb => ?_, List.pairwise_cons.mpr h⟩
      rcases List.mem_cons.mp hb with e | e
      · rw [e]; exact k
      · exact k.trans (h.1 b e)
    · split
      · rename_i k1 k2
        exact List.pairwise_cons.mpr ⟨fun b hb => by rw [k2]; exact h.1 b hb, h.2⟩
      · rename_i k1 k2
        refine List.pairwise_cons.mpr ⟨fun b hb => ?_, ih h.2⟩
        rcases insertItem_mem hb with e | e
        · rw [e]; omega
        · exact h.1 b e

/-! ### A program's end at the write unit (R87, R111) -/

/-- The slot of the sector leaves, its lease id kept; an open sector's part of the issuing WRITE's payload is released. -/
theorem programEnds_eq (o : JobOwner) (n : Nat) (s : State) :
    programEnds o n s = s.modPwu o.issuer (fun w =>
      { w.slotLeaves n with
        command := w.command.map (fun c =>
          if o.abandoned = false ∧ c.serial = o.serial ∧ c.stage = .issued then { c with action := c.action.releaseOpen n }
          else c) }) := by
  unfold programEnds issuingCommand
  by_cases ha : o.abandoned = true
  · cases hc : (s.pwu.get o.issuer).command <;>
      simp [ha, hc, State.modPwu, WriteUnit.slotLeaves, PortMap.modify]
  · cases hc : (s.pwu.get o.issuer).command with
    | none => simp [ha, hc, State.modPwu, WriteUnit.slotLeaves, PortMap.modify]
    | some c =>
      by_cases h1 : c.serial = o.serial <;> by_cases h2 : c.stage = .issued <;>
        simp [ha, hc, h1, h2, Option.filter, State.modPwu, WriteUnit.slotLeaves, PortMap.modify, setCommand]

/-! ### The end of a lease and the grant scan, seen from the write units -/

/-- The grant scan leaves the write units and the hold list alone. -/
theorem grantScan_pwu (s : State) : (grantScan s).pwu = s.pwu ∧ (grantScan s).holdList = s.holdList := by
  have hg : ∀ e t, (grant e t).pwu = t.pwu ∧ (grant e t).holdList = t.holdList := by
    intro e t; unfold grant; split <;> exact ⟨rfl, rfl⟩
  have : ∀ todo parked t, (scanWalk parked todo t).pwu = t.pwu ∧ (scanWalk parked todo t).holdList = t.holdList := by
    intro todo
    induction todo with
    | nil => intro parked t; exact ⟨rfl, rfl⟩
    | cons e l ih =>
      intro parked t; unfold scanWalk; split
      · exact ih _ _
      · rw [(ih _ _).1, (ih _ _).2]; exact hg e t
  exact this _ _ _

/-- The removal of a lease leaves the write units and the hold list alone. -/
theorem removeLease_pwu (id : Nat) (s : State) :
    (removeLease id s).pwu = s.pwu ∧ (removeLease id s).holdList = s.holdList := by
  unfold removeLease
  split
  · unfold freedEvent
    rw [(NoticesOnly.deliver _ _).pwu, (NoticesOnly.deliver _ _).holdList]; exact ⟨rfl, rfl⟩
  · exact ⟨rfl, rfl⟩

/-- The end of a lease leaves every write unit's command and the hold list alone (R39). -/
theorem endLease_command (id : Nat) (c : EndCause) (s : State) (q : Port) :
    ((endLease id c s).pwu.get q).command = (s.pwu.get q).command ∧ (endLease id c s).holdList = s.holdList := by
  unfold endLease
  split
  · exact ⟨rfl, rfl⟩
  · rename_i l _
    have h1 : ∀ t : State, (if c = .expired ∨ c = .broken then lostEvent id l t else t).pwu = t.pwu ∧
        (if c = .expired ∨ c = .broken then lostEvent id l t else t).holdList = t.holdList := by
      intro t; split
      · unfold lostEvent placeNotice; split <;> exact ⟨rfl, rfl⟩
      · exact ⟨rfl, rfl⟩
    have h3 : ∀ t : State, (setLeaseEnding id c t).pwu = t.pwu ∧ (setLeaseEnding id c t).holdList = t.holdList :=
      fun t => ⟨rfl, rfl⟩
    have k : ((s.modPwu l.holder (fun u => (u.discardStaged id).dropPending l.range)).pwu.get q).command =
        (s.pwu.get q).command := by
      by_cases e : q = l.holder
      · subst e; simp [WriteUnit.discardStaged, WriteUnit.dropPending]
      · simp [PortMap.get_modify_ne, e]
    simp only
    split
    · rw [(h3 _).1, (h3 _).2, (h1 _).1, (h1 _).2]; exact ⟨k, rfl⟩
    · rw [(removeLease_pwu _ _).1, (removeLease_pwu _ _).2, (h1 _).1, (h1 _).2]; exact ⟨k, rfl⟩

/-- A counted event, and a record placed, leave every port's slot and its command's number alone. -/
theorem placeNotice_slot (p : Port) (n : Notice) (s : State) (q : Port) :
    ((placeNotice p s n).plu.get q).slot = (s.plu.get q).slot ∧
      ((placeNotice p s n).plu.get q).serial = (s.plu.get q).serial := by
  have h : ∀ t : State, ((countEvent .noticeDrop (some p) t).plu.get q).slot = (t.plu.get q).slot ∧
      ((countEvent .noticeDrop (some p) t).plu.get q).serial = (t.plu.get q).serial := by
    intro t
    simp only [countEvent, Port.all, List.foldl_cons, List.foldl_nil]
    cases q <;> simp [State.modPlu, PortMap.modify, PortMap.set, PortMap.get]
  unfold placeNotice
  split
  · exact ⟨rfl, rfl⟩
  · exact h _

/-- So does an event. -/
theorem deliver_slot (r : Port → List Notice) (s : State) (q : Port) :
    ((deliver r s).plu.get q).slot = (s.plu.get q).slot ∧ ((deliver r s).plu.get q).serial = (s.plu.get q).serial := by
  have h : ∀ p ns t, ((placeAll p ns t).plu.get q).slot = (t.plu.get q).slot ∧
      ((placeAll p ns t).plu.get q).serial = (t.plu.get q).serial := by
    intro p ns
    unfold placeAll
    induction ns with
    | nil => intro t; exact ⟨rfl, rfl⟩
    | cons a l ih =>
      intro t
      simp only [List.foldl_cons]
      rw [(ih _).1, (ih _).2]
      exact placeNotice_slot _ _ _ _
  unfold deliver
  simp only [Port.all, List.foldl_cons, List.foldl_nil, (h _ _ _).1, (h _ _ _).2]
  exact ⟨trivial, trivial⟩

/-- So does the removal of leases (R41). -/
theorem removeLeases_slot (ids : List Nat) (s : State) (q : Port) :
    ((removeLeases ids s).plu.get q).slot = (s.plu.get q).slot ∧
      ((removeLeases ids s).plu.get q).serial = (s.plu.get q).serial := by
  have h : ∀ id (t : State), ((removeLease id t).plu.get q).slot = (t.plu.get q).slot ∧
      ((removeLease id t).plu.get q).serial = (t.plu.get q).serial := by
    intro id t
    unfold removeLease
    split
    · exact deliver_slot _ _ _
    · exact ⟨rfl, rfl⟩
  unfold removeLeases
  induction ids generalizing s with
  | nil => exact ⟨rfl, rfl⟩
  | cons a l ih =>
    simp only [List.foldl_cons]
    rw [(ih _).1, (ih _).2]
    exact h a s

/-- So does the end of a lease (R39). -/
theorem endLease_slot (id : Nat) (c : EndCause) (s : State) (q : Port) :
    ((endLease id c s).plu.get q).slot = (s.plu.get q).slot ∧
      ((endLease id c s).plu.get q).serial = (s.plu.get q).serial := by
  unfold endLease
  split
  · exact ⟨rfl, rfl⟩
  · rename_i l hl
    have h1 : ∀ t : State, ((if c = .expired ∨ c = .broken then lostEvent id l t else t).plu.get q).slot =
          (t.plu.get q).slot ∧
        ((if c = .expired ∨ c = .broken then lostEvent id l t else t).plu.get q).serial = (t.plu.get q).serial := by
      intro t
      split
      · exact placeNotice_slot _ _ _ _
      · exact ⟨rfl, rfl⟩
    have h2 : ∀ t : State, ((removeLease id t).plu.get q).slot = (t.plu.get q).slot ∧
        ((removeLease id t).plu.get q).serial = (t.plu.get q).serial := by
      intro t
      unfold removeLease
      split
      · exact deliver_slot _ _ _
      · exact ⟨rfl, rfl⟩
    have h3 : ∀ t : State, (setLeaseEnding id c t).plu.get q = t.plu.get q := fun t => rfl
    simp only
    split
    · rw [h3]; exact h1 _
    · rw [(h2 _).1, (h2 _).2]; exact h1 _

/-- One lease removed of those that a report frees: its slot emptied and its FREED event handed over (R41, R98). -/
theorem removeLeases_one {id : Nat} {l : Lease} {t : State} (h : findLease t id = some l) :
    removeLeases [id] t = freedEvent id l (emptyLeaseSlot id t) := by simp [removeLeases, removeLease, h]

/-- Staging leaves the lease engine alone. -/
theorem stageSectors_le (p : Port) (xs : List LeasedSector) (s : State) : (stageSectors p xs s).le = s.le := by
  unfold stageSectors
  induction xs generalizing s with
  | nil => rfl
  | cons a t ih => simp only [List.foldl_cons]; rw [ih]; unfold stageSector; split <;> rfl

theorem endingLeases_congr {p : Port} {s t : State} (h : t.le.table = s.le.table) : endingLeases p t = endingLeases p s := by
  simp [endingLeases, leases, h]

/-- The drain-end report of a WRITE that a port reset or a FENCE has abandoned stages nothing and completes nothing, whatever
lease its sectors' ids name: the ENDING leases that no DRAINING slot keeps go, and the write unit forgets it (R90, R98). -/
theorem drainEnd_abandonedWrite {p : Port} {r : DrainReport} {c : PwuCommand} {s t : State} {kept : Range} {cut flush : Bool}
    {leased : List LeasedSector} {opens : List SectorItem} (hc : reportedCommand (s.pwu.get p) r = some c)
    (ha : c.action = .write kept cut flush leased opens) (hg : (s.plu.get p).holdsCommand c.serial = false)
    (ht : t = s.modPwu p (fun u => { u with drained := [] })) :
    drainEnd p r s =
      grantScanIf (!(drainedLeases p t).isEmpty) (setCommand p none (removeLeases (drainedLeases p t) t)) := by
  subst ht
  have hs : ∀ l, stagesAtEnd p c l (s.modPwu p (fun u => { u with drained := [] })) = false := by
    intro l; simp [stagesAtEnd, hg]
  have hk : ∀ l, ((setCommand p none (removeLeases l (s.modPwu p (fun u => { u with drained := [] })))).plu.get
      p).holdsCommand c.serial = false := by
    intro l
    simp only [Plu.holdsCommand, setCommand, State.modPwu_plu, removeLeases_slot]
    exact hg
  simp only [drainEnd, hc, drainEndEffect, ha, hs, Bool.false_eq_true, if_false, Bool.or_false, Bool.and_false]
  rw [complete_gone (hk _)]

/-! ### Abandoned jobs and FENCEs (R108, R182) -/

/-- An abandoned job, or one whose command has gone, has no issuing command (R108, R168). -/
theorem issuingCommand_none {o : JobOwner} {s : State}
    (h : o.abandoned = true ∨
      ∀ c, (s.pwu.get o.issuer).command = some c → c.serial = o.serial → c.stage ≠ .issued) :
    issuingCommand o s = none := by
  unfold issuingCommand
  split
  · rfl
  · rename_i ha
    rw [Option.filter_eq_none_iff]
    rcases h with h | h
    · exact absurd h ha
    · intro c hc; simp; exact h c hc

/-- The counters are the port link units'. -/
theorem countEvent_pwu (e : CounterEvent) (a : Option Port) (s : State) : (countEvent e a s).pwu = s.pwu := by
  simp [countEvent, Port.all]

/-- The completion of FENCEs touches the supervisor's port link unit and the lease engine's list of FENCEs only. -/
theorem finishFences_fields (s : State) : (finishFences s).me = s.me ∧ (finishFences s).pwu = s.pwu ∧
    (finishFences s).teardown = s.teardown ∧ (finishFences s).released = s.released ∧
    ∀ q, ((finishFences s).plu.get q).serial = (s.plu.get q).serial := by
  have hs : ∀ (p : Port) (n : Nat) (c : Completion) (t : State) (q : Port),
      ((complete p n c t).plu.get q).serial = (t.plu.get q).serial := by
    intro p n c t q
    by_cases e : q = p
    · subst e
      by_cases k : (t.plu.get q).holdsCommand n <;> simp [complete, k]
    · simp [complete, PortMap.get_modify_ne, e]
  have h : ∀ (p : Port) (l : List FenceRecord) (t : State), ∀ r, r = l.foldl (fun t f =>
      complete p f.serial { status := .done, detail := f.detail } t) t →
      r.me = t.me ∧ r.pwu = t.pwu ∧ r.teardown = t.teardown ∧ r.released = t.released ∧
        ∀ q, (r.plu.get q).serial = (t.plu.get q).serial := by
    intro p l
    induction l with
    | nil => rintro t r rfl; exact ⟨rfl, rfl, rfl, rfl, fun _ => rfl⟩
    | cons f l ih =>
      rintro t r rfl
      obtain ⟨a, b, c, d, e⟩ := ih (complete p f.serial { status := .done, detail := f.detail } t) _ rfl
      exact ⟨a, b, c, d, fun q => (e q).trans (hs _ _ _ _ q)⟩
  have k := h s.ac.supervisor (s.le.fences.filter (fun f => (s.teardown.get f.target).fourTaken))
    (s.modLe (fun x => { x with fences := s.le.fences.filter (fun f => !(s.teardown.get f.target).fourTaken) })) _ rfl
  exact k

/-! ### The hold list re-examined (R152) -/

theorem blocked_congr {s t : State} (h : t.nu = s.nu) (p : Port) (k : ChangeKind) (l : List Range) :
    blocked p k l t = blocked p k l s := by simp [blocked, watchesOf, h]

/-- The end of a hold: the notice unit, the lease engine, the media engine and the released jobs stay. -/
theorem endHold_fields (p : Port) (n : Nat) (b : Bool) (s : State) : (endHold p n b s).nu = s.nu ∧
    (endHold p n b s).le = s.le ∧ (endHold p n b s).me = s.me ∧ (endHold p n b s).released = s.released := by
  unfold endHold
  split
  · exact ⟨rfl, rfl, rfl, rfl⟩
  · split <;> exact ⟨rfl, rfl, rfl, rfl⟩

/-- A noted list changes the released jobs only. -/
theorem noteReleased_fields (l : List (Port × Nat)) (s : State) : (noteReleased l s).nu = s.nu ∧
    (noteReleased l s).le = s.le ∧ (noteReleased l s).me = s.me ∧ (noteReleased l s).pwu = s.pwu ∧
    (noteReleased l s).plu = s.plu ∧ (noteReleased l s).holdList = s.holdList ∧
    (noteReleased l s).released = (if l = [] then s.released else s.released ++ [l]) := by
  cases l <;> simp [noteReleased]

/-- A re-examination keeps the entries that are still blocked and releases the others in their order, as one event's
list (R152). -/
theorem reexamineFrom_lists (l kept : List HoldEntry) (gone gone' : List (Port × Nat)) (s : State)
    (hg : gone' = gone ++ (l.filter (fun h => !blocked h.port h.kind h.sectors s)).map (fun h => (h.port, h.serial))) :
    (reexamineFrom kept gone l s).holdList = kept ++ l.filter (fun h => blocked h.port h.kind h.sectors s) ∧
    (reexamineFrom kept gone l s).released = (if gone' = [] then s.released else s.released ++ [gone']) ∧
    (reexamineFrom kept gone l s).nu = s.nu ∧ (reexamineFrom kept gone l s).le = s.le ∧
    (reexamineFrom kept gone l s).me = s.me := by
  induction l generalizing kept gone s with
  | nil =>
    simp only [List.filter_nil, List.map_nil, List.append_nil] at hg
    subst hg
    simp [reexamineFrom, noteReleased_fields]
  | cons e t ih =>
    unfold reexamineFrom
    split
    · rename_i h
      simpa [h] using ih (kept ++ [e]) gone s (by simpa [h] using hg)
    · rename_i h
      have r := endHold_fields e.port e.serial false s
      have := ih kept (gone ++ [(e.port, e.serial)]) (endHold e.port e.serial false s)
        (by simp only [blocked_congr r.1]; simpa [h] using hg)
      simp only [blocked_congr r.1] at this
      simpa [h, r] using this

theorem endHold_ne {p q : Port} (h : q ≠ p) (n : Nat) (b : Bool) (s : State) :
    (endHold p n b s).pwu.get q = s.pwu.get q ∧ (endHold p n b s).plu.get q = s.plu.get q := by
  unfold endHold
  split
  · exact ⟨rfl, rfl⟩
  · split
    · simp [setSlot, setCommand, PortMap.get_modify_ne, h]
    · exact ⟨rfl, rfl⟩

theorem endHold_done {p : Port} {n : Nat} {b : Bool} {s : State}
    (h : ∀ c, (s.pwu.get p).command = some c → c.stage ≠ .onHold) : endHold p n b s = s := by
  unfold endHold
  split
  · rfl
  · rename_i c hc
    rw [if_neg]
    intro k
    exact h c hc k.2

/-- A re-examination leaves a port alone whose command is not on hold. -/
theorem reexamineFrom_notOnHold (l kept : List HoldEntry) (gone : List (Port × Nat)) (s : State) (q : Port)
    (h : ∀ c, (s.pwu.get q).command = some c → c.stage ≠ .onHold) :
    (reexamineFrom kept gone l s).pwu.get q = s.pwu.get q ∧ (reexamineFrom kept gone l s).plu.get q = s.plu.get q := by
  induction l generalizing kept gone s with
  | nil => simp [reexamineFrom, noteReleased_fields]
  | cons e t ih =>
    unfold reexamineFrom
    split
    · exact ih _ _ _ h
    · have k : (endHold e.port e.serial false s).pwu.get q = s.pwu.get q ∧
          (endHold e.port e.serial false s).plu.get q = s.plu.get q := by
        by_cases he : q = e.port
        · subst he; simp [endHold_done h]
        · exact endHold_ne he _ _ _
      have := ih kept (gone ++ [(e.port, e.serial)]) (endHold e.port e.serial false s) (by rw [k.1]; exact h)
      rw [this.1, this.2, k.1, k.2]
      exact ⟨rfl, rfl⟩

/-- The port whose entry is released: its slot is BUSY and its command's hold has ended before the deadline. -/
theorem reexamineFrom_released (l kept : List HoldEntry) (gone : List (Port × Nat)) (s : State) (h : HoldEntry)
    (c : PwuCommand) (hm : h ∈ l) (hb : blocked h.port h.kind h.sectors s = false) (hu : ∀ g ∈ l, g.port = h.port → g = h)
    (hc : (s.pwu.get h.port).command = some c) (hs : c.serial = h.serial) (hst : c.stage = .onHold)
    (hsl : (s.plu.get h.port).slot = .held) (hse : (s.plu.get h.port).serial = h.serial) :
    (reexamineFrom kept gone l s).pwu.get h.port =
      { s.pwu.get h.port with command := some { c with stage := .holdEnded, holdExpired := false } } ∧
    (reexamineFrom kept gone l s).plu.get h.port = { s.plu.get h.port with slot := .busy } := by
  induction l generalizing kept gone s with
  | nil => simp at hm
  | cons e t ih =>
    unfold reexamineFrom
    by_cases he : e.port = h.port
    · have := hu e (by simp) he
      subst this
      rw [if_neg (by simp [hb])]
      have k : (endHold e.port e.serial false s).pwu.get e.port =
            { s.pwu.get e.port with command := some { c with stage := .holdEnded, holdExpired := false } } ∧
          (endHold e.port e.serial false s).plu.get e.port = { s.plu.get e.port with slot := .busy } := by
        simp [endHold, hc, hs, hst, setSlot, setCommand, Plu.holdsCommand, hsl, hse]
      have := reexamineFrom_notOnHold t kept (gone ++ [(e.port, e.serial)]) (endHold e.port e.serial false s) e.port
        (by rw [k.1]; intro c' hc'; injection hc' with hc'; rw [← hc']; simp)
      rw [this.1, this.2]
      exact k
    · have hm' : h ∈ t := by
        rcases List.mem_cons.mp hm with k | k
        · exact absurd (by rw [k]) he
        · exact k
      split
      · exact ih _ _ s hm' hb (fun g hg => hu g (by simp [hg])) hc hsl hse
      · have k := endHold_ne (p := e.port) (q := h.port) (fun k => he k.symm) e.serial false s
        have := ih kept (gone ++ [(e.port, e.serial)]) (endHold e.port e.serial false s) hm'
          (by rw [blocked_congr (endHold_fields e.port e.serial false s).1]; exact hb)
          (fun g hg => hu g (by simp [hg])) (by rw [k.1]; exact hc) (by rw [k.2]; exact hsl) (by rw [k.2]; exact hse)
        rw [this.1, this.2, k.1, k.2]
        exact ⟨rfl, rfl⟩

/-! ### The released jobs go on (R83, R152) -/

/-- Which jobs are released plays no part in the choice of the next job. -/
theorem selectJob_setReleased (l : List (List (Port × Nat))) (s : State) :
    selectJob (s.setReleased l) = (selectJob s).setReleased l := by
  have h : ∀ j, startedJob j (s.setReleased l) = startedJob j s := fun j => by
    cases j with
    | port o w => cases w <;> rfl
    | relocate b => rfl
  unfold selectJob
  simp only [State.setReleased_device, State.setReleased_me]
  split
  · rfl
  · rfl
  · split
    · rfl
    · simp only [h]; rfl

/-- Nor in a job's place in the queue. -/
theorem enqueueJob_setReleased (j : Job) (l : List (List (Port × Nat))) (s : State) :
    enqueueJob j (s.setReleased l) = (enqueueJob j s).setReleased l := by
  unfold enqueueJob
  show selectJob ((s.modMe (fun m => { m with queue := m.queue ++ [j] })).setReleased l) = _
  exact selectJob_setReleased l _

/-- A released CLEAR that stands first goes on at once. -/
theorem issueInOrder_clear {p : Port} {n : Nat} {t : List (Port × Nat)} {c : PwuCommand} {s : State}
    (hc : endedCommand p n s = some c) (hd : c.action.isDrain = false) :
    issueInOrder ((p, n) :: t) s = issueInOrder t (issueJob p c s) := by
  rw [issueInOrder, hc]
  simp [hd]

/-- A released DRAIN's request is handed to the lease engine, and those behind it wait for its issue. -/
theorem issueInOrder_drain {p : Port} {n : Nat} {t : List (Port × Nat)} {c : PwuCommand} {s : State}
    (hc : endedCommand p n s = some c) (hd : c.action.isDrain = true) :
    issueInOrder ((p, n) :: t) s = ((p, n) :: t, handOnce p (.issue n) s) := by
  rw [issueInOrder, hc]
  simp [hd]

/-- A released command that has gone is skipped. -/
theorem issueInOrder_gone {p : Port} {n : Nat} {t : List (Port × Nat)} {s : State} (hc : endedCommand p n s = none) :
    issueInOrder ((p, n) :: t) s = issueInOrder t s := by
  rw [issueInOrder, hc]

/-- The request of a released DRAIN that stands first is handed to the lease engine, and those behind it wait. -/
theorem issueInOrder_hand {p : Port} {n : Nat} {t : List (Port × Nat)} {c : PwuCommand} {s : State}
    (hc : endedCommand p n s = some c) (hd : c.action.isDrain = true) (hq : s.le.requests.get p = []) :
    issueInOrder ((p, n) :: t) s = ((p, n) :: t, handRequest p (.issue n) s) := by
  rw [issueInOrder_drain hc hd, handOnce_none hq]

/-- The issue of a DRAIN whose hold has ended, taken as the only request (R24, R83). -/
theorem serveOne_issue {p : Port} {n : Nat} {c : PwuCommand} {s : State} (hc : endedCommand p n s = some c)
    (h0 : s.le.sweepsAsked = 0) (hq : ∀ q, s.le.requests.get q = []) :
    serveOne (handRequest p (.issue n) s) = some (issueJob p c (servedPort p s)) := by
  have hq' : ∀ q, q ≠ p → (handRequest p (.issue n) s).le.requests.get q = [] := by
    intro q e; simp [handRequest, PortMap.get_modify_ne, e, hq]
  have hp' : (handRequest p (.issue n) s).le.requests.get p = [.issue n] := by simp [handRequest, hq]
  have hpop : popRequest p [] (handRequest p (.issue n) s) = servedPort p s := by
    have : (s.le.requests.modify p (fun l => l ++ [LeRequest.issue n])).set p [] = s.le.requests := by
      apply PortMap.ext_get; intro q
      by_cases e : q = p
      · subst e; simp [hq]
      · simp [PortMap.get_set_ne, PortMap.get_modify_ne, e]
    simp [popRequest, handRequest, servedPort, State.modLe, this]
  rw [serveOne_only (p := p) (r := .issue n) (rest := []) (s := handRequest p (.issue n) s) h0 hp' hq', hpop]
  simp only [endedCommand, Option.filter_eq_some_iff, Bool.and_eq_true, decide_eq_true_eq] at hc
  simp [takeRequest, takeIssue, servedPort, hc.1, hc.2.1, hc.2.2, Option.filter]

theorem enqueueJob_pwu (j : Job) (s : State) : (enqueueJob j s).pwu = s.pwu := by
  unfold enqueueJob selectJob
  split <;> try rfl
  split <;> rfl

/-- A DRAIN issued is no longer a command whose hold has ended. -/
theorem endedCommand_issued {p : Port} {n : Nat} {c : PwuCommand} {s : State} (hd : c.action.isDrain = true)
    (hne : drainItems c.action (s.pwu.get p) ≠ []) : endedCommand p n (issueJob p c s) = none := by
  rw [issueJob_drain hd rfl hne rfl]
  simp only [endedCommand, enqueueJob_pwu]
  cases c.action <;> simp [Option.filter, setLeaseEnding, updateLease]

/-- Issuing a DRAIN leaves the other ports' write units alone. -/
theorem issueJob_drain_other {p q : Port} {c : PwuCommand} {s : State} (hd : c.action.isDrain = true)
    (hne : drainItems c.action (s.pwu.get p) ≠ []) (h : q ≠ p) : (issueJob p c s).pwu.get q = s.pwu.get q := by
  rw [issueJob_drain hd rfl hne rfl]
  simp only [enqueueJob_pwu]
  cases c.action <;> simp [setLeaseEnding, updateLease, PortMap.get_modify_ne, h]

/-- A DRAIN issued with a note of released jobs, or before it. -/
theorem issueJob_setReleased {p : Port} {c : PwuCommand} {s : State} (l : List (List (Port × Nat)))
    (hd : c.action.isDrain = true) (hne : drainItems c.action (s.pwu.get p) ≠ []) :
    issueJob p c (s.setReleased l) = (issueJob p c s).setReleased l := by
  rw [issueJob_drain (s := s) hd rfl hne rfl, issueJob_drain (s := s.setReleased l) hd rfl hne rfl, ← enqueueJob_setReleased]
  congr 1
  cases c.action <;> simp [State.modPwu, State.setReleased, setLeaseEnding, updateLease, State.modLe]

/-! ### The write unit's teardown and the port's jobs (R18, R99, R108) -/

/-- Where the port has no job at the media engine its teardown changes nothing there. -/
theorem MediaEngine.teardown_noJob {p : Port} {s : State} (h : noJob p s = true) : s.me.teardown p = s.me := by
  simp only [noJob, jobAtMe, Bool.not_eq_true', Bool.or_eq_false_iff] at h
  obtain ⟨hq, hr⟩ := h
  have a : s.me.queue.filterMap (Job.tornDown p) = s.me.queue := by
    revert hq
    induction s.me.queue with
    | nil => intro; rfl
    | cons j t ih =>
      intro hq
      simp only [List.any_cons, Bool.or_eq_false_iff] at hq
      have k : Job.tornDown p j = some j := by
        cases j with
        | relocate b => rfl
        | port o w =>
          have : o.issuer ≠ p := by simpa [Job.owner?] using hq.1
          simp [Job.tornDown, this]
      rw [List.filterMap_cons, k]
      exact congrArg _ (ih hq.2)
  have b : s.me.running.map (Running.tornDown p) = s.me.running := by
    revert hr
    cases s.me.running with
    | none => intro; rfl
    | some r =>
      intro hr
      cases r <;> simp_all [Running.owner?, Running.tornDown, JobOwner.abandonIf]
  simp [MediaEngine.teardown, a, b]

/-- The write unit's teardown leaves the media engine alone while that has its own to take, or has no job of the port. -/
theorem withdrawJobs_none {p : Port} {s : State} (h : (s.teardown.get p).me = true ∨ noJob p s = true) :
    withdrawJobs p s = s := by
  unfold withdrawJobs
  rcases h with h | h
  · simp [h]
  · split
    · rfl
    · rw [State.modMe, MediaEngine.teardown_noJob h]

/-- What it leaves alone in every case. -/
theorem withdrawJobs_fields (p : Port) (s : State) : (withdrawJobs p s).plu = s.plu ∧ (withdrawJobs p s).pwu = s.pwu ∧
    (withdrawJobs p s).teardown = s.teardown ∧ (withdrawJobs p s).le = s.le ∧
    (withdrawJobs p s).released = s.released ∧ (withdrawJobs p s).holdList = s.holdList := by
  unfold withdrawJobs
  split <;> exact ⟨rfl, rfl, rfl, rfl, rfl, rfl⟩

/-- A waiting command that a port reset has abandoned issues no job, whoever asks (R99). -/
theorem abandoned_waits {p : Port} {c : PwuCommand} {s : State} (hc : (s.pwu.get p).command = some c)
    (hs : c.stage = .waiting) (ht : (s.teardown.get p).pwu = true) (n : Nat) :
    jobIssue p s = s ∧ takeIssue p n s = s := by
  have j : jobWaits p c s = true := by simp [jobWaits, ht]
  refine ⟨by simp [jobIssue, hc, hs, j], ?_⟩
  unfold takeIssue
  rw [hc]
  by_cases e : c.serial = n <;> simp [Option.filter, e, hs, j]

end Sys2Proof.Machine
end

