-- ==== Sys2Proof/Laws/Spares.lean ====
section
/-! SUPPORT. Which job leaves the queue first (R106), what the candidate rules leave alone (R117, R123), and how the three
sets of spares change: each step keeps every spare in one set (R115); the range that a CLEAR has cleared (R131). -/

namespace Sys2Proof.Machine

/-! ### The next job (R106) -/

theorem takeRelocate_none {q : List Job} (h : ∀ a, Job.relocate a ∉ q) : takeRelocate q = none := by
  induction q with
  | nil => rfl
  | cons j t ih =>
    have hj : j.isRelocate = false := by
      cases j with
      | port _ _ => rfl
      | relocate b => exact absurd (by simp) (h b)
    simp [takeRelocate, hj, ih (fun a ha => h a (by simp [ha]))]

theorem takeRelocate_some {before after : List Job} {b : Nat} (h : ∀ a, Job.relocate a ∉ before) :
    takeRelocate (before ++ .relocate b :: after) = some (.relocate b, before ++ after) := by
  induction before with
  | nil => simp [takeRelocate, Job.isRelocate]
  | cons j t ih =>
    have hj : j.isRelocate = false := by
      cases j with
      | port _ _ => rfl
      | relocate b => exact absurd (by simp) (h b)
    simp [takeRelocate, hj, ih (fun a ha => h a (by simp [ha]))]

/-- A queue with a RELOCATE job has a first one. -/
theorem first_relocate {q : List Job} {a : Nat} (h : Job.relocate a ∈ q) :
    ∃ before b after, q = before ++ Job.relocate b :: after ∧ ∀ x, Job.relocate x ∉ before := by
  induction q with
  | nil => simp at h
  | cons j t ih =>
    cases j with
    | relocate b => exact ⟨[], b, t, rfl, by simp⟩
    | port o w =>
      have : Job.relocate a ∈ t := by simpa using h
      obtain ⟨before, b, after, e, k⟩ := ih this
      exact ⟨.port o w :: before, b, after, by simp [e], by intro x; simp [k x]⟩

/-! ### Candidates and the end of a relocation (R117, R122, R123) -/

/-- Only the notices, the counters and the media engine's queue, latch and marker differ. -/
structure CandidateOnly (s t : State) : Prop where
  eq : t = { s with plu := t.plu, nu := t.nu, me := t.me }
  me : t.me = { s.me with queue := t.me.queue, latch := t.me.latch, sparesOut := t.me.sparesOut }

namespace CandidateOnly

theorem refl (s : State) : CandidateOnly s s := ⟨rfl, rfl⟩

theorem trans {s t u : State} (h : CandidateOnly s t) (k : CandidateOnly t u) : CandidateOnly s u :=
  ⟨by rw [k.eq, h.eq], by rw [k.me, h.me]⟩

theorem ite {c : Prop} [Decidable c] {s t u : State} (h : CandidateOnly s t) (k : CandidateOnly s u) :
    CandidateOnly s (if c then t else u) := by
  split <;> assumption

theorem ofNotices {s t : State} (h : NoticesOnly s t) : CandidateOnly s t :=
  ⟨by rw [h.eq], by rw [h.eq]⟩

theorem mediaEvent (k : MediaKind) (b : Nat) (s : State) : CandidateOnly s (Machine.mediaEvent k b s) :=
  ofNotices (NoticesOnly.deliver _ _)

theorem dropCandidate (s : State) : CandidateOnly s (Machine.dropCandidate s) := ⟨rfl, rfl⟩

theorem sparesOutRule (b : Nat) (s : State) : CandidateOnly s (Machine.sparesOutRule b s) := by
  have h : CandidateOnly s (s.modMe (fun m => { m with sparesOut := true })) := ⟨rfl, rfl⟩
  exact ite (h.trans (mediaEvent _ _ _)) (refl s)

theorem candidate (c : Nat) (s : State) : CandidateOnly s (Machine.candidate c s) := by
  unfold Machine.candidate
  split
  · exact (dropCandidate s).trans (sparesOutRule _ _)
  · split
    · exact ⟨rfl, rfl⟩
    · split
      · exact dropCandidate s
      · split
        · exact ⟨rfl, rfl⟩
        · exact dropCandidate s

theorem raiseOnce (l : List Nat) (b : Nat) (s : State) : CandidateOnly s (Machine.raiseOnce l b s) :=
  ite (refl s) (candidate _ _)

theorem releaseLatch (s : State) : CandidateOnly s (Machine.releaseLatch s) := by
  unfold Machine.releaseLatch
  split
  · exact refl s
  · have h : CandidateOnly s (s.modMe (fun m => { m with latch := none })) := ⟨rfl, rfl⟩
    refine h.trans (ite ((dropCandidate _).trans (sparesOutRule _ _)) ⟨rfl, rfl⟩)

theorem pwu {s t : State} (h : CandidateOnly s t) : t.pwu = s.pwu := by rw [h.eq]
theorem le {s t : State} (h : CandidateOnly s t) : t.le = s.le := by rw [h.eq]
theorem device {s t : State} (h : CandidateOnly s t) : t.device = s.device := by rw [h.eq]

/-- The three sets of spares are left alone. -/
theorem sparesOnce {s t : State} (h : CandidateOnly s t) : sparesOnce t.me = sparesOnce s.me := by rw [h.me]; rfl

end CandidateOnly

/-! ### Ascending lists -/

theorem mem_insertAsc {n m : Nat} {l : List Nat} : n ∈ insertAsc m l ↔ n = m ∨ n ∈ l := by
  induction l with
  | nil => simp [insertAsc]
  | cons a t ih =>
    unfold insertAsc
    split
    · simp
    · split
      · rename_i h
        subst h
        simp
      · simp only [List.mem_cons, ih]
        tauto

theorem pairwise_insertAsc {n : Nat} {l : List Nat} (h : l.Pairwise (· < ·)) : (insertAsc n l).Pairwise (· < ·) := by
  induction l with
  | nil => simp [insertAsc]
  | cons a t ih =>
    rw [List.pairwise_cons] at h
    unfold insertAsc
    split
    · rename_i k
      refine List.pairwise_cons.mpr ⟨fun b hb => ?_, List.pairwise_cons.mpr h⟩
      rcases List.mem_cons.mp hb with e | e
      · omega
      · have := h.1 b e
        omega
    · split
      · exact List.pairwise_cons.mpr h
      · refine List.pairwise_cons.mpr ⟨fun b hb => ?_, ih h.2⟩
        rcases mem_insertAsc.mp hb with e | e
        · omega
        · exact h.1 b e

theorem perm_insertAsc {n : Nat} {l : List Nat} (h : n ∉ l) : (insertAsc n l).Perm (n :: l) := by
  induction l with
  | nil => exact List.Perm.refl _
  | cons a t ih =>
    simp only [List.mem_cons, not_or] at h
    unfold insertAsc
    split
    · exact List.Perm.refl _
    · split
      · omega
      · exact ((ih h.2).cons a).trans (List.Perm.swap _ _ _)

theorem pairwise_eraseNat {n : Nat} {l : List Nat} (h : l.Pairwise (· < ·)) : (eraseNat n l).Pairwise (· < ·) :=
  h.sublist List.filter_sublist

theorem perm_eraseNat {n : Nat} {l : List Nat} (h : l.Pairwise (· < ·)) (k : n ∈ l) : l.Perm (n :: eraseNat n l) := by
  have hn : l.Nodup := h.imp (fun h => Nat.ne_of_lt h)
  have e : eraseNat n l = l.erase n := by
    rw [eraseNat, hn.erase_eq_filter]
    congr 1
    funext m
    by_cases h : m = n <;> simp [h]
  rw [e]
  exact List.perm_cons_erase k

theorem pairwise_sortSpares (l : List Nat) : (sortSpares l).Pairwise (· < ·) := by
  have h : ∀ t : List Nat, t.Pairwise (· < ·) → (l.foldl (fun t n => insertAsc n t) t).Pairwise (· < ·) := by
    induction l with
    | nil => exact fun t ht => ht
    | cons a u ih => exact fun t ht => ih _ (pairwise_insertAsc ht)
  exact h [] List.Pairwise.nil

theorem perm_sortSpares {l : List Nat} (h : l.Nodup) : (sortSpares l).Perm l := by
  have k : ∀ t : List Nat, (∀ n ∈ l, n ∉ t) → (l.foldl (fun t n => insertAsc n t) t).Perm (l ++ t) := by
    induction l with
    | nil => exact fun t _ => List.Perm.refl _
    | cons a u ih =>
      intro t ht
      rw [List.nodup_cons] at h
      simp only [List.foldl_cons]
      refine (ih h.2 (insertAsc a t) (fun n hn e => ?_)).trans ?_
      · rcases mem_insertAsc.mp e with e | e
        · rw [e] at hn
          exact h.1 hn
        · exact ht n (by simp [hn]) e
      · exact (List.Perm.append_left u (perm_insertAsc (ht a (by simp)))).trans List.perm_middle
  simpa [sortSpares] using k [] (by simp)

/-! ### The remap table (R115, R120) -/

theorem insertRemap_keys (b x : Nat) (l : List (Nat × Nat)) :
    (insertRemap b x l).map Prod.fst = insertAsc b (l.map Prod.fst) := by
  induction l with
  | nil => rfl
  | cons e t ih =>
    simp only [insertRemap, List.map_cons, insertAsc]
    split
    · simp
    · split
      · rename_i h
        simp [h]
      · simp [ih]

/-- A block that has no entry gets one: its spare joins the table's spares. -/
theorem perm_insertRemap_new {b x : Nat} {l : List (Nat × Nat)} (k : ∀ e ∈ l, e.1 ≠ b) :
    ((insertRemap b x l).map Prod.snd).Perm (x :: l.map Prod.snd) := by
  induction l with
  | nil => exact List.Perm.refl _
  | cons e t ih =>
    simp only [insertRemap]
    split
    · exact List.Perm.refl _
    · rw [if_neg (fun h => k e (by simp) h.symm), List.map_cons]
      exact ((ih (fun f hf => k f (by simp [hf]))).cons e.2).trans (List.Perm.swap _ _ _)

/-- A block that has an entry gets the new spare in place of the old. -/
theorem perm_insertRemap_old {b x y : Nat} {l : List (Nat × Nat)} (h : (l.map Prod.fst).Pairwise (· < ·))
    (k : l.find? (fun e => decide (e.1 = b)) = some (b, y)) :
    (y :: (insertRemap b x l).map Prod.snd).Perm (x :: l.map Prod.snd) := by
  induction l with
  | nil => simp at k
  | cons e t ih =>
    simp only [List.map_cons, List.pairwise_cons] at h
    rw [List.find?_cons] at k
    split at k
    · injection k with k
      subst k
      simp [insertRemap, List.Perm.swap]
    · have hm : (b, y) ∈ t := List.mem_of_find?_eq_some k
      have : e.1 < b := h.1 b (List.mem_map_of_mem (f := Prod.fst) hm)
      simp only [insertRemap, if_neg (show ¬ b < e.1 by omega), if_neg (show ¬ b = e.1 by omega), List.map_cons]
      exact (List.Perm.swap _ _ _).trans (((ih h.2 k).cons e.2).trans (List.Perm.swap _ _ _))

theorem sortRemap_spares {l : List (Nat × Nat)} (h : (l.map Prod.fst).Nodup) :
    ((sortRemap l).map Prod.snd).Perm (l.map Prod.snd) ∧ ((sortRemap l).map Prod.fst).Pairwise (· < ·) := by
  have k : ∀ t : List (Nat × Nat), (t.map Prod.fst).Pairwise (· < ·) → (∀ e ∈ l, e.1 ∉ t.map Prod.fst) →
      ((l.foldl (fun t e => insertRemap e.1 e.2 t) t).map Prod.snd).Perm (l.map Prod.snd ++ t.map Prod.snd) ∧
        ((l.foldl (fun t e => insertRemap e.1 e.2 t) t).map Prod.fst).Pairwise (· < ·) := by
    induction l with
    | nil => exact fun t ht _ => ⟨List.Perm.refl _, ht⟩
    | cons a u ih =>
      intro t ht hd
      simp only [List.map_cons, List.nodup_cons] at h
      simp only [List.foldl_cons]
      have h1 := ih h.2 (insertRemap a.1 a.2 t) (by rw [insertRemap_keys]; exact pairwise_insertAsc ht) (fun e he k => by
        rw [insertRemap_keys] at k
        rcases mem_insertAsc.mp k with k | k
        · exact h.1 (k ▸ List.mem_map_of_mem (f := Prod.fst) he)
        · exact hd e (by simp [he]) k)
      refine ⟨h1.1.trans ?_, h1.2⟩
      have h2 : ((insertRemap a.1 a.2 t).map Prod.snd).Perm (a.2 :: t.map Prod.snd) :=
        perm_insertRemap_new (fun e he k => hd a (by simp) (k ▸ List.mem_map_of_mem (f := Prod.fst) he))
      exact (List.Perm.append_left _ h2).trans List.perm_middle
  simpa [sortRemap] using k [] List.Pairwise.nil (by simp)

/-! ### The three sets (R115) -/

theorem sparesOnce_iff (m : MediaEngine) : sparesOnce m = true ↔
    (m.remap.map Prod.snd ++ m.pool ++ m.retired).Perm Config.spares ∧ (m.remap.map Prod.fst).Pairwise (· < ·) ∧
      m.pool.Pairwise (· < ·) ∧ m.retired.Pairwise (· < ·) := by
  simp [sparesOnce, and_assoc]

theorem nodup_spares : Config.spares.Nodup := by decide

/-- A spare of the pool is retired (R118, R119). -/
theorem sparesOnce_retire {m : MediaEngine} {x : Nat} (h : sparesOnce m = true) (k : x ∈ m.pool) :
    sparesOnce { m with pool := eraseNat x m.pool, retired := insertAsc x m.retired } = true := by
  rw [sparesOnce_iff] at h ⊢
  obtain ⟨h1, h2, h3, h4⟩ := h
  have nd : (m.remap.map Prod.snd ++ m.pool ++ m.retired).Nodup := h1.nodup_iff.mpr nodup_spares
  have hx : x ∉ m.retired := fun e => (List.nodup_append.mp nd).2.2 x (by simp [k]) x e rfl
  refine ⟨List.Perm.trans ?_ h1, h2, pairwise_eraseNat h3, pairwise_insertAsc h4⟩
  simp only [List.append_assoc]
  refine List.Perm.append_left _ ((List.Perm.append_left _ (perm_insertAsc hx)).trans (List.perm_middle.trans ?_))
  exact (List.Perm.append_right _ (perm_eraseNat h3 k)).symm

/-- The switch of a block to a spare of the pool (R121). -/
theorem sparesOnce_switch {m : MediaEngine} {b x : Nat} (h : sparesOnce m = true) (k : x ∈ m.pool) :
    sparesOnce { m with remap := (remapWith m b x).1, retired := (remapWith m b x).2, pool := eraseNat x m.pool } =
      true := by
  rw [sparesOnce_iff] at h ⊢
  obtain ⟨h1, h2, h3, h4⟩ := h
  have nd : (m.remap.map Prod.snd ++ m.pool ++ m.retired).Nodup := h1.nodup_iff.mpr nodup_spares
  have e1 := perm_eraseNat h3 k
  simp only [remapWith]
  cases hf : m.remap.find? (fun e => decide (e.1 = b)) with
  | none =>
    refine ⟨List.Perm.trans (List.Perm.append_right _ ?_) h1, by simp [insertRemap_keys, pairwise_insertAsc h2],
      pairwise_eraseNat h3, h4⟩
    have hn : ∀ e ∈ m.remap, e.1 ≠ b := by simpa using hf
    refine (List.Perm.append_right _ (perm_insertRemap_new hn)).trans ?_
    exact List.perm_middle.symm.trans (List.Perm.append_left _ e1.symm)
  | some e =>
    have hb : e.1 = b := by simpa using List.find?_some hf
    have hm := List.mem_of_find?_eq_some hf
    have hy : e.2 ∉ m.retired := fun e' =>
      (List.nodup_append.mp nd).2.2 e.2 (by simp only [List.mem_append, List.mem_map]; exact Or.inl ⟨e, hm, rfl⟩)
        e.2 e' rfl
    have hf' : m.remap.find? (fun e => decide (e.1 = b)) = some (b, e.2) := by rw [hf, ← hb]
    refine ⟨List.Perm.trans ?_ h1, by simp [insertRemap_keys, pairwise_insertAsc h2], pairwise_eraseNat h3,
      pairwise_insertAsc h4⟩
    refine (List.Perm.append_left _ (perm_insertAsc hy)).trans (List.perm_middle.trans ?_)
    rw [← List.cons_append]
    refine List.Perm.append_right _ ?_
    rw [← List.cons_append]
    refine (List.Perm.append_right _ (perm_insertRemap_old (x := x) h2 hf')).trans ?_
    exact List.perm_middle.symm.trans (List.Perm.append_left _ e1.symm)

theorem allDifferent_iff (l : List Nat) : allDifferent l = true ↔ l.Nodup := by
  induction l with
  | nil => simp [allDifferent]
  | cons a t ih => simp [allDifferent, ih]

/-- The sets of a record that R10 accepts, with the pool of R12. -/
theorem sparesOnce_load {m : MediaEngine} {remap : List (Nat × Nat)} {retired : List Nat}
    (h : sparesValid remap retired = true) :
    sparesOnce { m with remap := sortRemap remap, retired := sortSpares retired, pool := poolOf remap retired } =
      true := by
  simp only [sparesValid, Bool.and_eq_true, allDifferent_iff, List.all_eq_true, decide_eq_true_eq,
    Bool.not_eq_true', List.contains_eq_mem, decide_eq_false_iff_not] at h
  obtain ⟨⟨⟨⟨⟨h1, h2⟩, h3⟩, h4⟩, h5⟩, h6⟩ := h
  rw [sparesOnce_iff]
  have hp : (poolOf remap retired).Pairwise (· < ·) :=
    List.Pairwise.sublist List.filter_sublist (show Config.spares.Pairwise (· < ·) by decide)
  refine ⟨?_, (sortRemap_spares h2).2, hp, pairwise_sortSpares _⟩
  refine (List.Perm.append (List.Perm.append_right _ (sortRemap_spares h2).1) (perm_sortSpares h5)).trans ?_
  have hm : ∀ n, n ∈ poolOf remap retired ↔ n ∈ Config.spares ∧ n ∉ remap.map Prod.snd ∧ n ∉ retired := by
    intro n
    simp [poolOf]
  refine (List.perm_ext_iff_of_nodup ?_ nodup_spares).mpr (fun n => ?_)
  · refine List.nodup_append.mpr ⟨List.nodup_append.mpr ⟨h3, hp.imp (fun h => Nat.ne_of_lt h), ?_⟩, h5, ?_⟩
    · rintro a ha b hb rfl
      exact ((hm a).mp hb).2.1 ha
    · rintro a ha b hb rfl
      rcases List.mem_append.mp ha with e | e
      · exact h6 a hb e
      · exact ((hm a).mp e).2.2 hb
  · simp only [List.mem_append, hm]
    constructor
    · rintro ((e | e) | e)
      · obtain ⟨x, hx, rfl⟩ := List.mem_map.mp e
        exact (h1 x hx).2
      · exact e.1
      · exact h4 n e
    · intro e
      by_cases k1 : n ∈ remap.map Prod.snd
      · exact Or.inl (Or.inl k1)
      · by_cases k2 : n ∈ retired
        · exact Or.inr k2
        · exact Or.inl (Or.inr ⟨e, k1, k2⟩)

/-- The end of the running job leaves the sets alone, and a job that starts takes its target from the pool (R115, R118). -/
theorem endRunning_spares {s : State} (hd : s.device = .ready) (h : sparesOnce s.me = true) :
    sparesSound (endRunning s) = true := by
  have h1 : sparesSound (s.modMe (fun m => { m with running := none })) = true := by
    simp only [sparesSound, State.modMe_device, hd, Bool.and_eq_true]
    exact ⟨h, rfl⟩
  exact (Keeps.selectJob _).spares h1

/-- So does the end of a RELOCATE job (R122). -/
theorem endRelocate_spares {s : State} (k : MediaKind) (b : Nat) (hd : s.device = .ready)
    (h : sparesOnce s.me = true) : sparesSound (endRelocate k b s) = true := by
  have hc : CandidateOnly s (releaseLatch (sparesOutRule b (mediaEvent k b s))) :=
    ((CandidateOnly.mediaEvent k b s).trans (CandidateOnly.sparesOutRule _ _)).trans (CandidateOnly.releaseLatch _)
  exact endRunning_spares (by rw [hc.device, hd]) (by rw [hc.sparesOnce, h])

/-- A job runs only in a READY device, and its relocation's target is in the pool (R104, R115). -/
theorem sparesSound_running {s : State} (h : sparesSound s = true) (hr : s.me.running ≠ none) :
    s.device = .ready ∧ sparesOnce s.me = true ∧ targetInPool s.me = true := by
  unfold sparesSound at h
  split at h
  · exact absurd (Option.isNone_iff_eq_none.mp h) hr
  · simp only [Bool.and_eq_true] at h
    exact ⟨‹_›, h.1, h.2⟩

/-! ### The range cleared (R131) -/

/-- The blocks that a CLEAR has cleared, in ascending order, are covered from the first's first sector to the last's last. -/
theorem clearedRange_ascending {l : List Nat} (hl : l.Pairwise (· < ·)) {a b : Nat} (h1 : l.head? = some a)
    (h2 : l.getLast? = some b) : clearedRange l = some { first := 32 * a, count := 32 * b + 32 - 32 * a } := by
  induction l generalizing a b with
  | nil => simp at h1
  | cons x t ih =>
    simp at h1
    subst h1
    cases t with
    | nil => simp at h2; subst h2; simp [clearedRange, hull, blockRange, Config.blockSectors]
    | cons y u =>
      rw [List.pairwise_cons] at hl
      have h2' : (y :: u).getLast? = some b := by simpa using h2
      have k := ih hl.2 rfl h2'
      have hxy : x < y := hl.1 y (by simp)
      have hyb : y ≤ b := by
        rcases List.mem_cons.mp (List.mem_of_getLast? h2') with e | e
        · omega
        · exact ((List.pairwise_cons.mp hl.2).1 b e).le
      have e : clearedRange (x :: y :: u) = match clearedRange (y :: u) with
          | none => some (blockRange x)
          | some h => some (Range.span (blockRange x) h) := rfl
      rw [e, k]
      simp only [Option.some.injEq, Range.span, blockRange, Config.blockSectors, Range.mk.injEq]
      omega

end Sys2Proof.Machine
end

