-- ==== Sys2Proof/Laws/Work.lean ====
section
/-! SUPPORT. The operations that leave what waits to be taken alone: the requests at the lease engine (R24) and the slot
commands kept back at their ports (R167, R176). -/

namespace Sys2Proof.Machine

/-- What waits to be taken is the same: the lease engine's requests and each port's slot command kept back. -/
structure SameWork (s t : State) : Prop where
  requests : t.le.requests = s.le.requests
  waiting : ∀ q, (t.plu.get q).waiting = (s.plu.get q).waiting

namespace SameWork

theorem refl (s : State) : SameWork s s := ⟨rfl, fun _ => rfl⟩

theorem trans {s t u : State} (h : SameWork s t) (k : SameWork t u) : SameWork s u :=
  ⟨k.requests.trans h.requests, fun q => (k.waiting q).trans (h.waiting q)⟩

theorem ite {c : Prop} [Decidable c] {s t u : State} (h : SameWork s t) (k : SameWork s u) :
    SameWork s (if c then t else u) := by split <;> assumption

/-- A fold of operations that each leave it alone. -/
theorem foldl {α : Type} {f : State → α → State} (h : ∀ t x, SameWork t (f t x)) (l : List α) (s : State) :
    SameWork s (l.foldl f s) := by
  induction l generalizing s with
  | nil => exact refl s
  | cons a t ih => exact (h s a).trans (ih _)

/-! ### Updates of one block -/

theorem modLe {f : LeaseEngine → LeaseEngine} {s : State} (h : (f s.le).requests = s.le.requests) :
    SameWork s (s.modLe f) := ⟨h, fun _ => rfl⟩

theorem modEu {f : EpochUnit → EpochUnit} {s : State} : SameWork s (s.modEu f) := ⟨rfl, fun _ => rfl⟩

theorem modPwu {p : Port} {f : WriteUnit → WriteUnit} {s : State} : SameWork s (s.modPwu p f) := ⟨rfl, fun _ => rfl⟩

theorem modNu {p : Port} {f : NuPort → NuPort} {s : State} : SameWork s (s.modNu p f) := ⟨rfl, fun _ => rfl⟩

theorem setHoldList {l : List HoldEntry} {s : State} : SameWork s (s.setHoldList l) := ⟨rfl, fun _ => rfl⟩

theorem setReleased {l : List (List (Port × Nat))} {s : State} : SameWork s (s.setReleased l) := ⟨rfl, fun _ => rfl⟩

theorem modPlu {p : Port} {f : Plu → Plu} {s : State} (h : ∀ u, (f u).waiting = u.waiting) :
    SameWork s (s.modPlu p f) := by
  refine ⟨rfl, fun q => ?_⟩
  by_cases e : q = p
  · subst e; simp [h]
  · simp [PortMap.get_modify_ne, e]

/-! ### Completions, counters, notices -/

theorem complete (p : Port) (n : Nat) (c : Completion) (s : State) : SameWork s (Machine.complete p n c s) :=
  modPlu (fun u => by split <;> rfl)

theorem setSlot (p : Port) (n : Nat) (st : SlotState) (s : State) : SameWork s (Machine.setSlot p n st s) :=
  modPlu (fun u => by split <;> rfl)

theorem countEvent (e : CounterEvent) (a : Option Port) (s : State) : SameWork s (Machine.countEvent e a s) :=
  by
  refine foldl (fun _ _ => ?_) _ _
  exact modPlu (fun _ => rfl)

theorem placeNotice (p : Port) (s : State) (n : Notice) : SameWork s (Machine.placeNotice p s n) := by
  unfold Machine.placeNotice
  split
  · exact modNu
  · exact trans modNu (countEvent _ _ _)

theorem deliver (r : Port → List Notice) (s : State) : SameWork s (Machine.deliver r s) :=
  foldl (fun t p => foldl (fun t n => placeNotice p t n) _ t) _ _

/-! ### The lease engine -/

/-- A lease changed, renewed or removed from the table. -/
theorem updateLease (id : Nat) (f : Lease → Option Lease) (s : State) : SameWork s (Machine.updateLease id f s) :=
  modLe rfl

theorem grant (e : WaitEntry) (s : State) : SameWork s (Machine.grant e s) := by
  unfold Machine.grant
  split
  · exact trans (trans (modLe rfl) (complete _ _ _ _)) (countEvent _ _ _)
  · exact trans (trans (trans (updateLease _ _ _) (updateLease _ _ _)) (complete _ _ _ _)) (countEvent _ _ _)

/-- The grant scan takes no request (R60). -/
theorem grantScan (s : State) : SameWork s (Machine.grantScan s) := by
  have h : ∀ (todo parked : List WaitEntry) (s : State), SameWork s (scanWalk parked todo s) := by
    intro todo
    induction todo with
    | nil => exact fun _ _ => modLe rfl
    | cons e t ih =>
      intro parked s
      unfold scanWalk
      split
      · exact ih _ _
      · exact trans (grant e s) (ih _ _)
  exact h _ _ _

theorem removeLease (id : Nat) (s : State) : SameWork s (Machine.removeLease id s) := by
  unfold Machine.removeLease
  split
  · exact trans (updateLease _ _ _) (deliver _ _)
  · exact refl s

/-- The end of a lease (R39). -/
theorem endLease (id : Nat) (c : EndCause) (s : State) : SameWork s (Machine.endLease id c s) := by
  unfold Machine.endLease
  split
  · exact refl s
  · exact trans (trans modPwu (ite (placeNotice _ _ _) (refl _))) (ite (updateLease _ _ _) (removeLease _ _))

/-- A sweep renews and expires leases and takes no request (R65 to R68). -/
theorem sweepLeases (s : State) : SameWork s (Machine.sweepLeases s) :=
  trans (trans (trans modEu (foldl (fun _ _ => updateLease _ _ _) _ _))
    (foldl (fun _ _ => trans (endLease _ _ _) (countEvent _ _ _)) _ _)) (grantScan _)

/-! ### Teardowns -/

/-- The completion of FENCEs (R182). -/
theorem finishFences (s : State) : SameWork s (Machine.finishFences s) :=
  trans (modLe rfl) (foldl (fun _ _ => complete _ _ _ _) _ _)

/-- A job released from the hold list (R152). -/
theorem endHold (p : Port) (n : Nat) (b : Bool) (s : State) : SameWork s (Machine.endHold p n b s) := by
  unfold Machine.endHold
  split
  · exact refl s
  · exact ite (trans modPwu (setSlot _ _ _ _)) (refl s)

/-- The hold list's re-examination (R152). -/
theorem reexamine (s : State) : SameWork s (Machine.reexamine s) := by
  have h : ∀ (l kept : List HoldEntry) (gone : List (Port × Nat)) (s : State),
      SameWork s (reexamineFrom kept gone l s) := by
    intro l
    induction l with
    | nil => exact fun _ _ _ => trans setHoldList (ite (refl _) setReleased)
    | cons e t ih =>
      intro kept gone s
      unfold reexamineFrom
      exact ite (ih _ _ _) (trans (endHold _ _ _ _) (ih _ _ _))
  exact h _ _ _ _

end SameWork

end Sys2Proof.Machine
end

