-- ==== Sys2Proof/Tests/Slice0.lean ====
section
/-! SUPPORT. Tests: ill-formed commands that the check refuses, frames written out byte by byte, single steps against the
spec's worked examples, and one state and operands that meet the hypotheses of each statement. -/

open Sys2Proof Sys2Proof.Machine

namespace Sys2Proof.Tests

set_option Elab.async false

/-! ### Well-formedness: one ill-formed command for each check -/

theorem test_wf_frame_without_byte : (Instr.status .p0 0).wf = false := by decide

theorem test_wf_selector_all_is_not_00h : (Instr.renewAll .p0 0#8 4).wf = false := by decide

theorem test_wf_undefine_is_not_00h : (Instr.setRegionUndefine .p0 1#8 0#8 10).wf = false := by decide

theorem test_wf_unknown_opcode_names_no_frame : (Instr.unknownOpcodeFrame .p0 0x10#8 1).wf = false := by decide

theorem test_wf_payload_length : (Instr.write .p0 0#16 1#8 [1#8] 8).wf = false := by decide

theorem test_wf_accepts : (Instr.write .p0 0#16 1#8 [1#8, 2#8] 7).wf = true ∧ (Instr.commitAll .p1 0xFF#8 4).wf = true ∧
    (Instr.unknownOpcodeFrame .p2 0x68#8 1).wf = true := by decide

/-! ### Frames: bytes written out from the layouts of R178 -/

theorem test_frame_acquire : decodeFrame .p1 [0x10#8, 0#8, 0x12#8, 0x34#8, 0x00#8, 0x20#8, 0x01#8, 0x05#8] =
    some (.acquire .p1 0x1234#16 0x0020#16 0x01#8 0x05#8 8) := by decide

theorem test_frame_renew_all : decodeFrame .p0 [0x13#8, 0#8, 0x01#8, 0x40#8] = some (.renewAll .p0 0x01#8 4) := by decide

theorem test_frame_write : decodeFrame .p0 [0x21#8, 0#8, 0x00#8, 0x07#8, 0x01#8, 0xAA#8, 0xBB#8] =
    some (.write .p0 7#16 1#8 [0xAA#8, 0xBB#8] 7) := by decide

theorem test_frame_set_watch : decodeFrame .p3 [0x30#8, 0#8, 2#8, 1#8, 0#8, 0#8, 0#8, 0#8, 0x80#8, 0x01#8, 0#8, 1#8, 0#8] =
    some (.setWatch .p3 2#8 1#8 0#16 0#16 0x8001#16 0#8 1#8 0#8 13) := by decide

theorem test_frame_signal_modify : decodeFrame .p2 [0x41#8, 0#8, 3#8, 0xFF#8, 0x00#8, 0x12#8, 0x34#8] =
    some (.signalModify .p2 3#8 0xFF00#16 0x1234#16 7) := by decide

theorem test_frame_set_region : decodeFrame .p0 [0x60#8, 0#8, 1#8, 0#8, 0x10#8, 0x00#8, 0x1F#8, 0xFF#8, 0xAA#8, 1#8] =
    some (.setRegion .p0 1#8 0x1000#16 0x1FFF#16 0xAA#8 1#8 10) := by decide

theorem test_frame_unknown : decodeFrame .p0 [0x68#8] = some (.unknownOpcodeFrame .p0 0x68#8 1) := by decide

/-! ### Small states -/

/-- READY after a load that found the metadata block blank: the default settings, supervisor port P0 (R11, R12). -/
def ready : State := endLoad { State.reset with rstHeld := false }

/-- A lease put in a slot of the table. -/
def withLease (slot : Nat) (tag : BitVec 2) (l : Lease) (s : State) : State :=
  s.modLe (fun e => { e with table := e.table.set slot { tag := tag, lease := some l } })

/-- A HELD lease of a port over `count` sectors from `first`. -/
def heldBy (p : Port) (m : LeaseMode) (first count : Nat) : Lease :=
  { holder := p, mode := m, first := first, count := count, stamp := 0#2, state := .held }

/-- A sector's worth of one byte. -/
def sectorOf (b : Byte) : SectorData := List.replicate 512 b

/-- A staging slot put in a write unit. -/
def withSlot (p : Port) (x : StagingSlot) (s : State) : State :=
  s.modPwu p (fun u => { u with slots := insertSlot x u.slots })

/-- A slot command in flight at its port, under the number 1. -/
def inFlight (p : Port) (op : Byte) (st : SlotState) (s : State) : State :=
  s.modPlu p (fun u => { u with slot := st, opcode := op, serial := 1 })

/-- A command at the write unit, of the number 1. -/
def withCommand (p : Port) (a : PwuAction) (bound : List Nat) (st : PwuStage) (s : State) : State :=
  s.modPwu p (fun u =>
    { u with command := some { serial := 1, action := a, bound := bound, stage := st, holdExpired := false, broken := [] } })

/-- The owner of a job of the port's command of number 1. -/
def ownerAt (p : Port) : JobOwner := { issuer := p, serial := 1, abandoned := false }

/-- The state after a command, or the state before it where it answers no next state. -/
def after (c : Instr) (s : State) : State :=
  match exec c s with
  | .next t => t
  | _ => s

/-- What a port's last completion says. -/
def completionAt (p : Port) (s : State) : Option Completion := (s.plu.get p).record.map CompletionRecord.completion

/-- P0 holds an EXCLUSIVE lease of sectors 64 to 95 in slot 0, id 64. -/
def leased : State := withLease 0 1#2 (heldBy .p0 .exclusive 64 32) ready

/-- The same lease SHARED. -/
def shared : State := withLease 0 1#2 (heldBy .p0 .shared 64 32) ready

/-! ### Single steps, one or two for each family -/

theorem test_load_ends_with_the_default_settings : ready.device = .ready ∧ ready.ac.regions = some defaultRegion :: List.replicate 7 none ∧
    ready.ac.metaInvalid = true ∧ ready.eu.period = 50 ∧ ready.me.pool.length = 16 := by decide +kernel

theorem test_acquire_grants_id_64 :
    completionAt .p0 (after (.acquire .p0 64#16 32#16 1#8 0#8 8) ready) =
      some { status := .done, leaseId := some 64, lastSector := some 95, count := 32 } := by decide +kernel

theorem test_acquire_conflict_names_the_lease :
    completionAt .p1 (after (.acquire .p1 95#16 1#16 0#8 0#8 8) leased) =
      some { status := .conflict, detail := [0#8, 0#8, 64#8, 1#8] } := by decide +kernel

theorem test_acquire_parks : ((after (.acquire .p1 95#16 1#16 0#8 5#8 8) leased).plu.get .p1).slot = .parked ∧
    (after (.acquire .p1 95#16 1#16 0#8 5#8 8) leased).le.queue.length = 1 := by decide +kernel

theorem test_release_removes : leases (after (.release .p0 64#8 0#8 4) leased) = [] ∧
    completionAt .p0 (after (.release .p0 64#8 0#8 4) leased) = some { status := .done, leaseId := some 64, detail := [0#8] } := by
  decide +kernel

theorem test_write_stages : ((after (.write .p0 70#16 1#8 (sectorOf 7#8) 517) leased).pwu.get .p0).slots =
    [{ sector := 70, data := sectorOf 7#8, leaseId := 64, state := .staged }] := by decide +kernel

theorem test_write_not_covered : completionAt .p1 (after (.write .p1 70#16 1#8 (sectorOf 7#8) 517) leased) =
    some { status := .notCovered, lastSector := some 70 } := by decide +kernel

theorem test_commit_issues_a_drain :
    (after (.commit .p0 64#8 4) (withSlot .p0 { sector := 70, data := sectorOf 7#8, leaseId := 64, state := .staged } leased)).me.running =
      some (.drain { issuer := .p0, serial := 1, abandoned := false } [{ sector := 70, data := sectorOf 7#8 }] [] none []) := by
  decide +kernel

theorem test_clear_of_a_block_issues_a_job : (after (.clear .p0 64#16 32#16 6) leased).me.running =
    some (.clear { issuer := .p0, serial := 1, abandoned := false } [2] [] []) := by decide +kernel

theorem test_clear_of_part_of_a_block_is_pending : completionAt .p0 (after (.clear .p0 64#16 31#16 6) leased) =
    some { status := .done, flags := { pending := true }, detail := [0#8, 64#8, 0#8, 31#8] } := by decide +kernel

theorem test_signal_modify : (after (.signalModify .p2 3#8 0xFF00#16 0x1234#16 7) ready).swb.getD 3 0#16 = 0x1200#16 ∧
    completionAt .p2 (after (.signalModify .p2 3#8 0xFF00#16 0x1234#16 7) ready) =
      some { status := .done, count := 1, detail := [3#8, 0#8, 0#8, 0x12#8, 0#8] } := by decide +kernel

theorem test_set_levels : completionAt .p1 (after (.setLevels .p1 16#8 15#8 4) ready) =
    some { status := .done, detail := [0#8] } := by decide +kernel

theorem test_device_info : completionAt .p3 (after (.deviceInfo .p3 2) ready) =
    some { status := .done, detail := [65#8, 1#8, 0#8, 0#8, 16#8, 0#8, 0#8, 1#8, 0#8, 50#8, 20#8, 16#8] } := by
  decide +kernel

theorem test_fence_marks_the_target : ((after (.fence .p0 2#8 3) ready).plu.get .p2).fenced = true ∧
    (after (.fence .p0 2#8 3) ready).le.fences.length = 1 := by decide +kernel

theorem test_status_in_starting : ((after (.status .p0 2) { State.reset with rstHeld := false }).plu.get .p0).sdo = [4#8, 0#8] := by
  decide +kernel

theorem test_program_stores :
    Memory.read (after (.programSectorOutcome .ok) (ready.modMe (fun m =>
      { m with running := some (.drain (ownerAt .p0) [{ sector := 70, data := sectorOf 7#8 }] [] none []) }))).me.array
      (70 * 512 + 511) = 7#8 := by decide +kernel

theorem test_fault_retires_the_spare :
    (after (.relocateSpareClearOutcome .fault) (ready.modMe (fun m =>
      { m with running := some (.relocate 2 1024 .clearSpare) }))).me.retired = [1024] := by decide +kernel

theorem test_sweep_expires_an_old_lease :
    leases (after .sweep ((leased.modLe (fun e => { e with sweepsAsked := 1 })).modEu (fun e => { e with epoch := 2#2 }))) = [] := by
  decide +kernel

theorem test_switch_serves_from_the_spare : servingBlock (switchRemap 2 1024 ready).me 2 = 1024 ∧
    sparesOnce (switchRemap 2 1024 ready).me = true := by decide +kernel

/-! ### States that meet the statements' hypotheses -/

/-- The media engine with a job running. -/
def running (r : Running) (s : State) : State := s.modMe (fun m => { m with running := some r })

/-- A staged sector 70 of P0 under lease 64. -/
def oneStaged : State := withSlot .p0 { sector := 70, data := sectorOf 7#8, leaseId := 64, state := .staged } leased

/-- P0's lease 64 with slot of sector 70 DRAINING. -/
def oneDraining : State := withSlot .p0 { sector := 70, data := sectorOf 7#8, leaseId := 64, state := .draining } leased

/-- A parked ACQUIRE. -/
def parkedAcquire (p : Port) (first count : Nat) (m : LeaseMode) : WaitEntry :=
  { port := p, kind := .acquire, range := { first := first, count := count }, mode := m, waitMs := 50, serial := 1 }

/-- The wait queue replaced. -/
def withQueue (q : List WaitEntry) (s : State) : State := s.modLe (fun e => { e with queue := q })

/-- A waiting teardown of the port at each of the four blocks whose teardowns are no requests. -/
def tornDown (p : Port) (s : State) : State :=
  s.modTeardown p (fun _ => { pwu := true, me := true, nu := true, swb := true })

/-- A port's requests at the lease engine. -/
def asking (p : Port) (l : List LeRequest) (s : State) : State :=
  s.modLe (fun e => { e with requests := e.requests.set p l })

/-- A sweep asked and not taken. -/
def sweepPending (s : State) : State := s.modLe (fun e => { e with sweepsAsked := 1 })

/-- A port's fence flag set. -/
def fencedPort (p : Port) (s : State) : State := s.modPlu p (fun u => { u with fenced := true })

/-- A READ's command in flight at P0, its slot BUSY. -/
def readInFlight (rest : List Nat) (st : PwuStage) : State :=
  inFlight .p0 0x20#8 .busy (withCommand .p0 (.read { first := 70, count := 2 } rest) [64] st leased)

theorem test_meets_StepTakesFrontCommand :
    ({ ready with pending := [.sweep, .rotationExpiry] } : State).pending = .sweep :: [.rotationExpiry] ∧
      State.reset.pending = [] := by decide +kernel

theorem test_meets_ExecLeavesQueue : ∃ t, exec .rotationExpiry ready = .next t := ⟨_, rfl⟩

theorem test_meets_DeviceResetCutsTheOperationInProgress : (∃ t, exec .deviceReset ready = .next t) ∧
    ready.me.running = none ∧
    (running (.read (ownerAt .p0) [70] 0 false []) ready).me.running = some (.read (ownerAt .p0) [70] 0 false []) ∧
    (running (.drain (ownerAt .p0) [{ sector := 70, data := [] }] [] none []) ready).me.running =
      some (.drain (ownerAt .p0) [{ sector := 70, data := [] }] [] none []) ∧
    (running (.clear (ownerAt .p0) [2] [] []) ready).me.running = some (.clear (ownerAt .p0) [2] [] []) ∧
    (running (.metadata (ownerAt .p0) (recordFrom ready [] [])) ready).me.running =
      some (.metadata (ownerAt .p0) (recordFrom ready [] [])) ∧
    (running (.relocate 2 1024 .clearSpare) ready).me.running = some (.relocate 2 1024 .clearSpare) ∧
    (running (.relocate 2 1024 (.copyRead 31)) ready).me.running = some (.relocate 2 1024 (.copyRead 31)) ∧
    (running (.relocate 2 1024 (.copyProgram 31 [])) ready).me.running = some (.relocate 2 1024 (.copyProgram 31 [])) ∧
    (running (.relocate 2 1024 (.writeRecord (recordFrom ready [] []))) ready).me.running =
      some (.relocate 2 1024 (.writeRecord (recordFrom ready [] []))) :=
  ⟨⟨_, rfl⟩, by decide +kernel⟩

/-- A record that R10 accepts, with a remap entry and a retired spare at the ends of their ranges. -/
def validRecord : MetaRecord := { settings := Settings.default, remap := [(1023, 1039)], retired := [1024], checkOk := true }

/-- LOADING with some reads ended, RST released. -/
def loading (n : Nat) (r : Option MetaRecord) : State :=
  { State.reset with rstHeld := false }.modMe (fun m => { m with loadReads := n, record := r })

theorem test_meets_MetadataLoadRuns :
    ((loading 30 none).device = .starting ∧ (loading 30 none).me.loadReads < 31) ∧
    ((loading 31 (some validRecord)).device = .starting ∧ (loading 31 (some validRecord)).rstHeld = false ∧
      (loading 31 (some validRecord)).me.loadReads = 31 ∧ (loading 31 (some validRecord)).me.loadBad = false ∧
      32 * 1040 + 31 ∉ (loading 31 (some validRecord)).me.unreadable ∧ recordValid validRecord = true) ∧
    ((loading 31 none).me.record = none ∧ recordValid { validRecord with checkOk := false } = false) ∧
    (State.reset.rstHeld = true ∧ State.reset.me.loadReads < 32 ∧
      ({ loading 31 none with rstHeld := true } : State).me.loadReads < 32) := by decide +kernel

/-- A physical sector left unreadable. -/
def unreadableAt (n : Nat) (s : State) : State := s.modMe (fun m => { m with unreadable := [n] })

theorem test_meets_MetadataLoadRuns_reads :
    (32 * 1040 + 30 ∈ (unreadableAt (32 * 1040 + 30) (loading 30 none)).me.unreadable ∧
      32 * 1040 + (loading 30 none).me.loadReads = 32 * 1040 + 30 ∧ ReadOutcome.corrected ≠ .uncorrectable) ∧
    (32 * 1040 + 31 ∉ (loading 31 none).me.unreadable ∧ (loading 31 none).me.loadReads < 32) ∧
    (32 * 1040 + 31 ∈ (unreadableAt (32 * 1040 + 31) (loading 31 none)).me.unreadable ∧
      (unreadableAt (32 * 1040 + 31) (loading 31 none)).rstHeld = false) := by decide +kernel

theorem test_meets_FrameIsIgnoredOrRejected :
    (frameLayout (.result .p0 0) = some (.p0, 0x01#8, [], 0) ∧ State.reset.rstHeld = true) ∧
    (slotLength? (.result .p0 1) = none ∧ frameLayout (.result .p0 1) = some (.p0, 0x01#8, [], 1) ∧
      (loading 0 none).rstHeld = false ∧ (loading 0 none).device = .starting ∧
      (fencedPort .p0 ready).rstHeld = false ∧ (fencedPort .p0 ready).device = .ready ∧
      ((fencedPort .p0 ready).plu.get .p0).fenced = true) ∧
    openPort .p0 ready = true := by decide +kernel

theorem test_meets_SlotFrameIsRejected :
    slotLength? (.acquire .p0 0#16 1#16 0#8 0#8 8) = some 8 ∧
    frameLayout (.acquire .p0 0#16 1#16 0#8 0#8 8) = some (.p0, 0x10#8, [0#8, 0#8, 0#8, 1#8, 0#8, 0#8], 8) ∧
    frameLayout (.acquire .p0 0#16 1#16 0#8 0#8 7) = some (.p0, 0x10#8, [0#8, 0#8, 0#8, 1#8, 0#8, 0#8], 7) ∧
    (Instr.acquire .p0 0#16 1#16 0#8 0#8 8).wf = true ∧ (Instr.acquire .p0 0#16 1#16 0#8 0#8 7).wf = true ∧
    (loading 0 none).rstHeld = false ∧ (loading 0 none).device = .starting ∧ ready.rstHeld = false ∧
    openPort .p0 ready = true ∧ openPort .p0 (inFlight .p0 0x10#8 .parked ready) = true ∧
    ((inFlight .p0 0x10#8 .parked ready).plu.get .p0).slot ≠ .idle ∧
    slotLength? (.write .p0 0#16 4#8 [] 5) = some 2053 ∧ slotLength? (.write .p0 0#16 5#8 [] 5) = some 5 := by decide +kernel

theorem test_meets_StatusIsAnsweredInEveryState : (loading 0 none).rstHeld = false ∧ (fencedPort .p0 ready).rstHeld = false := by
  decide +kernel

theorem test_meets_ResultAndFetchDataAnswer : openPort .p0 ready = true ∧ (ready.plu.get .p0).slot = .idle ∧
    (ready.plu.get .p0).record = none ∧ ((readInFlight [70] .issued).plu.get .p0).slot ≠ .idle ∧
    ((readInFlight [70] .issued).plu.get .p0).opcode = 0x20#8 ∧
    ((inFlight .p0 0x22#8 .busy ready).plu.get .p0).slot ≠ .idle ∧
    ((inFlight .p0 0x22#8 .busy ready).plu.get .p0).opcode ≠ 0x20#8 ∧
    ((after (.setAttnMask .p0 1#8 3) ready).plu.get .p0).record =
      some { opcode := 0x33#8, completion := { status := .done, detail := [1#8] } } ∧
    ((after (.setAttnMask .p0 1#8 3) ready).plu.get .p0).slot = .idle := by decide +kernel

/-- A port's notice queue of `n` records, CONGESTED or not. -/
def withNotices (p : Port) (n : Nat) (congested : Bool) (s : State) : State :=
  s.modNu p (fun u => { u with queue := List.replicate n { body := .media .relocated 2, watch := some 0 },
                               congested := congested })

theorem test_meets_FetchNoticeRemovesTheHead : openPort .p0 ready = true ∧ (ready.teardown.get .p0).nu = false ∧
    (ready.nu.get .p0).queue = [] ∧
    ((withNotices .p0 1 false ready).nu.get .p0).queue = { body := .media .relocated 2, watch := some 0 } :: [] ∧
    ((withNotices .p0 1 false ready).nu.get .p0).congested = false ∧
    ((withNotices .p0 5 true ready).nu.get .p0).congested = true ∧
    ((withNotices .p0 5 true ready).nu.get .p0).queue.tail.length ≤ ((withNotices .p0 5 true ready).nu.get .p0).low ∧
    ((withNotices .p0 6 true ready).nu.get .p0).low < ((withNotices .p0 6 true ready).nu.get .p0).queue.tail.length := by
  decide +kernel

theorem test_meets_FetchNoticeRemovesTheHead_cancel : (ready.nu.get .p0).cancel = none ∧
    openPort .p0 (tornDown .p0 ready) = true ∧ ((tornDown .p0 ready).teardown.get .p0).nu = true ∧
    ((takeNuTeardown .p0 (tornDown .p0 ready)).nu.get .p0).queue = [] := by decide +kernel

theorem test_meets_CancelIsPassedOn : openPort .p0 (inFlight .p0 0x10#8 .parked ready) = true ∧
    ((inFlight .p0 0x10#8 .parked ready).plu.get .p0).slot = .parked ∧
    openPort .p0 (inFlight .p0 0x22#8 .held ready) = true ∧
    ((inFlight .p0 0x22#8 .held ready).plu.get .p0).slot = .held ∧
    openPort .p0 (inFlight .p0 0x22#8 .busy ready) = true ∧ (ready.plu.get .p0).slot = .idle := by decide +kernel

theorem test_meets_PortResetResetsThePort : openPort .p0 (inFlight .p0 0x10#8 .parked ready) = true := by decide +kernel

theorem test_meets_CompletionArrivesOrIsDiscarded : ((inFlight .p0 0x10#8 .busy ready).plu.get .p0).slot ≠ .idle ∧
    ((inFlight .p0 0x10#8 .busy ready).plu.get .p0).serial = 1 ∧ (ready.plu.get .p0).slot = .idle ∧
    ((inFlight .p0 0x10#8 .busy ready).plu.get .p0).serial ≠ 2 := by decide +kernel

theorem test_meets_AttnFollowsTheEnabledCauses : openPort .p2 ready = true ∧ openPort .p0 ready = true ∧ freePort .p0 ready = true ∧
    Port.p0 = ready.ac.supervisor ∧ (3#8 : Byte).toNat = Port.p3.num ∧ Port.p3 ≠ .p0 ∧
    (ready.plu.get .p3).fenced = false ∧ attn .p0 (after (.setAttnMask .p0 1#8 3) ready) = true ∧ attn .p0 ready = false := by
  decide +kernel

theorem test_meets_FramesReadBackAsWritten : (Instr.renewAll .p2 0xFF#8 5).wf = true ∧
    encodeFrame (.renewAll .p2 0xFF#8 5) = some (.p2, [0x13#8, 0#8, 0xFF#8, 0#8, 0#8]) ∧
    (Instr.renewAll .p2 0xFF#8 5).frameLength? = some 5 ∧ (slotLength? (.renewAll .p2 0xFF#8 5)).getD 1 ≤ 5 ∧
    (Instr.write .p0 0#16 0#8 [] 5).wf = true ∧ (slotLength? (.write .p0 0#16 0#8 [] 5)).getD 1 ≤ 5 ∧
    encodeFrame (.status .p1 1) = some (.p1, [0#8]) := by decide +kernel

/-- A lease table with every slot filled by P1. -/
def fullTable : State := ready.modLe (fun e =>
  { e with table := List.replicate 64 { tag := 1#2, lease := some (heldBy .p1 .shared 0 1) } })

/-- No region is defined. -/
def noRegions (s : State) : State := s.modAc (fun a => { a with regions := List.replicate 8 none })

theorem test_meets_AcquireIsChecked : freePort .p0 leased = true ∧ freePort .p0 fullTable = true ∧
    freePort .p0 (noRegions ready) = true ∧
    ({ first := 32767, count := 2 } : Range).inBounds = false ∧ ({ first := 0, count := 0 } : Range).inBounds = false ∧
    leaseModeOf 2#8 = none ∧ ({ first := 32767, count := 1 } : Range).inBounds = true ∧ leaseModeOf 0#8 = some .shared ∧
    requestCheck .p0 false { first := 32767, count := 1 } (noRegions ready) = some (.denied, 32767) ∧
    requestCheck .p0 false { first := 95, count := 1 } leased = none ∧
    ownOverlap .p0 { first := 95, count := 1 } leased = some 64 ∧ ownOverlap .p0 { first := 96, count := 1 } leased = none ∧
    (leased.modAc (fun a => { a with quota := 1 })).ac.quota ≤ leaseCount .p0 (leased.modAc (fun a => { a with quota := 1 })) ∧
    ownOverlap .p0 { first := 0, count := 1 } fullTable = none ∧ leaseCount .p0 fullTable < fullTable.ac.quota ∧
    64 ≤ occupancy fullTable := by decide +kernel

theorem test_meets_AcquireIsGranted : freePort .p0 leased = true ∧ leaseModeOf 1#8 = some .exclusive ∧
    (∀ n ∈ List.range' 32736 32, (regionAt leased n).map (fun g => (g.mode, (g.access.get .p0).suffices true)) =
      some (.leased, true)) ∧
    (∀ y ∈ leases leased, y.2.holder = .p0 → ({ first := 32736, count := 32 } : Range).overlaps y.2.range = false) ∧
    leaseCount .p0 leased < leased.ac.quota ∧ occupancy leased < 64 ∧
    (∀ y ∈ leases leased, ({ first := 32736, count := 32 } : Range).overlaps y.2.range = true →
      LeaseMode.exclusive = .shared ∧ y.2.mode = .shared) ∧
    leased.le.queue = [] ∧ firstEmptySlot leased.le.table = some 1 ∧
    leased.le.table[1]? = some { tag := 0#2, lease := none } := by decide +kernel

/-- P0 holds sectors 64 to 95, P1 holds 0 to 31 and waits for 64 to 95. -/
def crossed : State :=
  withQueue [parkedAcquire .p1 64 32 .exclusive] (withLease 1 1#2 (heldBy .p1 .exclusive 0 32) leased)

/-- P0's request of P1's sectors. -/
def crossing (wait : Nat) : WaitEntry :=
  { port := .p0, kind := .acquire, range := { first := 0, count := 32 }, mode := .exclusive, waitMs := 10 * wait, serial := 1 }

theorem test_meets_AcquireThatMeetsAConflict : freePort .p0 crossed = true ∧ nextSerial .p0 crossed = 1 ∧
    (crossing 1).range.inBounds = true ∧ requestCheck .p0 true (crossing 1).range crossed = none ∧
    ownOverlap .p0 (crossing 1).range crossed = none ∧ leaseCount .p0 crossed < crossed.ac.quota ∧ occupancy crossed < 64 ∧
    blockerOf (crossing 0) crossed.le.queue crossed = some (.lease 65 (heldBy .p1 .exclusive 0 32)) ∧
    blockerOf (crossing 1) crossed.le.queue crossed = some (.lease 65 (heldBy .p1 .exclusive 0 32)) ∧
    Port.p0 ∈ reachable (waitForEdges (crossing 1) crossed) .p0 ∧
    Port.p0 ∉ reachable (waitForEdges (crossing 1) (withQueue [] crossed)) .p0 ∧
    (blockerOf (crossing 1) [] (withQueue [] crossed)).isSome = true := by decide +kernel

theorem test_meets_LeaseModesChange : freePort .p0 shared = true ∧
    ownHeldLease .p0 64 shared = some (heldBy .p0 .shared 64 32) ∧
    requestCheck .p0 true { first := 64, count := 32 } shared = none ∧
    (∀ y ∈ leases shared, y.1 ≠ 64 → ({ first := 64, count := 32 } : Range).overlaps y.2.range = false) ∧
    shared.le.queue = [] ∧ freePort .p0 leased = true ∧
    ownHeldLease .p0 64 leased = some (heldBy .p0 .exclusive 64 32) ∧ (leased.pwu.get .p0).slots = [] := by decide +kernel

/-- P0 and P1 share sectors 64 to 95, with ids 64 and 65. -/
def twoShared : State := withLease 1 1#2 (heldBy .p1 .shared 64 32) shared

/-- A parked UPGRADE of a lease over sectors 64 to 95. -/
def parkedUpgrade (p : Port) (id wait : Nat) : WaitEntry :=
  { port := p, kind := .upgrade id, range := { first := 64, count := 32 }, mode := .exclusive, waitMs := 10 * wait, serial := 1 }

theorem test_meets_LeaseModesChange_others :
    (freePort .p0 (noRegions shared) = true ∧
      ownHeldLease .p0 64 (noRegions shared) = some (heldBy .p0 .shared 64 32) ∧
      requestCheck .p0 true { first := 64, count := 32 } (noRegions shared) = some (.denied, 64)) ∧
    (freePort .p0 twoShared = true ∧ ownHeldLease .p0 64 twoShared = some (heldBy .p0 .shared 64 32) ∧
      requestCheck .p0 true { first := 64, count := 32 } twoShared = none ∧ nextSerial .p0 twoShared = 1 ∧
      blockerOf (parkedUpgrade .p0 64 0) [] twoShared = some (.lease 65 (heldBy .p1 .shared 64 32)) ∧
      blockerOf (parkedUpgrade .p0 64 1) [] twoShared = some (.lease 65 (heldBy .p1 .shared 64 32)) ∧
      Port.p0 ∉ reachable (waitForEdges (parkedUpgrade .p0 64 1) twoShared) .p0 ∧
      Port.p0 ∈ reachable (waitForEdges (parkedUpgrade .p0 64 1) (withQueue [parkedUpgrade .p1 65 1] twoShared)) .p0) ∧
    (freePort .p0 oneStaged = true ∧ ownHeldLease .p0 64 oneStaged = some (heldBy .p0 .exclusive 64 32) ∧
      noJob .p0 oneStaged = true ∧ blocked .p0 .committed [Range.single 70] oneStaged = false ∧
      (oneStaged.pwu.get .p0).slots.filter (fun x => decide (x.state = .staged) && decide (x.leaseId = 64)) ≠ []) := by
  decide +kernel

theorem test_meets_RenewSetsTheStamp : freePort .p0 leased = true ∧
    ownHeldLease .p0 (64#8 : Byte).toNat leased = some (heldBy .p0 .exclusive 64 32) := by decide +kernel

theorem test_meets_ReleaseEndsTheLease : freePort .p0 oneStaged = true ∧
    ownHeldLease .p0 64 oneStaged = some (heldBy .p0 .exclusive 64 32) ∧ (leased.pwu.get .p0).stagedCount 64 = 0 ∧
    (oneStaged.pwu.get .p0).stagedCount 64 = 1 ∧ noJob .p0 oneStaged = true ∧
    blocked .p0 .committed [Range.single 70] oneStaged = false := by decide +kernel

theorem test_meets_OnlyOwnHeldLeasesAreActedOn : freePort .p1 leased = true ∧ findLease leased 0 = none ∧
    findLease leased 64 = some (heldBy .p0 .exclusive 64 32) ∧ (heldBy .p0 .exclusive 64 32).holder ≠ .p1 := by
  decide +kernel

theorem test_meets_QueriesReport : freePort .p1 leased = true ∧ (0x7FFF#16 : Word16).toNat ≤ 32767 ∧
    32767 < (0x8000#16 : Word16).toNat ∧ findLease leased 64 = some (heldBy .p0 .exclusive 64 32) ∧
    findLease leased 128 = none ∧ reportedLease .p1 64 twoShared = some (65, heldBy .p1 .shared 64 32) ∧
    reportedLease .p2 64 twoShared = some (64, heldBy .p0 .shared 64 32) ∧ reportedLease .p0 96 twoShared = none := by
  decide +kernel

theorem test_meets_BreakEndsTheLease : freePort .p0 leased = true ∧ Port.p0 = leased.ac.supervisor ∧
    findLease leased 64 = some (heldBy .p0 .exclusive 64 32) ∧ (heldBy .p0 .exclusive 64 32).state = .held ∧
    leased.le.queue = [] ∧ (leased.pwu.get .p0).command = none ∧ findLease leased 0 = none ∧
    (leased.plu.get .p0).slot = .idle := by decide +kernel

/-- P1 holds sectors 64 to 95 SHARED, id 64, with its UPGRADE parked. -/
def upgrading : State := inFlight .p1 0x11#8 .parked (withQueue [parkedUpgrade .p1 64 5]
  (withLease 0 1#2 (heldBy .p1 .shared 64 32) ready))

/-- P1 holds the same sectors EXCLUSIVE, with a COMMIT of the lease in flight. -/
def committing (st : PwuStage) : State := inFlight .p1 0x22#8 .busy (withCommand .p1 (.commit (some 64)) [64] st
  (withLease 0 1#2 (heldBy .p1 .exclusive 64 32) ready))

theorem test_meets_BreakEndsTheLease_bound :
    (freePort .p0 upgrading = true ∧ findLease upgrading 64 = some (heldBy .p1 .shared 64 32) ∧
      upgrading.le.queue = [] ++ parkedUpgrade .p1 64 5 :: [] ∧ (upgrading.plu.get .p1).slot = .parked ∧
      (upgrading.plu.get .p1).serial = 1 ∧ (upgrading.pwu.get .p1).command = none) ∧
    (∀ st ∈ [PwuStage.waiting, .onHold, .holdEnded, .issued], freePort .p0 (committing st) = true ∧
      findLease (committing st) 64 = some (heldBy .p1 .exclusive 64 32) ∧ (committing st).le.queue = [] ∧
      ((committing st).pwu.get .p1).command = some { serial := 1, action := .commit (some 64), bound := [64], stage := st,
                                                     holdExpired := false, broken := [] } ∧
      ((committing st).plu.get .p1).slot ≠ .idle ∧ ((committing st).plu.get .p1).serial = 1) := by decide +kernel

/-- P1's UPGRADE in the wait queue after a port reset of P1 whose teardown the lease engine has not taken. -/
def abandonedUpgrade : State := upgrading.modPlu .p1 (fun u => { u with slot := .idle })

theorem test_meets_BreakEndsTheLease_abandoned : freePort .p0 abandonedUpgrade = true ∧
    findLease abandonedUpgrade 64 = some (heldBy .p1 .shared 64 32) ∧
    abandonedUpgrade.le.queue = [] ++ parkedUpgrade .p1 64 5 :: [] ∧ (abandonedUpgrade.plu.get .p1).slot = .idle ∧
    (parkedUpgrade .p1 64 5).serial ≤ (abandonedUpgrade.plu.get .p1).serial ∧
    (abandonedUpgrade.pwu.get .p1).command = none := by decide +kernel

theorem test_break_removes_an_abandoned_upgrade :
    (after (.breakLease .p0 64#8 3) abandonedUpgrade).le.queue = [] ∧
    completionAt .p1 (after (.breakLease .p0 64#8 3) abandonedUpgrade) = none ∧
    completionAt .p0 (after (.breakLease .p0 64#8 3) abandonedUpgrade) =
      some { status := .done, leaseId := some 64, lastSector := some 95, count := 32, detail := [1#8, 0#8, 0#8, 0#8] } := by
  decide +kernel

theorem test_break_takes_the_lease_of_a_held_command :
    completionAt .p1 (after (.breakLease .p0 64#8 3) (committing .onHold)) =
      some { status := .leaseLost, leaseId := some 64 } ∧
    completionAt .p0 (after (.breakLease .p0 64#8 3) (committing .onHold)) =
      some { status := .done, leaseId := some 64, lastSector := some 95, count := 32, detail := [1#8, 0#8, 0#8, 1#8] } := by
  decide +kernel

theorem test_meets_EndingALease : findLease oneStaged 64 = some (heldBy .p0 .exclusive 64 32) ∧
    (oneStaged.pwu.get .p0).drainingUnder 64 = false ∧
    findLease oneDraining 64 = some (heldBy .p0 .exclusive 64 32) ∧
    (oneDraining.pwu.get .p0).drainingUnder 64 = true := by decide +kernel

/-- P0 also watches its own FREED events over the lease's sectors. -/
def freedWatch : State := leased.modNu .p0 (fun u =>
  { u with watches := u.watches.set 0 (some (Watch.sectors (Range.mk 64 32) (WatchKinds.mk false false true) true false)) })

theorem test_lost_goes_before_freed :
    ((endLease 64 .broken freedWatch).nu.get .p0).queue =
      [{ body := .lost .p0 64 { first := 64, count := 32 }, watch := none },
       { body := .freed .p0 64 { first := 64, count := 32 }, watch := some 0 }] ∧
    ((endLease 64 .fenced freedWatch).nu.get .p0).queue =
      [{ body := .freed .p0 64 { first := 64, count := 32 }, watch := some 0 }] := by decide +kernel

theorem test_meets_GrantScanLeavesNoneGrantable :
    (grantScan (withQueue [parkedAcquire .p1 0 32 .shared, parkedAcquire .p2 95 1 .shared] leased)).le.queue =
      [] ++ parkedAcquire .p2 95 1 .shared :: [] ∧
    (blockerOf (parkedAcquire .p2 95 1 .shared) [] leased).isSome = true ∧
    (blockerOf (parkedAcquire .p2 31 1 .shared) [parkedAcquire .p1 0 32 .exclusive] leased).isSome = true ∧
    blockerOf (parkedAcquire .p1 32 32 .exclusive) [parkedAcquire .p2 95 1 .shared] leased = none ∧
    (parkedAcquire .p1 32 32 .exclusive).kind = .acquire ∧ firstEmptySlot leased.le.table = some 1 ∧
    leased.le.table[1]? = some { tag := 0#2, lease := none } ∧
    blockerOf (parkedUpgrade .p1 64 5) [] upgrading = none ∧ (parkedUpgrade .p1 64 5).kind = .upgrade 64 ∧
    findLease upgrading 64 = some (heldBy .p1 .shared 64 32) ∧ (heldBy .p1 .shared 64 32).state = .held := by
  decide +kernel

theorem test_meets_OtherPortsAreNotSupervisor : supervisorOnly (.setQuota .p1 1#8 3) = true ∧
    slotLength? (.setQuota .p1 1#8 3) = some 3 ∧ frameLayout (.setQuota .p1 1#8 3) = some (.p1, 0x63#8, [1#8], 3) ∧
    freePort .p1 ready = true ∧ Port.p1 ≠ ready.ac.supervisor := by decide +kernel

theorem test_meets_DataCommandsAreChecked : freePort .p0 (noRegions leased) = true ∧
    accessFails .p0 false (noRegions leased) 64 = true ∧ accessFails .p0 true (noRegions leased) 32767 = true ∧
    freePort .p1 leased = true ∧ (∀ n ∈ List.range' 95 2, accessFails .p0 true leased n = false) ∧
    leaseFails .p0 true leased 95 = false ∧ leaseFails .p0 true leased 96 = true ∧
    accessFails .p1 false leased 64 = false ∧ leaseFails .p1 false leased 64 = true ∧
    (0x7FFF#16 : Word16).toNat < 32768 ∧ (0x8000#16 : Word16).toNat ≤ 32768 := by decide +kernel

theorem test_meets_BadParametersAreRefused : freePort .p0 leased = true ∧ freePort .p0 shared = true ∧
    Port.p0 = leased.ac.supervisor ∧ 4 < (5#8 : Byte).toNat ∧ 32768 < (0x7FFF#16 : Word16).toNat + (2#8 : Byte).toNat ∧
    payloadLength 5#8 = 0 ∧ payloadLength 4#8 = 2048 ∧ 32768 ≤ (0x8000#16 : Word16).toNat ∧
    32768 < (0x8001#16 : Word16).toNat ∧ ownHeldLease .p0 64 leased = some (heldBy .p0 .exclusive 64 32) ∧
    ownHeldLease .p0 64 shared = some (heldBy .p0 .shared 64 32) ∧ 8 ≤ (8#8 : Byte).toNat ∧
    watchOf 0#8 0#16 1#16 0#16 0#8 0#8 0#8 = none ∧ watchOf 3#8 0#16 1#16 0#16 1#8 0#8 0#8 = none ∧
    16 < (17#8 : Byte).toNat ∧ 16 ≤ (16#8 : Byte).toNat ∧ 11 < (12#8 : Byte).toNat ∧ 1 < (2#8 : Byte).toNat ∧
    10 ≤ (10#8 : Byte).toNat ∧ regionOf 1#16 0#16 0#8 0#8 = none ∧ regionOf 0#16 0x8000#16 0#8 0#8 = none ∧
    regionOf 0#16 1#16 3#8 0#8 = none ∧
    (regionOf 0#16 1#16 0#8 0#8).map (fun g => overlapsOther 1 g leased) = some true ∧ 4 ≤ (4#8 : Byte).toNat ∧
    (0#8 : Byte).toNat = Port.p0.num ∧ slotLength? (.read .p0 0#16 5#8 5) = some 5 ∧
    slotLength? (.write .p0 0#16 5#8 [] 5) = some 5 ∧ slotLength? (.clear .p0 0#16 0#16 6) = some 6 ∧
    slotLength? (.upgrade .p0 64#8 0#8 4) = some 4 ∧ slotLength? (.downgrade .p0 64#8 3) = some 3 ∧
    slotLength? (.counterSetup .p0 2#8 0#8 0#8 5) = some 5 ∧ slotLength? (.counterRead .p0 2#8 3) = some 3 ∧
    slotLength? (.fence .p0 4#8 3) = some 3 ∧ slotLength? (.unfence .p0 4#8 3) = some 3 := by decide +kernel

/-- A sweep is pending, requests of P0 and P3 wait behind it, and P0's teardown waits at the notice unit. -/
def muchWaits : State := (asking .p0 [.cancel 1] (asking .p3 [.cancel 1] (sweepPending leased))).modTeardown .p0 (fun t =>
  { t with nu := true })

theorem test_meets_BadParametersAreRefused_anytime : openPort .p0 muchWaits = true ∧
    (muchWaits.plu.get .p0).slot = .idle ∧ muchWaits.released = [] ∧ (muchWaits.teardown.get .p0).pwu = false ∧
    openPort .p0 (tornDown .p0 muchWaits) = true ∧ ((tornDown .p0 muchWaits).plu.get .p0).slot = .idle ∧
    (tornDown .p0 muchWaits).released = [] ∧ 32767 < (0x8000#16 : Word16).toNat := by decide +kernel

theorem test_bad_parameters_wait_for_no_sweep :
    (∀ i ∈ [Instr.read .p0 0x7FFF#16 2#8 5, .write .p0 0x8000#16 1#8 (List.replicate 512 0#8) 517,
        .write .p0 0#16 5#8 [] 5, .clear .p0 0#16 0x8001#16 6, .querySector .p0 0x8000#16 4],
      (after i muchWaits).le = muchWaits.le ∧
        completionAt .p0 (after i muchWaits) = some { status := .badParam }) ∧
    completionAt .p0 (after (.read .p0 0x7FFF#16 1#8 5) muchWaits) = none ∧
    completionAt .p0 (after (.querySector .p0 0x7FFF#16 4) muchWaits) = none ∧
    completionAt .p0 (after (.read .p0 0x7FFF#16 2#8 5) (tornDown .p0 muchWaits)) = none ∧
    completionAt .p0 (after (.querySector .p0 0x8000#16 4) (tornDown .p0 muchWaits)) = some { status := .badParam } := by
  decide +kernel

theorem test_meets_ReadCopiesStagedAndReadsTheRest : freePort .p0 oneStaged = true ∧ noJob .p0 oneStaged = true ∧
    (∀ n ∈ ({ first := 70, count := 4 } : Range).sectors,
      accessFails .p0 false oneStaged n = false ∧ leaseFails .p0 false oneStaged n = false) ∧
    (∀ n ∈ ({ first := 70, count := 1 } : Range).sectors, (oneStaged.pwu.get .p0).hasStaged n = true) ∧
    ({ first := 70, count := 4 } : Range).sectors.filter (fun n => !(oneStaged.pwu.get .p0).hasStaged n) = [71, 72, 73] := by
  decide +kernel

/-- P0 holds the last block EXCLUSIVE. -/
def lastBlock : State := withLease 0 1#2 (heldBy .p0 .exclusive 32736 32) ready

theorem test_meets_WriteStagesAtOnce : freePort .p0 lastBlock = true ∧
    (∀ n ∈ ({ first := 32766, count := 2 } : Range).sectors, accessFails .p0 true lastBlock n = false ∧
      leaseFails .p0 true lastBlock n = false ∧ inMode .opened lastBlock n = false) ∧
    newSlots (lastBlock.pwu.get .p0)
      (leasedItems .p0 (writeItems { first := 32766, count := 2 } (List.replicate 1536 7#8)) lastBlock) ≤
        8 - (lastBlock.pwu.get .p0).slots.length ∧
    (0x7FFE#16 : Word16).toNat + (2#8 : Byte).toNat ≤ 32768 ∧ 32768 < (0x7FFE#16 : Word16).toNat + (3#8 : Byte).toNat ∧
    32768 - (0x7FFE#16 : Word16).toNat = 2 := by decide +kernel

/-- Every sector OPEN to every port. -/
def opened (s : State) : State :=
  let all : Region := { first := 0, last := 32767, access := PortMap.const .write, mode := .opened }
  s.modAc (fun a => { a with regions := some all :: List.replicate 7 none })

/-- P0's lease of the last block with slots of its first `k` sectors STAGED. -/
def manyStaged (k : Nat) : State :=
  (List.range' 32736 k).foldl (fun s n =>
    withSlot .p0 { sector := n, data := sectorOf 7#8, leaseId := 64, state := .staged } s) lastBlock

/-- With every slot filled. -/
def eightStaged : State := manyStaged 8

theorem test_meets_WriteStagesAtOnce_slots :
    ((eightStaged.pwu.get .p0).slots.any (fun y => decide (y.sector = 32743) && decide (y.state = .staged))) = true ∧
    (∀ y ∈ ((manyStaged 7).pwu.get .p0).slots, y.sector ≠ 32743) ∧ ((manyStaged 7).pwu.get .p0).slots.length < 8 := by
  decide +kernel

theorem test_meets_WriteStagesAtOnce_with_a_job :
    (freePort .p0 (opened ready) = true ∧ noJob .p0 (opened ready) = true ∧
      (∀ n ∈ ({ first := 32766, count := 2 } : Range).sectors,
        accessFails .p0 true (opened ready) n = false ∧ leaseFails .p0 true (opened ready) n = false) ∧
      (openItemsOf (writeItems { first := 32766, count := 2 } (List.replicate 1024 7#8)) (opened ready)).map
        SectorItem.sector = [32766, 32767] ∧
      newSlots ((opened ready).pwu.get .p0) [] = 0 ∧
      blocked .p0 .committed [Range.single 32766, Range.single 32767] (opened ready) = false) ∧
    (freePort .p0 eightStaged = true ∧ noJob .p0 eightStaged = true ∧ (eightStaged.pwu.get .p0).slotsSound = true ∧
      (∀ n ∈ ({ first := 32766, count := 2 } : Range).sectors,
        accessFails .p0 true eightStaged n = false ∧ leaseFails .p0 true eightStaged n = false) ∧
      8 - (eightStaged.pwu.get .p0).slots.length < newSlots (eightStaged.pwu.get .p0)
        (leasedItems .p0 (writeItems { first := 32766, count := 2 } (List.replicate 1024 7#8)) eightStaged) ∧
      (openItemsOf (writeItems { first := 32766, count := 2 } (List.replicate 1024 7#8)) eightStaged) = [] ∧
      blocked .p0 .committed ((List.range' 32736 8).map Range.single) eightStaged = false) := by decide +kernel

theorem test_meets_CommitDrainsTheStagedSlots : (oneStaged.pwu.get .p0).slotsSound = true ∧ freePort .p0 leased = true ∧
    ownHeldLease .p0 64 leased = some (heldBy .p0 .exclusive 64 32) ∧
    (leased.pwu.get .p0).slots.filter (PwuAction.commit none).takes = [] ∧ freePort .p0 oneStaged = true ∧
    ownHeldLease .p0 64 oneStaged = some (heldBy .p0 .exclusive 64 32) ∧ stagedLeases (oneStaged.pwu.get .p0) = [64] ∧
    ((oneStaged.pwu.get .p0).slots.filter (PwuAction.commit (some 64)).takes).map
        (fun x => { sector := x.sector, data := x.data : SectorItem }) = [{ sector := 70, data := sectorOf 7#8 }] ∧
    noJob .p0 oneStaged = true ∧ blocked .p0 .committed [Range.single 70] oneStaged = false := by decide +kernel

theorem test_meets_ClearFormsItsRanges : freePort .p0 lastBlock = true ∧ noJob .p0 lastBlock = true ∧
    dataCheck .p0 true { first := 32736, count := 32 } lastBlock = none ∧
    dataCheck .p0 true { first := 32737, count := 31 } lastBlock = none ∧
    effectiveRange { first := 32736, count := 32 } none = { first := 32736, count := 32 } ∧
    wholeBlocks { first := 32736, count := 32 } = [1023] ∧ wholeBlocks { first := 32737, count := 31 } = [] ∧
    blocked .p0 .cleared ([1023].map blockRange) lastBlock = false ∧ (0x7FE0#16 : Word16).toNat + (32#16 : Word16).toNat ≤ 32768 ∧
    32768 < (0x7FE1#16 : Word16).toNat + (32#16 : Word16).toNat ∧ 32768 - (0x7FE1#16 : Word16).toNat = 31 := by
  decide +kernel

theorem test_meets_ClearFormsItsRanges_pending :
    (lastBlock.pwu.get .p0).pendingClear = none ∧
    (∀ q ∈ [Range.mk 32700 36, .mk 32735 2, .mk 32737 5, .mk 32735 1, .mk 32738 1, .mk 32700 35],
      ((lastBlock.modPwu .p0 (fun u => { u with pendingClear := some q })).pwu.get .p0).pendingClear = some q ∧
      1 ≤ q.count ∧
      dataCheck .p0 true (.mk 32736 1) (lastBlock.modPwu .p0 (fun u => { u with pendingClear := some q })) = none) ∧
    (∀ q ∈ [Range.mk 32700 36, .mk 32735 2, .mk 32737 5, .mk 32735 1],
      q.first ≤ 32736 + 1 ∧ 32736 ≤ q.first + q.count) ∧
    (32736 + 1 < (Range.mk 32738 1).first ∧ (Range.mk 32700 35).first + (Range.mk 32700 35).count < 32736) := by
  decide +kernel

theorem test_a_pending_range_that_adjoins_is_joined :
    effectiveRange (.mk 32736 1) (some (.mk 32737 5)) = .mk 32736 6 ∧
    effectiveRange (.mk 32736 1) (some (.mk 32738 5)) = .mk 32736 1 := by decide +kernel

theorem test_meets_WholeBlocksAndPendingRange : wholeBlocks { first := 1, count := 62 } = [] ∧
    (wholeBlocks { first := 0, count := 63 }).getLast? = some 0 ∧ (wholeBlocks { first := 0, count := 64 }).getLast? = some 1 ∧
    pendingAfter { first := 0, count := 63 } = some { first := 32, count := 31 } ∧
    pendingAfter { first := 0, count := 64 } = none := by decide +kernel

/-- P0's watch 7 asks for a hold of COMMITTED over sectors 0 to 63. -/
def holdWatch : State := ready.modNu .p0 (fun u =>
  { u with watches := u.watches.set 7 (some (Watch.sectors (Range.mk 0 64) (WatchKinds.mk true false false) false true)) })

theorem test_meets_WatchesAndLevelsAreSet : freePort .p0 holdWatch = true ∧ (7#8 : Byte).toNat < 8 ∧
    watchOf 2#8 0#16 0#16 0#16 0#8 0#8 0#8 = some .media ∧ (holdWatch.nu.get .p0).congested = false ∧
    freePort .p0 (withNotices .p0 12 true ready) = true ∧ watchAt .p0 7 ready = none ∧
    (1 ≤ (16#8 : Byte).toNat ∧ (16#8 : Byte).toNat ≤ 16 ∧ (15#8 : Byte).toNat < (16#8 : Byte).toNat) ∧
    (12#8 : Byte).toNat ≤ ((withNotices .p0 12 true ready).nu.get .p0).queue.length := by decide +kernel

/-- The same watch, the port's queue CONGESTED. -/
def congestedHold : State := withNotices .p0 12 true holdWatch

theorem test_meets_WatchesAndLevelsAreSet_others : freePort .p0 congestedHold = true ∧
    (watchAt .p0 7 congestedHold).any Watch.hasHold = true ∧ (congestedHold.nu.get .p0).congested = true ∧
    8 ≤ (8#8 : Byte).toNat ∧ watchOf 3#8 0#16 1#16 0#16 1#8 0#8 0#8 = none ∧ 16 < (17#8 : Byte).toNat ∧
    (16#8 : Byte).toNat ≤ (16#8 : Byte).toNat ∧ (1 ≤ (1#8 : Byte).toNat ∧ (0#8 : Byte).toNat < (1#8 : Byte).toNat) ∧
    ((withNotices .p0 4 true ready).nu.get .p0).queue.length ≤ (4#8 : Byte).toNat := by decide +kernel

/-- P1 is CONGESTED and its watch 7 asks for a hold of both kinds over sectors 70 to 95, beside `s`. -/
def heldOff (s : State) : State := (withNotices .p1 12 true s).modNu .p1 (fun u =>
  { u with watches := u.watches.set 7 (some (Watch.sectors (Range.mk 70 26) (WatchKinds.mk true true false) false true)) })

theorem test_meets_BlockedJobsAreHeld : freePort .p0 (heldOff oneStaged) = true ∧ noJob .p0 (heldOff oneStaged) = true ∧
    ownHeldLease .p0 64 (heldOff oneStaged) = some (heldBy .p0 .exclusive 64 32) ∧
    (((heldOff oneStaged).pwu.get .p0).slots.filter (PwuAction.commit (some 64)).takes).map (fun x => Range.single x.sector) =
      [Range.single 70] ∧
    blocked .p0 .committed [Range.single 70] (heldOff oneStaged) = true ∧
    blocked .p0 .committed [Range.single 69] (heldOff oneStaged) = false ∧
    dataCheck .p0 true { first := 64, count := 32 } (heldOff oneStaged) = none ∧
    wholeBlocks { first := 64, count := 32 } = [2] ∧
    blocked .p0 .cleared ([2].map blockRange) (heldOff oneStaged) = true := by decide +kernel

/-- P0's CLEAR of blocks 2 and 3 on the hold list. -/
def heldClear : State :=
  inFlight .p0 0x23#8 .held ((withCommand .p0 (.clear [2, 3] false none) [64] .onHold leased).setHoldList
    [{ port := .p0, kind := .cleared, sectors := [blockRange 2, blockRange 3], holdMs := 20, serial := 1 }])

/-- P0's COMMIT, RELEASE or other drain on the hold list. -/
def heldDrain (a : PwuAction) : State :=
  inFlight .p0 0x22#8 .held ((withCommand .p0 a [64] .onHold oneStaged).setHoldList
    [{ port := .p0, kind := .committed, sectors := [Range.single 70], holdMs := 20, serial := 1 }])

theorem test_meets_BlockedJobsAreHeld_released : blocked .p0 .cleared [blockRange 2, blockRange 3] heldClear = false ∧
    heldClear.holdList.map HoldEntry.serial = [1] ∧ (heldClear.plu.get .p0).slot = .held ∧
    (heldClear.plu.get .p0).serial = 1 ∧
    (heldClear.pwu.get .p0).command = some { serial := 1, action := .clear [2, 3] false none, bound := [64],
                                             stage := .onHold, holdExpired := false, broken := [] } := by decide +kernel

theorem test_commit_is_held : ((after (.commit .p0 64#8 4) (heldOff oneStaged)).plu.get .p0).slot = .held ∧
    (after (.commit .p0 64#8 4) (heldOff oneStaged)).me.running = none := by decide +kernel

/-- The frame is a command of P0 that passes its checks and has a job. -/
def IsJob (i : Instr) (len : Nat) (s : State) : Prop := ∃ a bound t, HasJob .p0 len s i a bound t

/-- The frame is a command of P0 whose job asks for a hold and is blocked. -/
def IsHeld (i : Instr) (len : Nat) (s : State) : Prop :=
  ∃ a bound t k changed, HasJob .p0 len s i a bound t ∧ AsksHold a (s.pwu.get .p0) k changed ∧ blocked .p0 k changed s = true

/-- P1 is CONGESTED and asks for a hold of both kinds over the last block, beside `s`. -/
def lastHeldOff (s : State) : State := (withNotices .p1 12 true s).modNu .p1 (fun u =>
  { u with watches := u.watches.set 7 (some (Watch.sectors (Range.mk 32736 32) (WatchKinds.mk true true false) false true)) })

theorem test_meets_BlockedJobsAreHeld_drains : freePort .p0 (heldOff oneStaged) = true ∧ noJob .p0 (heldOff oneStaged) = true ∧
    IsHeld (.commit .p0 64#8 4) 4 (heldOff oneStaged) ∧ IsHeld (.commitAll .p0 0xFF#8 4) 4 (heldOff oneStaged) ∧
    IsHeld (.release .p0 64#8 0#8 4) 4 (heldOff oneStaged) ∧ IsHeld (.downgrade .p0 64#8 3) 3 (heldOff oneStaged) :=
  ⟨by decide +kernel, by decide +kernel,
    ⟨_, _, _, .committed, [Range.single 70], .commit 64#8 (heldBy .p0 .exclusive 64 32) (by decide) (by decide +kernel)
      (by decide +kernel), .inl ⟨rfl, rfl, by decide +kernel⟩, by decide +kernel⟩,
    ⟨_, _, _, .committed, [Range.single 70], .commitAll 0xFF#8 (by decide) (by decide +kernel),
      .inl ⟨rfl, rfl, by decide +kernel⟩, by decide +kernel⟩,
    ⟨_, _, _, .committed, [Range.single 70], .release 64#8 (heldBy .p0 .exclusive 64 32) (by decide) (by decide +kernel)
      (by decide +kernel), .inl ⟨rfl, rfl, by decide +kernel⟩, by decide +kernel⟩,
    ⟨_, _, _, .committed, [Range.single 70], .downgrade 64#8 (heldBy .p0 .exclusive 64 32) (by decide) (by decide +kernel)
      (by decide +kernel) (by decide +kernel), .inl ⟨rfl, rfl, by decide +kernel⟩, by decide +kernel⟩⟩

/-- P0 writes two sectors of which the range keeps one, the last. -/
def lastWrite : Instr := .write .p0 0x7FFF#16 2#8 (List.replicate 1024 7#8) 1029

theorem test_meets_BlockedJobsAreHeld_writes :
    (freePort .p0 (lastHeldOff (opened ready)) = true ∧ noJob .p0 (lastHeldOff (opened ready)) = true ∧
      IsHeld lastWrite 1029 (lastHeldOff (opened ready))) ∧
    (freePort .p0 (lastHeldOff eightStaged) = true ∧ noJob .p0 (lastHeldOff eightStaged) = true ∧
      IsHeld lastWrite 1029 (lastHeldOff eightStaged)) :=
  ⟨⟨by decide +kernel, by decide +kernel,
    _, _, _, .committed, [Range.single 32767], .write 0x7FFF#16 2#8 (List.replicate 1024 7#8) (.mk 32767 1) true _ _ _ (by decide)
      (by decide) (by decide) (by decide +kernel) (by decide) (.inr (by decide)) (by unfold Covered; decide +kernel) rfl rfl rfl
      (.inl (by decide +kernel)), .inl ⟨rfl, rfl, by decide +kernel⟩, by decide +kernel⟩,
   ⟨by decide +kernel, by decide +kernel,
    _, _, _, .committed, (List.range' 32736 8).map Range.single, .write 0x7FFF#16 2#8 (List.replicate 1024 7#8) (.mk 32767 1) true _ _ _
      (by decide) (by decide) (by decide) (by decide +kernel) (by decide) (.inr (by decide)) (by unfold Covered; decide +kernel) rfl
      rfl rfl (.inr (by decide +kernel)), .inl ⟨rfl, rfl, by decide +kernel⟩, by decide +kernel⟩⟩

theorem test_meets_BlockedJobsAreHeld_clears : freePort .p0 (lastHeldOff lastBlock) = true ∧
    noJob .p0 (lastHeldOff lastBlock) = true ∧ IsHeld (.clear .p0 0x7FE0#16 32#16 6) 6 (lastHeldOff lastBlock) ∧
    IsHeld (.clear .p0 0x7FE0#16 33#16 6) 6 (lastHeldOff lastBlock) :=
  ⟨by decide +kernel, by decide +kernel,
    ⟨_, _, _, .cleared, [blockRange 1023], .clear 0x7FE0#16 32#16 (.mk 32736 32) _ false (by decide) (by decide) (by decide)
      (by decide) (.inl (by decide)) (by unfold Covered; decide +kernel) rfl (by decide +kernel),
      .inr ⟨_, _, _, rfl, rfl, by decide +kernel⟩, by decide +kernel⟩,
    ⟨_, _, _, .cleared, [blockRange 1023], .clear 0x7FE0#16 33#16 (.mk 32736 32) _ true (by decide) (by decide) (by decide)
      (by decide) (.inr (by decide)) (by unfold Covered; decide +kernel) rfl (by decide +kernel),
      .inr ⟨_, _, _, rfl, rfl, by decide +kernel⟩, by decide +kernel⟩⟩

theorem test_a_held_release_and_write_keep_their_slots :
    ((after (.release .p0 64#8 0#8 4) (heldOff oneStaged)).plu.get .p0).slot = .held ∧
    ((after (.release .p0 64#8 0#8 4) (heldOff oneStaged)).pwu.get .p0).stagedCount 64 = 1 ∧
    ((after lastWrite (lastHeldOff (opened ready))).plu.get .p0).slot = .held := by decide +kernel

/-- P0's watch 3 asks for media events. -/
def mediaWatch : State := ready.modNu .p0 (fun u => { u with watches := u.watches.set 3 (some .media) })

theorem test_meets_NoticePlacement : ((withNotices .p0 15 true ready).nu.get .p0).queue.length < 16 ∧
    16 ≤ ((withNotices .p0 16 true ready).nu.get .p0).queue.length ∧
    (mediaWatch.plu.get .p0).fenced = false ∧ (mediaWatch.nu.get .p0).watches[3]? = some (some Watch.media) ∧
    (∀ j < 3, (mediaWatch.nu.get .p0).watches[j]? ≠ some (some Watch.media)) ∧
    ((fencedPort .p0 mediaWatch).plu.get .p0).fenced = true := by decide +kernel

theorem test_a_committed_event_matches_a_watch :
    ((committedEvent .p1 [3, 5, 70] holdWatch).nu.get .p0).queue =
      [{ body := .committed .p1 { first := 3, count := 3 }, watch := some 7 }] ∧
    ((committedEvent .p0 [3, 5, 70] holdWatch).nu.get .p0).queue = [] := by decide +kernel

theorem test_meets_SignalWordsAreReadAndModified : freePort .p3 ready = true ∧ (15#8 : Byte).toNat < 16 ∧
    16 ≤ (16#8 : Byte).toNat ∧
    signalWord ready 15 = 0#16 ∧
    (∀ k < 16, (0x1200#16 : Word16).getLsbD k =
      if (0xFF00#16 : Word16).getLsbD k then (0x1234#16 : Word16).getLsbD k else (0#16 : Word16).getLsbD k) := by decide +kernel

theorem test_meets_PortLinkUnitAnswersAtOnce : freePort .p1 ready = true ∧ (15#8 : Byte).toNat < 16 ∧
    16 ≤ (16#8 : Byte).toNat := by decide +kernel

theorem test_meets_CountersCount : freePort .p1 ready = true ∧ counterEventOf 11#8 = some (some .relocDropped) ∧
    qualifierOf 1#8 = some .any ∧ counterEventOf 0#8 = some none ∧ qualifierOf 0#8 = some .self := by decide +kernel

theorem test_counter_setup_takes_code_00h :
    (completionAt .p1 (after (.counterSetup .p1 0#8 0#8 0#8 5) ready)).map Completion.status = some .done := by
  decide +kernel

/-- Two waiters of sectors that no lease covers. -/
def waiters : State := withQueue [parkedAcquire .p1 64 32 .exclusive, parkedAcquire .p2 64 1 .shared] ready

theorem test_meets_SetRegionReplacesTheEntry : freePort .p0 ready = true ∧ Port.p0 = ready.ac.supervisor ∧
    (regionOf 0#16 0x7FFF#16 0xAA#8 1#8).isSome = true ∧
    (regionOf 0#16 0x7FFF#16 0xAA#8 1#8).map (fun g => overlapsOther 0 g ready) = some false ∧ leases ready = [] ∧
    ready.le.queue = [] ∧ ((regionEntry 0 leased).toList.map Region.range) = [{ first := 0, count := 32768 }] ∧
    (({ first := 0, count := 32768 } : Range).overlaps (heldBy .p0 .exclusive 64 32).range = true ∧
      (leases leased = [] ++ (64, heldBy .p0 .exclusive 64 32) :: [])) ∧
    leases waiters = [] ∧ waiters.le.queue = [] ++ parkedAcquire .p1 64 32 .exclusive ::
      [parkedAcquire .p2 64 1 .shared] ∧ freePort .p0 leased = true ∧ freePort .p0 waiters = true ∧
    ({ first := 0, count := 32768 } : Range).overlaps (parkedAcquire .p1 64 32 .exclusive).range = true := by
  decide +kernel

theorem test_set_region_is_busy :
    completionAt .p0 (after (.setRegionUndefine .p0 0#8 0#8 10) leased) =
      some { status := .regionBusy, detail := [0#8, 0#8, 64#8, 0xFF#8] } ∧
    completionAt .p0 (after (.setRegionUndefine .p0 0#8 0#8 10) waiters) =
      some { status := .regionBusy, detail := [0#8, 1#8, 0xFF#8, 1#8] } := by decide +kernel

theorem test_meets_SettingsAreSetAndSaved : freePort .p0 ready = true ∧ Port.p0 = ready.ac.supervisor ∧
    noJob .p0 ready = true ∧ 1 ≤ (64#8 : Byte).toNat ∧ (64#8 : Byte).toNat ≤ 64 := by decide +kernel

/-- P0's teardown waits at its write unit. -/
def pwuDown (s : State) : State := s.modTeardown .p0 (fun t => { t with pwu := true })

/-- A SAVE CONFIG of P0 accepted behind that teardown, the hold limit 20. -/
def saveBehind : State := after (.saveConfig .p0 2) (pwuDown ready)

theorem test_meets_SettingsAreSetAndSaved_behind_a_teardown :
    (openPort .p0 (pwuDown ready) = true ∧ ((pwuDown ready).plu.get .p0).slot = .idle ∧ (pwuDown ready).released = [] ∧
      ((pwuDown ready).teardown.get .p0).pwu = true ∧ Port.p0 = (pwuDown ready).ac.supervisor ∧
      Port.p0 ≠ ((pwuDown ready).modAc (fun a => { a with supervisor := .p1 })).ac.supervisor) ∧
    ((saveBehind.plu.get .p0).waiting = some .metaJob ∧ (saveBehind.teardown.get .p0).pwu = true ∧
      (saveBehind.teardown.get .p0).me = false ∧ noJob .p0 saveBehind = true ∧ saveBehind.released = []) ∧
    openPort .p0 saveBehind = true := by decide +kernel

/-- The live hold limit set. -/
def withLimit (n : Nat) (s : State) : State := s.modAc (fun a => { a with holdLimit := n })

/-- The hold limit in the record that a running META job programs. -/
def limitProgrammed (s : State) : Option Nat :=
  match s.me.running with
  | some (.metadata _ r) => some r.settings.hold
  | _ => none

/-- A SAVE CONFIG accepted behind the teardown with the hold limit 77, which is 99 afterwards. -/
def savedThenChanged : State := withLimit 99 (after (.saveConfig .p0 2) (pwuDown (withLimit 77 ready)))

theorem test_save_config_behind_a_teardown_copies_at_once :
    savedThenChanged.ac.image.hold = 77 ∧ limitProgrammed savedThenChanged = none ∧
    limitProgrammed (after (.pwuTeardown .p0) savedThenChanged) = some 77 ∧
    (after (.portReset .p0 1) savedThenChanged).ac.image.hold = 77 ∧
    limitProgrammed (after (.pwuTeardown .p0) (after (.portReset .p0 1) savedThenChanged)) = none := by decide +kernel

theorem test_meets_FenceAndUnfence : freePort .p0 ready = true ∧ Port.p0 = ready.ac.supervisor ∧
    (3#8 : Byte).toNat = Port.p3.num ∧ Port.p3 ≠ .p0 ∧ (ready.plu.get .p3).fenced = false ∧
    freePort .p0 (fencedPort .p3 ready) = true ∧ ((fencedPort .p3 ready).plu.get .p3).fenced = true := by decide +kernel

/-- A CANCEL waits at P1, two at P3; the round-robin is at P2. -/
def manyRequests : State := asking .p1 [.cancel 1] (asking .p3 [.cancel 4, .cancel 5]
  (ready.modLe (fun e => { e with rrNext := .p2 })))

theorem test_meets_SweepsAdvanceTheEpoch : ready.eu.running = true ∧ (sweepPending leased).le.sweepsAsked ≠ 0 ∧
    engineIdle (sweepPending leased) = true ∧ manyRequests.le.sweepsAsked = 0 ∧
    servingOrder manyRequests.le.rrNext = [.p2] ++ .p3 :: [.p0, .p1] ∧ manyRequests.le.requests.get .p2 = [] ∧
    manyRequests.le.requests.get .p3 = .cancel 4 :: [.cancel 5] := by decide +kernel

/-- A command of P1 accepted while one sweep is pending waits at the lease engine. -/
def askedBehindSweep : State := after (.queryLease .p1 64#8 3) (sweepPending leased)

theorem test_meets_SweepsAdvanceTheEpoch_waiting :
    (slotCommand? (.queryLease .p1 64#8 3) = some (.queryLease 64#8) ∧
      frameLayout (.queryLease .p1 64#8 3) = some (.p1, 0x15#8, [64#8], 3) ∧ (Instr.queryLease .p1 64#8 3).wf = true ∧
      openPort .p1 (sweepPending leased) = true ∧ ((sweepPending leased).plu.get .p1).slot = .idle ∧
      (sweepPending leased).released = [] ∧ (SlotCommand.queryLease 64#8).owners.le = true ∧
      (SlotCommand.queryLease 64#8).behindTeardown ((sweepPending leased).teardown.get .p1) = false) ∧
    askedBehindSweep.le.sweepsAsked = 1 ∧ askedBehindSweep.released = [] ∧
    askedBehindSweep.le.requests.get .p1 = [.command (.queryLease 64#8)] ∧
    (∀ q ∈ [Port.p0, .p2, .p3], askedBehindSweep.le.requests.get q = []) ∧
    (SlotCommand.queryLease 64#8).owners.nu = false := by decide +kernel

theorem test_a_command_behind_a_sweep_runs_at_the_sweep : completionAt .p1 askedBehindSweep = none ∧
    (completionAt .p1 (after .sweep askedBehindSweep)).map Completion.status = some .done := by decide +kernel

/-- P1's request is parked; its deadline expires behind a pending sweep, after its CANCEL. -/
def cancelThenExpiry : State := after (.waitDeadlineExpiry .p1) (after (.cancel .p1 1)
  (sweepPending (inFlight .p1 0x10#8 .parked (withQueue [parkedAcquire .p1 64 32 .exclusive] leased))))

theorem test_an_older_cancel_goes_before_an_expiry :
    cancelThenExpiry.le.requests.get .p1 = [.cancel 1, .expiry 1] ∧
    completionAt .p1 (after .sweep cancelThenExpiry) = some { status := .cancelled } := by decide +kernel

theorem test_meets_DeadlinesExpire :
    (engineIdle (withQueue [parkedAcquire .p1 64 32 .exclusive, parkedAcquire .p2 64 1 .shared] leased) = true ∧
      (withQueue [parkedAcquire .p1 64 32 .exclusive, parkedAcquire .p2 64 1 .shared] leased).le.sweepsAsked = 0 ∧
      (parkedAcquire .p2 64 1 .shared).port = .p2 ∧
      (∀ f ∈ [parkedAcquire .p1 64 32 .exclusive] ++ ([] : List WaitEntry), f.port ≠ .p2) ∧
      engineIdle (sweepPending (withQueue [parkedAcquire .p2 64 1 .shared] leased)) = true ∧
      (sweepPending leased).le.sweepsAsked ≠ 0) ∧
    (heldClear.holdList.map HoldEntry.port = [.p0] ∧
      (heldClear.pwu.get .p0).command = some { serial := 1, action := .clear [2, 3] false none, bound := [64],
                                               stage := .onHold, holdExpired := false, broken := [] }) ∧
    (∀ a ∈ [PwuAction.commit none, .write { first := 70, count := 1 } false true [] [], .release 64, .downgrade 64],
      (heldDrain a).holdList.map HoldEntry.port = [.p0] ∧ a.isDrain = true ∧ (heldDrain a).le.sweepsAsked = 0 ∧
      engineIdle (heldDrain a) = true ∧ drainItems a ((heldDrain a).pwu.get .p0) ≠ [] ∧
      ((heldDrain a).pwu.get .p0).command.map PwuCommand.stage = some .onHold) := by decide +kernel

/-- P0's CLEAR on the hold list with a CANCEL of the command of number `n` at the notice unit. -/
def heldCancel (n : Nat) : State := heldClear.modNu .p0 (fun u => { u with cancel := some n })

theorem test_fetch_notice_takes_an_older_cancel :
    completionAt .p0 (after (.fetchNotice .p0 12) (heldCancel 1)) = some { status := .cancelled } ∧
    (after (.fetchNotice .p0 12) (heldCancel 1)).holdList = [] := by decide +kernel

/-- P1's parked request with a CANCEL handed to the lease engine. -/
def cancelledPark : State := asking .p1 [.cancel 1] (withQueue [parkedAcquire .p1 64 32 .exclusive] leased)

theorem test_meets_CancelsAreTaken :
    (onlyRequest .p1 (.cancel (parkedAcquire .p1 64 32 .exclusive).serial) cancelledPark = true ∧
      cancelledPark.le.queue = [] ++ parkedAcquire .p1 64 32 .exclusive :: []) ∧
    ((withQueue [] cancelledPark).le.queue = [] ∧ onlyRequest .p1 (.cancel 1) (withQueue [] cancelledPark) = true) ∧
    (((heldCancel 1).nu.get .p0).cancel = some 1 ∧
      (heldClear.holdList.any (fun h => decide (h.port = .p0) && decide (h.serial = 1))) = true) ∧
    (((heldCancel 2).nu.get .p0).cancel = some 2 ∧ (∀ h ∈ (heldCancel 2).holdList, h.port = .p0 → h.serial ≠ 2)) ∧
    (heldClear.nu.get .p0).cancel = none := by decide +kernel

theorem test_meets_TeardownsAreTaken : onlyRequest .p0 .teardown (asking .p0 [.teardown] oneStaged) = true ∧
    (tornDown .p0 oneStaged).teardown.get .p0 = { pwu := true, me := true, nu := true, swb := true } ∧
    ((tornDown .p0 oneStaged).plu.get .p0).waiting = none ∧ (tornDown .p0 oneStaged).released = [] ∧
    (after (.fence .p0 2#8 3) ready).le.fences =
      [{ target := .p2, serial := 1, abandoned := false, ended := 0, ending := 0 }] ∧
    ((after (.fence .p0 2#8 3) ready).teardown.get .p2).fourTaken = false ∧
    ((after (.fence .p0 2#8 3) ready).modTeardown .p2 (fun _ => Teardowns.clear)).teardown.get .p2 = Teardowns.clear := by
  decide +kernel

theorem test_meets_TeardownsAreTaken_others :
    (((tornDown .p0 (heldCancel 1)).teardown.get .p0).nu = true ∧ ((tornDown .p0 (heldCancel 1)).plu.get .p0).waiting = none) ∧
    (leased.le.table.length = 64 ∧ heldLeases .p0 leased = [64]) ∧
    (ownerAt .p0).issuer = .p0 ∧ (ownerAt .p1).issuer ≠ .p0 := by decide +kernel

/-- P0's SIGNAL MODIFY accepted behind its port's teardown at every block. -/
def signalBehind : State := after (.signalModify .p0 3#8 0xFF00#16 0x1234#16 7) (tornDown .p0 ready)

/-- The same for a COMMIT behind the write unit's teardown alone. -/
def commitBehind : State := after (.commitAll .p0 0xFF#8 4)
  (ready.modTeardown .p0 (fun t => { t with pwu := true }))

/-- The same for a SET LEVELS behind the notice unit's. -/
def levelsBehind : State := after (.setLevels .p0 8#8 4#8 4) (ready.modTeardown .p0 (fun t => { t with nu := true }))

theorem test_meets_TeardownsAreTaken_kept_back :
    slotCommand? (.signalModify .p0 3#8 0xFF00#16 0x1234#16 7) = some (.signalModify 3#8 0xFF00#16 0x1234#16) ∧
    slotLength? (.signalModify .p0 3#8 0xFF00#16 0x1234#16 7) = some 7 ∧
    (Instr.signalModify .p0 3#8 0xFF00#16 0x1234#16 7).wf = true ∧
    (frameLayout (.signalModify .p0 3#8 0xFF00#16 0x1234#16 7)).map (fun x => (x.1, x.2.1, x.2.2.2)) =
      some (.p0, 0x41#8, 7) ∧
    openPort .p0 (tornDown .p0 ready) = true ∧ ((tornDown .p0 ready).plu.get .p0).slot = .idle ∧
    (tornDown .p0 ready).released = [] ∧
    (SlotCommand.signalModify 3#8 0xFF00#16 0x1234#16).behindTeardown ((tornDown .p0 ready).teardown.get .p0) = true := by
  decide +kernel

theorem test_meets_TeardownsAreTaken_handed_on :
    ((signalBehind.plu.get .p0).waiting = some (.signalModify 3#8 0xFF00#16 0x1234#16) ∧
      (signalBehind.teardown.get .p0).swb = true ∧
      (SlotCommand.signalModify 3#8 0xFF00#16 0x1234#16).behindTeardown
        ((after (.pwuTeardown .p0) signalBehind).teardown.get .p0) = true ∧
      (SlotCommand.signalModify 3#8 0xFF00#16 0x1234#16).behindTeardown
        ((after (.swbTeardown .p0) signalBehind).teardown.get .p0) = false ∧
      (SlotCommand.signalModify 3#8 0xFF00#16 0x1234#16).owners.le = false) ∧
    ((levelsBehind.plu.get .p0).waiting = some (.setLevels 8#8 4#8) ∧ (levelsBehind.teardown.get .p0).nu = true ∧
      (SlotCommand.setLevels 8#8 4#8).behindTeardown ((after (.nuTeardown .p0) levelsBehind).teardown.get .p0) = false) ∧
    ((commitBehind.plu.get .p0).waiting = some .commitAll ∧ (commitBehind.teardown.get .p0).pwu = true ∧
      SlotCommand.commitAll.behindTeardown ((after (.pwuTeardown .p0) commitBehind).teardown.get .p0) = false ∧
      SlotCommand.commitAll.owners.le = true ∧ commitBehind.le.sweepsAsked = 0 ∧ engineIdle commitBehind = true ∧
      (sweepPending commitBehind).le.sweepsAsked ≠ 0 ∧ (sweepPending commitBehind).released = []) := by decide +kernel

theorem test_a_command_behind_a_teardown_runs_at_it :
    (signalBehind.swb.getD 3 0#16 = 0#16 ∧ (after (.swbTeardown .p0) signalBehind).swb.getD 3 0#16 = 0x1200#16) ∧
    (completionAt .p0 commitBehind = none ∧
      (completionAt .p0 (after (.pwuTeardown .p0) commitBehind)).map Completion.status = some .done) ∧
    ((after (.nuTeardown .p0) levelsBehind).nu.get .p0).high = 8 := by decide +kernel

theorem test_a_fence_completes_at_the_fourth_teardown :
    completionAt .p0 (after (.swbTeardown .p2) (after (.nuTeardown .p2) (after (.meTeardown .p2) (after (.pwuTeardown .p2)
      (after (.fence .p0 2#8 3) ready))))) = some { status := .done, detail := [2#8, 0#8, 0#8, 0#8] } := by decide +kernel

/-- P0's command of the write unit in flight, waiting for its port's earlier job. -/
def waitingFor (a : PwuAction) : State := inFlight .p0 0x22#8 .busy (withCommand .p0 a [64] .waiting oneStaged)

/-- P0's command whose hold has ended. -/
def holdOver (a : PwuAction) : State := inFlight .p0 0x22#8 .busy (withCommand .p0 a [64] .holdEnded oneStaged)

theorem test_an_abandoned_release_leaves_another_ports_lease_held :
    leases (after (.jobIssue .p0) (withCommand .p0 (.release 64) [64] .waiting
      (withLease 0 1#2 (heldBy .p1 .exclusive 64 32) ready))) = [(64, heldBy .p1 .exclusive 64 32)] := by decide +kernel

theorem test_meets_WaitingCommandGoesOn :
    (∀ a ∈ [PwuAction.read { first := 70, count := 2 } [71], .saveConfig, .clear [2] false none, .commit (some 64),
        .write { first := 70, count := 1 } false true [] [], .release 64, .downgrade 64],
      ((waitingFor a).pwu.get .p0).command = some { serial := 1, action := a, bound := [64], stage := .waiting,
                                                    holdExpired := false, broken := [] } ∧
      noJob .p0 (waitingFor a) = true ∧ (waitingFor a).teardown.get .p0 = Teardowns.clear ∧
      (waitingFor a).le.sweepsAsked = 0 ∧ engineIdle (waitingFor a) = true ∧
      blocked .p0 .committed [Range.single 70] (waitingFor a) = false ∧
      blocked .p0 .cleared [blockRange 2] (waitingFor a) = false) ∧
    (∀ a ∈ [PwuAction.commit (some 64), .write { first := 70, count := 1 } false true [] [], .release 64, .downgrade 64],
      a.isDrain = true ∧ drainItems a ((waitingFor a).pwu.get .p0) ≠ [] ∧
      onlyRequest .p0 (.issue 1) (asking .p0 [.issue 1] (holdOver a)) = true ∧
      drainItems a ((holdOver a).pwu.get .p0) ≠ []) ∧
    (((holdOver (.clear [2] false none)).setReleased [[(.p0, 1)]]).released = [[(.p0, 1)]] ∧
      (∀ q ∈ Port.all, ((holdOver (.commit none)).setReleased [[(.p0, 1)]]).le.requests.get q = []) ∧
      ((holdOver (.commit none)).setReleased [[(.p0, 1)]]).le.sweepsAsked = 0 ∧
      (sweepPending ((holdOver (.commit none)).setReleased [[(.p0, 1)]])).le.sweepsAsked ≠ 0) := by decide +kernel

/-- P0's CLEAR and P1's COMMIT, their holds ended as `l` says. -/
def twoReleased (l : List (List (Port × Nat))) : State :=
  (withCommand .p1 (.commit none) [] .holdEnded (holdOver (.clear [2] false none))).setReleased l

theorem test_meets_WaitingCommandGoesOn_two :
    ((twoReleased [[(.p1, 1)], [(.p0, 1)]]).pwu.get .p0).command =
      some { serial := 1, action := .clear [2] false none, bound := [64], stage := .holdEnded, holdExpired := false,
             broken := [] } ∧
    ((twoReleased [[(.p1, 1), (.p0, 1)]]).pwu.get .p1).command =
      some { serial := 1, action := .commit none, bound := [], stage := .holdEnded, holdExpired := false, broken := [] } ∧
    (sweepPending (twoReleased [[(.p1, 1), (.p0, 1)]])).le.sweepsAsked ≠ 0 ∧
    (∀ x ∈ Port.all, (sweepPending (twoReleased [[(.p1, 1), (.p0, 1)]])).le.requests.get x = []) := by decide +kernel

theorem test_a_later_events_clear_passes_a_drain_that_waits :
    (goOn (sweepPending (twoReleased [[(.p1, 1)], [(.p0, 1)]]))).me.running = some (.clear (ownerAt .p0) [2] [] []) ∧
    (goOn (sweepPending (twoReleased [[(.p1, 1), (.p0, 1)]]))).me.running = none := by decide +kernel

/-- An earlier job of P0, abandoned, in the media engine's queue. -/
def behindJob (s : State) : State :=
  s.modMe (fun m => { m with queue := [.port { issuer := .p0, serial := 0, abandoned := true } (.drain [])] })

theorem test_meets_WaitingCommandGoesOn_accepted :
    (freePort .p0 (behindJob oneStaged) = true ∧ noJob .p0 (behindJob oneStaged) = false ∧
      IsJob (.read .p0 70#16 2#8 5) 5 (behindJob oneStaged) ∧ IsJob (.commit .p0 64#8 4) 4 (behindJob oneStaged) ∧
      IsJob (.commitAll .p0 0xFF#8 4) 4 (behindJob oneStaged) ∧ IsJob (.release .p0 64#8 0#8 4) 4 (behindJob oneStaged) ∧
      IsJob (.downgrade .p0 64#8 3) 3 (behindJob oneStaged) ∧ IsJob (.saveConfig .p0 2) 2 (behindJob oneStaged)) ∧
    (freePort .p0 (behindJob eightStaged) = true ∧ noJob .p0 (behindJob eightStaged) = false ∧
      IsJob lastWrite 1029 (behindJob eightStaged) ∧ IsJob (.clear .p0 0x7FE0#16 33#16 6) 6 (behindJob eightStaged)) ∧
    (noJob .p0 (behindJob (waitingFor .saveConfig)) = false ∧
      ((behindJob (waitingFor .saveConfig)).pwu.get .p0).command.map PwuCommand.stage = some .waiting) :=
  ⟨⟨by decide +kernel, by decide +kernel,
    ⟨_, _, _, .read 70#16 2#8 (.mk 70 2) [71] (by decide) rfl (by decide) (by decide) (by decide)
      (by unfold Covered; decide +kernel) (by decide +kernel) (by decide)⟩,
    ⟨_, _, _, .commit 64#8 (heldBy .p0 .exclusive 64 32) (by decide) (by decide +kernel) (by decide +kernel)⟩,
    ⟨_, _, _, .commitAll 0xFF#8 (by decide) (by decide +kernel)⟩,
    ⟨_, _, _, .release 64#8 (heldBy .p0 .exclusive 64 32) (by decide) (by decide +kernel) (by decide +kernel)⟩,
    ⟨_, _, _, .downgrade 64#8 (heldBy .p0 .exclusive 64 32) (by decide) (by decide +kernel) (by decide +kernel)
      (by decide +kernel)⟩,
    ⟨_, _, _, .saveConfig (by decide) (by decide +kernel)⟩⟩,
   ⟨by decide +kernel, by decide +kernel,
    ⟨_, _, _, .write 0x7FFF#16 2#8 (List.replicate 1024 7#8) (.mk 32767 1) true _ _ _ (by decide) (by decide) (by decide)
      (by decide +kernel) (by decide) (.inr (by decide)) (by unfold Covered; decide +kernel) rfl rfl rfl
      (.inr (by decide +kernel))⟩,
    ⟨_, _, _, .clear 0x7FE0#16 33#16 (.mk 32736 32) _ true (by decide) (by decide) (by decide) (by decide) (.inr (by decide))
      (by unfold Covered; decide +kernel) rfl (by decide +kernel)⟩⟩,
   by decide +kernel⟩

theorem test_a_commit_behind_an_earlier_job_waits :
    ((after (.commit .p0 64#8 4) (behindJob oneStaged)).pwu.get .p0).slots.map StagingSlot.state = [.staged] ∧
    ((after (.commit .p0 64#8 4) (behindJob oneStaged)).pwu.get .p0).command.map PwuCommand.stage = some .waiting ∧
    (after (.commit .p0 64#8 4) (behindJob oneStaged)).me.queue.length = 1 := by decide +kernel

/-- P0's and P1's COMMITs, each with a STAGED slot, released as `l` says, the lease engine about to examine P1. -/
def drainsReleased (l : List (List (Port × Nat))) : State :=
  ((withCommand .p1 (.commit none) [65] .holdEnded
    (withSlot .p1 { sector := 7, data := sectorOf 9#8, leaseId := 65, state := .staged }
      (withLease 1 1#2 (heldBy .p1 .exclusive 0 32) (holdOver (.commit none))))).setReleased l).modLe
    (fun e => { e with rrNext := .p1 })

theorem test_meets_WaitingCommandGoesOn_drains : ∀ l ∈ [[[(Port.p0, 1), (.p1, 1)]], [[(.p0, 1)], [(.p1, 1)]]],
    ((drainsReleased l).pwu.get .p1).command.map PwuCommand.stage = some .holdEnded ∧
    ((drainsReleased l).pwu.get .p0).command.map PwuCommand.stage = some .holdEnded ∧
    (drainsReleased l).released = l ∧ (drainsReleased l).le.sweepsAsked = 0 ∧
    (sweepPending (drainsReleased l)).le.sweepsAsked ≠ 0 ∧
    (∀ x ∈ Port.all, (drainsReleased l).le.requests.get x = []) ∧
    drainItems (.commit none) ((drainsReleased l).pwu.get .p0) ≠ [] ∧
    drainItems (.commit none) ((drainsReleased l).pwu.get .p1) ≠ [] := by decide +kernel

/-- The issuer of the running job and of the queued ones. -/
def jobPorts (s : State) : List Port :=
  (match s.me.running with | some (.drain o _ _ _ _) => [o.issuer] | _ => []) ++
    s.me.queue.filterMap (fun j => match j with | .port o _ => some o.issuer | .relocate _ => none)

theorem test_one_events_drains_keep_the_lists_order :
    jobPorts (goOn (drainsReleased [[(.p0, 1), (.p1, 1)]])) = [.p0, .p1] ∧
    jobPorts (goOn (drainsReleased [[(.p1, 1), (.p0, 1)]])) = [.p1, .p0] ∧
    (let kept := goOn (sweepPending (drainsReleased [[(.p0, 1), (.p1, 1)]]))
     jobPorts kept = [] ∧ kept.le.requests.get .p1 = [] ∧ jobPorts (after .sweep kept) = [.p0, .p1]) := by decide +kernel

theorem test_meets_SweepsAdvanceTheEpoch_idle : engineIdle ready = true := by decide +kernel

/-- P0's command that waits for an earlier job, abandoned by a port reset whose teardown the media engine has taken. -/
def lateCommand (a : PwuAction) : State := after (.meTeardown .p0) (after (.portReset .p0 1)
  (inFlight .p0 0x64#8 .busy (withCommand .p0 a [] .waiting leased)))

theorem test_meets_WaitingCommandGoesOn_abandoned : ∀ a ∈ [PwuAction.saveConfig, .read { first := 70, count := 1 } [70]],
    ((lateCommand a).pwu.get .p0).command.map PwuCommand.stage = some .waiting ∧
    ((lateCommand a).teardown.get .p0).pwu = true ∧ ((lateCommand a).teardown.get .p0).me = false ∧
    noJob .p0 (lateCommand a) = true ∧
    onlyRequest .p0 (.issue 1) (asking .p0 [.issue 1] (lateCommand a)) = true := by decide +kernel

theorem test_an_abandoned_save_config_issues_no_meta_job :
    (after (.jobIssue .p0) (lateCommand .saveConfig)).me.running = none ∧
    (after (.pwuTeardown .p0) (after (.jobIssue .p0) (lateCommand .saveConfig))).me.running = none ∧
    ((after (.pwuTeardown .p0) (lateCommand .saveConfig)).pwu.get .p0).command = none := by decide +kernel

/-- P0's held CLEAR, abandoned, whose hold ended after the media engine's teardown, behind another job or not. -/
def lateClear (r : Option Running) : State := after (.holdDeadlineExpiry .p0) (after (.meTeardown .p0)
  (after (.portReset .p0 1) (heldClear.modMe (fun m => { m with running := r }))))

theorem test_meets_TeardownsAreTaken_late_jobs :
    ((lateClear none).plu.get .p0).waiting = none ∧ ((lateClear none).teardown.get .p0).pwu = true ∧
    ((lateClear none).teardown.get .p0).me = false := by decide +kernel

theorem test_the_write_units_teardown_reaches_a_late_job :
    (after (.pwuTeardown .p0) (lateClear none)).me.running =
      some (.clear { ownerAt .p0 with abandoned := true } [2, 3] [] []) ∧
    (lateClear (some (.relocate 9 1024 .clearSpare))).me.queue = [.port (ownerAt .p0) (.clear [2, 3])] ∧
    (after (.pwuTeardown .p0) (lateClear (some (.relocate 9 1024 .clearSpare)))).me.queue = [] := by decide +kernel

/-- P0's command whose drain has ended with a report that waits at the lease engine. -/
def reported (a : PwuAction) (broken : List Nat) (fault : Option Nat) (s : State) : State :=
  asking .p0 [.report { serial := 1, okCount := 1, firstFault := fault }] ((inFlight .p0 0x22#8 .busy s).modPwu .p0 (fun u =>
    { u with command := some { serial := 1, action := a, bound := [64], stage := .issued, holdExpired := false,
                               broken := broken } }))

/-- P0's lease 64 ENDING for a cause. -/
def endingLease (cause : EndCause) : State :=
  withLease 0 1#2 { heldBy .p0 .exclusive 64 32 with state := .ending cause } ready

/-- A WRITE of sector 70 in a leased region. -/
def writeOne (flush : Bool) : PwuAction :=
  .write { first := 70, count := 1 } false flush [{ sector := 70, data := sectorOf 7#8, leaseId := 64 }] []

theorem test_meets_CommitCompletesAtItsReport :
    (∀ a ∈ [PwuAction.commit (some 64), .commit none, writeOne true, .downgrade 64],
      ∀ f ∈ [none, some 71], onlyRequest .p0 (.report { serial := 1, okCount := 1, firstFault := f })
        (reported a [] f leased) = true ∧
      ((reported a [] f leased).pwu.get .p0).command.map PwuCommand.stage = some .issued ∧
      endingLeases .p0 (reported a [] f leased) = [] ∧ ((reported a [] f leased).plu.get .p0).slot ≠ .idle ∧
      ((reported a [] f leased).plu.get .p0).serial = 1 ∧
      findLease (reported a [] f leased) 64 = some (heldBy .p0 .exclusive 64 32)) ∧
    (onlyRequest .p0 (.report { serial := 1, okCount := 1, firstFault := none })
        (reported (.release 64) [] none (endingLease .released)) = true ∧
      endingLeases .p0 (reported (.release 64) [] none (endingLease .released)) = [64] ∧
      (findLease (reported (.release 64) [] none (endingLease .released)) 64).isSome = true ∧
      endingLeases .p0 (reported (.commit none) [] none (endingLease .expired)) = [64] ∧
      ((endingLease .released).pwu.get .p0).slots = []) ∧
    (∀ a ∈ [PwuAction.commit (some 64), writeOne false, .downgrade 64], ∀ f ∈ [none, some 70], a.isDrain = true ∧
      endingLeases .p0 (reported a [64] f ready) = [] ∧
      endingLeases .p0 (reported a [64] f (endingLease .broken)) = [64] ∧
      ((reported a [64] f (endingLease .broken)).pwu.get .p0).command.map PwuCommand.broken = some [64]) := by
  decide +kernel

theorem test_meets_CommitCompletesAtItsReport_abandoned :
    (let s := asking .p0 [.report { serial := 1, okCount := 1, firstFault := none }] (endingLease .portReset)
     onlyRequest .p0 (.report { serial := 1, okCount := 1, firstFault := none }) s = true ∧ (s.pwu.get .p0).command = none ∧
       endingLeases .p0 s = [64] ∧ (s.pwu.get .p0).slots = [] ∧ (findLease s 64).isSome = true) ∧
    (let s := asking .p0 [.report { serial := 1, okCount := 1, firstFault := none }]
        (withSlot .p0 { sector := 70, data := sectorOf 7#8, leaseId := 64, state := .draining } (endingLease .portReset))
     onlyRequest .p0 (.report { serial := 1, okCount := 1, firstFault := none }) s = true ∧ (s.pwu.get .p0).command = none ∧
       endingLeases .p0 s = [64] ∧
       (s.pwu.get .p0).slots.any (fun x => decide (x.state = .draining) && decide (x.leaseId = 64)) = true) := by
  decide +kernel

/-- P0 was reset while its WRITE's drain ran, `st` and `n` being what its slot and command number are by now; the write unit
has its teardown still to take, and P0 has been granted a new lease with the old one's id. -/
def abandonedWrite (st : SlotState) (n : Nat) (s : State) : State :=
  ((reported (writeOne true) [] none s).modPlu .p0 (fun u => { u with slot := st, serial := n })).modTeardown .p0 (fun t =>
    { t with pwu := true })

theorem test_meets_CommitCompletesAtItsReport_abandonedWrite :
    ∀ x ∈ [(SlotState.idle, 1), (.busy, 2)], ∀ s ∈ [leased, endingLease .released],
      onlyRequest .p0 (.report { serial := 1, okCount := 1, firstFault := none }) (abandonedWrite x.1 x.2 s) = true ∧
      ((abandonedWrite x.1 x.2 s).pwu.get .p0).command.map (fun c => (c.serial, c.stage, c.action)) =
        some (1, .issued, writeOne true) ∧
      (((abandonedWrite x.1 x.2 s).plu.get .p0).slot = .idle ∨ ((abandonedWrite x.1 x.2 s).plu.get .p0).serial ≠ 1) ∧
      (endingLeases .p0 (abandonedWrite x.1 x.2 s) = [] ∨ endingLeases .p0 (abandonedWrite x.1 x.2 s) = [64]) := by
  decide +kernel

theorem test_an_abandoned_write_stages_nothing :
    ((after (.drainEndReport .p0) (abandonedWrite .idle 1 leased)).pwu.get .p0).slots = [] ∧
    completionAt .p0 (after (.drainEndReport .p0) (abandonedWrite .idle 1 leased)) = none ∧
    ((after (.drainEndReport .p0) (reported (writeOne true) [] none leased)).pwu.get .p0).slots.length = 1 := by
  decide +kernel

theorem test_an_abandoned_drains_report_removes_the_ending_lease :
    let s := asking .p0 [.report { serial := 1, okCount := 1, firstFault := none }] (endingLease .portReset)
    leases s ≠ [] ∧ leases (after (.drainEndReport .p0) s) = [] ∧ completionAt .p0 (after (.drainEndReport .p0) s) = none := by
  decide +kernel

theorem test_a_broken_lease_goes_at_its_commits_report :
    completionAt .p0 (after (.drainEndReport .p0) (reported (.commit (some 64)) [64] none (endingLease .broken))) =
      some { status := .leaseLost, leaseId := some 64, count := 1 } ∧
    leases (after (.drainEndReport .p0) (reported (.commit (some 64)) [64] none (endingLease .broken))) = [] := by
  decide +kernel

/-- P0's READ of sectors 70 and 71 with its job running. -/
def readRunning (todo : List Nat) : State :=
  running (.read (ownerAt .p0) todo 0 false []) (readInFlight [70, 71] .issued)

theorem test_meets_ReadSectorIsDelivered : (readRunning [70, 71]).me.running = some (.read (ownerAt .p0) (70 :: [71]) 0 false []) ∧
    (readRunning [71]).me.running = some (.read (ownerAt .p0) (71 :: []) 0 false []) ∧
    ((readRunning [71]).pwu.get .p0).command =
      some { serial := 1, action := .read { first := 70, count := 2 } [70, 71], bound := [64], stage := .issued,
             holdExpired := false, broken := [] } ∧
    ((readRunning [71]).plu.get .p0).slot = .busy ∧ ((readRunning [71]).plu.get .p0).serial = 1 ∧
    servingBlock (readRunning [71]).me (71 / 32) < 1041 ∧
    servingSector (readRunning [71]).me 71 ∉ (readRunning [71]).me.unreadable := by decide +kernel

theorem test_meets_ReadSectorIsDelivered_unreadable :
    servingSector (unreadableAt 71 (readRunning [71])).me 71 ∈ (unreadableAt 71 (readRunning [71])).me.unreadable ∧
    (unreadableAt 71 (readRunning [71])).me.running = some (.read (ownerAt .p0) (71 :: []) 0 false []) := by decide +kernel

theorem test_only_an_unreadable_sector_reads_uncorrectable :
    (after (.readSectorOutcome .uncorrectable) (readRunning [71])).me = (readRunning [71]).me ∧
    completionAt .p0 (after (.readSectorOutcome .uncorrectable) (readRunning [71])) = none ∧
    completionAt .p0 (after (.readSectorOutcome .clean) (unreadableAt 71 (readRunning [71]))) =
      some { status := .uncorrectable, lastSector := some 71, count := 1 } := by decide +kernel

/-- The pool emptied. -/
def noPool (s : State) : State := s.modMe (fun m => { m with pool := [] })

/-- The job queue and the latch replaced. -/
def withJobs (l : List Job) (latch : Option Nat) (s : State) : State := s.modMe (fun m => { m with queue := l, latch := latch })

theorem test_meets_ReadSectorIsDelivered_candidates :
    (noPool ready).me.pool = [] ∧ (noPool ready).me.sparesOut = false ∧ ready.me.pool ≠ [] ∧ ready.me.queue = [] ∧
    (withJobs [.relocate 3] none ready).me.queue = [.relocate 3] ∧ (withJobs [.relocate 3] none ready).me.latch = none ∧
    (withJobs [.relocate 3] (some 4) ready).me.latch ≠ none ∧ (withJobs [.relocate 3] none ready).me.pool ≠ [] := by
  decide +kernel

theorem test_meets_ProgramStoresItsSectorOnly :
    (running (.drain (ownerAt .p0) [{ sector := 70, data := sectorOf 7#8 }, { sector := 71, data := [] }] [] none []) leased).me.running =
      some (.drain (ownerAt .p0) ({ sector := 70, data := sectorOf 7#8 } :: [{ sector := 71, data := [] }]) [] none []) ∧
    (running (.drain (ownerAt .p0) [{ sector := 32767, data := sectorOf 7#8 }] [] none []) leased).me.running =
      some (.drain (ownerAt .p0) ({ sector := 32767, data := sectorOf 7#8 } :: []) [] none []) ∧
    (sectorOf 7#8).length = 512 ∧ servingBlock leased.me (32767 / 32) < 1041 ∧
    (32 * servingBlock leased.me (32767 / 32) + 32767 % 32) * 512 = 16776704 := by decide +kernel

theorem test_the_last_program_hands_its_event_and_its_report :
    let s := running (.drain (ownerAt .p1) [{ sector := 5, data := sectorOf 7#8 }] [3] none []) holdWatch
    ((after (.programSectorOutcome .ok) s).nu.get .p0).queue =
      [{ body := .committed .p1 { first := 3, count := 3 }, watch := some 7 }] ∧
    (after (.programSectorOutcome .fault) s).le.requests.get .p1 =
      [.report { serial := 1, okCount := 1, firstFault := some 5 }] := by decide +kernel

theorem test_meets_ClearBlanksItsBlockOnly :
    (running (.clear (ownerAt .p0) [2] [] []) (withCommand .p0 (.clear [2] false none) [64] .issued leased)).me.running =
      some (.clear (ownerAt .p0) (2 :: []) [] []) ∧
    servingBlock leased.me 2 < 1041 ∧ servingBlock leased.me 1023 < 1041 ∧
    ((withCommand .p0 (.clear [2] false none) [64] .issued leased).pwu.get .p0).command =
      some { serial := 1, action := .clear [2] false (leased.pwu.get .p0).pendingClear, bound := [64], stage := .issued,
             holdExpired := false, broken := [] } := by decide +kernel

/-- P0's CLEAR of blocks 2 and 3 running at block 3, with or without its pending clear range. -/
def clearing (formed pending : Option Range) (broken : List Nat) (done : List Nat) : State :=
  running (.clear (ownerAt .p0) [3] done []) (leased.modPwu .p0 (fun u =>
    { u with pendingClear := pending,
             command := some { serial := 1, action := .clear [2, 3] false formed, bound := [64], stage := .issued,
                               holdExpired := false, broken := broken } }))

theorem test_meets_ClearBlanksItsBlockOnly_others :
    (running (.clear (ownerAt .p0) [2, 3] [] []) leased).me.running = some (.clear (ownerAt .p0) (2 :: [3]) [] []) ∧
    (∀ pending ∈ [none, some (Range.mk 128 5)], ∀ broken ∈ [[], [64]], ∀ done ∈ [[], [2]],
      (clearing (some (Range.mk 128 5)) pending broken done).me.running = some (.clear (ownerAt .p0) (3 :: []) done []) ∧
      servingBlock (clearing (some (Range.mk 128 5)) pending broken done).me 3 < 1041 ∧
      ((clearing (some (Range.mk 128 5)) pending broken done).pwu.get .p0).command =
        some { serial := 1, action := .clear [2, 3] false (some (Range.mk 128 5)), bound := [64], stage := .issued,
               holdExpired := false, broken := broken }) ∧
    ([2] ++ [3]).Pairwise (· < ·) ∧ ([2] ++ [3]).head? = some 2 ∧ [2].head? = some 2 ∧ [2].getLast? = some 2 := by
  decide +kernel

theorem test_a_faulted_clear_names_its_block_after_absent_items :
    completionAt .p0 (after (.clearBlockOutcome .fault) (inFlight .p0 0x23#8 .busy (clearing none none [] [2]))) =
      some { status := .writeFault, lastSector := some 95, count := 32,
             detail := [0xFF#8, 0xFF#8, 0xFF#8, 0xFF#8, 0#8, 3#8] } := by decide +kernel

theorem test_meets_MetaProgramEnds :
    (running (.metadata (ownerAt .p0) validRecord) (withCommand .p0 .saveConfig [] .issued ready)).me.running =
      some (.metadata (ownerAt .p0) validRecord) ∧
    ((withCommand .p0 .saveConfig [] .issued ready).pwu.get .p0).command =
      some { serial := 1, action := .saveConfig, bound := [], stage := .issued, holdExpired := false, broken := [] } := by
  decide +kernel

theorem test_meets_MetaProgramEnds_selection : ready.device = .ready ∧ ready.me.running = none ∧
    (withJobs [.port (ownerAt .p0) (.read [70]), .relocate 3] none ready).me.queue =
      [.port (ownerAt .p0) (.read [70])] ++ .relocate 3 :: [] ∧
    ready.me.pool = 1024 :: List.range' 1025 15 ∧
    (∀ w ∈ [JobWork.read [70], .drain [], .clear [2], .metadata],
      (withJobs [.port (ownerAt .p0) w] none ready).me.queue = .port (ownerAt .p0) w :: []) ∧
    ready.me.queue = [] ∧ (loading 0 none).device = .starting := by decide +kernel

theorem test_meets_RelocationSteps_end :
    (sparesOutRule 2 (mediaEvent .relocated 2 ready)).me.latch = none ∧
    (sparesOutRule 2 (mediaEvent .relocated 2 (withJobs [] (some 3) ready))).me.latch = some 3 ∧
    (sparesOutRule 2 (mediaEvent .relocated 2 (withJobs [] (some 3) ready))).me.pool ≠ [] ∧
    (sparesOutRule 2 (mediaEvent .relocated 2 (withJobs [] (some 3) (noPool ready)))).me.latch = some 3 ∧
    (sparesOutRule 2 (mediaEvent .relocated 2 (withJobs [] (some 3) (noPool ready)))).me.pool = [] := by decide +kernel

theorem test_meets_RelocationSteps : servingBlock ready.me 2 < 1041 ∧ 1039 < 1041 ∧
    (running (.relocate 2 1039 (.copyProgram 30 (sectorOf 7#8))) ready).me.running =
      some (.relocate 2 1039 (.copyProgram 30 (sectorOf 7#8))) ∧
    32 * servingBlock ready.me 2 + 31 ∉ ready.me.unreadable ∧
    (running (.relocate 2 1039 (.copyRead 31)) (unreadableAt 95 ready)).me.running = some (.relocate 2 1039 (.copyRead 31)) ∧
    32 * servingBlock (unreadableAt 95 ready).me 2 + 31 ∈ (unreadableAt 95 ready).me.unreadable := by decide +kernel

theorem test_meets_the_invariants : arraySound oneStaged = true ∧ noticesSound (withNotices .p0 12 true ready) = true ∧
    tableBounded fullTable = true ∧ leased.le.table.length = 64 ∧ heldYoung leased = true ∧
    closedIdle (fencedPort .p1 (inFlight .p0 0x10#8 .busy ready)) = true ∧ stagingSound eightStaged = true ∧
    sparesSound (running (.relocate 2 1024 .clearSpare) ready) = true ∧
    sparesSound (switchRemap 2 1024 ready) = true := by decide +kernel

/-- P0's READ with its lease 64 broken after the issue. -/
def brokenRead (todo : List Nat) : State := (readRunning todo).modPwu .p0 (fun u =>
  { u with command := u.command.map (fun c => { c with broken := [64] }) })

/-- P0's READ job, abandoned by a port reset. -/
def abandonedRead (todo : List Nat) : State :=
  running (.read { issuer := .p0, serial := 1, abandoned := true } todo 0 false []) leased

theorem test_meets_ReadSectorIsDelivered_others :
    (∀ s ∈ [brokenRead [71], unreadableAt 71 (brokenRead [71])],
      s.me.running = some (.read (ownerAt .p0) (71 :: []) 0 false []) ∧ servingBlock s.me (71 / 32) < 1041 ∧
      (s.pwu.get .p0).command = some { serial := 1, action := .read { first := 70, count := 2 } [70, 71], bound := [64],
                                       stage := .issued, holdExpired := false, broken := [64] } ∧
      (s.plu.get .p0).slot = .busy ∧ (s.plu.get .p0).serial = 1) ∧
    servingSector (brokenRead [71]).me 71 ∉ (brokenRead [71]).me.unreadable ∧
    servingSector (unreadableAt 71 (brokenRead [71])).me 71 ∈ (unreadableAt 71 (brokenRead [71])).me.unreadable ∧
    (abandonedRead [70, 71]).me.running =
      some (.read { issuer := .p0, serial := 1, abandoned := true } (70 :: [71]) 0 false []) ∧
    servingBlock (abandonedRead [70, 71]).me (70 / 32) < 1041 ∧
    servingSector (abandonedRead [70, 71]).me 70 ∉ (abandonedRead [70, 71]).me.unreadable ∧
    servingSector (unreadableAt 70 (abandonedRead [70, 71])).me 70 ∈ (unreadableAt 70 (abandonedRead [70, 71])).me.unreadable := by
  decide +kernel

theorem test_the_last_read_of_a_broken_lease_completes_lease_lost :
    completionAt .p0 (after (.readSectorOutcome .corrected) (brokenRead [71])) =
      some { status := .leaseLost, flags := { corrected := true }, leaseId := some 64, lastSector := some 71, count := 2 } ∧
    completionAt .p0 (after (.readSectorOutcome .clean) (abandonedRead [71])) = none := by decide +kernel

theorem test_meets_jobs_that_were_abandoned :
    (running (.clear { issuer := .p0, serial := 1, abandoned := true } [3] [2] []) leased).me.running =
      some (.clear { issuer := .p0, serial := 1, abandoned := true } (3 :: []) [2] []) ∧
    servingBlock leased.me 3 < 1041 ∧
    (running (.metadata { issuer := .p0, serial := 1, abandoned := true } validRecord) ready).me.running =
      some (.metadata { issuer := .p0, serial := 1, abandoned := true } validRecord) := by decide +kernel

theorem test_meets_steps_of_the_invariants :
    ∃ t, step ({ leased with pending := [.read .p0 64#16 1#8 5] } : State) = .next t := ⟨_, rfl⟩

end Sys2Proof.Tests
end

section
/-! SUPPORT. SET WATCH, DROP WATCH and SET LEVELS as the notice unit takes them (R136, R137, R148), one rule for each
branch, and the re-examination of the hold list behind them (R152). -/

namespace Sys2Proof.Machine

/-! ### Shared rules -/

/-- A byte's number sent as an item is that byte. -/
@[simp] theorem byteItem_toNat (b : Byte) : byteItem b.toNat = [b] := by simp [byteItem]

/-- A yes/no item is one byte, in either case. -/
theorem boolItem_eq (b : Bool) : boolItem b = [if b then 1#8 else 0#8] := by cases b <;> rfl

/-- A change of a port's notice unit is what it does to that port's state there. -/
theorem modNu_congr {p : Port} {s : State} {f g : NuPort → NuPort} (h : f (s.nu.get p) = g (s.nu.get p)) :
    s.modNu p f = s.modNu p g := by simp [State.modNu, PortMap.modify, h]

/-- A free port's acceptance of a slot command leaves no job released. -/
theorem acceptedIn_released {p : Port} {s : State} (h : freePort p s = true) (op : Byte) :
    (acceptedIn p op s).released = [] := by
  simp only [freePort, Bool.and_eq_true] at h
  exact ((quiet_iff s).mp h.2).2.1.1

/-- A command of the notice unit with parameters that its rule refuses, at a free port: the frame ends accepted, the command
completes BAD_PARAM, and no job goes on. -/
theorem slotFrame_badParamNu {p : Port} {s : State} {op : Byte} {c : SlotCommand} {len d : Nat}
    (h : freePort p s = true) (hd : d ≤ len) (h1 : 1 ≤ d) (hc : c.owners.le = false)
    (e : takeCommand p c (acceptedIn p op s) = finish p { status := .badParam } (acceptedIn p op s)) :
    (Host.Outcome.next (slotFrame p op (decide (d ≤ len)) c len s) : Outcome) =
      .next (endAccepted p s [] len (finish p { status := .badParam } (acceptedIn p op s))) := by
  have hr : (finish p { status := .badParam } (acceptedIn p op s)).released = [] := by
    rw [(Keeps.finish p _ _).released, acceptedIn_released h]
  rw [slotFrame_acceptedInNu h hd h1 hc e, goOn_idle hr]

/-! ### Watches (R136, R137) -/

/-- Replacing an entry of the table leaves the congestion state, so the hold list is re-examined behind it when the watch
that went had hold yes and the port was CONGESTED. -/
theorem reexamineAfter_setWatchAt (p : Port) (i : Nat) (gone w : Option Watch) (s : State) :
    reexamineAfter p gone (setWatchAt p i w s) =
      if gone.any Watch.hasHold && (s.nu.get p).congested then reexamine (setWatchAt p i w s) else setWatchAt p i w s := by
  cases gone <;> simp [reexamineAfter, setWatchAt]

/-- SET WATCH of a watch that passes its checks, at an index of the table. -/
theorem takeSetWatch_valid {p : Port} {i target : Byte} {first count wordSet : Word16} {kinds self hold : Byte} {w : Watch}
    (hi : i.toNat < 8) (hw : watchOf target first count wordSet kinds self hold = some w) (s : State) :
    takeSetWatch p i target first count wordSet kinds self hold s = finish p { status := .done, count := 1, detail := [i] }
      (reexamineAfter p (watchAt p i.toNat s) (setWatchAt p i.toNat (some w) s)) := by
  simp [takeSetWatch, hw, Config.watchEntries, hi]

/-- SET WATCH with an index or a watch that its rule refuses. -/
theorem takeSetWatch_refused {p : Port} {i target : Byte} {first count wordSet : Word16} {kinds self hold : Byte}
    (h : 8 ≤ i.toNat ∨ watchOf target first count wordSet kinds self hold = none) (s : State) :
    takeSetWatch p i target first count wordSet kinds self hold s = finish p { status := .badParam } s := by
  unfold takeSetWatch
  split
  next w hw =>
    have hi : 8 ≤ i.toNat := h.resolve_right (by simp [hw])
    exact if_neg (Nat.not_lt.mpr hi)
  next => rfl

/-- DROP WATCH at an index of the table. -/
theorem takeDropWatch_valid {p : Port} {i : Byte} (hi : i.toNat < 8) (s : State) :
    takeDropWatch p i s =
      finish p { status := .done, count := if (watchAt p i.toNat s).isSome then 1 else 0, detail := [i] }
        (reexamineAfter p (watchAt p i.toNat s) (setWatchAt p i.toNat none s)) := by
  simp [takeDropWatch, Config.watchEntries, hi]

/-- DROP WATCH at an index above the table. -/
theorem takeDropWatch_refused {p : Port} {i : Byte} (hi : 8 ≤ i.toNat) (s : State) :
    takeDropWatch p i s = finish p { status := .badParam } s := if_neg (Nat.not_lt.mpr hi)

/-! ### Levels (R148) -/

/-- Behind a change of its notice unit, the port was freed when it went from CONGESTED to the state that the change gives. -/
theorem reexamineIfFreed_modNu (p : Port) (was : Bool) (f : NuPort → NuPort) (s : State) :
    reexamineIfFreed p was (s.modNu p f) =
      if was && !(f (s.nu.get p)).congested then reexamine (s.modNu p f) else s.modNu p f := by
  simp [reexamineIfFreed]

/-- SET LEVELS with levels in range and low below high; `now` is the congestion state that they give. -/
theorem takeSetLevels_valid {p : Port} {high low : Byte} {s : State} {now : Bool} (h1 : 1 ≤ high.toNat)
    (h2 : high.toNat ≤ 16) (h3 : low.toNat < high.toNat)
    (hn : now = ((s.nu.get p).setLevels high.toNat low.toNat).congested) :
    takeSetLevels p high low s =
      finish p { status := .done, count := (s.nu.get p).queue.length, detail := boolItem now }
        (reexamineIfFreed p (s.nu.get p).congested
          (s.modNu p (fun u => { u with high := high.toNat, low := low.toNat, congested := now }))) := by
  have hs : s.modNu p (fun u => u.setLevels high.toNat low.toNat) =
      s.modNu p (fun u => { u with high := high.toNat, low := low.toNat, congested := now }) :=
    modNu_congr (by rw [hn]; rfl)
  simp [takeSetLevels, Config.noticeCapacity, h1, h2, h3, hs]

/-- SET LEVELS with levels that its rule refuses. -/
theorem takeSetLevels_refused {p : Port} {high low : Byte} (h : high = 0#8 ∨ 16 < high.toNat ∨ high.toNat ≤ low.toNat)
    (s : State) : takeSetLevels p high low s = finish p { status := .badParam } s := by
  refine if_neg fun ⟨h1, h2, h3⟩ => ?_
  rcases h with rfl | h | h
  · exact absurd h1 (by decide)
  · exact absurd h2 (Nat.not_le.mpr h)
  · exact absurd h3 (Nat.not_lt.mpr h)

/-! ### The frames at a free port -/

/-- Settles O36: each frame reaches the notice unit at once (`slotFrame_acceptedInNu`), and the branch of the command's
rule that its parameters choose gives the state there. -/
theorem watchesAndLevelsAreSet : Obligations.WatchesAndLevelsAreSet := by
  refine ⟨fun p index target first count wordSet kinds self hold len s t hp hl => ⟨?_, ?_⟩,
    fun p index len s t hp hl => ⟨?_, ?_⟩, fun p high low len s t now hp hl => ⟨?_, ?_⟩⟩
  · rintro w hi hw rfl
    refine slotFrame_acceptedInNu hp hl (by omega) rfl ?_
    exact (takeSetWatch_valid hi hw _).trans (congrArg _ (reexamineAfter_setWatchAt ..))
  · exact fun hbad => slotFrame_badParamNu hp hl (by omega) rfl (takeSetWatch_refused hbad _)
  · rintro hi rfl
    refine slotFrame_acceptedInNu hp hl (by omega) rfl ?_
    exact (takeDropWatch_valid hi _).trans (congrArg _ (reexamineAfter_setWatchAt ..))
  · exact fun hi => slotFrame_badParamNu hp hl (by omega) rfl (takeDropWatch_refused hi _)
  · rintro h1 h2 h3 hn rfl
    refine slotFrame_acceptedInNu hp hl (by omega) rfl ?_
    have hv := takeSetLevels_valid (s := acceptedIn p 0x32#8 s) h1 h2 h3 hn
    rw [boolItem_eq, reexamineIfFreed_modNu] at hv
    exact hv
  · exact fun hbad => slotFrame_badParamNu hp hl (by omega) rfl (takeSetLevels_refused hbad _)

end Sys2Proof.Machine
end

section
/-! SUPPORT. SIGNAL READ and SIGNAL MODIFY as the signal word bank takes them (R157 to R159): the bits of a modified word,
and one rule for each branch. -/

namespace Sys2Proof.Machine

/-! ### The words (R157) -/

/-- A word's number sent as an item is its two bytes, the high one first. -/
theorem wordItem_eq (n : Nat) : wordItem n = [BitVec.ofNat 8 (n / 256), BitVec.ofNat 8 n] := rfl

/-- The mask chooses, bit by bit, between the value and the old word. -/
theorem modifiedWord_getLsbD (old mask value : Word16) {k : Nat} (hk : k < 16) :
    (modifiedWord old mask value).getLsbD k = if mask.getLsbD k then value.getLsbD k else old.getLsbD k := by
  simp only [BitVec.getLsbD_eq_getElem hk]
  cases hm : mask[k] <;> simp [modifiedWord, hm]

/-- That choice at every bit determines the modified word. -/
theorem eq_modifiedWord {old new mask value : Word16}
    (h : ∀ k, k < 16 → new.getLsbD k = if mask.getLsbD k then value.getLsbD k else old.getLsbD k) :
    new = modifiedWord old mask value :=
  BitVec.eq_of_getLsbD_eq fun k hk => (h k hk).trans (modifiedWord_getLsbD old mask value hk).symm

/-- A word set to the value that it has leaves the words as they are, whatever their number. -/
theorem set_signalWord_self (s : State) (n : Nat) : s.swb.set n (signalWord s n) = s.swb := by
  rcases Nat.lt_or_ge n s.swb.length with hn | hn
  · rw [signalWord, List.getD_eq_getElem _ _ hn, List.set_getElem_self]
  · exact List.set_eq_of_length_le hn

/-! ### The two commands at the bank (R157 to R159) -/

/-- SIGNAL READ of a word that the bank has. -/
theorem takeSignalRead_valid {p : Port} {word : Byte} (hw : word.toNat < 16) (s : State) :
    takeSignalRead p word s = finish p
      { status := .done, detail := [word, BitVec.ofNat 8 ((signalWord s word.toNat).toNat / 256),
          BitVec.ofNat 8 (signalWord s word.toNat).toNat] } s := by
  simp [takeSignalRead, Config.signalWords, hw, wordItem_eq]

/-- SIGNAL READ of a word above the bank's last. -/
theorem takeSignalRead_refused {p : Port} {word : Byte} (hw : 16 ≤ word.toNat) (s : State) :
    takeSignalRead p word s = finish p { status := .badParam } s := if_neg (Nat.not_lt.mpr hw)

/-- What SIGNAL MODIFY does to the bank and hands to the notice unit before it completes: nothing when the word keeps its
value (R158). -/
theorem setSwb_thenSignalEvent (p : Port) (n : Nat) (new : Word16) (s : State) :
    (if new = signalWord s n then s.setSwb (s.swb.set n new) else signalEvent p n new (s.setSwb (s.swb.set n new))) =
      if new = signalWord s n then s else signalEvent p n new (s.setSwb (s.swb.set n new)) := by
  split
  case isTrue hk => rw [hk, set_signalWord_self]; rfl
  case isFalse => rfl

/-- SIGNAL MODIFY of a word that the bank has. -/
theorem takeSignalModify_valid {p : Port} {word : Byte} {mask value new : Word16} {s : State} (hw : word.toNat < 16)
    (hn : new = modifiedWord (signalWord s word.toNat) mask value) :
    takeSignalModify p word mask value s = finish p
      { status := .done, count := if new = signalWord s word.toNat then 0 else 1,
        detail := [word, BitVec.ofNat 8 ((signalWord s word.toNat).toNat / 256),
          BitVec.ofNat 8 (signalWord s word.toNat).toNat, BitVec.ofNat 8 (new.toNat / 256), BitVec.ofNat 8 new.toNat] }
      (if new = signalWord s word.toNat then s
       else signalEvent p word.toNat new (s.setSwb (s.swb.set word.toNat new))) := by
  rw [← setSwb_thenSignalEvent]
  simp [takeSignalModify, Config.signalWords, hw, ← hn, wordItem_eq]

/-- SIGNAL MODIFY of a word above the bank's last. -/
theorem takeSignalModify_refused {p : Port} {word : Byte} (hw : 16 ≤ word.toNat) (mask value : Word16) (s : State) :
    takeSignalModify p word mask value s = finish p { status := .badParam } s := if_neg (Nat.not_lt.mpr hw)

/-! ### The frames at a free port -/

/-- Settles O38: each frame reaches the signal word bank at once (`slotFrame_acceptedIn`), with the words as they were, and
the word's number chooses the branch of the command's rule. -/
theorem signalWordsAreReadAndModified : Obligations.SignalWordsAreReadAndModified := by
  refine ⟨fun p word len s hp hl hw => ?_, fun p word mask value len s old new hp hl hw ho hn => ?_,
    fun p word mask value len s hp hw => ⟨fun hl => ?_, fun hl => ?_⟩⟩
  · exact slotFrame_acceptedIn hp hl (by omega) rfl rfl (takeSignalRead_valid hw _)
  · subst ho
    exact slotFrame_acceptedIn hp hl (by omega) rfl rfl (takeSignalModify_valid hw (eq_modifiedWord hn))
  · exact slotFrame_acceptedIn hp hl (by omega) rfl rfl (takeSignalRead_refused hw _)
  · exact slotFrame_acceptedIn hp hl (by omega) rfl rfl (takeSignalModify_refused hw mask value _)

end Sys2Proof.Machine
end

section
/-! SUPPORT. RESULT and FETCH DATA (R170, R171): the state that each leaves at an open port, and the response that each
gives in every state of the slot. -/

namespace Sys2Proof.Machine

/-! ### The two frames -/

/-- RESULT at an open port clears RESULT_READY, whatever it answers (R170). -/
theorem exec_result_open {p : Port} {n : Nat} {s : State} (h : openPort p s = true) (hn : 1 ≤ n) :
    exec (.result p n) s = .next (s.modPlu p (fun u =>
      { u with resultReady := false, reason := .none, sdo := shownBytes p s (resultBytes (s.plu.get p)) n })) :=
  congrArg Host.Outcome.next <| calc
    onFrame p n (portCloses p s) (resultEffect p) s
    _ = endAccepted p s (resultBytes (s.plu.get p)) n (s.modPlu p (fun u => { u with resultReady := false })) :=
      onFrame_open h hn _
    _ = _ := by rw [endAccepted_eq, State.modPlu_modPlu]

/-- FETCH DATA at an open port has no effect beside the end of its frame (R171). -/
theorem exec_fetchData_open {p : Port} {n : Nat} {s : State} (h : openPort p s = true) (hn : 1 ≤ n) :
    exec (.fetchData p n) s = .next (s.modPlu p (fun u =>
      { u with reason := .none, sdo := shownBytes p s (fetchDataBytes (s.plu.get p)) n })) :=
  congrArg Host.Outcome.next (onFrame_open h hn fun t => (fetchDataBytes (t.plu.get p), t))

/-! ### RESULT's response (R170) -/

/-- "In progress", for an occupied slot. -/
theorem resultBytes_occupied {u : Plu} (h : u.slot ≠ .idle) : resultBytes u = 1#8 :: List.replicate 22 0#8 := if_pos h

/-- "None", for an IDLE slot with no record. -/
theorem resultBytes_none {u : Plu} (h : u.slot = .idle) (hr : u.record = none) :
    resultBytes u = List.replicate 23 0#8 := by
  rw [resultBytes, if_neg (not_not_intro h), hr]
  rfl

/-- The record, for an IDLE slot that has one. -/
theorem resultBytes_record {u : Plu} {r : CompletionRecord} (h : u.slot = .idle) (hr : u.record = some r) :
    resultBytes u = recordBytes r := by
  rw [resultBytes, if_neg (not_not_intro h), hr]

/-! ### FETCH DATA's response (R171) -/

/-- The count 0 and no position, while a READ occupies the slot. -/
theorem fetchDataBytes_read {u : Plu} (h : u.slot ≠ .idle) (ho : u.opcode = 0x20#8) : fetchDataBytes u = [0#8] := by
  have hc : fetchCount u = 0 := if_pos ⟨h, ho⟩
  rw [fetchDataBytes, hc]
  rfl

/-- The buffer's valid count and that many positions, in every other case. -/
theorem fetchDataBytes_valid {u : Plu} (h : u.slot = .idle ∨ u.opcode ≠ 0x20#8) :
    fetchDataBytes u = BitVec.ofNat 8 u.valid :: (u.buffer.take u.valid).flatten := by
  have hc : fetchCount u = u.valid := if_neg fun ⟨hs, ho⟩ => h.elim hs (fun hne => hne ho)
  rw [fetchDataBytes, hc]
  rfl

/-- Settles O9: the frames' two rules and the responses case by case. -/
theorem resultAndFetchDataAnswer : Obligations.ResultAndFetchDataAnswer :=
  ⟨fun _ _ _ => exec_result_open,
    fun _ => ⟨resultBytes_occupied, resultBytes_none, fun _ => resultBytes_record⟩,
    fun _ _ _ => exec_fetchData_open,
    fun _ => ⟨fetchDataBytes_read, fetchDataBytes_valid⟩⟩

end Sys2Proof.Machine
end

section
/-! SUPPORT. The operations of a FENCE behind the target's port link unit: they leave every port's ATTN mask and fence flag
alone (R173, R181). -/

namespace Sys2Proof.Machine

/-- Each port's ATTN mask and fence flag are the same. -/
structure SameMasks (s t : State) : Prop where
  mask : ∀ q, (t.plu.get q).mask = (s.plu.get q).mask
  fenced : ∀ q, (t.plu.get q).fenced = (s.plu.get q).fenced

namespace SameMasks

/-- An operation that leaves the port link units alone. -/
theorem ofPlu {s t : State} (h : t.plu = s.plu) : SameMasks s t := ⟨fun _ => by rw [h], fun _ => by rw [h]⟩

theorem refl (s : State) : SameMasks s s := ofPlu rfl

theorem trans {s t u : State} (h : SameMasks s t) (k : SameMasks t u) : SameMasks s u :=
  ⟨fun q => (k.mask q).trans (h.mask q), fun q => (k.fenced q).trans (h.fenced q)⟩

theorem ite {c : Prop} [Decidable c] {s t u : State} (h : SameMasks s t) (k : SameMasks s u) :
    SameMasks s (if c then t else u) := by split <;> assumption

/-- A fold of operations that each leave them alone. -/
theorem foldl {α : Type} {f : State → α → State} (h : ∀ t x, SameMasks t (f t x)) (l : List α) (s : State) :
    SameMasks s (l.foldl f s) := by
  induction l generalizing s with
  | nil => exact refl s
  | cons a t ih => exact (h s a).trans (ih _)

/-! ### Updates of one block -/

theorem modLe {f : LeaseEngine → LeaseEngine} {s : State} : SameMasks s (s.modLe f) := ofPlu rfl

theorem modPwu {p : Port} {f : WriteUnit → WriteUnit} {s : State} : SameMasks s (s.modPwu p f) := ofPlu rfl

theorem modNu {p : Port} {f : NuPort → NuPort} {s : State} : SameMasks s (s.modNu p f) := ofPlu rfl

theorem modTeardown {p : Port} {f : Teardowns → Teardowns} {s : State} : SameMasks s (s.modTeardown p f) := ofPlu rfl

theorem modPlu {p : Port} {f : Plu → Plu} {s : State} (hm : ∀ u, (f u).mask = u.mask)
    (hf : ∀ u, (f u).fenced = u.fenced) : SameMasks s (s.modPlu p f) where
  mask q := by rw [State.modPlu_plu, PortMap.get_modify]; split <;> simp only [hm]
  fenced q := by rw [State.modPlu_plu, PortMap.get_modify]; split <;> simp only [hf]

/-! ### Completions, counters, notices -/

theorem complete (p : Port) (n : Nat) (c : Completion) (s : State) : SameMasks s (Machine.complete p n c s) :=
  modPlu (fun _ => by split <;> rfl) (fun _ => by split <;> rfl)

theorem countEvent (e : CounterEvent) (a : Option Port) (s : State) : SameMasks s (Machine.countEvent e a s) := by
  refine foldl (fun _ _ => ?_) _ _
  exact modPlu (fun _ => rfl) (fun _ => rfl)

theorem placeNotice (p : Port) (s : State) (n : Notice) : SameMasks s (Machine.placeNotice p s n) :=
  ite modNu (trans modNu (countEvent _ _ _))

theorem deliver (r : Port → List Notice) (s : State) : SameMasks s (Machine.deliver r s) :=
  foldl (fun t p => foldl (fun t n => placeNotice p t n) (r p) t) _ _

/-! ### The lease engine's teardown of a port (R44, R59) -/

/-- A lease changed, renewed or removed from the table. -/
theorem updateLease (id : Nat) (f : Lease → Option Lease) (s : State) : SameMasks s (Machine.updateLease id f s) := modLe

theorem grant (e : WaitEntry) (s : State) : SameMasks s (Machine.grant e s) := by
  unfold Machine.grant
  split
  · exact trans (trans modLe (complete _ _ _ _)) (countEvent _ _ _)
  · exact trans (trans (trans (updateLease _ _ _) (updateLease _ _ _)) (complete _ _ _ _)) (countEvent _ _ _)

theorem scanWalk (todo parked : List WaitEntry) (s : State) : SameMasks s (Machine.scanWalk parked todo s) := by
  induction todo generalizing parked s with
  | nil => exact modLe
  | cons e t ih =>
    unfold Machine.scanWalk
    split
    · exact ih _ _
    · exact trans (grant e s) (ih _ _)

theorem removeLease (id : Nat) (s : State) : SameMasks s (Machine.removeLease id s) := by
  unfold Machine.removeLease
  split
  · exact trans (updateLease _ _ _) (deliver _ _)
  · exact refl s

theorem endLease (id : Nat) (c : EndCause) (s : State) : SameMasks s (Machine.endLease id c s) := by
  unfold Machine.endLease
  split
  · exact refl s
  · exact trans (trans modPwu (ite (placeNotice _ _ _) (refl _))) (ite (updateLease _ _ _) (removeLease _ _))

theorem leaseTeardown (p : Port) (c : EndCause) (s : State) : SameMasks s (Machine.leaseTeardown p c s) :=
  trans (trans modLe (foldl (fun t id => endLease id c t) _ _)) (scanWalk _ _ _)

theorem withdrawCommand (p : Port) (s : State) : SameMasks s (Machine.withdrawCommand p s) := modLe

/-- A fence, behind the reset of the target's port link unit (R181). -/
theorem carryOutFence (p target : Port) (s : State) :
    SameMasks (s.modPlu target (fun u => { u.portReset with fenced := true })) (Machine.carryOutFence p target s) := by
  unfold Machine.carryOutFence
  exact trans (trans (trans (withdrawCommand _ _) modTeardown) (leaseTeardown _ _ _)) modLe

/-- The end of a frame. -/
theorem endAccepted (p : Port) (before : State) (response : List Byte) (len : Nat) (s : State) :
    SameMasks s (Machine.endAccepted p before response len s) := modPlu (fun _ => rfl) (fun _ => rfl)

end SameMasks

end Sys2Proof.Machine
end

section
/-! SUPPORT. ATTN and its enabled causes; the default mask after a device reset, a port reset and a FENCE (R173, R175,
R177, R181). -/

namespace Sys2Proof

/-- A port's number names it. -/
@[simp] theorem Port.ofNum?_num (p : Port) : Port.ofNum? p.num = some p := by cases p <;> rfl

namespace Machine

/-! ### ATTN -/

/-- NOTICE_PENDING: the port's notice queue holds a record. -/
theorem noticePending_iff (p : Port) (s : State) : noticePending p s = true ↔ (s.nu.get p).queue ≠ [] := by
  simp [noticePending]

/-- ATTN: the three gates, then the four causes with their mask bits (R173). -/
theorem attn_iff (p : Port) (s : State) : attn p s = true ↔
    s.rstHeld = false ∧ s.device = .ready ∧ (s.plu.get p).fenced = false ∧
      ((s.plu.get p).mask.getLsbD 0 = true ∧ (s.plu.get p).resultReady = true ∨
        (s.plu.get p).mask.getLsbD 1 = true ∧ (s.nu.get p).queue ≠ [] ∨
        (s.plu.get p).mask.getLsbD 2 = true ∧ (s.nu.get p).congested = true ∨
        (s.plu.get p).mask.getLsbD 3 = true ∧ (s.nu.get p).overrun = true) := by
  simp only [attn, Bool.and_eq_true, Bool.or_eq_true, Bool.not_eq_true', decide_eq_true_eq, noticePending_iff, and_assoc,
    or_assoc]

/-! ### The default mask -/

/-- Device reset, in any state (R177). -/
theorem deviceReset_mask (p : Port) (s : State) : ((deviceReset s).plu.get p).mask = 3#4 :=
  congrArg Plu.mask (PortMap.get_const Plu.reset p)

/-- PORT RESET, for its own port (R175). -/
theorem portResetEffect_mask (p : Port) (s : State) : ((portResetEffect p s).plu.get p).mask = 3#4 :=
  congrArg Plu.mask (PortMap.get_modify_same s.plu p Plu.portReset)

/-- A fence, for its target: the port link unit is reset and fenced, and the rest of the fence keeps both (R181). -/
theorem carryOutFence_target (p target : Port) (s : State) :
    ((carryOutFence p target s).plu.get target).mask = 3#4 ∧ ((carryOutFence p target s).plu.get target).fenced = true := by
  have hu : (s.modPlu target (fun u => { u.portReset with fenced := true })).plu.get target =
      { (s.plu.get target).portReset with fenced := true } := PortMap.get_modify_same _ _ _
  have k := SameMasks.carryOutFence p target s
  exact ⟨(k.mask target).trans (congrArg Plu.mask hu), (k.fenced target).trans (congrArg Plu.fenced hu)⟩

/-- FENCE by the supervisor of another port, which is not fenced (R181). -/
theorem takeFence_valid {p target : Port} {b : Byte} {s : State} (hp : p = s.ac.supervisor) (hb : b.toNat = target.num)
    (ht : target ≠ p) (hf : (s.plu.get target).fenced = false) : takeFence p b s = carryOutFence p target s := by
  simp [takeFence, asSupervisor, hb, hf, ← hp, ht]

/-! ### The frames -/

/-- PORT RESET at an open port (R175). -/
theorem exec_portReset_open {p : Port} {n : Nat} {s : State} (h : openPort p s = true) (hn : 1 ≤ n) :
    exec (.portReset p n) s = .next (endAccepted p s [] n (portResetEffect p s)) :=
  congrArg Host.Outcome.next (onFrame_open h hn fun t => ([], portResetEffect p t))

/-- FENCE by a free supervisor port of another port, which is not fenced: the lease engine carries it out at once. -/
theorem exec_fence_free {p target : Port} {b : Byte} {n : Nat} {s : State} (h : freePort p s = true)
    (hp : p = s.ac.supervisor) (hn : 3 ≤ n) (hb : b.toNat = target.num) (ht : target ≠ p)
    (hf : (s.plu.get target).fenced = false) :
    exec (.fence p b n) s = .next (endAccepted p s [] n (carryOutFence p target (takenByLe p 0x66#8 s))) :=
  slotFrame_takenByLe h hn (by omega) rfl (takeFence_valid hp hb ht (by rwa [takenByLe_plu_ne _ _ ht]))

/-- Settles O14: the equivalence for ATTN, and each reset's rule for the mask, which the end of the frame keeps. -/
theorem attnFollowsTheEnabledCauses : Obligations.AttnFollowsTheEnabledCauses := by
  refine ⟨attn_iff, fun p s => ⟨_, rfl, deviceReset_mask p s⟩, fun p n s h hn => ?_,
    fun p target b n s h hp hn hb ht hf => ?_⟩
  · have k := SameMasks.endAccepted p s [] n (portResetEffect p s)
    exact ⟨_, exec_portReset_open h hn, (k.mask p).trans (portResetEffect_mask p s)⟩
  · have k := SameMasks.endAccepted p s [] n (carryOutFence p target (takenByLe p 0x66#8 s))
    obtain ⟨hmask, hfenced⟩ := carryOutFence_target p target (takenByLe p 0x66#8 s)
    exact ⟨_, exec_fence_free h hp hn hb ht hf, (k.mask target).trans hmask, (k.fenced target).trans hfenced⟩

end Machine

end Sys2Proof
end

section
/-! SUPPORT. What every command keeps (O2, O55, O56, O59): the relation Sound, one rule per kind of event. -/

namespace Sys2Proof.Machine

/-! ### The invariants, port by port -/

/-- A port of a state is closed and idle as the invariant asks: its slot is IDLE, or the device is READY and the port not
fenced. -/
theorem closedIdle_iff (s : State) : closedIdle s = true ↔
    ∀ p, (s.plu.get p).slot = .idle ∨ s.device = .ready ∧ (s.plu.get p).fenced = false := by
  simp only [closedIdle, List.all_eq_true, Bool.or_eq_true, Bool.and_eq_true, decide_eq_true_eq, Bool.not_eq_true']
  exact ⟨fun h p => h p (Port.mem_all p), fun h p _ => h p⟩

theorem noticesSound_iff (s : State) : noticesSound s = true ↔ ∀ p, (s.nu.get p).sound = true := by
  simp only [noticesSound, List.all_eq_true]
  exact ⟨fun h p => h p (Port.mem_all p), fun h p _ => h p⟩

theorem stagingSound_iff (s : State) : stagingSound s = true ↔ ∀ p, (s.pwu.get p).slotsSound = true := by
  simp only [stagingSound, List.all_eq_true]
  exact ⟨fun h p => h p (Port.mem_all p), fun h p _ => h p⟩

theorem arraySound_iff (s : State) :
    arraySound s = true ↔ Memory.wf s.me.array = true ∧ copyInBlock s.me = true := by
  simp only [arraySound, Bool.and_eq_true]

/-- The five invariants of the queues, the slots and the array, kept from one state to another, with the commands that
wait. -/
structure Sound (s t : State) : Prop where
  pending : t.pending = s.pending
  notices : noticesSound s = true → noticesSound t = true
  staging : stagingSound s = true → stagingSound t = true
  array : arraySound s = true → arraySound t = true
  spares : sparesSound s = true → sparesSound t = true
  closed : closedIdle s = true → closedIdle t = true

namespace Sound

theorem refl (s : State) : Sound s s := ⟨rfl, id, id, id, id, id⟩

theorem trans {s t u : State} (h : Sound s t) (k : Sound t u) : Sound s u :=
  ⟨k.pending.trans h.pending, k.notices ∘ h.notices, k.staging ∘ h.staging, k.array ∘ h.array, k.spares ∘ h.spares,
    k.closed ∘ h.closed⟩

theorem ite {c : Prop} [Decidable c] {s t u : State} (h : c → Sound s t) (k : ¬ c → Sound s u) :
    Sound s (if c then t else u) := by
  split
  case isTrue hc => exact h hc
  case isFalse hc => exact k hc

/-- An operation of the blocks keeps the five. -/
theorem ofStill {s t : State} (h : Still s t) : Sound s t where
  pending := h.pending
  notices a := (noticesSound_iff t).mpr fun q => h.sound q ((noticesSound_iff s).mp a q)
  staging a := (stagingSound_iff t).mpr fun q => h.slots q ((stagingSound_iff s).mp a q)
  array a := by
    rw [arraySound_iff] at a ⊢
    exact ⟨h.array ▸ a.1, h.copy a.2⟩
  spares := h.spares
  closed a := by
    rw [closedIdle_iff] at a ⊢
    intro q
    rcases a q with hi | ⟨hd, hf⟩
    · exact .inl (h.idle q hi)
    · rcases ht : (t.plu.get q).fenced with _ | _
      · exact .inr ⟨h.device.trans hd, rfl⟩
      · exact .inl ((h.fenced q ht).resolve_left (by simp [hf]))

theorem ofKeeps {s t : State} (h : Keeps s t) : Sound s t := ofStill h.toStill

/-- The five are read from the parts that these operations leave alone. -/
theorem modLe {f : LeaseEngine → LeaseEngine} {s : State} : Sound s (s.modLe f) := ⟨rfl, id, id, id, id, id⟩

/-! ### Frames (R163 to R167) -/

theorem rejectFrame (p : Port) (r : RejectReason) (len : Nat) (s : State) : Sound s (Machine.rejectFrame p r len s) :=
  ofKeeps (Keeps.modPlu_same (fun _ => rfl) (fun _ => rfl))

theorem endAccepted (p : Port) (b : State) (l : List Byte) (len : Nat) (s : State) :
    Sound s (Machine.endAccepted p b l len s) :=
  ofKeeps (Keeps.modPlu_same (fun _ => rfl) (fun _ => rfl))

/-- A frame keeps what its effect keeps. -/
theorem onFrame {p : Port} {len : Nat} {check : Option RejectReason} {effect : State → List Byte × State} {s : State}
    (h : check = none → Sound s (effect s).2) : Sound s (Machine.onFrame p len check effect s) := by
  unfold Machine.onFrame
  refine ite (fun _ => ?_) (fun _ => refl s)
  split
  · exact rejectFrame ..
  · exact (h rfl).trans (endAccepted ..)

/-- A slot command is accepted only at a port that is not closed, and so its slot may leave IDLE (R165). -/
theorem accept {p : Port} {op : Byte} {c : SlotCommand} {s : State} (h : portCloses p s = none) :
    Sound s (s.modPlu p (fun u => u.accept op c)) where
  pending := rfl
  notices := id
  staging := id
  array := id
  spares := id
  closed a := by
    rw [closedIdle_iff] at a ⊢
    intro q
    have hopen : s.device = .ready ∧ (s.plu.get p).fenced = false := by
      simp only [portCloses] at h
      split at h
      · cases h
      · split at h
        · cases h
        · rename_i hd hf
          exact ⟨by cases hs : s.device <;> simp_all, by simpa using hf⟩
    rcases eq_or_ne q p with rfl | hq
    · exact .inr ⟨hopen.1, by simpa [Plu.accept] using hopen.2⟩
    · simpa [PortMap.get_modify_ne _ _ hq] using a q

theorem slotFrame (p : Port) (op : Byte) (whole : Bool) (c : SlotCommand) (len : Nat) (s : State) :
    Sound s (Machine.slotFrame p op whole c len s) := by
  refine onFrame fun h => ?_
  have hc : portCloses p s = none := by
    unfold slotCheck at h
    split at h
    · cases h
    · assumption
  exact (accept hc).trans (ofStill (Still.passCommand p _))

theorem cancelEffect (p : Port) (s : State) : Sound s (Machine.cancelEffect p s) := by
  unfold Machine.cancelEffect
  split
  · exact ofStill (Still.handRequest ..)
  · exact ofKeeps (Keeps.modNu id)
  · exact refl s
  · exact refl s

theorem portResetEffect (p : Port) (s : State) : Sound s (Machine.portResetEffect p s) := by
  have hreset : Keeps s (s.modPlu p Plu.portReset) := Keeps.modPlu (fun _ => rfl) (fun _ => .inr rfl)
  exact ofStill ((hreset.trans (Keeps.withdrawCommand p _)).toStill.trans
    ((Still.handRequest ..).trans Keeps.modTeardown.toStill))

/-! ### Teardowns (R176) -/

theorem modMe_teardown (p : Port) (s : State) : Keeps s (s.modMe (MediaEngine.teardown p)) := by
  refine Keeps.modMe rfl (fun h => ?_) (fun h => ?_)
  · cases hr : s.me.running with
    | none => simp [copyInBlock, MediaEngine.teardown, hr]
    | some r => cases r <;> simp_all [copyInBlock, MediaEngine.teardown, Running.tornDown]
  · cases hr : s.me.running with
    | none => simp_all [sparesSound, sparesOnce, targetInPool, MediaEngine.teardown]
    | some r => cases r <;> simp_all [sparesSound, sparesOnce, targetInPool, MediaEngine.teardown, Running.tornDown]

theorem withdrawJobs (p : Port) (s : State) : Keeps s (Machine.withdrawJobs p s) :=
  Keeps.ite (Keeps.refl s) (modMe_teardown p s)

theorem takePwuTeardown (p : Port) (s : State) : Sound s (Machine.takePwuTeardown p s) := by
  have hunit : ∀ t : State, Keeps t (t.modPwu p WriteUnit.teardown) := fun t =>
    Keeps.modPwu_fewer fun u => List.filter_sublist
  exact ofStill (((withdrawJobs p s).trans (Keeps.modTeardown.trans ((hunit _).trans
    ((Keeps.dropHold p _).trans (Keeps.finishFences _))))).toStill.trans (Still.passCommand p _))

theorem takeMeTeardown (p : Port) (s : State) : Sound s (Machine.takeMeTeardown p s) :=
  ofKeeps (Keeps.modTeardown.trans ((modMe_teardown p _).trans (Keeps.finishFences _)))

theorem takeNuTeardown (p : Port) (s : State) : Sound s (Machine.takeNuTeardown p s) :=
  ofStill (((Keeps.cancelHeld p s).trans Keeps.modTeardown).toStill.trans ((Still.noticeTeardown p _).trans
    ((Keeps.finishFences _).toStill.trans (Still.passCommand p _))))

theorem takeSwbTeardown (p : Port) (s : State) : Sound s (Machine.takeSwbTeardown p s) :=
  ofStill ((Keeps.modTeardown.trans (Keeps.finishFences _)).toStill.trans (Still.passCommand p _))

theorem ifTeardown {b : Bool} {f : State → State} (h : ∀ s, Sound s (f s)) (s : State) :
    Sound s (Machine.ifTeardown b f s) := ite (fun _ => h s) (fun _ => refl s)

theorem fetchNoticeEffect (p : Port) (s : State) : Sound s (Machine.fetchNoticeEffect p s).2 := by
  have hbefore : Sound s (if (s.teardown.get p).nu then Machine.takeNuTeardown p s else Machine.cancelHeld p s) :=
    ite (fun _ => takeNuTeardown p s) (fun _ => ofKeeps (Keeps.cancelHeld p s))
  exact hbefore.trans (ofStill ((Still.takeFetchNotice p _).trans (Still.goOn _)))

/-! ### The engines' own events (R24, R64, R82) -/

theorem rotationExpiry (s : State) : Sound s (Machine.rotationExpiry s) :=
  ite (fun _ => modLe.trans (ofKeeps Keeps.modEu)) (fun _ => refl s)

theorem takeSweep (s : State) : Sound s (Machine.takeSweep s) :=
  ite (fun _ => refl s) (fun _ => modLe.trans (ofStill ((Keeps.sweepLeases _).toStill.trans (Still.serveWaiting _))))

theorem waitDeadline (p : Port) (s : State) : Sound s (Machine.waitDeadline p s) := by
  unfold Machine.waitDeadline
  split
  · exact ofStill ((Still.handOnce ..).trans (Still.serveWaiting _))
  · exact refl s

theorem issueEnded (p : Port) (n : Nat) (s : State) : Still s (Machine.issueEnded p n s) := by
  unfold Machine.issueEnded
  split
  · exact Still.refl s
  · exact Still.ite ((Still.handOnce ..).trans (Still.serveWaiting _)) (Keeps.issueJob ..).toStill

theorem holdDeadline (p : Port) (s : State) : Sound s (Machine.holdDeadline p s) := by
  unfold Machine.holdDeadline
  split
  · exact ofStill (((Keeps.dropHold p s).trans (Keeps.endHold ..)).toStill.trans (issueEnded ..))
  · exact refl s

theorem takeWaiting (p : Port) (k : LeRequest → Bool) (s : State) : Sound s (Machine.takeWaiting p k s) :=
  ite (fun _ => ofStill (Still.serveWaiting s)) (fun _ => refl s)

theorem jobIssue (p : Port) (s : State) : Sound s (Machine.jobIssue p s) := by
  unfold Machine.jobIssue
  split
  · exact refl s
  · split
    · exact ite (fun _ => refl s) fun _ => ite (fun _ => ofStill ((Still.handOnce ..).trans (Still.serveWaiting _)))
        (fun _ => ofKeeps (Keeps.holdOrIssue ..))
    · exact ofStill (Still.serveWaiting s)
    · exact refl s
    · exact refl s

end Sound

end Sys2Proof.Machine
end

section
/-! SUPPORT. The array's outcomes and the device reset keep the invariants: arrays and spares (R101, R104, R115), and then
every command (O55, O56, O59). -/

namespace Sys2Proof.Machine

theorem CandidateOnly.running {s t : State} (h : CandidateOnly s t) : t.me.running = s.me.running := by rw [h.me]

theorem CandidateOnly.countEvent (e : CounterEvent) (a : Option Port) (s : State) :
    CandidateOnly s (Machine.countEvent e a s) := ⟨rfl, rfl⟩

/-- Counting and raising leave the media engine as it is but for its queue, latch and SPARES_OUT marker. -/
theorem CandidateOnly.readEvents (o : JobOwner) (k : Bool) (l : List Nat) (b : Nat) (s : State) :
    CandidateOnly s (Machine.readEvents o k l b s) := by
  unfold Machine.readEvents
  exact ite ((countEvent _ _ s).trans ((countEvent _ _ _).trans (raiseOnce _ _ _))) (countEvent _ _ s)

theorem Keeps.readEvents (o : JobOwner) (k : Bool) (l : List Nat) (b : Nat) (s : State) :
    Keeps s (Machine.readEvents o k l b s) :=
  Keeps.ite ((Keeps.countEvent _ _ s).trans ((Keeps.countEvent _ _ _).trans (Keeps.raiseOnce _ _ _)))
    (Keeps.countEvent _ _ s)

/-- A sector delivered changes its issuer's read buffer only. -/
theorem deliverSector_eq (o : JobOwner) (n : Nat) (data : SectorData) (s : State) :
    deliverSector o n data s = s ∨ ∃ r : Range, deliverSector o n data s = s.modPlu o.issuer (fun u =>
      if u.holdsCommand o.serial then { u with buffer := u.buffer.set (n - r.first) data } else u) := by
  unfold deliverSector
  split
  · split
    · exact .inr ⟨_, rfl⟩
    · exact .inl rfl
  · exact .inl rfl

theorem CandidateOnly.deliverSector (o : JobOwner) (n : Nat) (data : SectorData) (s : State) :
    CandidateOnly s (Machine.deliverSector o n data s) := by
  rcases deliverSector_eq o n data s with h | ⟨r, h⟩ <;> rw [h]
  · exact refl s
  · exact ⟨rfl, rfl⟩

theorem Keeps.deliverSector (o : JobOwner) (n : Nat) (data : SectorData) (s : State) :
    Keeps s (Machine.deliverSector o n data s) := by
  rcases deliverSector_eq o n data s with h | ⟨r, h⟩ <;> rw [h]
  · exact Keeps.refl s
  · exact Keeps.modPlu_same (fun _ => by split <;> rfl) (fun _ => by split <;> rfl)

namespace Sound

/-! ### The running job goes on -/

/-- A port's job goes on: it is no relocation, and a job was running. -/
theorem setRunning_port {r : Running} {s : State} (h : s.me.running ≠ none)
    (hr : ∀ b t st, r ≠ .relocate b t st) : Sound s (setRunning r s) where
  pending := rfl
  notices := id
  staging := id
  closed := id
  array a := by
    rw [arraySound_iff] at a ⊢
    refine ⟨a.1, ?_⟩
    cases r <;> simp_all [setRunning, copyInBlock]
  spares a := by
    obtain ⟨hd, ho, -⟩ := sparesSound_running a h
    have ht : targetInPool (setRunning r s).me = true := by cases r <;> simp_all [setRunning, targetInPool]
    simp only [sparesSound, show (setRunning r s).device = .ready from hd, ht, Bool.and_true]
    exact ho

/-- A relocation goes on with its target, at an index inside the block. -/
theorem setRunning_relocate {b t : Nat} {st st' : RelocateStep} {s : State}
    (h : s.me.running = some (.relocate b t st))
    (hi : copyInBlock s.me = true → copyInBlock { s.me with running := some (.relocate b t st') } = true) :
    Sound s (setRunning (.relocate b t st') s) where
  pending := rfl
  notices := id
  staging := id
  closed := id
  array a := by
    rw [arraySound_iff] at a ⊢
    exact ⟨a.1, hi a.2⟩
  spares a := by
    obtain ⟨hd, ho, ht⟩ := sparesSound_running a (by simp [h])
    have ht' : targetInPool (setRunning (.relocate b t st') s).me = true := by
      simpa [targetInPool, h, setRunning] using ht
    simp only [sparesSound, show (setRunning (.relocate b t st') s).device = .ready from hd, ht', Bool.and_true]
    exact ho

/-- A relocation ends behind a change of the three sets of spares that keeps each spare in one. -/
theorem endRelocate {k : MediaKind} {b : Nat} {f : MediaEngine → MediaEngine} {s u : State}
    (ha : (f s.me).array = s.me.array) (hr : (f s.me).running = s.me.running)
    (hs : sparesSound s = true → s.device = .ready ∧ sparesOnce (f s.me) = true)
    (hk : Keeps (s.modMe f) u) (hc : CandidateOnly (s.modMe f) u) : Sound s (Machine.endRelocate k b u) := by
  have he : Sound (s.modMe f) (Machine.endRelocate k b u) := ofKeeps (hk.trans (Keeps.endRelocate k b u))
  refine ⟨he.pending, he.notices, he.staging, fun a => he.array ?_, fun a => ?_, he.closed⟩
  · simpa [arraySound, ha, copyInBlock, hr] using a
  · obtain ⟨hd, ho⟩ := hs a
    exact endRelocate_spares k b (hc.device.trans hd) (hc.sparesOnce.trans ho)

/-! ### The array (R101) -/

/-- The physical sectors of the array: 32 in each of the 1041 blocks. -/
theorem physicalSector_bound {block index : Nat} (hb : inArray block = true) (hi : index < 32) :
    physicalSector block index * 512 + 512 ≤ arrayBytes := by
  have hblock : block < 1041 := of_decide_eq_true hb
  simp only [physicalSector, arrayBytes, Config.physicalBlocks, Config.blockSectors, Config.sectorBytes]
  omega

/-- A program in the array keeps the form of its bytes. -/
theorem programOk {block index : Nat} {data : SectorData} {g : MediaEngine → Nat} {s : State}
    (hg : g s.me = physicalSector block index) (hb : inArray block = true)
    (hi : copyInBlock s.me = true → index < 32) :
    Sound s (s.modMe (fun m => m.programOk (g m) data)) where
  pending := rfl
  notices := id
  staging := id
  closed := id
  spares := id
  array a := by
    rw [arraySound_iff] at a ⊢
    obtain ⟨hw, hcopy⟩ := a
    refine ⟨wf_write hw ?_, hcopy⟩
    have hlen : (data.take Config.sectorBytes).length ≤ 512 := List.length_take_le ..
    have hbound := physicalSector_bound hb (hi hcopy)
    rw [hg]
    exact le_trans (Nat.add_le_add_left hlen _) hbound

/-- So does a clear. -/
theorem clearOk {g : MediaEngine → Nat} {s : State} : Sound s (s.modMe (fun m => m.clearOk (g m))) where
  pending := rfl
  notices := id
  staging := id
  closed := id
  spares := id
  array a := by
    rw [arraySound_iff] at a ⊢
    exact ⟨wf_clear _ _ a.1, a.2⟩

/-! ### READ jobs (R110) -/

theorem endRead (o : JobOwner) (k : Bool) (f : Option Nat) (s : State) : Keeps s (Machine.endRead o k f s) := by
  unfold Machine.endRead
  refine Keeps.trans ?_ (Keeps.endRunning _)
  split
  · split
    · exact (Keeps.setCommand ..).trans (Keeps.completeRead ..)
    · exact Keeps.refl s
  · exact Keeps.refl s

theorem readSectorOutcome (out : ReadOutcome) (s : State) : Sound s (Machine.readSectorOutcome out s) := by
  unfold Machine.readSectorOutcome
  split
  · rename_i o n todo d k raised hr
    dsimp only
    split
    · exact refl s
    · exact ofKeeps (endRead ..)
    · rename_i eff _ _
      have hk := (Keeps.deliverSector o n (readSectorData s.me.array (servingSector s.me n)) s).trans
        (Keeps.readEvents o (decide (eff = .corrected)) raised (blockOf n) _)
      have hc := (CandidateOnly.deliverSector o n (readSectorData s.me.array (servingSector s.me n)) s).trans
        (CandidateOnly.readEvents o (decide (eff = .corrected)) raised (blockOf n) _)
      refine ite (fun _ => ofKeeps (hk.trans (endRead ..))) fun _ => ?_
      exact (ofKeeps hk).trans (setRunning_port (by rw [hc.running, hr]; simp) (by simp))
  · exact refl s

/-! ### DRAIN jobs (R111, R112) -/

theorem programEnds (o : JobOwner) (n : Nat) (s : State) : Keeps s (Machine.programEnds o n s) := by
  rw [programEnds_eq]
  exact Keeps.modPwu_fewer fun u => List.filter_sublist

theorem endDrain (o : JobOwner) (done : List Nat) (f : Option Nat) (s : State) : Still s (Machine.endDrain o done f s) := by
  unfold Machine.endDrain
  exact (Keeps.ite (Keeps.refl s) (Keeps.committedEvent ..)).toStill.trans
    ((Still.handRequest ..).trans (Keeps.endRunning _).toStill)

/-- A program's part of the array, with what it counts or raises; the running job is the same. -/
theorem programResult {o : JobOwner} {x : SectorItem} {raised : List Nat} {out : OpOutcome} {s : State}
    (hb : inArray (servingBlock s.me (blockOf x.sector)) = true) :
    Sound s (Machine.programResult o x raised out s) ∧
      (Machine.programResult o x raised out s).me.running = s.me.running := by
  cases out with
  | ok =>
    have hi : copyInBlock s.me = true → indexOf x.sector < 32 := fun _ => Nat.mod_lt _ (by decide)
    exact ⟨(programOk rfl hb hi).trans (ofKeeps (Keeps.countEvent ..)), rfl⟩
  | fault => exact ⟨ofKeeps (Keeps.raiseOnce ..), (CandidateOnly.raiseOnce ..).running⟩

theorem programSectorOutcome (out : OpOutcome) {s : State} (h : operationInArray s = true) :
    Sound s (Machine.programSectorOutcome out s) := by
  unfold Machine.programSectorOutcome
  split
  · rename_i o x todo done f raised hr
    have hb : inArray (servingBlock s.me (blockOf x.sector)) = true := by
      simpa [operationInArray, operationBlock, hr] using h
    obtain ⟨hp, hrun⟩ := programResult (o := o) (x := x) (raised := raised) (out := out) hb
    have hs := hp.trans (ofKeeps (programEnds o x.sector _))
    refine ite (fun _ => hs.trans (ofStill (endDrain ..))) fun _ => hs.trans (setRunning_port ?_ (by simp))
    rw [programEnds_eq, State.modPwu_me, hrun, hr]
    simp
  · exact refl s

/-! ### CLEAR and META jobs (R113, R114) -/

theorem endClear (o : JobOwner) (done : List Nat) (f : Option Nat) (s : State) : Keeps s (Machine.endClear o done f s) := by
  unfold Machine.endClear
  cases clearedRange done
  case' some r => refine (Keeps.clearedEvent o.issuer r s).trans ?_
  all_goals
    refine Keeps.trans ?_ (Keeps.endRunning _)
    split
    · split
      · exact (Keeps.setCommand ..).trans (Keeps.complete ..)
      · exact Keeps.refl _
    · exact Keeps.refl _

theorem clearBlockOutcome (out : OpOutcome) (s : State) : Sound s (Machine.clearBlockOutcome out s) := by
  unfold Machine.clearBlockOutcome
  split
  · rename_i o b todo done raised hr
    cases out with
    | ok =>
      exact ite (fun _ => clearOk.trans (ofKeeps (endClear ..)))
        fun _ => clearOk.trans (setRunning_port (by simp [MediaEngine.clearOk, hr]) (by simp))
    | fault => exact ofKeeps ((Keeps.raiseOnce ..).trans (endClear ..))
  · exact refl s

theorem recordResult (r : MetaRecord) (out : OpOutcome) (s : State) : Keeps s (Machine.recordResult r out s) := by
  cases out with
  | ok =>
    have hm : Keeps s (s.modMe (fun m => m.recordOk r)) := Keeps.modMe_same rfl rfl rfl rfl rfl
    exact hm.trans (Keeps.modAc (f := fun a => { a with metaInvalid := false, metaFault := false }))
  | fault => exact Keeps.modAc (f := fun a => { a with metaFault := true })

theorem metaProgramOutcome (out : OpOutcome) (s : State) : Sound s (Machine.metaProgramOutcome out s) := by
  unfold Machine.metaProgramOutcome
  split
  · rename_i o r _
    refine ofKeeps ((recordResult r out s).trans (Keeps.trans ?_ (Keeps.endRunning _)))
    split
    · exact (Keeps.setCommand ..).trans (Keeps.complete ..)
    · exact Keeps.refl _
  · exact refl s

/-! ### RELOCATE jobs (R118 to R122) -/

/-- The target of a running relocation is in the pool of a sound state. -/
theorem target_mem_pool {b t : Nat} {st : RelocateStep} {s : State} (h : s.me.running = some (.relocate b t st))
    (a : sparesSound s = true) : s.device = .ready ∧ sparesOnce s.me = true ∧ t ∈ s.me.pool := by
  obtain ⟨hd, ho, ht⟩ := sparesSound_running a (by simp [h])
  exact ⟨hd, ho, by simpa [targetInPool, h] using ht⟩

/-- A relocation that fails with its target retired (R118, R119). -/
theorem relocateFails {b t : Nat} {st : RelocateStep} {s : State} (h : s.me.running = some (.relocate b t st)) :
    Sound s (Machine.endRelocate .relocateFailed b (retireSpare t s)) := by
  refine endRelocate rfl rfl (fun a => ?_) (Keeps.refl _) (CandidateOnly.refl _)
  obtain ⟨hd, ho, ht⟩ := target_mem_pool h a
  exact ⟨hd, sparesOnce_retire ho ht⟩

theorem relocateSpareClear (out : OpOutcome) (s : State) : Sound s (Machine.relocateSpareClear out s) := by
  unfold Machine.relocateSpareClear
  split
  · rename_i b t hr
    cases out with
    | ok =>
      exact clearOk.trans (setRunning_relocate (by simpa [MediaEngine.clearOk] using hr)
        (fun _ => by simp [copyInBlock, Config.blockSectors]))
    | fault => exact relocateFails hr
  · exact refl s

theorem relocateCopyRead (out : ReadOutcome) (s : State) : Sound s (Machine.relocateCopyRead out s) := by
  unfold Machine.relocateCopyRead
  split
  · rename_i b t i hr
    dsimp only
    split
    · exact refl s
    · exact ofKeeps (Keeps.endRelocate ..)
    · exact setRunning_relocate hr (fun a => by simpa [copyInBlock, hr] using a)
  · exact refl s

/-- The step after a copy has its index inside the block. -/
theorem stepAfterCopy_inBlock (b t i : Nat) (s u : State) :
    copyInBlock { u.me with running := some (.relocate b t (stepAfterCopy b t i s)) } = true := by
  unfold stepAfterCopy
  split
  case isTrue hi => simpa [copyInBlock] using hi
  case isFalse => rfl

theorem relocateCopyProgram (out : OpOutcome) {s : State} (h : operationInArray s = true) :
    Sound s (Machine.relocateCopyProgram out s) := by
  unfold Machine.relocateCopyProgram
  split
  · rename_i b t i data hr
    have hb : inArray t = true := by simpa [operationInArray, operationBlock, hr] using h
    cases out with
    | ok =>
      have hi : copyInBlock s.me = true → i < 32 := fun a => by
        simp only [copyInBlock, hr, decide_eq_true_eq] at a
        exact a
      exact (programOk (g := fun _ => physicalSector t i) rfl hb hi).trans
        (setRunning_relocate (by simpa [MediaEngine.programOk] using hr) (fun _ => stepAfterCopy_inBlock ..))
    | fault => exact relocateFails hr
  · exact refl s

theorem relocateMetadata (out : OpOutcome) (s : State) : Sound s (Machine.relocateMetadata out s) := by
  unfold Machine.relocateMetadata
  split
  · rename_i b t r hr
    cases out with
    | ok =>
      refine (ofKeeps (recordResult r .ok s)).trans ?_
      refine endRelocate rfl rfl (fun a => ?_) (Keeps.countEvent ..) (CandidateOnly.countEvent ..)
      obtain ⟨hd, ho, ht⟩ := target_mem_pool (s := Machine.recordResult r .ok s) hr a
      exact ⟨hd, sparesOnce_switch ho ht⟩
    | fault => exact ofKeeps ((recordResult r .fault s).trans (Keeps.endRelocate ..))
  · exact refl s

/-! ### Device reset and load (R10 to R12) -/

theorem deviceReset (s : State) : Sound s (Machine.deviceReset s) where
  pending := rfl
  notices _ := (noticesSound_iff _).mpr fun q => by cases q <;> rfl
  staging _ := (stagingSound_iff _).mpr fun q => by cases q <;> rfl
  array a := by
    rw [arraySound_iff] at a ⊢
    exact ⟨a.1, rfl⟩
  spares _ := rfl
  closed _ := (closedIdle_iff _).mpr fun q => .inl (by cases q <;> rfl)

/-- The record that the load ends with accounts for every spare. -/
theorem loadedRecord_spares (s : State) : sparesValid (loadedRecord s).remap (loadedRecord s).retired = true := by
  unfold loadedRecord
  cases h : acceptedRecord s with
  | none => rfl
  | some r =>
    have hv : recordValid r = true := by
      unfold acceptedRecord at h
      split at h
      · cases h
      · exact (Option.filter_eq_some_iff.mp h).2
    simp only [recordValid, Bool.and_eq_true] at hv
    exact hv.2

theorem endLoad {s : State} (h : s.device = .starting) : Sound s (Machine.endLoad s) where
  pending := rfl
  notices := id
  staging := id
  array := id
  spares a := by
    have hr : s.me.running = none := by simpa [sparesSound, h] using a
    have ho := sparesOnce_load (m := s.me) (loadedRecord_spares s)
    have ht : targetInPool (Machine.endLoad s).me = true := by
      unfold targetInPool
      rw [show (Machine.endLoad s).me.running = none from hr]
    exact (Bool.and_eq_true ..).mpr ⟨ho, ht⟩
  closed a := by
    rw [closedIdle_iff] at a ⊢
    exact fun q => .inl ((a q).resolve_right (by simp [h]))

theorem endLoadIfDone (s : State) : Sound s (Machine.endLoadIfDone s) :=
  ite (fun h => endLoad h.1) (fun _ => refl s)

theorem loadRead (o : ReadOutcome) (s : State) : Sound s (Machine.loadRead o s) := by
  unfold Machine.loadRead
  refine ite (fun _ => ?_) (fun _ => refl s)
  split
  · exact refl s
  · exact (ofKeeps (Keeps.modMe_same rfl rfl rfl rfl rfl)).trans (endLoadIfDone _)

theorem releaseRst (v : BitVec 2) (s : State) : Sound s (Machine.releaseRst v s) :=
  ite (fun _ => trans (t := { s with rstHeld := false, supsel := Port.ofPins v }) ⟨rfl, id, id, id, id, id⟩ (endLoadIfDone _))
    (fun _ => refl s)

/-! ### Every command -/

theorem resultEffect (p : Port) (s : State) : Sound s (Machine.resultEffect p s).2 :=
  ofKeeps (Keeps.modPlu_same (f := fun u => { u with resultReady := false }) (fun _ => rfl) (fun _ => rfl))

/-- An outcome keeps the invariants when it stops the machine or gives a next state that keeps them. -/
theorem of_next {s t u : State} (h : Sound s u) (e : (Host.Outcome.next u : Outcome) = .next t) : Sound s t := by
  cases e
  exact h

theorem of_arrayOutcome {f : State → State} {s t : State} (h : operationInArray s = true → Sound s (f s))
    (e : arrayOutcome f s = .next t) : Sound s t := by
  unfold arrayOutcome at e
  split at e
  case isTrue hin => exact of_next (h hin) e
  case isFalse => cases e

/-- Every command keeps the invariants. -/
theorem exec {i : Instr} {s t : State} (e : Machine.exec i s = .next t) : Sound s t := by
  cases i with
  | deviceReset => exact of_next (deviceReset s) e
  | metadataLoadReadOutcome o => exact of_next (loadRead o s) e
  | rotationExpiry => exact of_next (rotationExpiry s) e
  | sweep => exact of_next (takeSweep s) e
  | waitDeadlineExpiry p => exact of_next (waitDeadline p s) e
  | holdDeadlineExpiry p => exact of_next (holdDeadline p s) e
  | status p n => exact of_next (onFrame fun _ => refl s) e
  | result p n => exact of_next (onFrame fun _ => resultEffect p s) e
  | fetchData p n => exact of_next (onFrame fun _ => refl s) e
  | fetchNotice p n => exact of_next (onFrame fun _ => fetchNoticeEffect p s) e
  | cancel p n => exact of_next (onFrame fun _ => cancelEffect p s) e
  | cancelParked p => exact of_next (takeWaiting p _ s) e
  | cancelHeld p => exact of_next (ofKeeps (Keeps.cancelHeld p s)) e
  | portReset p n => exact of_next (onFrame fun _ => portResetEffect p s) e
  | unknownOpcodeFrame p op n => exact of_next (onFrame fun _ => refl s) e
  | leTeardown p => exact of_next (takeWaiting p _ s) e
  | pwuTeardown p => exact of_next (ifTeardown (takePwuTeardown p) s) e
  | meTeardown p => exact of_next (ifTeardown (takeMeTeardown p) s) e
  | nuTeardown p => exact of_next (ifTeardown (takeNuTeardown p) s) e
  | swbTeardown p => exact of_next (ifTeardown (takeSwbTeardown p) s) e
  | jobIssue p => exact of_next (jobIssue p s) e
  | readSectorOutcome o => exact of_arrayOutcome (fun _ => readSectorOutcome o s) e
  | programSectorOutcome o => exact of_arrayOutcome (programSectorOutcome o) e
  | drainEndReport p => exact of_next (takeWaiting p _ s) e
  | clearBlockOutcome o => exact of_arrayOutcome (fun _ => clearBlockOutcome o s) e
  | metaProgramOutcome o => exact of_arrayOutcome (fun _ => metaProgramOutcome o s) e
  | relocateSpareClearOutcome o => exact of_arrayOutcome (fun _ => relocateSpareClear o s) e
  | relocateCopyReadOutcome o => exact of_arrayOutcome (fun _ => relocateCopyRead o s) e
  | relocateCopyProgramOutcome o => exact of_arrayOutcome (relocateCopyProgram o) e
  | relocateMetadataOutcome o => exact of_arrayOutcome (fun _ => relocateMetadata o s) e
  | endOfDeviceReset v => exact of_next (releaseRst v s) e
  | _ => exact of_next (slotFrame ..) e

/-- So does every step, from the state without the command it takes. -/
theorem step {s t : State} (e : Machine.step s = .next t) : ∃ l, Sound { s with pending := l } t := by
  unfold Machine.step at e
  split at e
  · cases e
    exact ⟨s.pending, refl s⟩
  · rename_i rest _
    exact ⟨rest, exec e⟩

end Sound

/-- Settles O2: among what every command keeps. -/
theorem execLeavesQueue : Obligations.ExecLeavesQueue := fun _ _ _ e => (Sound.exec e).pending

/-- Settles O55: both parts are among the invariants that every step keeps. -/
theorem stepKeepsTheArrayCanonical : Obligations.StepKeepsTheArrayCanonical := by
  refine ⟨fun s t h e => ?_, fun s t h e => ?_⟩ <;> obtain ⟨l, k⟩ := Sound.step e
  · exact k.array h
  · exact k.spares h

/-- Settles O56, by the same rule of the step. -/
theorem stepKeepsTheNoticeQueuesSound : Obligations.StepKeepsTheNoticeQueuesSound := by
  refine ⟨fun s t h e => ?_, fun s t h e => ?_⟩ <;> obtain ⟨l, k⟩ := Sound.step e
  · exact k.notices h
  · exact k.staging h

/-- Settles O59, by the same rule of the step. -/
theorem stepKeepsClosedPortsIdle : Obligations.StepKeepsClosedPortsIdle := by
  intro s t h e
  obtain ⟨l, k⟩ := Sound.step e
  exact k.closed h

/-- Settles O60: the reset state's blocks are all in their reset values. -/
theorem resetSatisfiesTheInvariants : Obligations.ResetSatisfiesTheInvariants := by
  refine ⟨rfl, rfl, ?_, rfl, ?_, rfl, rfl, rfl⟩
  · decide
  · decide

end Sys2Proof.Machine
end

section
/-! SUPPORT. What the operations of the blocks do to the lease table (R20 to R22, R68): the relation Tabled. -/

namespace Sys2Proof.Machine

/-! ### The filled slots -/

/-- The leases of the filled slots, in slot order, without their ids. -/
def filled (s : State) : List Lease := s.le.table.filterMap LeaseSlot.lease

/-- The parked ACQUIREs of a queue (R22). -/
def acquires (q : List WaitEntry) : Nat := (q.filter WaitEntry.isAcquire).length

theorem leasesFrom_snd (l : List LeaseSlot) (k : Nat) : (leasesFrom k l).map Prod.snd = l.filterMap LeaseSlot.lease := by
  induction l generalizing k with
  | nil => rfl
  | cons x t ih =>
    cases hx : x.lease with
    | none => simp only [leasesFrom, hx, List.filterMap_cons]; exact ih _
    | some y => simp only [leasesFrom, hx, List.filterMap_cons, List.map_cons]; rw [ih]

theorem leases_snd (s : State) : (leases s).map Prod.snd = filled s := leasesFrom_snd _ _

theorem occupancy_eq (s : State) : occupancy s = (filled s).length + acquires s.le.queue := by
  rw [← leases_snd, List.length_map]
  rfl

theorem acquires_append (a b : List WaitEntry) : acquires (a ++ b) = acquires a + acquires b := by
  simp [acquires]

theorem acquires_single (e : WaitEntry) : acquires [e] = if e.isAcquire then 1 else 0 := by
  cases h : e.isAcquire <;> simp [acquires, h]

theorem acquires_sublist {a b : List WaitEntry} (h : a.Sublist b) : acquires a ≤ acquires b :=
  (h.filter _).length_le

/-! ### Slots changed -/

/-- A slot filled adds at most one lease. -/
theorem length_filterMap_set (l : List LeaseSlot) (i : Nat) (x : LeaseSlot) :
    ((l.set i x).filterMap LeaseSlot.lease).length ≤ (l.filterMap LeaseSlot.lease).length + 1 := by
  induction l generalizing i with
  | nil => simp
  | cons a t ih =>
    cases i with
    | zero =>
      cases hx : x.lease <;> cases ha : a.lease <;> simp [hx, ha]
      omega
    | succ j =>
      have := ih j
      cases ha : a.lease <;> simp [ha] <;> omega

/-- A change of one lease, which may take it away, adds none. -/
theorem length_filterMap_modify {l : List LeaseSlot} {i : Nat} {g : LeaseSlot → LeaseSlot}
    (h : ∀ x, x.lease = none → (g x).lease = none) :
    ((l.modify i g).filterMap LeaseSlot.lease).length ≤ (l.filterMap LeaseSlot.lease).length := by
  induction l generalizing i with
  | nil => simp
  | cons a t ih =>
    cases i with
    | zero =>
      cases ha : a.lease with
      | none => simp [ha, h a ha]
      | some y => cases hg : (g a).lease <;> simp [ha, hg]
    | succ j =>
      have := ih (i := j)
      cases ha : a.lease <;> simp [ha] <;> omega

theorem mem_modify {α : Type} {l : List α} {i : Nat} {g : α → α} {x : α} (h : x ∈ l.modify i g) :
    x ∈ l ∨ ∃ y ∈ l, x = g y := by
  obtain ⟨j, hj, rfl⟩ := List.getElem_of_mem h
  rw [List.getElem_modify]
  rw [List.length_modify] at hj
  split
  · exact .inr ⟨_, List.getElem_mem hj, rfl⟩
  · exact .inl (List.getElem_mem hj)

/-- The change that an update makes to a slot takes no empty one for a lease. -/
theorem length_filled_updateLease (id : Nat) (f : Lease → Option Lease) (s : State) :
    (filled (updateLease id f s)).length ≤ (filled s).length :=
  length_filterMap_modify fun x hx => by split <;> simp [hx]

/-- A lease behind an update is an old one or what the update makes of an old one. -/
theorem mem_filled_updateLease {id : Nat} {f : Lease → Option Lease} {s : State} {l : Lease}
    (h : l ∈ filled (updateLease id f s)) : l ∈ filled s ∨ ∃ k ∈ filled s, f k = some l := by
  obtain ⟨x, hx, hl⟩ := List.mem_filterMap.mp h
  rcases mem_modify hx with ho | ⟨y, hy, rfl⟩
  · exact .inl (List.mem_filterMap.mpr ⟨x, ho, hl⟩)
  · split at hl
    · obtain ⟨k, hk, hf⟩ := Option.bind_eq_some_iff.mp hl
      exact .inr ⟨k, List.mem_filterMap.mpr ⟨y, hy, hk⟩, hf⟩
    · exact .inl (List.mem_filterMap.mpr ⟨y, hy, hl⟩)

/-- A grant of an ACQUIRE fills one slot, or leaves a full table alone. -/
theorem fillSlot_cases (t : List LeaseSlot) (l : Lease) :
    (fillSlot t l).1 = t ∨ ∃ i tag, (fillSlot t l).1 = t.set i { tag := tag, lease := some l } := by
  unfold fillSlot
  split
  · exact .inl rfl
  · split
    · exact .inl rfl
    · exact .inr ⟨_, _, rfl⟩

/-! ### The relations -/

/-- The table keeps its slots and the epoch its value, and a lease that is HELD now was renewed just now or was HELD
before with the same stamp (R63, R70). -/
structure Aged (s t : State) : Prop where
  length : t.le.table.length = s.le.table.length
  epoch : t.eu.epoch = s.eu.epoch
  stamps : ∀ l ∈ filled t, l.state = .held →
    l.stamp = t.eu.epoch ∨ ∃ k ∈ filled s, k.state = .held ∧ k.stamp = l.stamp

/-- Aged, and the table has room for every parked ACQUIRE if it had before (R22). -/
structure Tabled (s t : State) : Prop extends Aged s t where
  room : occupancy s ≤ 64 → occupancy t ≤ 64

namespace Aged

theorem refl (s : State) : Aged s s := ⟨rfl, rfl, fun l hl hs => .inr ⟨l, hl, hs, rfl⟩⟩

theorem trans {s t u : State} (h : Aged s t) (k : Aged t u) : Aged s u where
  length := k.length.trans h.length
  epoch := k.epoch.trans h.epoch
  stamps l hl hs := by
    rcases k.stamps l hl hs with e | ⟨m, hm, hms, e⟩
    · exact .inl e
    · rcases h.stamps m hm hms with e' | ⟨n, hn, hns, e'⟩
      · exact .inl ((e.symm.trans e').trans k.epoch.symm)
      · exact .inr ⟨n, hn, hns, e'.trans e⟩

theorem ofSame {s t : State} (h : t.le.table = s.le.table) (k : t.eu.epoch = s.eu.epoch) : Aged s t :=
  ⟨by rw [h], k, fun l hl hs => .inr ⟨l, by simpa [filled, h] using hl, hs, rfl⟩⟩

/-- An update that makes a HELD lease only of one, with its stamp, or with the current epoch. -/
theorem updateLease {id : Nat} {f : Lease → Option Lease} {s : State}
    (h : ∀ k l, f k = some l → l.state = .held → k.state = .held ∧ (l.stamp = s.eu.epoch ∨ l.stamp = k.stamp)) :
    Aged s (Machine.updateLease id f s) where
  length := by simp [Machine.updateLease, tableUpdate]
  epoch := rfl
  stamps l hl hs := by
    rcases mem_filled_updateLease hl with ho | ⟨k, hk, hf⟩
    · exact .inr ⟨l, ho, hs, rfl⟩
    · obtain ⟨hks, e | e⟩ := h k l hf hs
      · exact .inl e
      · exact .inr ⟨k, hk, hks, e.symm⟩

theorem renewLease (id : Nat) (s : State) : Aged s (Machine.renewLease id s) := by
  refine updateLease fun k l hf hs => ?_
  cases hf
  split at hs <;> simp_all

theorem setLeaseMode (id : Nat) (m : LeaseMode) (s : State) : Aged s (Machine.setLeaseMode id m s) :=
  updateLease fun k l hf hs => by cases hf; exact ⟨hs, .inr rfl⟩

/-- A grant: a new lease has the current epoch for its stamp, an UPGRADE's is renewed (R26, R30). -/
theorem grant (e : WaitEntry) (s : State) : Aged s (Machine.grant e s) := by
  unfold Machine.grant
  split
  · refine ⟨?_, rfl, fun l hl hs => ?_⟩
    · rcases fillSlot_cases s.le.table (e.newLease s) with h | ⟨i, tag, h⟩
      · exact congrArg List.length h
      · exact (congrArg List.length h).trans List.length_set
    · have hl' : l ∈ (fillSlot s.le.table (e.newLease s)).1.filterMap LeaseSlot.lease := hl
      rcases fillSlot_cases s.le.table (e.newLease s) with h | ⟨i, tag, h⟩
      · exact .inr ⟨l, by rwa [h] at hl', hs, rfl⟩
      · rw [h] at hl'
        obtain ⟨x, hx, hxl⟩ := List.mem_filterMap.mp hl'
        rcases List.mem_or_eq_of_mem_set hx with ho | rfl
        · exact .inr ⟨l, List.mem_filterMap.mpr ⟨x, ho, hxl⟩, hs, rfl⟩
        · cases hxl
          exact .inl rfl
  · rename_i id _
    exact ((setLeaseMode id .exclusive s).trans (renewLease id _)).trans (ofSame rfl rfl)

theorem scanWalk (todo parked : List WaitEntry) (s : State) : Aged s (Machine.scanWalk parked todo s) := by
  induction todo generalizing parked s with
  | nil => exact ofSame rfl rfl
  | cons e t ih =>
    unfold Machine.scanWalk
    split
    · exact ih _ _
    · exact (grant e s).trans (ih _ _)

end Aged

/-! ### Room in the table (R22) -/

/-- A grant takes one slot at most, and none for an UPGRADE. -/
theorem length_filled_grant (e : WaitEntry) (s : State) : (filled (grant e s)).length ≤ (filled s).length + acquires [e] := by
  rw [acquires_single]
  cases hk : e.kind with
  | acquire =>
    simp only [grant, hk, WaitEntry.isAcquire, decide_true, if_true]
    change ((fillSlot s.le.table (e.newLease s)).1.filterMap LeaseSlot.lease).length ≤ _
    rcases fillSlot_cases s.le.table (e.newLease s) with h | ⟨i, tag, h⟩ <;> rw [h]
    · exact Nat.le_succ _
    · exact length_filterMap_set ..
  | upgrade id =>
    simp only [grant, hk]
    exact le_trans (le_trans (length_filled_updateLease id _ _) (length_filled_updateLease id _ s)) (Nat.le_add_right ..)

/-- The grant scan: each ACQUIRE granted leaves the queue, so the room that was enough stays enough (R51). -/
theorem occupancy_scanWalk (todo parked : List WaitEntry) (s : State) :
    occupancy (scanWalk parked todo s) ≤ (filled s).length + acquires (parked ++ todo) := by
  induction todo generalizing parked s with
  | nil => rw [List.append_nil, occupancy_eq]; exact le_refl _
  | cons e t ih =>
    unfold scanWalk
    split
    · simpa using ih (parked ++ [e]) s
    · have h1 := ih parked (grant e s)
      have h2 := length_filled_grant e s
      rw [acquires_append] at h1
      rw [← List.singleton_append, acquires_append, acquires_append]
      omega

namespace Tabled

theorem refl (s : State) : Tabled s s := ⟨Aged.refl s, id⟩

theorem trans {s t u : State} (h : Tabled s t) (k : Tabled t u) : Tabled s u :=
  ⟨h.toAged.trans k.toAged, k.room ∘ h.room⟩

theorem ite {c : Prop} [Decidable c] {s t u : State} (h : c → Tabled s t) (k : ¬ c → Tabled s u) :
    Tabled s (if c then t else u) := by
  split
  case isTrue hc => exact h hc
  case isFalse hc => exact k hc

/-- A fold of operations that each keep it. -/
theorem foldl {α : Type} {f : State → α → State} (h : ∀ t x, Tabled t (f t x)) (l : List α) (s : State) :
    Tabled s (l.foldl f s) := by
  induction l generalizing s with
  | nil => exact refl s
  | cons a t ih => exact (h s a).trans (ih _)

/-- The same table, the same epoch, and no entry more in the queue. -/
theorem ofFewer {s t : State} (h : t.le.table = s.le.table) (q : t.le.queue.Sublist s.le.queue)
    (k : t.eu.epoch = s.eu.epoch) : Tabled s t := by
  refine ⟨Aged.ofSame h k, fun hs => le_trans ?_ hs⟩
  rw [occupancy_eq, occupancy_eq, filled, filled, h]
  exact Nat.add_le_add_left (acquires_sublist q) _

theorem ofSame {s t : State} (h : t.le.table = s.le.table) (q : t.le.queue = s.le.queue)
    (k : t.eu.epoch = s.eu.epoch) : Tabled s t := ofFewer h (q ▸ List.Sublist.refl _) k

theorem ofLe {s t : State} (h : t.le = s.le) (k : t.eu = s.eu) : Tabled s t := ofSame (by rw [h]) (by rw [h]) (by rw [k])

theorem ofNotices {s t : State} (h : NoticesOnly s t) : Tabled s t := ofLe h.le h.eu

theorem ofCandidate {s t : State} (h : CandidateOnly s t) : Tabled s t := ofLe h.le (by rw [h.eq])

/-! ### Updates of one block -/

theorem modPlu {p : Port} {f : Plu → Plu} {s : State} : Tabled s (s.modPlu p f) := ofLe rfl rfl

theorem modPwu {p : Port} {f : WriteUnit → WriteUnit} {s : State} : Tabled s (s.modPwu p f) := ofLe rfl rfl

theorem modNu {p : Port} {f : NuPort → NuPort} {s : State} : Tabled s (s.modNu p f) := ofLe rfl rfl

theorem modTeardown {p : Port} {f : Teardowns → Teardowns} {s : State} : Tabled s (s.modTeardown p f) := ofLe rfl rfl

theorem modMe {f : MediaEngine → MediaEngine} {s : State} : Tabled s (s.modMe f) := ofLe rfl rfl

theorem modAc {f : AccessChecker → AccessChecker} {s : State} : Tabled s (s.modAc f) := ofLe rfl rfl

theorem setHoldList {l : List HoldEntry} {s : State} : Tabled s (s.setHoldList l) := ofLe rfl rfl

theorem setReleased {l : List (List (Port × Nat))} {s : State} : Tabled s (s.setReleased l) := ofLe rfl rfl

theorem setSwb {l : List Word16} {s : State} : Tabled s (s.setSwb l) := ofLe rfl rfl

/-- A change of the lease engine beside its table and its queue. -/
theorem modLe_same {f : LeaseEngine → LeaseEngine} {s : State} (h : (f s.le).table = s.le.table)
    (q : (f s.le).queue = s.le.queue) : Tabled s (s.modLe f) := ofSame h q rfl

theorem updateLease {id : Nat} {f : Lease → Option Lease} {s : State} (h : Aged s (Machine.updateLease id f s)) :
    Tabled s (Machine.updateLease id f s) := by
  refine ⟨h, fun hs => le_trans ?_ hs⟩
  rw [occupancy_eq, occupancy_eq]
  exact Nat.add_le_add_right (length_filled_updateLease id f s) _

/-! ### Completions, counters, notices -/

theorem complete (p : Port) (n : Nat) (c : Completion) (s : State) : Tabled s (Machine.complete p n c s) := modPlu

theorem completeRead (p : Port) (n : Nat) (c : Completion) (s : State) : Tabled s (Machine.completeRead p n c s) :=
  modPlu.trans (complete ..)

theorem finish (p : Port) (c : Completion) (s : State) : Tabled s (Machine.finish p c s) := complete ..

theorem setSlot (p : Port) (n : Nat) (st : SlotState) (s : State) : Tabled s (Machine.setSlot p n st s) := modPlu

theorem countEvent (e : CounterEvent) (a : Option Port) (s : State) : Tabled s (Machine.countEvent e a s) :=
  foldl (fun _ _ => modPlu) _ _

/-! ### Leases -/

theorem renewLease (id : Nat) (s : State) : Tabled s (Machine.renewLease id s) := updateLease (Aged.renewLease id s)

theorem renewLeases (ids : List Nat) (s : State) : Tabled s (Machine.renewLeases ids s) :=
  foldl (fun t id => renewLease id t) _ _

theorem setLeaseMode (id : Nat) (m : LeaseMode) (s : State) : Tabled s (Machine.setLeaseMode id m s) :=
  updateLease (Aged.setLeaseMode id m s)

theorem setLeaseEnding (id : Nat) (c : EndCause) (s : State) : Tabled s (Machine.setLeaseEnding id c s) :=
  updateLease (Aged.updateLease fun k l hf hs => by cases hf; cases hs)

theorem emptyLeaseSlot (id : Nat) (s : State) : Tabled s (Machine.emptyLeaseSlot id s) :=
  updateLease (Aged.updateLease fun k l hf hs => by cases hf)

theorem grantScan (s : State) : Tabled s (Machine.grantScan s) :=
  ⟨Aged.scanWalk _ _ s, fun h => le_trans (occupancy_scanWalk s.le.queue [] s) (by rwa [occupancy_eq] at h)⟩

theorem grantScanIf (b : Bool) (s : State) : Tabled s (Machine.grantScanIf b s) :=
  ite (fun _ => grantScan s) (fun _ => refl s)

/-- A request that has passed its checks: an ACQUIRE had room for one lease more (R27). -/
theorem judge {e : WaitEntry} {s : State} (h : e.isAcquire = true → occupancy s < 64) : Tabled s (Machine.judge e s) := by
  have hroom : occupancy s ≤ 64 → occupancy s + acquires [e] ≤ 64 := fun hs => by
    rw [acquires_single]
    split
    case isTrue ha => have := h ha; omega
    case isFalse => exact hs
  unfold Machine.judge
  split
  · refine ⟨Aged.grant e s, fun hs => ?_⟩
    have hq : (Machine.grant e s).le.queue = s.le.queue := by unfold Machine.grant; split <;> rfl
    have h1 := length_filled_grant e s
    have h2 := hroom hs
    rw [occupancy_eq] at h2 ⊢
    rw [hq]
    omega
  · refine ite (fun _ => (complete ..).trans (countEvent ..)) fun _ => ?_
    refine ite (fun _ => (complete ..).trans (countEvent ..)) fun _ => ?_
    refine ⟨Aged.ofSame rfl rfl, fun hs => ?_⟩
    have h2 := hroom hs
    rw [occupancy_eq] at h2 ⊢
    have hq : (Machine.park e s).le.queue = s.le.queue ++ [e] := rfl
    rw [hq, acquires_append]
    exact le_trans (Nat.le_of_eq (Nat.add_assoc ..).symm) h2

theorem removeLease (id : Nat) (s : State) : Tabled s (Machine.removeLease id s) := by
  unfold Machine.removeLease
  split
  · exact (emptyLeaseSlot id s).trans (ofNotices (NoticesOnly.deliver ..))
  · exact refl s

theorem removeLeases (ids : List Nat) (s : State) : Tabled s (Machine.removeLeases ids s) :=
  foldl (fun t id => removeLease id t) _ _

theorem endLease (id : Nat) (c : EndCause) (s : State) : Tabled s (Machine.endLease id c s) := by
  unfold Machine.endLease
  split
  · exact refl s
  · refine modPwu.trans ((ite (fun _ => ?_) (fun _ => refl _)).trans (ite (fun _ => setLeaseEnding ..)
      (fun _ => removeLease ..)))
    exact ofNotices (NoticesOnly.placeNotice ..)

theorem leaseTeardown (p : Port) (c : EndCause) (s : State) : Tabled s (Machine.leaseTeardown p c s) := by
  have hq : Tabled s (s.modLe (fun x => { x with queue := x.queue.filter (fun e => decide (e.port ≠ p)) })) :=
    ofFewer rfl List.filter_sublist rfl
  exact hq.trans ((foldl (fun t id => endLease id c t) _ _).trans (grantScan _))

/-! ### Jobs -/

theorem selectJob (s : State) : Tabled s (Machine.selectJob s) := by
  unfold Machine.selectJob
  split
  · exact refl s
  · exact refl s
  · split
    · exact refl s
    · exact modMe

theorem enqueueJob (j : Job) (s : State) : Tabled s (Machine.enqueueJob j s) := modMe.trans (selectJob _)

theorem endRunning (s : State) : Tabled s (Machine.endRunning s) := modMe.trans (selectJob _)

theorem endRelocate (k : MediaKind) (b : Nat) (s : State) : Tabled s (Machine.endRelocate k b s) :=
  (ofCandidate (((CandidateOnly.mediaEvent k b s).trans (CandidateOnly.sparesOutRule ..)).trans
    (CandidateOnly.releaseLatch _))).trans (endRunning _)

theorem setCommand (p : Port) (c : Option PwuCommand) (s : State) : Tabled s (Machine.setCommand p c s) := modPwu

theorem stageSector (p : Port) (s : State) (x : LeasedSector) : Tabled s (Machine.stageSector p s x) :=
  ite (fun _ => modPwu.trans (countEvent ..)) (fun _ => modPwu)

theorem stageSectors (p : Port) (xs : List LeasedSector) (s : State) : Tabled s (Machine.stageSectors p xs s) :=
  foldl (stageSector p) _ _

theorem drainEndEffect (p : Port) (c : PwuCommand) (s : State) : Tabled s (Machine.drainEndEffect p c s).1 := by
  unfold Machine.drainEndEffect
  split
  · exact ite (fun _ => stageSectors ..) (fun _ => refl s)
  · split
    · split
      · exact (setLeaseMode ..).trans (renewLease ..)
      · exact refl s
    · exact refl s
  · exact refl s

theorem drainEnd (p : Port) (r : DrainReport) (s : State) : Tabled s (Machine.drainEnd p r s) := by
  unfold Machine.drainEnd
  cases reportedCommand (s.pwu.get p) r with
  | none => exact modPwu.trans ((removeLeases ..).trans (grantScanIf ..))
  | some c =>
    exact modPwu.trans ((drainEndEffect ..).trans ((removeLeases ..).trans ((setCommand ..).trans
      ((complete ..).trans (grantScanIf ..)))))

theorem issueDrain (p : Port) (c : PwuCommand) (s : State) : Tabled s (Machine.issueDrain p c s) := by
  unfold Machine.issueDrain
  refine Tabled.trans ?_ (ite (fun _ => drainEnd ..) (fun _ => enqueueJob ..))
  split
  · exact ite (fun _ => modPwu) (fun _ => modPwu.trans (setLeaseEnding ..))
  · exact modPwu

theorem issueJob (p : Port) (c : PwuCommand) (s : State) : Tabled s (Machine.issueJob p c s) := by
  unfold Machine.issueJob
  split
  · exact modPwu.trans (enqueueJob ..)
  · exact modPwu.trans (modPwu.trans (enqueueJob ..))
  · exact modPwu.trans (enqueueJob ..)
  all_goals exact issueDrain ..

theorem holdOrIssue (p : Port) (c : PwuCommand) (s : State) : Tabled s (Machine.holdOrIssue p c s) := by
  unfold Machine.holdOrIssue
  split
  · exact issueJob ..
  · exact ite (fun _ => modPwu.trans (setHoldList.trans (setSlot ..))) (fun _ => issueJob ..)

theorem startCommand (p : Port) (c : PwuCommand) (s : State) : Tabled s (Machine.startCommand p c s) :=
  ite (fun _ => modPwu) (fun _ => modPwu.trans (holdOrIssue ..))

theorem takeIssue (p : Port) (n : Nat) (s : State) : Tabled s (Machine.takeIssue p n s) := by
  unfold Machine.takeIssue
  split
  · exact refl s
  · split
    · exact ite (fun _ => refl s) (fun _ => holdOrIssue ..)
    · exact issueJob ..
    · exact refl s
    · exact refl s

/-! ### The hold list (R152) -/

theorem endHold (p : Port) (n : Nat) (b : Bool) (s : State) : Tabled s (Machine.endHold p n b s) := by
  unfold Machine.endHold
  split
  · exact refl s
  · exact ite (fun _ => modPwu.trans (setSlot ..)) (fun _ => refl s)

theorem dropHold (p : Port) (s : State) : Tabled s (Machine.dropHold p s) := setHoldList

theorem handRequest (p : Port) (r : LeRequest) (s : State) : Tabled s (Machine.handRequest p r s) := modLe_same rfl rfl

theorem handOnce (p : Port) (r : LeRequest) (s : State) : Tabled s (Machine.handOnce p r s) :=
  ite (fun _ => refl s) (fun _ => handRequest ..)

theorem issueInOrder (l : List (Port × Nat)) (s : State) : Tabled s (Machine.issueInOrder l s).2 := by
  induction l generalizing s with
  | nil => exact refl s
  | cons x t ih =>
    unfold Machine.issueInOrder
    split
    · exact ih s
    · split
      · exact handOnce ..
      · exact (issueJob ..).trans (ih _)

theorem issueEach (l kept : List (List (Port × Nat))) (s : State) : Tabled s (Machine.issueEach kept l s) := by
  induction l generalizing kept s with
  | nil => exact setReleased
  | cons x t ih => exact (issueInOrder x s).trans (ih _ _)

theorem issueReleased (s : State) : Tabled s (Machine.issueReleased s) := issueEach ..

theorem reexamineFrom (l kept : List HoldEntry) (gone : List (Port × Nat)) (s : State) :
    Tabled s (Machine.reexamineFrom kept gone l s) := by
  induction l generalizing kept gone s with
  | nil => exact setHoldList.trans (ite (fun _ => refl _) (fun _ => setReleased))
  | cons e t ih =>
    unfold Machine.reexamineFrom
    split
    · exact ih _ _ _
    · exact (endHold ..).trans (ih _ _ _)

theorem reexamine (s : State) : Tabled s (Machine.reexamine s) := reexamineFrom ..

theorem finishFences (s : State) : Tabled s (Machine.finishFences s) :=
  trans (modLe_same rfl rfl) (foldl (fun _ _ => complete ..) _ _)

theorem withdrawCommand (p : Port) (s : State) : Tabled s (Machine.withdrawCommand p s) := modLe_same rfl rfl

end Tabled

end Sys2Proof.Machine
end

section
/-! SUPPORT. The commands as their owners take them keep the lease table Tabled, and so does every step but a sweep, a
device reset and the end of the load (O57, O58). -/

namespace Sys2Proof.Machine

namespace Tabled

theorem asSupervisor {p : Port} {f : State → State} (h : ∀ s, Tabled s (f s)) (s : State) :
    Tabled s (Machine.asSupervisor p f s) := ite (fun _ => h s) (fun _ => finish ..)

/-! ### Lease commands (chapter 2) -/

theorem acquireChecked (p : Port) (r : Range) (m : LeaseMode) (w : Byte) (s : State) :
    Tabled s (Machine.acquireChecked p r m w s) := by
  unfold Machine.acquireChecked
  split
  · exact finish ..
  · split
    · exact finish ..
    · refine ite (fun _ => (finish ..).trans (countEvent ..)) fun _ => ?_
      exact ite (fun _ => (finish ..).trans (countEvent ..)) fun hroom => judge fun _ => Nat.lt_of_not_le hroom

theorem takeAcquire (p : Port) (f c : Word16) (m w : Byte) (s : State) : Tabled s (Machine.takeAcquire p f c m w s) := by
  unfold Machine.takeAcquire
  dsimp only
  split
  · exact ite (fun _ => acquireChecked ..) (fun _ => finish ..)
  · exact finish ..

theorem takeUpgrade (p : Port) (i w : Byte) (s : State) : Tabled s (Machine.takeUpgrade p i w s) := by
  unfold Machine.takeUpgrade
  dsimp only
  split
  · exact finish ..
  · refine ite (fun _ => finish ..) fun _ => ?_
    split
    · exact finish ..
    · exact judge fun h => by simp [WaitEntry.isAcquire] at h

theorem takeDowngrade (p : Port) (i : Byte) (s : State) : Tabled s (Machine.takeDowngrade p i s) := by
  unfold Machine.takeDowngrade
  dsimp only
  split
  · exact finish ..
  · refine ite (fun _ => finish ..) fun _ => ite (fun _ => ?_) fun _ => modPwu.trans (startCommand ..)
    exact modPwu.trans ((setLeaseMode ..).trans ((renewLease ..).trans ((finish ..).trans (grantScan _))))

theorem takeRenew (p : Port) (i : Byte) (s : State) : Tabled s (Machine.takeRenew p i s) := by
  unfold Machine.takeRenew
  split
  · exact finish ..
  · exact (renewLease ..).trans (finish ..)

theorem takeRelease (p : Port) (i d : Byte) (s : State) : Tabled s (Machine.takeRelease p i d s) := by
  unfold Machine.takeRelease
  dsimp only
  split
  · exact finish ..
  · refine ite (fun _ => ?_) fun _ => ite (fun _ => ?_) fun _ => modPwu.trans (startCommand ..)
    · exact modPwu.trans (modPwu.trans ((removeLease ..).trans ((finish ..).trans (grantScan _))))
    · exact modPwu.trans ((removeLease ..).trans ((finish ..).trans (grantScan _)))

theorem takeQueryLease (p : Port) (i : Byte) (s : State) : Tabled s (Machine.takeQueryLease p i s) := by
  unfold Machine.takeQueryLease
  split <;> exact finish ..

theorem breakCommand (h : Port) (i : Nat) (c : PwuCommand) (s : State) : Tabled s (Machine.breakCommand h i c s) :=
  ite (fun _ => setCommand ..) (fun _ => (setCommand ..).trans ((dropHold ..).trans (complete ..)))

theorem breakLease (p : Port) (i : Nat) (l : Lease) (s : State) : Tabled s (Machine.breakLease p i l s) := by
  have hleaves : ∀ e, Tabled s (s.modLe (fun x => { x with queue := x.queue.filter (fun f => decide (f ≠ e)) })) :=
    fun _ => ofFewer rfl List.filter_sublist rfl
  unfold Machine.breakLease
  dsimp only
  refine Tabled.trans ?_ ((finish ..).trans (grantScan _))
  cases upgradeOf i s <;> cases boundCommand l.holder i s
  · exact endLease ..
  · exact (endLease ..).trans (breakCommand ..)
  · exact (hleaves _).trans ((endLease ..).trans (complete ..))
  · exact (hleaves _).trans ((endLease ..).trans ((complete ..).trans (breakCommand ..)))

theorem takeBreak (p : Port) (i : Byte) (s : State) : Tabled s (Machine.takeBreak p i s) := by
  refine asSupervisor (fun s => ?_) s
  split
  · exact finish ..
  · exact breakLease ..

/-! ### Data commands (chapters 5 and 7) -/

theorem takeRead (p : Port) (f : Word16) (c : Byte) (s : State) : Tabled s (Machine.takeRead p f c s) := by
  refine ite (fun _ => ?_) (fun _ => finish ..)
  split
  · exact finish ..
  · exact ite (fun _ => (renewLeases ..).trans (modPlu.trans (completeRead ..)))
      (fun _ => (renewLeases ..).trans (modPlu.trans (startCommand ..)))

theorem takeWrite (p : Port) (f : Word16) (c : Byte) (d : List Byte) (s : State) : Tabled s (Machine.takeWrite p f c d s) := by
  refine ite (fun _ => ?_) (fun _ => finish ..)
  dsimp only
  split
  · exact finish ..
  · exact ite (fun _ => (renewLeases ..).trans (modPwu.trans ((stageSectors ..).trans (finish ..))))
      (fun _ => (renewLeases ..).trans (modPwu.trans (startCommand ..)))

theorem acceptCommit (p : Port) (i : Option Nat) (l : List Nat) (s : State) : Tabled s (Machine.acceptCommit p i l s) :=
  ite (fun _ => finish ..) (fun _ => startCommand ..)

theorem takeCommit (p : Port) (i : Byte) (s : State) : Tabled s (Machine.takeCommit p i s) := by
  unfold Machine.takeCommit
  split
  · exact finish ..
  · exact (renewLease ..).trans (acceptCommit ..)

theorem takeClear (p : Port) (f c : Word16) (s : State) : Tabled s (Machine.takeClear p f c s) := by
  refine ite (fun _ => ?_) (fun _ => finish ..)
  dsimp only
  split
  · exact finish ..
  · exact ite (fun _ => (renewLeases ..).trans (modPwu.trans (finish ..)))
      (fun _ => (renewLeases ..).trans (modPwu.trans (startCommand ..)))

/-! ### Watches and signal words (chapters 8 and 9) -/

theorem reexamineAfter (p : Port) (w : Option Watch) (s : State) : Tabled s (Machine.reexamineAfter p w s) :=
  ite (fun _ => reexamine s) (fun _ => refl s)

theorem reexamineIfFreed (p : Port) (b : Bool) (s : State) : Tabled s (Machine.reexamineIfFreed p b s) :=
  ite (fun _ => reexamine s) (fun _ => refl s)

theorem takeSetWatch (p : Port) (i t : Byte) (f c ws : Word16) (k is h : Byte) (s : State) :
    Tabled s (Machine.takeSetWatch p i t f c ws k is h s) := by
  unfold Machine.takeSetWatch
  split
  · exact ite (fun _ => modNu.trans ((reexamineAfter ..).trans (finish ..))) (fun _ => finish ..)
  · exact finish ..

theorem takeDropWatch (p : Port) (i : Byte) (s : State) : Tabled s (Machine.takeDropWatch p i s) :=
  ite (fun _ => modNu.trans ((reexamineAfter ..).trans (finish ..))) (fun _ => finish ..)

theorem takeSetLevels (p : Port) (h l : Byte) (s : State) : Tabled s (Machine.takeSetLevels p h l s) :=
  ite (fun _ => modNu.trans ((reexamineIfFreed ..).trans (finish ..))) (fun _ => finish ..)

theorem takeFetchNotice (p : Port) (s : State) : Tabled s (Machine.takeFetchNotice p s).2 :=
  modPlu.trans (modNu.trans (reexamineIfFreed ..))

theorem takeSignalModify (p : Port) (w : Byte) (m v : Word16) (s : State) : Tabled s (Machine.takeSignalModify p w m v s) :=
  ite (fun _ => setSwb.trans ((ite (fun _ => refl _) (fun _ => ofNotices (NoticesOnly.deliver ..))).trans (finish ..)))
    (fun _ => finish ..)

/-! ### The supervisor port's commands (chapters 1 and 11) -/

theorem dropPendings (l : List Range) (s : State) : Tabled s (Machine.dropPendings l s) :=
  foldl (fun _ _ => foldl (fun _ _ => modPwu) _ _) _ _

theorem changeRegion (p : Port) (i : Nat) (g : Option Region) (s : State) : Tabled s (Machine.changeRegion p i g s) := by
  unfold Machine.changeRegion
  dsimp only
  split
  · exact finish ..
  · exact modAc.trans ((dropPendings ..).trans (finish ..))

theorem takeSetRegion (p : Port) (i : Byte) (f l : Word16) (a m : Byte) (s : State) :
    Tabled s (Machine.takeSetRegion p i f l a m s) := by
  refine asSupervisor (fun s => ?_) s
  split
  · exact ite (fun _ => changeRegion ..) (fun _ => finish ..)
  · exact finish ..

theorem takeSetRegionUndefine (p : Port) (i : Byte) (s : State) : Tabled s (Machine.takeSetRegionUndefine p i s) :=
  asSupervisor (fun _ => ite (fun _ => changeRegion ..) (fun _ => finish ..)) s

theorem takeSetLeasePeriod (p : Port) (x : Byte) (s : State) : Tabled s (Machine.takeSetLeasePeriod p x s) := by
  refine asSupervisor (fun s => ite (fun _ => ?_) (fun _ => finish ..)) s
  have hperiod : Tabled s (s.modEu (fun e => { e with period := x.toNat })) := ofSame rfl rfl rfl
  exact hperiod.trans (finish ..)

theorem takeMetaJob (p : Port) (s : State) : Tabled s (Machine.takeMetaJob p s) := startCommand ..

theorem takeSaveConfig (p : Port) (s : State) : Tabled s (Machine.takeSaveConfig p s) :=
  asSupervisor (fun _ => modAc.trans (ite (fun _ => modPlu) (fun _ => takeMetaJob ..))) s

theorem carryOutFence (p q : Port) (s : State) : Tabled s (Machine.carryOutFence p q s) := by
  unfold Machine.carryOutFence
  exact modPlu.trans ((withdrawCommand ..).trans (modTeardown.trans ((leaseTeardown ..).trans (modLe_same rfl rfl))))

theorem takeFence (p : Port) (t : Byte) (s : State) : Tabled s (Machine.takeFence p t s) := by
  refine asSupervisor (fun s => ?_) s
  split
  · exact finish ..
  · exact ite (fun _ => finish ..) fun _ => ite (fun _ => finish ..) (fun _ => carryOutFence ..)

theorem takeUnfence (p : Port) (t : Byte) (s : State) : Tabled s (Machine.takeUnfence p t s) := by
  refine asSupervisor (fun s => ?_) s
  split
  · exact finish ..
  · exact (ite (fun _ => modPlu) (fun _ => refl s)).trans (finish ..)

theorem takeCounterSetup (p : Port) (c e q : Byte) (s : State) : Tabled s (Machine.takeCounterSetup p c e q s) := by
  unfold Machine.takeCounterSetup
  split
  · exact ite (fun _ => modPlu.trans (finish ..)) (fun _ => finish ..)
  · exact finish ..

/-- Every slot command, as its owner takes it. -/
theorem takeCommand (p : Port) (c : SlotCommand) (s : State) : Tabled s (Machine.takeCommand p c s) := by
  cases c with
  | acquire first count mode wait => exact takeAcquire ..
  | upgrade id wait => exact takeUpgrade ..
  | downgrade id => exact takeDowngrade ..
  | renew id => exact takeRenew ..
  | renewAll => exact (renewLeases ..).trans (finish ..)
  | release id discard => exact takeRelease ..
  | queryLease id => exact takeQueryLease ..
  | read first count => exact takeRead ..
  | write first count payload => exact takeWrite ..
  | commit id => exact takeCommit ..
  | commitAll => exact (renewLeases ..).trans (acceptCommit ..)
  | clear first count => exact takeClear ..
  | querySector sector => exact ite (fun _ => finish ..) (fun _ => finish ..)
  | setWatch => exact takeSetWatch ..
  | dropWatch index => exact takeDropWatch ..
  | setLevels high low => exact takeSetLevels ..
  | setAttnMask mask => exact ite (fun _ => modPlu.trans (finish ..)) (fun _ => finish ..)
  | signalRead word => exact ite (fun _ => finish ..) (fun _ => finish ..)
  | signalModify word mask value => exact takeSignalModify ..
  | deviceInfo => exact finish ..
  | counterSetup counter event qualifier => exact takeCounterSetup ..
  | counterRead counter => exact ite (fun _ => finish ..) (fun _ => finish ..)
  | setRegion index first last access mode => exact takeSetRegion ..
  | setRegionUndefine index => exact takeSetRegionUndefine ..
  | setLeasePeriod period => exact takeSetLeasePeriod ..
  | setHoldLimit limit => exact asSupervisor (fun _ => ite (fun _ => modAc.trans (finish ..)) (fun _ => finish ..)) s
  | setQuota quota => exact asSupervisor (fun _ => ite (fun _ => modAc.trans (finish ..)) (fun _ => finish ..)) s
  | saveConfig => exact takeSaveConfig ..
  | metaJob => exact takeMetaJob ..
  | breakLease id => exact takeBreak ..
  | fence target => exact takeFence ..
  | unfence target => exact takeUnfence ..

/-! ### The lease engine's requests (R24) -/

theorem removeEntry (p : Port) (n : Nat) (s : State) : Tabled s (Machine.removeEntry p n s) :=
  ofFewer rfl List.filter_sublist rfl

theorem takeExpiry (p : Port) (n : Nat) (s : State) : Tabled s (Machine.takeExpiry p n s) := by
  unfold Machine.takeExpiry
  split
  · exact (removeEntry ..).trans ((complete ..).trans (grantScan _))
  · exact refl s

theorem takeCancelParked (p : Port) (n : Nat) (s : State) : Tabled s (Machine.takeCancelParked p n s) := by
  unfold Machine.takeCancelParked
  split
  · exact (removeEntry ..).trans ((complete ..).trans (grantScan _))
  · exact refl s

theorem takeRequest (p : Port) (r : LeRequest) (s : State) : Tabled s (Machine.takeRequest p r s) := by
  cases r with
  | command c => exact takeCommand ..
  | issue n => exact takeIssue ..
  | report r => exact drainEnd ..
  | cancel n => exact takeCancelParked ..
  | expiry n => exact takeExpiry ..
  | teardown => exact leaseTeardown ..

theorem popRequest (p : Port) (l : List LeRequest) (s : State) : Tabled s (Machine.popRequest p l s) := ofSame rfl rfl rfl

theorem servePort {p : Port} {s t : State} (h : Machine.servePort p s = some t) : Tabled s t := by
  unfold Machine.servePort at h
  split at h
  · cases h
  · cases h
    exact (popRequest ..).trans (takeRequest ..)

theorem serveOne {s t : State} (h : Machine.serveOne s = some t) : Tabled s t := by
  unfold Machine.serveOne at h
  split at h
  · obtain ⟨p, -, hp⟩ := List.exists_of_findSome?_eq_some h
    exact servePort hp
  · cases h

theorem serveUpTo (n : Nat) (s : State) : Tabled s (Machine.serveUpTo n s) := by
  induction n generalizing s with
  | zero => exact refl s
  | succ n ih =>
    unfold Machine.serveUpTo
    split
    · exact (serveOne ‹_›).trans ((issueReleased _).trans (ih _))
    · exact refl s

theorem serveWaiting (s : State) : Tabled s (Machine.serveWaiting s) := (issueReleased s).trans (serveUpTo ..)

theorem goOn (s : State) : Tabled s (Machine.goOn s) := ite (fun _ => refl s) (fun _ => serveWaiting s)

theorem passCommand (p : Port) (s : State) : Tabled s (Machine.passCommand p s) := by
  unfold Machine.passCommand
  split
  · exact goOn s
  · refine ite (fun _ => goOn s) fun _ => ite (fun _ => ?_) fun _ => modPlu.trans ((takeCommand ..).trans (goOn _))
    exact modPlu.trans ((handRequest ..).trans (serveWaiting _))

/-! ### Frames and teardowns -/

theorem onFrame {p : Port} {len : Nat} {check : Option RejectReason} {effect : State → List Byte × State} {s : State}
    (h : Tabled s (effect s).2) : Tabled s (Machine.onFrame p len check effect s) := by
  refine ite (fun _ => ?_) (fun _ => refl s)
  split
  · exact modPlu
  · exact h.trans modPlu

theorem slotFrame (p : Port) (op : Byte) (whole : Bool) (c : SlotCommand) (len : Nat) (s : State) :
    Tabled s (Machine.slotFrame p op whole c len s) := onFrame (modPlu.trans (passCommand ..))

theorem cancelEffect (p : Port) (s : State) : Tabled s (Machine.cancelEffect p s) := by
  unfold Machine.cancelEffect
  split
  · exact handRequest ..
  · exact modNu
  · exact refl s
  · exact refl s

theorem portResetEffect (p : Port) (s : State) : Tabled s (Machine.portResetEffect p s) :=
  modPlu.trans ((withdrawCommand ..).trans ((handRequest ..).trans modTeardown))

theorem takeCancelHeld (p : Port) (n : Nat) (s : State) : Tabled s (Machine.takeCancelHeld p n s) := by
  unfold Machine.takeCancelHeld
  dsimp only
  split
  · exact ite (fun _ => modNu.trans ((dropHold ..).trans ((setCommand ..).trans (complete ..)))) (fun _ => modNu)
  · exact modNu

theorem cancelHeld (p : Port) (s : State) : Tabled s (Machine.cancelHeld p s) := by
  unfold Machine.cancelHeld
  split
  · exact takeCancelHeld ..
  · exact refl s

theorem takePwuTeardown (p : Port) (s : State) : Tabled s (Machine.takePwuTeardown p s) := by
  have hjobs : Tabled s (Machine.withdrawJobs p s) := ite (fun _ => refl s) (fun _ => modMe)
  exact hjobs.trans (modTeardown.trans (modPwu.trans ((dropHold ..).trans ((finishFences _).trans (passCommand ..)))))

theorem takeMeTeardown (p : Port) (s : State) : Tabled s (Machine.takeMeTeardown p s) :=
  modTeardown.trans (modMe.trans (finishFences _))

theorem takeNuTeardown (p : Port) (s : State) : Tabled s (Machine.takeNuTeardown p s) := by
  have hnotice : ∀ t, Tabled t (Machine.noticeTeardown p t) := fun t => modNu.trans ((dropHold ..).trans (reexamine _))
  exact (cancelHeld p s).trans (modTeardown.trans ((hnotice _).trans ((finishFences _).trans (passCommand ..))))

theorem takeSwbTeardown (p : Port) (s : State) : Tabled s (Machine.takeSwbTeardown p s) :=
  modTeardown.trans ((finishFences _).trans (passCommand ..))

theorem fetchNoticeEffect (p : Port) (s : State) : Tabled s (Machine.fetchNoticeEffect p s).2 := by
  have hbefore : Tabled s (if (s.teardown.get p).nu then Machine.takeNuTeardown p s else Machine.cancelHeld p s) :=
    ite (fun _ => takeNuTeardown p s) (fun _ => cancelHeld p s)
  exact hbefore.trans ((takeFetchNotice p _).trans (goOn _))

theorem ifTeardown {b : Bool} {f : State → State} (h : ∀ s, Tabled s (f s)) (s : State) :
    Tabled s (Machine.ifTeardown b f s) := ite (fun _ => h s) (fun _ => refl s)

/-! ### The engines' own events -/

theorem rotationExpiry (s : State) : Tabled s (Machine.rotationExpiry s) :=
  ite (fun _ => ofSame rfl rfl rfl) (fun _ => refl s)

theorem waitDeadline (p : Port) (s : State) : Tabled s (Machine.waitDeadline p s) := by
  unfold Machine.waitDeadline
  split
  · exact (handOnce ..).trans (serveWaiting _)
  · exact refl s

theorem issueEnded (p : Port) (n : Nat) (s : State) : Tabled s (Machine.issueEnded p n s) := by
  unfold Machine.issueEnded
  split
  · exact refl s
  · exact ite (fun _ => (handOnce ..).trans (serveWaiting _)) (fun _ => issueJob ..)

theorem holdDeadline (p : Port) (s : State) : Tabled s (Machine.holdDeadline p s) := by
  unfold Machine.holdDeadline
  split
  · exact (dropHold ..).trans ((endHold ..).trans (issueEnded ..))
  · exact refl s

theorem takeWaiting (p : Port) (k : LeRequest → Bool) (s : State) : Tabled s (Machine.takeWaiting p k s) :=
  ite (fun _ => serveWaiting s) (fun _ => refl s)

theorem jobIssue (p : Port) (s : State) : Tabled s (Machine.jobIssue p s) := by
  unfold Machine.jobIssue
  split
  · exact refl s
  · split
    · exact ite (fun _ => refl s) fun _ => ite (fun _ => (handOnce ..).trans (serveWaiting _)) (fun _ => holdOrIssue ..)
    · exact serveWaiting s
    · exact refl s
    · exact refl s

/-! ### The array's outcomes (R101) -/

theorem endRead (o : JobOwner) (k : Bool) (f : Option Nat) (s : State) : Tabled s (Machine.endRead o k f s) := by
  unfold Machine.endRead
  refine Tabled.trans ?_ (endRunning _)
  split
  · split
    · exact (setCommand ..).trans (completeRead ..)
    · exact refl s
  · exact refl s

theorem readSectorOutcome (out : ReadOutcome) (s : State) : Tabled s (Machine.readSectorOutcome out s) := by
  unfold Machine.readSectorOutcome
  split
  · dsimp only
    split
    · exact refl s
    · exact endRead ..
    · refine Tabled.trans ?_ (ite (fun _ => endRead ..) (fun _ => modMe))
      exact ofCandidate ((CandidateOnly.deliverSector ..).trans (CandidateOnly.readEvents ..))
  · exact refl s

theorem endDrain (o : JobOwner) (done : List Nat) (f : Option Nat) (s : State) : Tabled s (Machine.endDrain o done f s) :=
  (ite (fun _ => refl s) (fun _ => ofNotices (NoticesOnly.deliver ..))).trans ((handRequest ..).trans (endRunning _))

theorem programSectorOutcome (out : OpOutcome) (s : State) : Tabled s (Machine.programSectorOutcome out s) := by
  unfold Machine.programSectorOutcome
  split
  · rename_i o x todo done f raised _
    have hresult : Tabled s (programResult o x raised out s) := by
      cases out with
      | ok => exact modMe.trans (countEvent ..)
      | fault => exact ofCandidate (CandidateOnly.raiseOnce ..)
    have hends : ∀ t, Tabled t (programEnds o x.sector t) := fun t => by rw [programEnds_eq]; exact modPwu
    exact (hresult.trans (hends _)).trans (ite (fun _ => endDrain ..) (fun _ => modMe))
  · exact refl s

theorem endClear (o : JobOwner) (done : List Nat) (f : Option Nat) (s : State) : Tabled s (Machine.endClear o done f s) := by
  unfold Machine.endClear
  cases clearedRange done
  case' some r => refine (ofNotices (NoticesOnly.deliver ..) : Tabled s (clearedEvent o.issuer r s)).trans ?_
  all_goals
    refine Tabled.trans ?_ (endRunning _)
    split
    · split
      · exact (setCommand ..).trans (complete ..)
      · exact refl _
    · exact refl _

theorem clearBlockOutcome (out : OpOutcome) (s : State) : Tabled s (Machine.clearBlockOutcome out s) := by
  unfold Machine.clearBlockOutcome
  split
  · cases out with
    | ok => exact modMe.trans (ite (fun _ => endClear ..) (fun _ => modMe))
    | fault => exact (ofCandidate (CandidateOnly.raiseOnce ..)).trans (endClear ..)
  · exact refl s

theorem recordResult (r : MetaRecord) (out : OpOutcome) (s : State) : Tabled s (Machine.recordResult r out s) := by
  cases out <;> exact ofLe rfl rfl

theorem metaProgramOutcome (out : OpOutcome) (s : State) : Tabled s (Machine.metaProgramOutcome out s) := by
  unfold Machine.metaProgramOutcome
  split
  · rename_i o r _
    refine (recordResult r out s).trans (Tabled.trans ?_ (endRunning _))
    split
    · exact (setCommand ..).trans (complete ..)
    · exact refl _
  · exact refl s

theorem relocateSpareClear (out : OpOutcome) (s : State) : Tabled s (Machine.relocateSpareClear out s) := by
  unfold Machine.relocateSpareClear
  split
  · cases out with
    | ok => exact modMe.trans modMe
    | fault => exact modMe.trans (endRelocate ..)
  · exact refl s

theorem relocateCopyRead (out : ReadOutcome) (s : State) : Tabled s (Machine.relocateCopyRead out s) := by
  unfold Machine.relocateCopyRead
  split
  · dsimp only
    split
    · exact refl s
    · exact endRelocate ..
    · exact modMe
  · exact refl s

theorem relocateCopyProgram (out : OpOutcome) (s : State) : Tabled s (Machine.relocateCopyProgram out s) := by
  unfold Machine.relocateCopyProgram
  split
  · cases out with
    | ok => exact modMe.trans modMe
    | fault => exact modMe.trans (endRelocate ..)
  · exact refl s

theorem relocateMetadata (out : OpOutcome) (s : State) : Tabled s (Machine.relocateMetadata out s) := by
  unfold Machine.relocateMetadata
  split
  · cases out with
    | ok => exact (recordResult ..).trans (modMe.trans ((countEvent ..).trans (endRelocate ..)))
    | fault => exact (recordResult ..).trans (endRelocate ..)
  · exact refl s

/-! ### Load (R10 to R12) -/

theorem endLoadIfDone (s : State) : Tabled s (Machine.endLoadIfDone s) :=
  ite (fun _ => ofSame rfl rfl rfl) (fun _ => refl s)

theorem loadRead (o : ReadOutcome) (s : State) : Tabled s (Machine.loadRead o s) := by
  refine ite (fun _ => ?_) (fun _ => refl s)
  split
  · exact refl s
  · exact modMe.trans (endLoadIfDone _)

theorem releaseRst (v : BitVec 2) (s : State) : Tabled s (Machine.releaseRst v s) :=
  ite (fun _ => trans (t := { s with rstHeld := false, supsel := Port.ofPins v }) (ofLe rfl rfl) (endLoadIfDone _))
    (fun _ => refl s)

/-! ### Every command but a device reset and a sweep -/

theorem of_next {s t u : State} (h : Tabled s u) (e : (Host.Outcome.next u : Outcome) = .next t) : Tabled s t := by
  cases e
  exact h

theorem of_arrayOutcome {f : State → State} {s t : State} (h : Tabled s (f s)) (e : arrayOutcome f s = .next t) :
    Tabled s t := by
  unfold arrayOutcome at e
  split at e
  · exact of_next h e
  · cases e

theorem exec {i : Instr} {s t : State} (hd : i ≠ .deviceReset) (hs : i ≠ .sweep) (e : Machine.exec i s = .next t) :
    Tabled s t := by
  cases i with
  | deviceReset => exact absurd rfl hd
  | sweep => exact absurd rfl hs
  | metadataLoadReadOutcome o => exact of_next (loadRead o s) e
  | rotationExpiry => exact of_next (rotationExpiry s) e
  | waitDeadlineExpiry p => exact of_next (waitDeadline p s) e
  | holdDeadlineExpiry p => exact of_next (holdDeadline p s) e
  | status p n => exact of_next (onFrame (refl s)) e
  | result p n => exact of_next (onFrame modPlu) e
  | fetchData p n => exact of_next (onFrame (refl s)) e
  | fetchNotice p n => exact of_next (onFrame (fetchNoticeEffect p s)) e
  | cancel p n => exact of_next (onFrame (cancelEffect p s)) e
  | cancelParked p => exact of_next (takeWaiting p _ s) e
  | cancelHeld p => exact of_next (cancelHeld p s) e
  | portReset p n => exact of_next (onFrame (portResetEffect p s)) e
  | unknownOpcodeFrame p op n => exact of_next (onFrame (refl s)) e
  | leTeardown p => exact of_next (takeWaiting p _ s) e
  | pwuTeardown p => exact of_next (ifTeardown (takePwuTeardown p) s) e
  | meTeardown p => exact of_next (ifTeardown (takeMeTeardown p) s) e
  | nuTeardown p => exact of_next (ifTeardown (takeNuTeardown p) s) e
  | swbTeardown p => exact of_next (ifTeardown (takeSwbTeardown p) s) e
  | jobIssue p => exact of_next (jobIssue p s) e
  | readSectorOutcome o => exact of_arrayOutcome (readSectorOutcome o s) e
  | programSectorOutcome o => exact of_arrayOutcome (programSectorOutcome o s) e
  | drainEndReport p => exact of_next (takeWaiting p _ s) e
  | clearBlockOutcome o => exact of_arrayOutcome (clearBlockOutcome o s) e
  | metaProgramOutcome o => exact of_arrayOutcome (metaProgramOutcome o s) e
  | relocateSpareClearOutcome o => exact of_arrayOutcome (relocateSpareClear o s) e
  | relocateCopyReadOutcome o => exact of_arrayOutcome (relocateCopyRead o s) e
  | relocateCopyProgramOutcome o => exact of_arrayOutcome (relocateCopyProgram o s) e
  | relocateMetadataOutcome o => exact of_arrayOutcome (relocateMetadata o s) e
  | endOfDeviceReset v => exact of_next (releaseRst v s) e
  | _ => exact of_next (slotFrame ..) e

end Tabled

end Sys2Proof.Machine
end

section
/-! SUPPORT. The end of a lease in the table (R39, R41), and the sweep: no HELD lease of age 3 is left (R66 to R68, O58). -/

namespace Sys2Proof.Machine

/-! ### One lease's slot -/

/-- An update of one id leaves what every other id names. -/
theorem tableLookup_tableUpdate_ne (t : List LeaseSlot) {id n : Nat} (h : n ≠ id) (f : Lease → Option Lease) :
    tableLookup (tableUpdate t id f) n = tableLookup t n := by
  have hid : n % 64 = id % 64 → n / 64 ≠ id / 64 := fun hm hd => h (by omega)
  simp only [tableLookup, tableUpdate, Config.leaseSlots, List.getElem?_modify]
  cases hx : t[n % 64]? with
  | none => rfl
  | some x =>
    rcases Decidable.em (id % 64 = n % 64) with hm | hm
    · rcases Decidable.em (x.tag.toNat = id / 64) with ht | ht
      · have hn : ¬ id / 64 = n / 64 := fun e => hid hm.symm e.symm
        simp [hm, ht, hn]
      · simp [hm, ht]
    · simp [hm]

theorem findLease_updateLease_ne (s : State) {id n : Nat} (h : n ≠ id) (f : Lease → Option Lease) :
    findLease (updateLease id f s) n = findLease s n := tableLookup_tableUpdate_ne _ h f

theorem findLease_congr {s t : State} (h : t.le.table = s.le.table) (n : Nat) : findLease t n = findLease s n := by
  rw [findLease, h]
  rfl

/-- What the end of a lease leaves of its record: ENDING with the cause while slots of it are DRAINING, nothing otherwise
(R39). -/
def endedLease (cause : EndCause) (draining : Bool) (l : Lease) : Option Lease :=
  if draining then some { l with state := .ending cause } else none

/-- The table behind the end of a lease (R39, R41). -/
theorem endLease_table {id : Nat} {cause : EndCause} {s : State} {l : Lease} (h : findLease s id = some l) :
    (endLease id cause s).le.table =
      tableUpdate s.le.table id (endedLease cause ((s.pwu.get l.holder).drainingUnder id)) := by
  have hlost : ∀ t : State, (if cause = .expired ∨ cause = .broken then lostEvent id l t else t).le = t.le := fun t => by
    split
    · exact (NoticesOnly.placeNotice ..).le
    · rfl
  have hremove : ∀ t : State, t.le.table = s.le.table →
      (removeLease id t).le.table = tableUpdate s.le.table id (fun _ => none) := fun t ht => by
    have hf : findLease t id = some l := (findLease_congr ht id).trans h
    simp only [removeLease, hf, freedEvent, (NoticesOnly.deliver _ _).le]
    exact congrArg (fun x => tableUpdate x id _) ht
  unfold endLease
  rw [h]
  dsimp only
  cases (s.pwu.get l.holder).drainingUnder id with
  | true => exact congrArg (fun e => tableUpdate e.table id _) (hlost _)
  | false => exact hremove _ (congrArg LeaseEngine.table (hlost _))

theorem endLease_findLease {id : Nat} {cause : EndCause} {s : State} {l : Lease} (h : findLease s id = some l) :
    findLease (endLease id cause s) id = endedLease cause ((s.pwu.get l.holder).drainingUnder id) l := by
  rw [findLease, endLease_table h, tableLookup_tableUpdate, ← findLease, h]
  rfl

theorem endLease_findLease_ne {id n : Nat} (cause : EndCause) (s : State) (h : n ≠ id) :
    findLease (endLease id cause s) n = findLease s n := by
  cases hf : findLease s id with
  | none => simp [endLease, hf]
  | some l => rw [findLease, endLease_table hf]; exact tableLookup_tableUpdate_ne _ h _

/-! ### The sweep (R66 to R68) -/

/-- The id names a HELD lease of age 3. -/
def Overdue (s : State) (id : Nat) : Prop :=
  ∃ l, findLease s id = some l ∧ l.state = .held ∧ s.eu.epoch - l.stamp = 3#2

/-- The end of a lease makes no other one overdue, and leaves it not overdue. -/
theorem overdue_expireLease {x : Nat × Port} {s : State} {n : Nat} (h : Overdue (expireLease x s) n) :
    n ≠ x.1 ∧ Overdue s n := by
  have hfind : findLease (expireLease x s) n = findLease (endLease x.1 .expired s) n := rfl
  have hepoch : (expireLease x s).eu.epoch = s.eu.epoch := (Tabled.endLease x.1 .expired s).epoch
  obtain ⟨l, hl, hs, ha⟩ := h
  rw [hfind] at hl
  rw [hepoch] at ha
  rcases eq_or_ne n x.1 with rfl | hne
  · cases hf : findLease s x.1 with
    | none =>
      have hnone : findLease (endLease x.1 .expired s) x.1 = none := by simp [endLease, hf]
      cases hnone.symm.trans hl
    | some k =>
      rw [endLease_findLease hf, endedLease] at hl
      split at hl <;> cases hl
      cases hs
  · rw [endLease_findLease_ne _ _ hne] at hl
    exact ⟨hne, l, hl, hs, ha⟩

theorem overdue_foldl {xs : List (Nat × Port)} {s : State} {n : Nat}
    (h : Overdue (xs.foldl (fun t x => expireLease x t) s) n) : n ∉ xs.map Prod.fst ∧ Overdue s n := by
  induction xs generalizing s with
  | nil => exact ⟨by simp, h⟩
  | cons x t ih =>
    obtain ⟨h1, h2⟩ := ih h
    obtain ⟨h3, h4⟩ := overdue_expireLease h2
    exact ⟨by simpa using ⟨h3, by simpa using h1⟩, h4⟩

/-- A HELD lease of age 3 is one that the sweep's third step ends. -/
theorem overdue_expiring {s : State} {n : Nat} (hlen : s.le.table.length = 64) (h : Overdue s n) :
    n ∈ (expiring s).map Prod.fst := by
  obtain ⟨l, hl, hs, ha⟩ := h
  refine List.mem_map.mpr ⟨(n, l.holder), List.mem_map.mpr ⟨(n, l), List.mem_filter.mpr ⟨?_, ?_⟩, rfl⟩, rfl⟩
  · exact (mem_leases hlen n l).mpr hl
  · rw [Bool.and_eq_true, decide_eq_true_eq, decide_eq_true_eq]
    exact ⟨hs, ha⟩

/-! ### Ages (R63, R68) -/

theorem mem_filled {s : State} {l : Lease} : l ∈ filled s ↔ ∃ id, (id, l) ∈ leases s := by
  rw [← leases_snd]
  simp

theorem heldYoung_iff (s : State) :
    heldYoung s = true ↔ ∀ l ∈ filled s, l.state = .held → s.eu.epoch - l.stamp ≠ 3#2 := by
  simp only [heldYoung, List.all_eq_true, Bool.or_eq_true, decide_eq_true_eq]
  constructor
  · intro h l hl hs
    obtain ⟨id, hid⟩ := mem_filled.mp hl
    exact (h (id, l) hid).resolve_left (not_not_intro hs)
  · intro h x hx
    rcases Decidable.em (x.2.state = .held) with hs | hs
    · exact .inr (h x.2 (mem_filled.mpr ⟨x.1, hx⟩) hs)
    · exact .inl hs

/-- With no epoch begun, the ages that were at most 2 are. -/
theorem Aged.young {s t : State} (h : Aged s t) (hy : heldYoung s = true) : heldYoung t = true := by
  rw [heldYoung_iff] at hy ⊢
  intro l hl hs
  rcases h.stamps l hl hs with e | ⟨k, hk, hks, e⟩
  · simp [e]
  · rw [← e, h.epoch]
    exact hy k hk hks

/-- The state of a sweep in which the expired leases have been ended. -/
def sweptLeases (s : State) : State :=
  (expiring (renewOccupied s)).foldl (fun t x => expireLease x t) (renewOccupied s)

theorem Tabled.expireLease (x : Nat × Port) (s : State) : Tabled s (Machine.expireLease x s) :=
  (endLease ..).trans (countEvent ..)

theorem tabled_sweptLeases (s : State) : Tabled s (sweptLeases s) :=
  (Tabled.renewLeases _ s).trans (Tabled.foldl (fun t x => Tabled.expireLease x t) _ _)

/-- A sweep leaves no HELD lease of age 3 (R67, R68). -/
theorem heldYoung_sweptLeases {s : State} (hlen : s.le.table.length = 64) : heldYoung (sweptLeases s) = true := by
  rw [heldYoung_iff]
  intro l hl hs ha
  have h2 : (renewOccupied s).le.table.length = 64 := (Tabled.renewLeases _ s).length.trans hlen
  obtain ⟨id, hid⟩ := mem_filled.mp hl
  have hf := (mem_leases ((tabled_sweptLeases s).length.trans hlen) id l).mp hid
  obtain ⟨hn, ho⟩ := overdue_foldl ⟨l, hf, hs, ha⟩
  exact hn (overdue_expiring h2 ho)

/-- What a sweep taken does: one request fewer, the epoch advanced, the leases aged, then the requests that waited. -/
theorem takeSweep_tabled {s : State} (h : s.le.sweepsAsked ≠ 0) : Tabled (sweptLeases ((s.modLe (fun x =>
    { x with sweepsAsked := x.sweepsAsked - 1 })).modEu (fun e => { e with epoch := e.epoch + 1#2 }))) (takeSweep s) := by
  unfold takeSweep
  rw [if_neg h]
  exact (Tabled.grantScan _).trans (Tabled.serveWaiting _)

/-! ### The table in a device reset -/

theorem deviceReset_table (s : State) : tableBounded (deviceReset s) = true ∧ heldYoung (deviceReset s) = true ∧
    (deviceReset s).le.table.length = 64 := by
  have hf : filled (deviceReset s) = [] := rfl
  refine ⟨rfl, ?_, rfl⟩
  · rw [heldYoung_iff, hf]
    simp

/-! ### Every step -/

theorem tableBounded_iff (s : State) : tableBounded s = true ↔ s.le.table.length = 64 ∧ occupancy s ≤ 64 := by
  simp only [tableBounded, Bool.and_eq_true, decide_eq_true_eq]
  rfl

theorem exec_deviceReset (s : State) : exec .deviceReset s = .next (deviceReset s) := rfl

theorem exec_sweep (s : State) : exec .sweep s = .next (takeSweep s) := rfl

theorem exec_tableBounded {i : Instr} {s t : State} (hs : tableBounded s = true) (e : exec i s = .next t) :
    tableBounded t = true := by
  rcases eq_or_ne i .deviceReset with rfl | hd
  · cases e
    exact (deviceReset_table s).1
  rcases eq_or_ne i .sweep with rfl | hw
  · cases e
    rcases Decidable.em (s.le.sweepsAsked = 0) with h0 | h0
    · rwa [takeSweep, if_pos h0]
    · rw [tableBounded_iff] at hs ⊢
      have k := (tabled_sweptLeases _).trans (takeSweep_tabled h0)
      exact ⟨k.length.trans hs.1, k.room hs.2⟩
  · have k := Tabled.exec hd hw e
    rw [tableBounded_iff] at hs ⊢
    exact ⟨k.length.trans hs.1, k.room hs.2⟩

theorem exec_heldYoung {i : Instr} {s t : State} (hlen : s.le.table.length = 64) (hs : heldYoung s = true)
    (e : exec i s = .next t) : t.le.table.length = 64 ∧ heldYoung t = true := by
  rcases eq_or_ne i .deviceReset with rfl | hd
  · cases e
    exact ⟨rfl, (deviceReset_table s).2.1⟩
  rcases eq_or_ne i .sweep with rfl | hw
  · cases e
    rcases Decidable.em (s.le.sweepsAsked = 0) with h0 | h0
    · rw [takeSweep, if_pos h0]
      exact ⟨hlen, hs⟩
    · have k := takeSweep_tabled h0
      exact ⟨k.length.trans ((tabled_sweptLeases _).length.trans hlen), k.young (heldYoung_sweptLeases hlen)⟩
  · have k := Tabled.exec hd hw e
    exact ⟨k.length.trans hlen, k.young hs⟩

/-- Settles O57: a step executes a command on the state with a shorter queue of commands, or idles. -/
theorem stepKeepsTheTableBounded : Obligations.StepKeepsTheTableBounded := by
  intro s t hs e
  unfold step at e
  split at e
  · cases e
    exact hs
  · rename_i rest _
    exact exec_tableBounded (s := { s with pending := rest }) hs e

/-- Settles O58, likewise. -/
theorem stepKeepsHeldLeasesYoung : Obligations.StepKeepsHeldLeasesYoung := by
  intro s t hlen hs e
  unfold step at e
  split at e
  · cases e
    exact ⟨hlen, hs⟩
  · rename_i rest _
    exact exec_heldYoung (s := { s with pending := rest }) hlen hs e

end Sys2Proof.Machine
end

section
/-! SUPPORT. A frame as one step (R163 to R168): every frame is one application of `onFrame`, whose check rejects it and whose
effect is CANCEL's, PORT RESET's or a command's; the status byte; completions at the port link unit. -/

namespace Sys2Proof.Machine

/-! ### The queue of commands -/

/-- Settles O1: the two branches of the step. -/
theorem stepTakesFrontCommand : Obligations.StepTakesFrontCommand :=
  ⟨fun c rest s h => by rw [step, h], fun s h => by rw [step, h]⟩

/-! ### A frame and its check (R163, R165, R177) -/

/-- A command with a frame layout is a frame taken by `onFrame`. -/
theorem exec_frame {i : Instr} {p : Port} {op : Byte} {ps : List Byte} {n : Nat}
    (hf : frameLayout i = some (p, op, ps, n)) (s : State) :
    ∃ check effect, exec i s = .next (onFrame p n check effect s) := by
  cases i <;> simp only [frameLayout, reduceCtorEq, Option.some.injEq, Prod.mk.injEq] at hf <;>
    obtain ⟨rfl, -, -, rfl⟩ := hf <;> exact ⟨_, _, rfl⟩

/-- A frame that is no slot command, and whose opcode is not that of STATUS, is rejected when its port is closed. -/
theorem exec_closedFrame {i : Instr} {p : Port} {op : Byte} {ps : List Byte} {n : Nat} {s : State} {r : RejectReason}
    (hf : frameLayout i = some (p, op, ps, n)) (hd : slotLength? i = none) (ho : op ≠ 0#8)
    (hr : portCloses p s = some r) : ∃ effect, exec i s = .next (onFrame p n (some r) effect s) := by
  have hu : unknownCheck p s = r := by simp [unknownCheck, hr]
  cases i <;> simp only [slotLength?, reduceCtorEq] at hd <;>
    simp only [frameLayout, reduceCtorEq, Option.some.injEq, Prod.mk.injEq] at hf <;> obtain ⟨rfl, rfl, -, rfl⟩ := hf
  case status => exact absurd rfl ho
  case unknownOpcodeFrame => exact ⟨_, by rw [exec, execUnknownOpcodeFrame, hu]⟩
  all_goals exact ⟨_, by simp only [exec, execResult, execFetchData, execFetchNotice, execCancel, execPortReset, hr]; rfl⟩

/-- At least its defined length of a well-formed WRITE has been received when the frame is that long (R163). -/
theorem writeWhole_eq {count : Byte} {payload : List Byte} {n : Nat} (h : payload.length = n - 5) :
    writeWhole count payload n = decide (5 + payloadLength count ≤ n) := by
  have : 5 + payloadLength count ≤ n → payloadLength count ≤ payload.length := fun _ => by omega
  by_cases hn : 5 + payloadLength count ≤ n <;> simp [writeWhole, hn, this]

/-- A slot command's frame passes the checks of the take point or is rejected by them. -/
theorem exec_checkedFrame {i : Instr} {d : Nat} {p : Port} {op : Byte} {ps : List Byte} {n : Nat}
    (hd : slotLength? i = some d) (hf : frameLayout i = some (p, op, ps, n)) (hw : i.wf = true) (s : State) :
    ∃ effect, exec i s = .next (onFrame p n (slotCheck p (decide (d ≤ n)) s) effect s) := by
  cases i <;> simp only [slotLength?, reduceCtorEq, Option.some.injEq] at hd <;>
    simp only [frameLayout, Option.some.injEq, Prod.mk.injEq] at hf <;> obtain ⟨rfl, rfl, -, rfl⟩ := hf <;> subst hd
  case write p f k pl n =>
    simp only [Instr.wf, Instr.payloadAgrees, Bool.and_eq_true, decide_eq_true_eq] at hw
    exact ⟨_, by rw [exec, execWrite, writeWhole_eq hw.2]; rfl⟩
  all_goals exact ⟨_, rfl⟩

theorem onFrame_notTaken {p : Port} {n : Nat} {s : State} (h : n = 0 ∨ s.rstHeld = true) (c : Option RejectReason)
    (f : State → List Byte × State) : onFrame p n c f s = s := by
  rcases h with h | h <;> simp [onFrame, takesFrame, h]

/-- A rejected frame changes the reject reason, REJECTED and the bytes shifted out. -/
theorem onFrame_rejected {p : Port} {n : Nat} {s : State} (hn : 1 ≤ n) (hs : s.rstHeld = false) (r : RejectReason)
    (f : State → List Byte × State) : onFrame p n (some r) f s =
      s.modPlu p (fun u => { u with reason := r, rejected := true, sdo := shownBytes p s [] n }) := by
  rw [← rejectFrame_eq]
  simp [onFrame, takesFrame, hn, hs]

theorem openPort_iff (p : Port) (s : State) :
    openPort p s = true ↔ s.rstHeld = false ∧ s.device = .ready ∧ (s.plu.get p).fenced = false := by
  simp only [openPort, Bool.and_eq_true, decide_eq_true_eq, Bool.not_eq_true', and_assoc]

/-- STARTING closes every port, and the fence flag its own. -/
theorem portCloses_eq {p : Port} {s : State} {r : RejectReason}
    (h : s.device = .starting ∧ r = .notReady ∨ s.device = .ready ∧ (s.plu.get p).fenced = true ∧ r = .fenced) :
    portCloses p s = some r := by
  rcases h with ⟨h, rfl⟩ | ⟨h, hf, rfl⟩
  · simp [portCloses, h]
  · simp [portCloses, h, hf]

theorem portCloses_open {p : Port} {s : State} (h : openPort p s = true) : portCloses p s = none := by
  obtain ⟨-, hd, hf⟩ := (openPort_iff p s).mp h
  simp [portCloses, hd, hf]

/-- Settles O6: a frame not taken changes nothing, and a closed port, or an unknown opcode, rejects it. -/
theorem frameIsIgnoredOrRejected : Obligations.FrameIsIgnoredOrRejected := by
  refine ⟨fun i p op ps n s hf h => ?_, fun i p op ps n s r hf hd ho hn hs hr => ?_, fun p op n s h hn => ?_⟩
  · obtain ⟨c, f, he⟩ := exec_frame hf s
    rw [he, onFrame_notTaken h]
  · obtain ⟨f, he⟩ := exec_closedFrame hf hd ho (portCloses_eq hr)
    rw [he, onFrame_rejected hn hs]
  · have hc : unknownCheck p s = .frameError := by simp [unknownCheck, portCloses_open h]
    rw [← onFrame_rejected hn ((openPort_iff p s).mp h).1 .frameError (fun t => ([], t)), ← hc]
    rfl

/-- The four checks of a slot command's frame, in their order (R165). -/
theorem slotCheck_eq {p : Port} {d n : Nat} {s : State} {r : RejectReason}
    (h : s.device = .starting ∧ r = .notReady ∨ s.device = .ready ∧ (s.plu.get p).fenced = true ∧ r = .fenced ∨
      openPort p s = true ∧ n < d ∧ r = .frameError ∨
      openPort p s = true ∧ d ≤ n ∧ (s.plu.get p).slot ≠ .idle ∧ r = .slotBusy) :
    slotCheck p (decide (d ≤ n)) s = some r := by
  rcases h with h | h | ⟨h, hn, rfl⟩ | ⟨h, hn, hs, rfl⟩
  · rw [slotCheck, portCloses_eq (.inl h)]
  · rw [slotCheck, portCloses_eq (.inr h)]
  · rw [slotCheck, portCloses_open h]
    simp [hn]
  · rw [slotCheck, portCloses_open h]
    simp [hn, hs]

/-- A frame with a byte that the checks of the take point reject. -/
theorem exec_slotFrame_rejected {i : Instr} {d : Nat} {p : Port} {op : Byte} {ps : List Byte} {n : Nat} {s : State}
    {r : RejectReason} (hd : slotLength? i = some d) (hf : frameLayout i = some (p, op, ps, n)) (hw : i.wf = true)
    (hn : 1 ≤ n) (hs : s.rstHeld = false) (hc : slotCheck p (decide (d ≤ n)) s = some r) :
    exec i s = .next (s.modPlu p (fun u => { u with reason := r, rejected := true, sdo := shownBytes p s [] n })) := by
  obtain ⟨f, he⟩ := exec_checkedFrame hd hf hw s
  rw [he, hc, onFrame_rejected hn hs]

/-- A frame's layout gives its length. -/
theorem frameLength_of_layout {i : Instr} {p : Port} {op : Byte} {ps : List Byte} {n : Nat}
    (hf : frameLayout i = some (p, op, ps, n)) : i.frameLength? = some n := by
  cases i <;> simp only [frameLayout, reduceCtorEq, Option.some.injEq, Prod.mk.injEq] at hf <;>
    obtain ⟨-, -, -, rfl⟩ := hf <;> rfl

/-- A well-formed frame has its opcode byte. -/
theorem one_le_of_wf {i : Instr} {p : Port} {op : Byte} {ps : List Byte} {n : Nat}
    (hf : frameLayout i = some (p, op, ps, n)) (hw : i.wf = true) : 1 ≤ n := by
  simp only [Instr.wf, Instr.hasOpcodeByte, frameLength_of_layout hf, Bool.and_eq_true, decide_eq_true_eq] at hw
  exact hw.1.1

/-- Settles O7: the first check that fails is the reason. -/
theorem slotFrameIsRejected : Obligations.SlotFrameIsRejected :=
  fun _ _ _ _ _ _ _ _ hd hf hw hs h => exec_slotFrame_rejected hd hf hw (one_le_of_wf hf hw) hs (slotCheck_eq h)

/-! ### STATUS (R164, R178) -/

/-- The fields of a byte that is the sum of a number below 8 and five weighted flags. -/
theorem fields_of_flagSum (f : Fin 8) (a b c d e : Bool) :
    (BitVec.ofNat 8 (f.val + (if a then 8 else 0) + (if b then 16 else 0) + (if c then 32 else 0) +
      (if d then 64 else 0) + (if e then 128 else 0))).toNat % 8 = f.val ∧
    ∀ x : Byte, x = BitVec.ofNat 8 (f.val + (if a then 8 else 0) + (if b then 16 else 0) + (if c then 32 else 0) +
      (if d then 64 else 0) + (if e then 128 else 0)) →
      x.getLsbD 3 = a ∧ x.getLsbD 4 = b ∧ x.getLsbD 5 = c ∧ x.getLsbD 6 = d ∧ x.getLsbD 7 = e := by
  refine ⟨?_, fun x hx => ?_⟩
  · have hf := f.isLt
    simp only [BitVec.toNat_ofNat]
    split <;> split <;> split <;> split <;> split <;> omega
  · subst hx
    revert f a b c d e
    decide

theorem stateField_lt (p : Port) (s : State) : stateField p s < 8 := by
  unfold stateField
  split
  · decide
  · split
    · decide
    · cases (s.plu.get p).slot <;> decide

/-- Settles O8: STATUS has no check, and the status byte is its state field below five flags. -/
theorem statusIsAnsweredInEveryState : Obligations.StatusIsAnsweredInEveryState := by
  refine ⟨fun p n s hs hn => ?_, fun p s => ?_⟩
  · rw [← endAccepted_eq]
    simp [exec, execStatus, onFrame, takesFrame, hs, hn]
  · obtain ⟨hfield, hflags⟩ := fields_of_flagSum ⟨stateField p s, stateField_lt p s⟩ (s.plu.get p).resultReady
      (noticePending p s) (s.nu.get p).congested (s.nu.get p).overrun (s.plu.get p).rejected
    obtain ⟨h3, h4, h5, h6, h7⟩ := hflags (statusByte p s) rfl
    exact ⟨hfield, h3, h4, h5, h6, h7⟩

/-! ### CANCEL and PORT RESET (R24, R172, R175, R180) -/

theorem exec_cancel_open {p : Port} {n : Nat} {s : State} (h : openPort p s = true) (hn : 1 ≤ n) :
    exec (.cancel p n) s = .next (endAccepted p s [] n (cancelEffect p s)) :=
  congrArg Host.Outcome.next (onFrame_open h hn fun t => ([], cancelEffect p t))

/-- Settles O11: the slot state chooses the block that CANCEL reaches. -/
theorem cancelIsPassedOn : Obligations.CancelIsPassedOn := by
  intro p n s h hn
  rw [exec_cancel_open h hn]
  refine ⟨fun hs => ?_, fun hs => ?_, fun hs => ?_⟩
  · simp [cancelEffect, hs, handRequest]
  · simp [cancelEffect, hs]
  · rcases hs with hs | hs <;> simp [cancelEffect, hs]

/-- The command withdrawn and the teardown handed on: the port's other requests, then the teardown. -/
theorem handTeardown_withdrawCommand (p : Port) (s : State) :
    handRequest p .teardown (withdrawCommand p s) = s.modLe (fun e =>
      { e with requests := e.requests.modify p (fun l => l.filter (fun r => !r.isCommand) ++ [.teardown]) }) := by
  simp [handRequest, withdrawCommand]

/-- Settles O12: the port link unit's own reset, its two messages to the lease engine as one, and the end of the frame. -/
theorem portResetResetsThePort : Obligations.PortResetResetsThePort := by
  intro p n s h hn
  rw [exec_portReset_open h hn, endAccepted_eq, portResetEffect, handTeardown_withdrawCommand]
  refine congrArg Host.Outcome.next (State.ext_fields rfl rfl rfl ?_ rfl rfl rfl rfl rfl rfl rfl rfl rfl rfl rfl)
  simp [Plu.portReset, emptyBuffer, Config.defaultMask, Counter.reset]

/-! ### Completions (R168) -/

/-- Settles O13: whether the port link unit still holds the command. -/
theorem completionArrivesOrIsDiscarded : Obligations.CompletionArrivesOrIsDiscarded := by
  refine fun p n c s => ⟨fun hs hn => modPlu_congr ?_, fun h => ?_⟩
  · simp [Plu.holdsCommand, hs, hn]
  · have hk : (s.plu.get p).holdsCommand n = false := by
      rcases h with h | h <;> simp [Plu.holdsCommand, h]
    exact (modPlu_congr (g := fun u => u) (by simp [hk])).trans (by simp [State.modPlu])

end Sys2Proof.Machine
end

section
/-! SUPPORT. The bytes of a frame (R163, R178): a frame that holds its parameters is the opcode, byte 1, the parameters and
padding, and reading these gives the command back. -/

namespace Sys2Proof

/-! ### Reading bytes at offsets -/

@[simp] theorem frameByte_cons_zero (op x b : Byte) (l : List Byte) : frameByte (op :: x :: b :: l) 0 = b := rfl

@[simp] theorem frameByte_cons_succ (op x b : Byte) (l : List Byte) (k : Nat) :
    frameByte (op :: x :: b :: l) (k + 1) = frameByte (op :: x :: l) k := by
  simp [frameByte, Nat.add_assoc, Nat.add_comm 2]

/-- The two bytes of a word, joined (R178). -/
@[simp] theorem wordBytes_join (w : Word16) : w.extractLsb' 8 8 ++ w.extractLsb' 0 8 = w := by
  apply BitVec.eq_of_getLsbD_eq
  intro k hk
  simp only [BitVec.getLsbD_append, BitVec.getLsbD_extractLsb']
  split
  · simp; omega
  · rename_i h; simp [show k - 8 < 8 by omega, show 8 + (k - 8) = k by omega]

/-- The bytes of an unknown opcode's frame are read as that frame. -/
theorem decodeFrame_unknown {op : Byte} (h : op ∉ frameOpcodes) (p : Port) (l : List Byte) :
    decodeFrame p (op :: l) = some (.unknownOpcodeFrame p op (op :: l).length) := by
  have hn : ∀ x ∈ frameOpcodes, op.toNat ≠ x.toNat :=
    fun x hx he => h (BitVec.eq_of_toNat_eq he ▸ hx)
  simp only [frameOpcodes, List.forall_mem_cons, List.not_mem_nil, false_imp_iff, implies_true, and_true,
    BitVec.toNat_ofNat] at hn
  unfold decodeFrame
  dsimp only
  split
  case h_35 => rfl
  all_goals
    rename_i hk
    simp [hk] at hn

/-! ### A frame and its layout -/

/-- The bytes of a frame: the opcode alone, for a command without parameters; otherwise the opcode, byte 1, the parameters
and the bytes beyond them. -/
theorem encodeFrame_some {i : Instr} {p : Port} {bytes : List Byte} (h : encodeFrame i = some (p, bytes)) :
    ∃ op ps n, frameLayout i = some (p, op, ps, n) ∧ bytes.length = n ∧
      (ps = [] ∧ bytes = [op] ∨ ∃ pad, bytes = op :: 0#8 :: (ps ++ pad)) := by
  unfold encodeFrame at h
  split at h
  next q op ps n hf =>
    split at h
    next => exact absurd h (by simp)
    next =>
      split at h
      next he =>
        simp only [Option.some.injEq, Prod.mk.injEq] at h
        obtain ⟨rfl, rfl⟩ := h
        exact ⟨op, ps, 1, hf, rfl, .inl ⟨List.isEmpty_iff.mp he, rfl⟩⟩
      next => exact absurd h (by simp)
    next m =>
      split at h
      next hm =>
        simp only [Option.some.injEq, Prod.mk.injEq] at h
        obtain ⟨rfl, rfl⟩ := h
        exact ⟨op, ps, m + 2, hf, by simp; omega, .inr ⟨_, rfl⟩⟩
      next => exact absurd h (by simp)
  next => exact absurd h (by simp)

/-- A frame that holds its parameters has bytes. -/
theorem encodeFrame_isSome {i : Instr} {p : Port} {op : Byte} {ps : List Byte} {n : Nat}
    (hf : frameLayout i = some (p, op, ps, n)) (h : ps = [] ∧ 1 ≤ n ∨ ps.length + 2 ≤ n) :
    (encodeFrame i).isSome = true := by
  unfold encodeFrame
  rw [hf]
  match n with
  | 0 => omega
  | 1 =>
    have : ps = [] := by rcases h with h | h; exacts [h.1, by omega]
    simp [this]
  | m + 2 =>
    have : ps.length ≤ m := by
      rcases h with ⟨rfl, -⟩ | h
      · exact Nat.zero_le m
      · omega
    simp [this]

/-- The opcode alone, of a command without parameters, is read as that command. -/
theorem decodeFrame_opcode {i : Instr} {p : Port} {op : Byte} (hw : i.wf = true)
    (hf : frameLayout i = some (p, op, [], 1)) : decodeFrame p [op] = some i := by
  cases i
  case unknownOpcodeFrame q o n =>
    simp only [frameLayout, Option.some.injEq, Prod.mk.injEq] at hf
    obtain ⟨rfl, rfl, -, rfl⟩ := hf
    simp only [Instr.wf, Instr.selectorAgrees, Bool.and_eq_true, Bool.not_eq_true'] at hw
    exact decodeFrame_unknown (by simpa using hw.1.2) q []
  all_goals
    simp only [frameLayout, wordBytes, reduceCtorEq, Option.some.injEq, Prod.mk.injEq, List.cons_append,
      false_and, and_false] at hf
  all_goals
    obtain ⟨rfl, rfl, -, rfl⟩ := hf
    rfl

/-- The opcode, byte 1, a command's parameters and any bytes beyond them are read as that command. -/
theorem decodeFrame_layout {i : Instr} {p : Port} {op : Byte} {ps pad : List Byte} {n : Nat} (hw : i.wf = true)
    (hf : frameLayout i = some (p, op, ps, n)) (hn : (op :: 0#8 :: (ps ++ pad)).length = n) :
    decodeFrame p (op :: 0#8 :: (ps ++ pad)) = some i := by
  cases i <;> simp only [frameLayout, reduceCtorEq, Option.some.injEq, Prod.mk.injEq] at hf <;>
    obtain ⟨rfl, rfl, rfl, rfl⟩ := hf
  case unknownOpcodeFrame q o n =>
    simp only [Instr.wf, Instr.selectorAgrees, Bool.and_eq_true, Bool.not_eq_true'] at hw
    rw [decodeFrame_unknown (by simpa using hw.1.2) q _, hn]
  case write q f k pl n =>
    have hpl : pl.length = n - 5 := by
      simp only [Instr.wf, Instr.payloadAgrees, Bool.and_eq_true, decide_eq_true_eq] at hw
      exact hw.2
    have hpad : pad = [] := by
      simp only [wordBytes, List.length_cons, List.length_append, List.length_nil] at hn
      exact List.eq_nil_of_length_eq_zero (by omega)
    subst hpad
    rw [decodeFrame, hn]
    simp [frameWord, wordBytes]
  all_goals
    rw [decodeFrame, hn]
    simp [Instr.wf, Instr.selectorAgrees] at hw
    simp [frameWord, wordBytes, hw]

/-- A well-formed frame of at least its defined length, or of an immediate command with its opcode byte, holds its
parameters. -/
theorem layout_holds {i : Instr} {p : Port} {op : Byte} {ps : List Byte} {n : Nat} (hw : i.wf = true)
    (hf : frameLayout i = some (p, op, ps, n)) (hn : (Machine.slotLength? i).getD 1 ≤ n) :
    ps = [] ∧ 1 ≤ n ∨ ps.length + 2 ≤ n := by
  cases i <;> simp only [frameLayout, reduceCtorEq, Option.some.injEq, Prod.mk.injEq] at hf <;>
    obtain ⟨rfl, rfl, rfl, rfl⟩ := hf <;>
    simp only [Machine.slotLength?, Option.getD_some, Option.getD_none] at hn
  case write q f k pl n =>
    simp only [Instr.wf, Instr.payloadAgrees, Bool.and_eq_true, decide_eq_true_eq] at hw
    simp only [wordBytes, List.length_cons, List.length_append, List.length_nil]
    omega
  all_goals simp [wordBytes]; omega

/-- A frame has a layout. -/
theorem layout_of_frameLength {i : Instr} {n : Nat} (h : i.frameLength? = some n) :
    ∃ p op ps, frameLayout i = some (p, op, ps, n) := by
  cases i <;> simp only [Instr.frameLength?, reduceCtorEq, Option.some.injEq] at h <;> subst h <;> exact ⟨_, _, _, rfl⟩

/-- Settles O15: the bytes written for a frame are its opcode alone or hold its parameters, and both read back. -/
theorem framesReadBackAsWritten : Obligations.FramesReadBackAsWritten := by
  refine ⟨fun i p bytes hw h => ?_, fun i n hw hl hn => ?_⟩
  · obtain ⟨op, ps, n, hf, hlen, h⟩ := encodeFrame_some h
    refine ⟨?_, by rw [Machine.frameLength_of_layout hf, hlen]⟩
    rcases h with ⟨rfl, rfl⟩ | ⟨pad, rfl⟩
    · subst hlen
      exact decodeFrame_opcode hw hf
    · exact decodeFrame_layout hw hf hlen
  · obtain ⟨p, op, ps, hf⟩ := layout_of_frameLength hl
    exact encodeFrame_isSome hf (layout_holds hw hf hn)

end Sys2Proof
end

section
/-! SUPPORT. Device reset (R10, R103, R109): the state of every block, and the sectors of the cut operation. The metadata
load (R10 to R12, R101): one of its reads, and its end. -/

namespace Sys2Proof.Machine

/-! ### Device reset -/

/-- The lease table of the reset state: 64 empty slots with tag 0. -/
theorem mem_resetTable {x : LeaseSlot} (h : x ∈ LeaseEngine.reset.table) : x = { tag := 0#2, lease := none } :=
  List.eq_of_mem_replicate h

/-- Settles O3: the reset state of each block. -/
theorem deviceResetPutsEveryBlockInItsResetState : Obligations.DeviceResetPutsEveryBlockInItsResetState := by
  refine fun s => ⟨deviceReset s, rfl, rfl, fun p => ?_, ⟨rfl, fun x hx => ?_, rfl, rfl, rfl, fun p => ?_⟩, ⟨rfl, rfl⟩,
    fun p => ?_, ⟨rfl, rfl, rfl, rfl, rfl⟩, ⟨rfl, rfl⟩, fun p => ?_, rfl, ⟨rfl, fun w hw => ?_⟩, rfl, rfl⟩
  · have h : (deviceReset s).plu.get p = Plu.reset := PortMap.get_const ..
    rw [h]
    exact ⟨rfl, rfl, rfl, rfl, rfl, rfl, rfl, rfl, rfl, rfl, rfl⟩
  · rw [mem_resetTable hx]
    exact ⟨rfl, rfl⟩
  · have h : leases (deviceReset s) = [] := rfl
    have hq : (deviceReset s).le.queue = [] := rfl
    simp [leaseCount, h, hq]
  · have h : (deviceReset s).pwu.get p = WriteUnit.reset := PortMap.get_const ..
    rw [h]
    exact ⟨rfl, rfl, rfl⟩
  · have h : (deviceReset s).nu.get p = NuPort.reset := PortMap.get_const ..
    rw [h]
    exact ⟨fun w hw => List.eq_of_mem_replicate hw, rfl, rfl, rfl, rfl, rfl⟩
  · exact List.eq_of_mem_replicate hw

/-- Spoiled sectors join those that were unreadable (R101, R103). -/
theorem mem_spoil {n : Nat} (me : MediaEngine) (l : List Nat) :
    n ∈ (me.spoil l).unreadable ↔ n ∈ me.unreadable ∨ n ∈ l := by
  simp only [MediaEngine.spoil]
  generalize me.unreadable = u
  induction l generalizing u with
  | nil => simp
  | cons x t ih =>
    rw [List.foldl_cons, ih, mem_insertAsc, List.mem_cons]
    tauto

/-- The sectors of a physical block. -/
theorem mem_sectorsOfBlock {n b : Nat} : n ∈ sectorsOfBlock b ↔ 32 * b ≤ n ∧ n < 32 * b + 32 := by
  simp [sectorsOfBlock, physicalSector, Config.blockSectors, List.mem_range'_1]

/-- The sectors that a device reset leaves unreadable. -/
theorem mem_unreadable_deviceReset {s t : State} (h : exec .deviceReset s = .next t) (n : Nat) :
    n ∈ t.me.unreadable ↔ n ∈ s.me.unreadable ∨ n ∈ cutSectors s := by
  rw [exec_deviceReset, Host.Outcome.next.injEq] at h
  subst h
  exact mem_spoil s.me (cutSectors s)

/-- Settles O4: the sectors that each running operation touches. -/
theorem deviceResetCutsTheOperationInProgress : Obligations.DeviceResetCutsTheOperationInProgress := by
  intro s t h n
  rw [mem_unreadable_deviceReset h]
  refine ⟨fun hr => ?_, fun o l d c r hr => ?_, fun o x l d f r hr => ?_, fun o b l d r hr => ?_, fun o r hr => ?_,
    fun b x hr => ?_, fun b x i hr => ?_, fun b x i d hr => ?_, fun b x r hr => ?_⟩
  all_goals
    simp [cutSectors, hr, mem_sectorsOfBlock, metadataSector, physicalSector, Config.metadataBlock, Config.blockSectors]

/-! ### A read of the metadata load (R10, R101) -/

/-- A read of a sector ends in an outcome that is UNCORRECTABLE exactly when the sector is unreadable. -/
theorem readOutcomeAt_some {me : MediaEngine} {ps : Nat} {o : ReadOutcome}
    (h : ps ∈ me.unreadable ∨ o ≠ .uncorrectable) :
    ∃ e, readOutcomeAt me ps o = some e ∧ (e = .uncorrectable ↔ ps ∈ me.unreadable) := by
  by_cases hu : ps ∈ me.unreadable
  · exact ⟨.uncorrectable, by simp [readOutcomeAt, hu], by simp [hu]⟩
  · have ho : o ≠ .uncorrectable := h.resolve_left hu
    exact ⟨o, by simp [readOutcomeAt, hu, ho], by simp [hu, ho]⟩

/-- UNCORRECTABLE is no outcome of the read of a readable sector. -/
theorem readOutcomeAt_none {me : MediaEngine} {ps : Nat} (h : ps ∉ me.unreadable) :
    readOutcomeAt me ps .uncorrectable = none := by simp [readOutcomeAt, h]

/-- The state after a read of the load: it is counted, and an UNCORRECTABLE one is remembered. -/
def countedRead (s : State) : State :=
  s.modMe (fun m => { m with loadReads := m.loadReads + 1,
                             loadBad := m.loadBad || decide (32 * 1040 + m.loadReads ∈ m.unreadable) })

/-- A read of the load that ends: it is counted, and the load ends if it was the last. -/
theorem exec_metadataLoadReadOutcome {o : ReadOutcome} {s : State} (hd : s.device = .starting) (hn : s.me.loadReads < 32)
    (h : 32 * 1040 + s.me.loadReads ∈ s.me.unreadable ∨ o ≠ .uncorrectable) :
    exec (.metadataLoadReadOutcome o) s = .next (endLoadIfDone (countedRead s)) := by
  obtain ⟨e, he, hu⟩ := readOutcomeAt_some h
  have he' : readOutcomeAt s.me (metadataSector + s.me.loadReads) o = some e := he
  have hc : s.modMe (fun m => { m with loadReads := m.loadReads + 1, loadBad := m.loadBad || decide (e = .uncorrectable) }) =
      countedRead s := by simp only [hu]; rfl
  simp only [exec, execMetadataLoadReadOutcome, loadRead, he', hc]
  rw [if_pos ⟨hd, hn⟩]

/-- Before its last read, or while RST is held, the load does not end. -/
theorem endLoadIfDone_early {s : State} (h : s.me.loadReads < 32 ∨ s.rstHeld = true) : endLoadIfDone s = s :=
  if_neg fun ⟨_, hr, hs⟩ => h.elim (fun h => absurd hr (Nat.ne_of_lt h)) (fun h => by simp [h] at hs)

theorem endLoadIfDone_last {s : State} (hd : s.device = .starting) (hn : s.me.loadReads = 32) (hs : s.rstHeld = false) :
    endLoadIfDone s = endLoad s := if_pos ⟨hd, hn, hs⟩

/-! ### The end of the load (R10 to R12) -/

/-- A record that R10 accepts, with no read of the load UNCORRECTABLE. -/
theorem acceptedRecord_some {s : State} {r : MetaRecord} (hb : s.me.loadBad = false) (hr : s.me.record = some r)
    (hv : recordValid r = true) : acceptedRecord s = some r := by
  simp [acceptedRecord, hb, hr, hv, Option.filter]

/-- No record that R10 accepts: a read was UNCORRECTABLE, or there is none, or it is not valid. -/
theorem acceptedRecord_none {s : State} (h : s.me.loadBad = true ∨ s.me.record = none ∨
    ∃ r, s.me.record = some r ∧ recordValid r = false) : acceptedRecord s = none := by
  rcases h with h | h | ⟨r, hr, hv⟩
  · simp [acceptedRecord, h]
  · simp [acceptedRecord, h]
  · simp [acceptedRecord, hr, hv, Option.filter]

/-- The settings of an accepted record, and its sets, with the other spares in the pool. -/
theorem endLoad_accepted {s : State} {r : MetaRecord} (h : acceptedRecord s = some r) :
    (endLoad s).ac.image = r.settings ∧ (endLoad s).me.remap = sortRemap r.remap ∧
      (endLoad s).me.retired = sortSpares r.retired ∧ (endLoad s).me.pool = poolOf r.remap r.retired ∧
      (endLoad s).ac.metaInvalid = false := by
  simp [endLoad, loadedRecord, h]

/-- The defaults of R11, with METADATA_INVALID. -/
theorem endLoad_default {s : State} (h : acceptedRecord s = none) :
    (endLoad s).ac.image = Settings.default ∧ (endLoad s).me.remap = [] ∧ (endLoad s).me.retired = [] ∧
      (endLoad s).me.pool = Config.spares ∧ (endLoad s).ac.metaInvalid = true := by
  have hl : loadedRecord s = { settings := Settings.default, remap := [], retired := [], checkOk := true } := by
    rw [loadedRecord, h]
    rfl
  rw [endLoad, hl]
  exact ⟨rfl, rfl, rfl, rfl, congrArg Option.isNone h⟩

theorem mem_poolOf {n : Nat} (remap : List (Nat × Nat)) (retired : List Nat) :
    n ∈ poolOf remap retired ↔ (1024 ≤ n ∧ n ≤ 1039) ∧ n ∉ remap.map Prod.snd ∧ n ∉ retired := by
  have hs : n ∈ Config.spares ↔ 1024 ≤ n ∧ n ≤ 1039 := by
    simp only [Config.spares, Config.firstSpare, List.mem_range'_1]
    omega
  simp [poolOf, hs]

/-- The pins' value is the port's number (R179). -/
theorem ofPins_num (v : BitVec 2) : (Port.ofPins v).num = v.toNat := by
  revert v
  decide

/-- Settles O5: a read is counted (`exec_metadataLoadReadOutcome`); the last ends the load, with the record when it is
accepted and with the defaults otherwise. -/
theorem metadataLoadRuns : Obligations.MetadataLoadRuns := by
  refine ⟨fun o s hd hn h => ?_, fun s hd hn h => ?_, fun o s hd hs hn h => ?_, fun v s hs hn => ⟨?_, ofPins_num v⟩⟩
  · rw [exec_metadataLoadReadOutcome hd (by omega) h, endLoadIfDone_early (.inl (Nat.succ_lt_succ hn))]
    rfl
  · have h' : readOutcomeAt s.me (metadataSector + s.me.loadReads) .uncorrectable = none := readOutcomeAt_none h
    simp only [exec, execMetadataLoadReadOutcome, loadRead, h', ite_self]
  · have he : exec (.metadataLoadReadOutcome o) s = .next (endLoad (countedRead s)) := by
      rw [exec_metadataLoadReadOutcome hd (by omega) (by rwa [hn])]
      exact congrArg _ (endLoadIfDone_last hd (congrArg (· + 1) hn) hs)
    have hb : (countedRead s).me.loadBad = true ↔ s.me.loadBad = true ∨ 32 * 1040 + 31 ∈ s.me.unreadable := by
      simp [countedRead, hn]
    refine ⟨_, he, rfl, rfl, rfl, rfl, rfl, rfl, rfl, rfl, rfl, fun r hg hu hr hv => ?_, fun hbad => ?_⟩
    · have hb' : (countedRead s).me.loadBad = false := Bool.eq_false_iff.mpr fun hc => by
        simp [hg, hu] at hb
        simp [hb] at hc
      obtain ⟨h1, h2, h3, h4, h5⟩ := endLoad_accepted (acceptedRecord_some hb' hr hv)
      exact ⟨h1, h2, h3, fun n => by rw [h4, mem_poolOf], h5⟩
    · refine endLoad_default (acceptedRecord_none ?_)
      rcases hbad with h | h | h | h
      exacts [.inl (hb.mpr (.inl h)), .inl (hb.mpr (.inr h)), .inr (.inl h), .inr (.inr h)]
  · simp only [exec, execEndOfDeviceReset, releaseRst, if_pos hs]
    exact congrArg _ (endLoadIfDone_early (.inl hn))

end Sys2Proof.Machine
end

section
/-! SUPPORT. FETCH NOTICE as the notice unit takes it (R146, R147, R152): the response and the state for an empty queue, for
a head record whose removal leaves the congestion state, and for one whose removal ends it. -/

namespace Sys2Proof.Machine

/-- FETCH NOTICE at an open port: what waits at the notice unit goes first (R154, R167, R176). -/
theorem exec_fetchNotice_open {p : Port} {n : Nat} {s u : State} (h : openPort p s = true) (hn : 1 ≤ n)
    (hu : u = (if (s.teardown.get p).nu then takeNuTeardown p s else cancelHeld p s)) :
    exec (.fetchNotice p n) s = .next (endAccepted p s (takeFetchNotice p u).1 n (goOn (takeFetchNotice p u).2)) := by
  subst hu
  exact congrArg Host.Outcome.next (onFrame_open h hn (fetchNoticeEffect p))

section
variable {p : Port} {u : State} {x : Notice} {l : List Notice}

/-- The response for an empty queue, and its state. -/
theorem takeFetchNotice_empty (h : (u.nu.get p).queue = []) :
    takeFetchNotice p u = ([0#8, if (u.nu.get p).overrun then 1#8 else 0#8] ++ List.replicate 10 0#8,
      (u.modPlu p (fun l => { l with fetches := l.fetches + 1 })).modNu p (fun v => { v with overrun := false })) := by
  have hf : (u.modPlu p (fun l => { l with fetches := l.fetches + 1 })).modNu p
        (fun v => { v.removeHead with overrun := false }) =
      (u.modPlu p (fun l => { l with fetches := l.fetches + 1 })).modNu p (fun v => { v with overrun := false }) :=
    modNu_congr (by simp [NuPort.removeHead, h])
  rw [takeFetchNotice, h, hf, reexamineIfFreed_modNu]
  simp [noticeBytes, boolItem_eq, padTo]

/-- The response for a head record `x` before `l`. -/
theorem takeFetchNotice_response (h : (u.nu.get p).queue = x :: l) :
    (takeFetchNotice p u).1 = [1#8, if (u.nu.get p).overrun then 1#8 else 0#8, BitVec.ofNat 8 l.length] ++
      noticeFieldBytes (u.plu.get p).fetches x := by
  simp [takeFetchNotice, h, noticeBytes, boolItem_eq, byteItem]

/-- The port's notice state without its head record. -/
theorem removeHead_cons {v : NuPort} (h : v.queue = x :: l) :
    v.removeHead = { v with queue := l, congested := v.congested && decide (v.low < l.length) } := by
  simp [NuPort.removeHead, h]

/-- A port that is NORMAL, or whose records left are above its low level, stays as it is. -/
theorem takeFetchNotice_stays (h : (u.nu.get p).queue = x :: l)
    (hc : (u.nu.get p).congested = false ∨ (u.nu.get p).low < l.length) :
    (takeFetchNotice p u).2 = (u.modPlu p (fun l => { l with fetches := l.fetches + 1 })).modNu p
      (fun v => { v with queue := l, overrun := false }) := by
  have hk : ((u.nu.get p).congested && decide ((u.nu.get p).low < l.length)) = (u.nu.get p).congested := by
    rcases hc with hc | hc <;> simp [hc]
  have hf : (u.modPlu p (fun l => { l with fetches := l.fetches + 1 })).modNu p
        (fun v => { v.removeHead with overrun := false }) =
      (u.modPlu p (fun l => { l with fetches := l.fetches + 1 })).modNu p
        (fun v => { v with queue := l, overrun := false }) :=
    modNu_congr (by simp [removeHead_cons h, hk])
  rw [takeFetchNotice, hf, reexamineIfFreed_modNu]
  simp

/-- A CONGESTED port whose records left are at its low level goes to NORMAL, and the hold list is re-examined. -/
theorem takeFetchNotice_frees (h : (u.nu.get p).queue = x :: l) (hc : (u.nu.get p).congested = true)
    (hl : l.length ≤ (u.nu.get p).low) :
    (takeFetchNotice p u).2 = reexamine ((u.modPlu p (fun l => { l with fetches := l.fetches + 1 })).modNu p
      (fun v => { v with queue := l, overrun := false, congested := false })) := by
  have hk : decide ((u.nu.get p).low < l.length) = false := decide_eq_false (Nat.not_lt.mpr hl)
  have hf : (u.modPlu p (fun l => { l with fetches := l.fetches + 1 })).modNu p
        (fun v => { v.removeHead with overrun := false }) =
      (u.modPlu p (fun l => { l with fetches := l.fetches + 1 })).modNu p
        (fun v => { v with queue := l, overrun := false, congested := false }) :=
    modNu_congr (by simp [removeHead_cons h, hk])
  rw [takeFetchNotice, hf, reexamineIfFreed_modNu]
  simp [hc]

end

/-- Settles O10: what waits at the notice unit is taken first, and then the queue chooses among the three rules. -/
theorem fetchNoticeRemovesTheHead : Obligations.FetchNoticeRemovesTheHead := by
  rintro p n s u fetched h hn hu rfl
  refine ⟨fun ht hc => ?_, fun ht => ?_, rfl, fun ht => ?_, fun hq => ?_, fun x l hq => ⟨fun hc => ?_, fun hc hl => ?_⟩⟩
  · rw [hu, ht, if_neg Bool.false_ne_true, cancelHeld_none hc]
  · rw [hu, ht, if_neg Bool.false_ne_true]
    obtain ⟨hnu, -, -, -, -, hplu⟩ := cancelHeld_fields p s
    exact ⟨by rw [hnu, PortMap.get_modify_same], (hplu p).2⟩
  · simp only [exec, execNuTeardown, ifTeardown, ht, if_true]
  · rw [exec_fetchNotice_open h hn hu, takeFetchNotice_empty hq]
  · rw [exec_fetchNotice_open h hn hu, takeFetchNotice_response hq, takeFetchNotice_stays hq hc]
  · rw [exec_fetchNotice_open h hn hu, takeFetchNotice_response hq, takeFetchNotice_frees hq hc hl]

end Sys2Proof.Machine
end

section
/-! SUPPORT. Requests for leases: what a request meets (R23, R28, R51), the branches of its judgement (R28, R30, R46, R62),
grants (R26, R52, R53), and ACQUIRE's checks in their order (R6, R27). -/

namespace Sys2Proof.Machine

/-! ### Conflict and blockers (R23, R28) -/

/-- Two modes do not conflict when both are SHARED (R23). -/
theorem modesConflict_eq_false {a b : LeaseMode} : modesConflict a b = false ↔ a = .shared ∧ b = .shared := by
  cases a <;> cases b <;> decide

/-- A request that meets a lease: an overlap, modes that conflict, and not the lease that an UPGRADE names (R23). -/
theorem meetsLease_eq_false (e : WaitEntry) (x : Nat × Lease) : e.meetsLease x = false ↔
    (e.namedId ≠ some x.1 → e.range.overlaps x.2.range = true → e.mode = .shared ∧ x.2.mode = .shared) := by
  rw [← modesConflict_eq_false]
  simp only [WaitEntry.meetsLease, Bool.and_eq_false_iff, decide_eq_false_iff_not]
  cases e.range.overlaps x.2.range <;> cases modesConflict e.mode x.2.mode <;> simp

theorem meetsEntry_eq_false (e f : WaitEntry) : e.meetsEntry f = false ↔
    (e.range.overlaps f.range = true → e.mode = .shared ∧ f.mode = .shared) := by
  rw [← modesConflict_eq_false]
  simp only [WaitEntry.meetsEntry, Bool.and_eq_false_iff]
  cases e.range.overlaps f.range <;> simp

theorem namedId_ne_some (e : WaitEntry) (id : Nat) : e.namedId ≠ some id ↔ e.kind ≠ .upgrade id := by
  unfold WaitEntry.namedId
  split
  next h => simp [h]
  next h => simp [h]

/-- Nothing blocks a request that meets no lease and no earlier entry. -/
theorem blockerOf_eq_none {e : WaitEntry} {l : List WaitEntry} {s : State} :
    blockerOf e l s = none ↔ (∀ x ∈ leases s, e.meetsLease x = false) ∧ ∀ f ∈ l, e.meetsEntry f = false := by
  refine ⟨fun h => ?_, fun ⟨h1, h2⟩ => blockerOf_none h1 h2⟩
  unfold blockerOf at h
  split at h
  next => exact absurd h (by simp)
  next hn =>
    rw [Option.map_eq_none_iff] at h
    rw [List.find?_eq_none] at h hn
    exact ⟨fun x hx => by simpa using hn x hx, fun f hf => by simpa using h f hf⟩

/-! ### The judgement of a request (R28, R30, R46, R62) -/

section
variable {e : WaitEntry} {s : State} {b : Blocker}

theorem judge_grants (h : blockerOf e s.le.queue s = none) : judge e s = grant e s := by simp [judge, h]

/-- A request that does not wait is refused CONFLICT. -/
theorem judge_conflict (h : blockerOf e s.le.queue s = some b) (hw : e.waitMs = 0) :
    judge e s = countEvent .refuse (some e.port)
      (complete e.port e.serial { status := .conflict, leaseId := e.namedId, detail := b.detail } s) := by
  simp [judge, h, hw]

/-- A request that would wait on itself is refused WOULD_DEADLOCK. -/
theorem judge_deadlock (h : blockerOf e s.le.queue s = some b) (hw : e.waitMs ≠ 0)
    (hr : e.port ∈ reachable (waitForEdges e s) e.port) :
    judge e s = countEvent .refuse (some e.port)
      (complete e.port e.serial { status := .wouldDeadlock, leaseId := e.namedId,
                                  detail := portSetItem (circleOf (waitForEdges e s) e.port) } s) := by
  simp [judge, h, hw, hr]

theorem judge_parks (h : blockerOf e s.le.queue s = some b) (hw : e.waitMs ≠ 0)
    (hr : e.port ∉ reachable (waitForEdges e s) e.port) : judge e s = park e s := by
  simp [judge, h, hw, hr]

end

/-- A wait of 00h is none. -/
theorem waitLength_eq_zero (wait : Byte) : waitLength wait = 0 ↔ wait = 0#8 := by
  have : wait.toNat = 0 ↔ wait = 0#8 := ⟨fun h => BitVec.eq_of_toNat_eq h, fun h => by rw [h]; rfl⟩
  rw [← this, waitLength]
  omega

/-- A free port's request that meets a blocker, judged as the lease engine takes it: the wait and the wait-for relation
choose CONFLICT, WOULD_DEADLOCK or the parking. -/
theorem judge_blocked {p : Port} {op wait : Byte} {e : WaitEntry} {b : Blocker} {n : Option Nat} {s : State}
    (hport : e.port = p) (hserial : e.serial = nextSerial p s) (hw : e.waitMs = waitLength wait) (hid : e.namedId = n)
    (h : blockerOf e s.le.queue s = some b) :
    (wait = 0#8 → judge e (takenByLe p op s) = countEvent .refuse (some p)
      (finish p { status := .conflict, leaseId := n, detail := b.detail } (takenByLe p op s))) ∧
    (wait ≠ 0#8 → p ∈ reachable (waitForEdges e s) p →
      judge e (takenByLe p op s) = countEvent .refuse (some p)
        (finish p { status := .wouldDeadlock, leaseId := n, detail := portSetItem (circleOf (waitForEdges e s) p) }
          (takenByLe p op s))) ∧
    (wait ≠ 0#8 → p ∉ reachable (waitForEdges e s) p →
      judge e (takenByLe p op s) = countEvent .park (some p) (setSlot p (nextSerial p s) .parked
        ((takenByLe p op s).modLe (fun x => { x with queue := x.queue ++ [e] })))) := by
  have hb : blockerOf e (takenByLe p op s).le.queue (takenByLe p op s) = some b := by simpa using h
  have h0 : wait ≠ 0#8 → e.waitMs ≠ 0 := fun hne => by rwa [hw, ne_eq, waitLength_eq_zero]
  refine ⟨fun hwait => ?_, fun hwait hr => ?_, fun hwait hr => ?_⟩
  · rw [judge_conflict hb (by rw [hw, waitLength_eq_zero, hwait]), hid, hport, hserial, finish, takenByLe_serial]
  · rw [judge_deadlock hb (h0 hwait) (by rwa [hport, takenByLe_waitForEdges]), hid, hport, hserial,
      takenByLe_waitForEdges, finish, takenByLe_serial]
  · rw [judge_parks hb (h0 hwait) (by rwa [hport, takenByLe_waitForEdges]), park, hport, hserial]

/-! ### Grants (R21, R26, R52, R53) -/

/-- An ACQUIRE's grant in a table with an empty slot. -/
theorem grant_acquire {e : WaitEntry} {s : State} {i : Nat} {x : LeaseSlot} (hk : e.kind = .acquire)
    (hi : firstEmptySlot s.le.table = some i) (hx : s.le.table[i]? = some x) :
    grant e s = countEvent .grant (some e.port) (complete e.port e.serial
      { status := .done, leaseId := some (i + 64 * (x.tag + 1#2).toNat),
        lastSector := some (e.range.first + e.range.count - 1), count := e.range.count }
      (s.modLe (fun y =>
        { y with
          table := y.table.set i
            { tag := x.tag + 1#2,
              lease := some { holder := e.port, mode := e.mode, first := e.range.first, count := e.range.count,
                              stamp := s.eu.epoch, state := .held } } }))) := by
  unfold grant
  rw [hk]
  simp only [fillSlot, hi, hx]
  rfl

/-- An UPGRADE's grant. -/
theorem grant_upgrade {e : WaitEntry} {id : Nat} (hk : e.kind = .upgrade id) (s : State) :
    grant e s = countEvent .grant (some e.port) (complete e.port e.serial
      { status := .done, leaseId := some id, lastSector := some (e.range.first + e.range.count - 1),
        count := e.range.count } (renewLease id (setLeaseMode id .exclusive s))) := by
  unfold grant
  rw [hk]
  rfl

/-! ### ACQUIRE (R6, R27) -/

section
variable {p : Port} {first count : Word16} {mode wait : Byte} {s : State} {m : LeaseMode} {r : Range}

theorem takeAcquire_refused (hr : r = { first := first.toNat, count := count.toNat })
    (h : r.inBounds = false ∨ leaseModeOf mode = none) :
    takeAcquire p first count mode wait s = finish p { status := .badParam } s := by
  subst hr
  unfold takeAcquire
  dsimp only
  split
  next m hm =>
    have hb := h.resolve_right (by simp [hm])
    rw [if_neg (by simp [hb])]
  next => rfl

theorem takeAcquire_valid (hr : r = { first := first.toNat, count := count.toNat }) (hb : r.inBounds = true)
    (hm : leaseModeOf mode = some m) : takeAcquire p first count mode wait s = acquireChecked p r m wait s := by
  subst hr
  simp [takeAcquire, hm, hb]

theorem acquireChecked_denied {st : Status} {n : Nat} (h : requestCheck p (decide (m = .exclusive)) r s = some (st, n)) :
    acquireChecked p r m wait s = finish p { status := st, lastSector := some n } s := by
  simp [acquireChecked, h]

theorem acquireChecked_overlap {id : Nat} (h : requestCheck p (decide (m = .exclusive)) r s = none)
    (ho : ownOverlap p r s = some id) :
    acquireChecked p r m wait s = finish p { status := .overlapSelf, detail := [BitVec.ofNat 8 id] } s := by
  simp [acquireChecked, h, ho, byteItem]

theorem acquireChecked_quota (h : requestCheck p (decide (m = .exclusive)) r s = none) (ho : ownOverlap p r s = none)
    (hq : s.ac.quota ≤ leaseCount p s) :
    acquireChecked p r m wait s = countEvent .refuse (some p)
      (finish p { status := .quota, detail := [BitVec.ofNat 8 (leaseCount p s), BitVec.ofNat 8 s.ac.quota] } s) := by
  simp [acquireChecked, h, ho, hq, byteItem]

theorem acquireChecked_full (h : requestCheck p (decide (m = .exclusive)) r s = none) (ho : ownOverlap p r s = none)
    (hq : leaseCount p s < s.ac.quota) (hf : 64 ≤ occupancy s) :
    acquireChecked p r m wait s = countEvent .refuse (some p) (finish p { status := .tableFull } s) := by
  simp [acquireChecked, h, ho, Nat.not_le.mpr hq, hf, Config.leaseSlots]

theorem acquireChecked_judged (h : requestCheck p (decide (m = .exclusive)) r s = none) (ho : ownOverlap p r s = none)
    (hq : leaseCount p s < s.ac.quota) (hf : occupancy s < 64) :
    acquireChecked p r m wait s =
      judge { port := p, kind := .acquire, range := r, mode := m, waitMs := waitLength wait,
              serial := (s.plu.get p).serial } s := by
  simp [acquireChecked, h, ho, Nat.not_le.mpr hq, Nat.not_le.mpr hf, Config.leaseSlots]

end

/-- ACQUIRE's frame at a free port: the lease engine takes it at once. -/
theorem exec_acquire_free {p : Port} {len : Nat} {s t : State} (hp : freePort p s = true) (hl : 8 ≤ len)
    {first count : Word16} {mode wait : Byte} (h : takeAcquire p first count mode wait (takenByLe p 0x10#8 s) = t) :
    exec (.acquire p first count mode wait len) s = .next (endAccepted p s [] len t) :=
  slotFrame_takenByLe hp hl (by omega) rfl h

/-- Settles O16: the checks of ACQUIRE, one rule for each, in the state in which the lease engine takes it. -/
theorem acquireIsChecked : Obligations.AcquireIsChecked := by
  refine fun p first count mode wait len s r hp hl hr =>
    ⟨fun hbad => exec_acquire_free hp hl (takeAcquire_refused hr hbad), fun m hb hm =>
      ⟨fun st n hc => exec_acquire_free hp hl ?_, fun hc =>
        ⟨fun id ho => exec_acquire_free hp hl ?_, fun ho hq => exec_acquire_free hp hl ?_,
          fun ho hq hf => exec_acquire_free hp hl ?_⟩⟩⟩
  all_goals rw [takeAcquire_valid hr hb hm]
  · exact acquireChecked_denied (by simpa using hc)
  · exact acquireChecked_overlap (by simpa using hc) (by simpa using ho)
  · rw [acquireChecked_quota (by simpa using hc) (by simpa using ho) (by simpa using hq)]
    simp
  · exact acquireChecked_full (by simpa using hc) (by simpa using ho) (by simpa using hq) (by simpa using hf)

/-- A range of LEASED sectors with enough access passes the check of a lease request (R6). -/
theorem requestCheck_none {p : Port} {w : Bool} {r : Range} {s : State}
    (h : ∀ n, r.first ≤ n → n < r.first + r.count → ∃ g, regionAt s n = some g ∧ g.mode = .leased ∧
      (g.access.get p).suffices w = true) : requestCheck p w r s = none := by
  have hs : ∀ n ∈ r.sectors, accessFails p w s n = false ∧ inMode .opened s n = false := by
    intro n hn
    obtain ⟨h1, h2⟩ := List.mem_range'_1.mp hn
    obtain ⟨g, hg, hm, ha⟩ := h n h1 h2
    simp [accessFails, inMode, hg, hm, ha]
  unfold requestCheck
  rw [List.find?_eq_none.mpr (fun n hn => by simp [(hs n hn).1]),
    List.find?_eq_none.mpr (fun n hn => by simp [(hs n hn).2])]

theorem ownOverlap_none {p : Port} {r : Range} {s : State}
    (h : ∀ y ∈ leases s, y.2.holder = p → r.overlaps y.2.range = false) : ownOverlap p r s = none := by
  unfold ownOverlap
  rw [Option.map_eq_none_iff, List.find?_eq_none]
  intro y hy
  rw [Range.overlaps_comm]
  simpa using h y hy

/-- Settles O17: the checks pass, nothing blocks the request, and the grant fills the first empty slot. -/
theorem acquireIsGranted : Obligations.AcquireIsGranted := by
  intro p first count mode wait len s m r i x hp hl hm hr h1 h2 hreg hown hq hf hlease hqueue hi hx
  have hb : r.inBounds = true := by simp [Range.inBounds, Config.userSectors, h1, h2]
  have hc := requestCheck_none hreg
  have ho := ownOverlap_none hown
  refine exec_acquire_free hp hl ?_
  rw [takeAcquire_valid hr hb hm, acquireChecked_judged (by simpa using hc) (by simpa using ho) (by simpa using hq)
    (by simpa using hf), judge_grants, grant_acquire rfl (by simpa using hi) (by simpa using hx)]
  · rfl
  · rw [takenByLe_blockerOf, takenByLe_queue, blockerOf_eq_none]
    refine ⟨fun y hy => ?_, fun e he => ?_⟩
    · exact (meetsLease_eq_false _ y).mpr fun _ ho => hlease y hy ho
    · exact (meetsEntry_eq_false _ e).mpr fun ho => hqueue e he ho

/-- Settles O18: the checks pass, a blocker is met, and the wait and the wait-for relation choose the answer. -/
theorem acquireThatMeetsAConflict : Obligations.AcquireThatMeetsAConflict := by
  intro p first count mode wait len s m e b hp hl hm he hb hc ho hq hf hblock
  have hr : e.range = { first := first.toNat, count := count.toNat } := by rw [he]
  have hj : takeAcquire p first count mode wait (takenByLe p 0x10#8 s) = judge e (takenByLe p 0x10#8 s) := by
    rw [takeAcquire_valid hr hb hm, acquireChecked_judged (by simpa using hc) (by simpa using ho) (by simpa using hq)
      (by simpa using hf), takenByLe_serial, he]
    rfl
  obtain ⟨h0, hd, hpark⟩ := judge_blocked (op := 0x10#8) (wait := wait) (n := none) (by rw [he]) (by rw [he])
    (by rw [he]; rfl) (by rw [he]; rfl) hblock
  exact ⟨fun hw => exec_acquire_free hp hl (hj.trans (h0 hw)),
    fun hw hr => exec_acquire_free hp hl (hj.trans (hd hw hr)),
    fun hw hr => exec_acquire_free hp hl (hj.trans (hpark hw hr))⟩

end Sys2Proof.Machine
end

section
/-! SUPPORT. Commands on a lease that its port holds: UPGRADE, DOWNGRADE, RENEW, RELEASE (R29 to R37), each by the branches of
its rule; a drain issued at once by a command that has one (R37, R83); the end of a lease (R39, R41, R42). -/

namespace Sys2Proof.Machine

/-! ### A drain issued at once (R37, R83) -/

/-- A command that drains, with something to drain, no earlier job and no hold: its slots become DRAINING and its job is
issued in the step of its frame. -/
theorem exec_hasJob_drain {p : Port} {len : Nat} {s t : State} {i : Instr} {a : PwuAction} {bound : List Nat}
    {items : List SectorItem} (h : HasJob p len s i a bound t) (hp : freePort p s = true) (hd : a.isDrain = true)
    (hi : items = drainItems a (s.pwu.get p)) (hne : items ≠ []) (hj : noJob p s = true)
    (hb : blocked p .committed (items.map (fun x => Range.single x.sector)) s = false) :
    exec i s = .next (endAccepted p s [] len
      (enqueueJob (.port { issuer := p, serial := nextSerial p s, abandoned := false } (.drain items))
        (endingAtIssue a (t.modPwu p (fun u =>
          { u with slots := u.slots.map (fun x => if a.takes x then { x with state := .draining } else x),
                   command := some { serial := nextSerial p s, action := a, bound := bound, stage := .issued,
                                     holdExpired := false, broken := [] } }))))) := by
  obtain ⟨hme, hnu, -, ht, -, hs⟩ := hasJob_fields h
  have hit : drainItems a (t.pwu.get p) = items := by rw [hi, drainItems, drainItems, hs]
  rw [exec_hasJob h hp, startCommand_drain (by rw [noJob_congr hme]; exact hj)
    (by rw [ht]; exact teardown_of_freePort hp p) hd (by rw [hit]; exact hne)
    (by rw [hit, blocked_congr hnu]; exact hb), hit]
  rfl

/-- The slots that a drain takes become DRAINING, in the statements' words. -/
theorem drainingSlots_eq {a : PwuAction} {id : Nat}
    (h : ∀ x, a.takes x = (decide (x.state = .staged) && decide (x.leaseId = id))) (l : List StagingSlot) :
    l.map (fun x => if a.takes x then { x with state := .draining } else x) =
      l.map (fun x => if decide (x.state = .staged) && decide (x.leaseId = id) = true
        then { x with state := .draining } else x) := by
  simp [h]

/-- A lease has STAGED slots when its drain has items. -/
theorem stagedCount_ne_zero {u : WriteUnit} {id : Nat}
    (h : (u.slots.filter (fun x => decide (x.state = .staged) && decide (x.leaseId = id))).map
      (fun x => { sector := x.sector, data := x.data : SectorItem }) ≠ []) : u.stagedCount id ≠ 0 := by
  intro h0
  have hs : u.slots.filter (fun x => decide (x.state = .staged) && decide (x.leaseId = id)) = [] :=
    List.eq_nil_of_length_eq_zero h0
  exact h (by rw [hs]; rfl)

theorem stagedCount_eq_zero {u : WriteUnit} {id : Nat} (h : ∀ x ∈ u.slots, x.state = .staged → x.leaseId ≠ id) :
    u.stagedCount id = 0 := by
  rw [WriteUnit.stagedCount, List.length_eq_zero_iff, List.filter_eq_nil_iff]
  intro x hx
  simp only [StagingSlot.stagedUnder, Bool.and_eq_true, decide_eq_true_eq, not_and]
  exact h x hx

/-! ### UPGRADE (R29, R30) -/

section
variable {p : Port} {id wait discard : Byte} {s : State} {l : Lease}

theorem takeUpgrade_gone (h : ownHeldLease p id.toNat s = none) :
    takeUpgrade p id wait s = finish p { status := .noLease } s := by simp [takeUpgrade, h]

theorem takeUpgrade_exclusive (h : ownHeldLease p id.toNat s = some l) (hm : l.mode = .exclusive) :
    takeUpgrade p id wait s = finish p { status := .badParam, leaseId := some id.toNat } s := by
  simp [takeUpgrade, h, hm]

/-- The region check refuses with the named lease's id only for DENIED (R29). -/
theorem takeUpgrade_denied {n : Nat} (h : ownHeldLease p id.toNat s = some l) (hm : l.mode = .shared)
    (hc : requestCheck p true l.range s = some (.denied, n)) :
    takeUpgrade p id wait s =
      finish p { status := .denied, leaseId := some id.toNat, lastSector := some n } s := by
  simp [takeUpgrade, h, hm, hc, refusedUpgradeId]

theorem takeUpgrade_judged (h : ownHeldLease p id.toNat s = some l) (hm : l.mode = .shared)
    (hc : requestCheck p true l.range s = none) :
    takeUpgrade p id wait s =
      judge { port := p, kind := .upgrade id.toNat, range := l.range, mode := .exclusive, waitMs := waitLength wait,
              serial := (s.plu.get p).serial } s := by
  simp [takeUpgrade, h, hm, hc]

/-! ### DOWNGRADE (R31, R32) -/

theorem takeDowngrade_gone (h : ownHeldLease p id.toNat s = none) :
    takeDowngrade p id s = finish p { status := .noLease } s := by simp [takeDowngrade, h]

theorem takeDowngrade_shared (h : ownHeldLease p id.toNat s = some l) (hm : l.mode = .shared) :
    takeDowngrade p id s = finish p { status := .badParam, leaseId := some id.toNat } s := by
  simp [takeDowngrade, h, hm]

/-- With nothing staged the mode changes at once. -/
theorem takeDowngrade_atOnce (h : ownHeldLease p id.toNat s = some l) (hm : l.mode = .exclusive)
    (hs : (s.pwu.get p).stagedCount id.toNat = 0) :
    takeDowngrade p id s = grantScan (finish p { status := .done, leaseId := some id.toNat }
      (renewLease id.toNat (setLeaseMode id.toNat .shared (s.modPwu p (fun u => u.dropPending l.range))))) := by
  simp [takeDowngrade, h, hm, hs]

/-! ### RENEW (R34) -/

theorem takeRenew_gone (h : ownHeldLease p id.toNat s = none) :
    takeRenew p id s = finish p { status := .noLease } s := by simp [takeRenew, h]

theorem takeRenew_held (h : ownHeldLease p id.toNat s = some l) :
    takeRenew p id s = finish p { status := .done, leaseId := some id.toNat, count := 1 } (renewLease id.toNat s) := by
  simp [takeRenew, h]

/-! ### RELEASE (R36, R37) -/

theorem takeRelease_gone (h : ownHeldLease p id.toNat s = none) :
    takeRelease p id discard s = finish p { status := .noLease } s := by simp [takeRelease, h]

theorem takeRelease_discard (h : ownHeldLease p id.toNat s = some l) (hd : discard ≠ 0#8) :
    takeRelease p id discard s = grantScan (finish p
      { status := .done, leaseId := some id.toNat, detail := [BitVec.ofNat 8 ((s.pwu.get p).stagedCount id.toNat)] }
      (removeLease id.toNat (s.modPwu p (fun u => (u.dropPending l.range).discardStaged id.toNat)))) := by
  simp [takeRelease, h, yes, hd, byteItem]

theorem takeRelease_atOnce (h : ownHeldLease p id.toNat s = some l) (hs : (s.pwu.get p).stagedCount id.toNat = 0) :
    takeRelease p id 0#8 s = grantScan (finish p { status := .done, leaseId := some id.toNat, detail := [0#8] }
      (removeLease id.toNat (s.modPwu p (fun u => u.dropPending l.range)))) := by
  simp [takeRelease, h, yes, hs, byteItem]

theorem takeCommit_gone (h : ownHeldLease p id.toNat s = none) :
    takeCommit p id s = finish p { status := .noLease } s := by simp [takeCommit, h]

end

/-! ### The lease behind a renewal and a change of mode (R20, R70) -/

/-- A HELD lease renewed: its stamp is the current epoch (R70). -/
theorem findLease_renewLease {s : State} {id : Nat} {l : Lease} (h : findLease s id = some l) (hs : l.state = .held) :
    findLease (renewLease id s) id = some { l with stamp := s.eu.epoch } := by
  simp [renewLease, findLease_updateLease, h, hs]

/-- A HELD lease's mode changed, and the lease renewed. -/
theorem findLease_renewLease_setLeaseMode {s : State} {id : Nat} {l : Lease} (h : findLease s id = some l)
    (hs : l.state = .held) (m : LeaseMode) :
    findLease (renewLease id (setLeaseMode id m s)) id = some { l with mode := m, stamp := s.eu.epoch } :=
  findLease_renewLease (l := { l with mode := m }) (by simp [setLeaseMode, findLease_updateLease, h]) hs

/-! ### The frames at a free port -/

theorem ownHeldLease_none {p : Port} {id : Nat} {s : State}
    (h : ∀ l, findLease s id = some l → l.holder = p → l.state ≠ .held) : ownHeldLease p id s = none := by
  rw [Option.eq_none_iff_forall_ne_some]
  intro l hl
  obtain ⟨hf, hh, hs⟩ := ownHeldLease_iff.mp hl
  exact h l hf hh hs

/-- Settles O20: the lease engine takes each frame at once, and a renewal sets the stamp. -/
theorem renewSetsTheStamp : Obligations.RenewSetsTheStamp := by
  refine ⟨fun p id len s l hp hl ho => ⟨?_, ?_⟩, fun p selector len s hp hl => ?_⟩
  · exact slotFrame_takenByLe hp hl (by omega) rfl (takeRenew_held (l := l) (by simpa using ho))
  · obtain ⟨hf, -, hs⟩ := ownHeldLease_iff.mp ho
    rw [findLease_renewLease (by simpa using hf) hs, takenByLe_eu]
  · refine slotFrame_takenByLe hp hl (by omega) rfl ?_
    simp only [takeCommand, takeRenewAll, takenByLe_heldLeases]

/-- Settles O23: each command's own branch for an id that names no HELD lease of its port. -/
theorem onlyOwnHeldLeasesAreActedOn : Obligations.OnlyOwnHeldLeasesAreActedOn := by
  intro p id x len s hp h
  have hn : ∀ op, ownHeldLease p id.toNat (takenByLe p op s) = none := fun op => by simpa using ownHeldLease_none h
  refine ⟨fun hl => ?_, fun hl => ⟨?_, ?_, ?_, ?_⟩⟩
  · exact slotFrame_takenByLe hp hl (by omega) rfl (takeDowngrade_gone (hn _))
  · exact slotFrame_takenByLe hp hl (by omega) rfl (takeUpgrade_gone (hn _))
  · exact slotFrame_takenByLe hp hl (by omega) rfl (takeRenew_gone (hn _))
  · exact slotFrame_takenByLe hp hl (by omega) rfl (takeRelease_gone (hn _))
  · exact slotFrame_takenByLe hp hl (by omega) rfl (takeCommit_gone (hn _))

/-- Settles O21: the discard flag, the lease's STAGED slots and their drain choose the branch. -/
theorem releaseEndsTheLease : Obligations.ReleaseEndsTheLease := by
  intro p id discard len s l hp hl ho
  have ho' : ownHeldLease p id.toNat (takenByLe p 0x14#8 s) = some l := by simpa using ho
  refine ⟨fun hd => ?_, fun hd hs => ?_, fun items hd hs hj hi hb => ?_⟩
  · refine slotFrame_takenByLe hp hl (by omega) rfl ((takeRelease_discard ho' hd).trans ?_)
    rw [takenByLe_pwu]
  · subst hd
    exact slotFrame_takenByLe hp hl (by omega) rfl (takeRelease_atOnce ho' (by rwa [takenByLe_pwu]))
  · subst hd
    have hne : items ≠ [] := fun h0 => hs (by
      have hlen := congrArg List.length (hi.symm.trans h0)
      rw [List.length_map] at hlen
      exact hlen)
    rw [exec_hasJob_drain (HasJob.release id l hl ho hs) hp rfl hi hne hj hb]
    simp only [endingAtIssue, State.modPwu_modPwu, drainingSlots_eq (a := .release id.toNat) (fun _ => rfl)]
    rfl

/-- Settles O19: UPGRADE's and DOWNGRADE's branches, with the lease that each leaves. -/
theorem leaseModesChange : Obligations.LeaseModesChange := by
  refine ⟨fun p id wait len s l hp hl ho hm hc hlease hqueue => ⟨?_, ?_⟩,
    fun p id len s l hp hl ho hm hs => ⟨?_, ?_⟩, fun p id wait len s l n hp hl ho hm hc => ?_,
    fun p id wait len s l e b hp hl ho hm hc he hblock => ?_, fun p id len s l items hp hl ho hm hi hne hj hb => ?_⟩
  · refine slotFrame_takenByLe hp hl (by omega) rfl ?_
    refine (takeUpgrade_judged (l := l) (by simpa using ho) hm (by simpa using hc)).trans ?_
    rw [judge_grants, grant_upgrade rfl]
    · rfl
    · rw [takenByLe_blockerOf, takenByLe_queue, blockerOf_eq_none]
      refine ⟨fun y hy => (meetsLease_eq_false _ y).mpr fun hn hov => ?_,
        fun e he => (meetsEntry_eq_false _ e).mpr fun hov => ?_⟩
      · rw [hlease y hy (fun h => hn (congrArg some h.symm))] at hov
        exact absurd hov Bool.false_ne_true
      · rw [hqueue e he] at hov
        exact absurd hov Bool.false_ne_true
  · obtain ⟨hf, -, hs⟩ := ownHeldLease_iff.mp ho
    rw [findLease_renewLease_setLeaseMode (by simpa using hf) hs, takenByLe_eu]
  · exact slotFrame_takenByLe hp hl (by omega) rfl (takeDowngrade_atOnce (by simpa using ho) hm
      (by rw [takenByLe_pwu]; exact stagedCount_eq_zero hs))
  · obtain ⟨hf, -, hs⟩ := ownHeldLease_iff.mp ho
    rw [findLease_renewLease_setLeaseMode (by simpa using hf) hs, takenByLe_eu]
  · exact slotFrame_takenByLe hp hl (by omega) rfl (takeUpgrade_denied (l := l) (by simpa using ho) hm
      (by simpa using hc))
  · have hj : takeCommand p (.upgrade id wait) (takenByLe p 0x11#8 s) = judge e (takenByLe p 0x11#8 s) := by
      refine (takeUpgrade_judged (l := l) (by simpa using ho) hm (by simpa using hc)).trans ?_
      rw [takenByLe_serial, he]
      rfl
    obtain ⟨h0, hd, hpark⟩ := judge_blocked (op := 0x11#8) (wait := wait) (n := some id.toNat) (by rw [he])
      (by rw [he]) (by rw [he]; rfl) (by rw [he]; rfl) hblock
    exact ⟨fun hw => slotFrame_takenByLe hp hl (by omega) rfl (hj.trans (h0 hw)),
      fun hw hr => slotFrame_takenByLe hp hl (by omega) rfl (hj.trans (hd hw hr)),
      fun hw hr => slotFrame_takenByLe hp hl (by omega) rfl (hj.trans (hpark hw hr))⟩
  · rw [exec_hasJob_drain (HasJob.downgrade id l hl ho hm (stagedCount_ne_zero (hi ▸ hne))) hp rfl hi hne hj hb]
    simp only [endingAtIssue, State.modPwu_modPwu, drainingSlots_eq (a := .downgrade id.toNat) (fun _ => rfl)]
    rfl

end Sys2Proof.Machine
end

section
/-! SUPPORT. The end of a lease (R39, R41 to R43, R98): what it leaves at the holder's write unit, the records that it gives,
and the lease's slot; a supervisor-only command of another port (R13). -/

namespace Sys2Proof.Machine

/-! ### The end of a lease -/

/-- The records that a cause gives before the lease's own end: LOST for EXPIRED and BROKEN (R42). -/
theorem lostIf_pwu (cause : EndCause) (id : Nat) (l : Lease) (s : State) :
    (if cause = .expired ∨ cause = .broken then lostEvent id l s else s).pwu = s.pwu := by
  split
  · exact (NoticesOnly.placeNotice ..).pwu
  · rfl

theorem lostIf_findLease (cause : EndCause) (id n : Nat) (l : Lease) (s : State) :
    findLease (if cause = .expired ∨ cause = .broken then lostEvent id l s else s) n = findLease s n := by
  split
  · exact findLease_congr (by rw [lostEvent, (NoticesOnly.placeNotice ..).le]) n
  · rfl

/-- The end of a lease, at the write units: the holder's STAGED slots of the lease discarded, its pending clear range
dropped if it overlaps. -/
theorem endLease_pwu {id : Nat} {cause : EndCause} {s : State} {l : Lease} (h : findLease s id = some l) :
    (endLease id cause s).pwu = s.pwu.modify l.holder (fun u => (u.discardStaged id).dropPending l.range) := by
  unfold endLease
  rw [h]
  dsimp only
  split
  · exact lostIf_pwu ..
  · exact (removeLease_pwu ..).1.trans (lostIf_pwu ..)

/-- The end of a lease as the operations that it consists of. -/
theorem endLease_eq {id : Nat} {cause : EndCause} {s t u : State} {l : Lease} (h : findLease s id = some l)
    (ht : t = s.modPwu l.holder (fun w => (w.discardStaged id).dropPending l.range))
    (hu : (cause = .expired ∨ cause = .broken) ∧
        u = placeNotice l.holder t { body := .lost l.holder id l.range, watch := none } ∨
      (cause = .portReset ∨ cause = .fenced) ∧ u = t) :
    endLease id cause s = if (s.pwu.get l.holder).drainingUnder id then setLeaseEnding id cause u
      else freedEvent id l (emptyLeaseSlot id u) := by
  have hlost : (if cause = .expired ∨ cause = .broken then lostEvent id l t else t) = u := by
    rcases hu with ⟨hc, rfl⟩ | ⟨hc, rfl⟩
    · exact if_pos hc
    · rcases hc with rfl | rfl <;> rfl
  have hfind : findLease u id = some l := by
    rw [← hlost, lostIf_findLease, ht]
    exact h
  have hremove : removeLease id u = freedEvent id l (emptyLeaseSlot id u) := by rw [removeLease, hfind]
  rw [← hremove, ← hlost, ht, endLease, h]

/-- Settles O24: the write units, the lease's slot, and the operations of the end. -/
theorem endingALease : Obligations.EndingALease := by
  intro id cause s l h
  refine ⟨fun x => ?_, ?_, fun q hq => ?_, fun hd => ?_, fun hd => ?_, fun t u ht hu => ⟨fun hd => ?_, fun hd => ?_⟩⟩
  · rw [endLease_pwu h, PortMap.get_modify_same]
    simp [WriteUnit.dropPending, WriteUnit.discardStaged, StagingSlot.stagedUnder, -not_and, not_and_or]
  · rw [endLease_pwu h, PortMap.get_modify_same]
    rfl
  · rw [endLease_pwu h, PortMap.get_modify_ne _ _ hq]
  · rw [endLease_findLease h, hd]
    rfl
  · rw [endLease_findLease h, hd]
    rfl
  · rw [endLease_eq h ht hu, if_pos hd]
  · rw [endLease_eq h ht hu, if_neg (by simp [hd])]

/-! ### Supervisor-only commands (R13, R180) -/

/-- A frame of a supervisor-only command, and what its owner makes of it at another port. -/
theorem exec_supervisorOnly {i : Instr} {d : Nat} {p : Port} {op : Byte} {ps : List Byte} {n : Nat}
    (h : supervisorOnly i = true) (hd : slotLength? i = some d) (hf : frameLayout i = some (p, op, ps, n)) (s : State) :
    ∃ c, exec i s = .next (slotFrame p op (decide (d ≤ n)) c n s) ∧ c.owners.nu = false ∧
      ∀ t : State, p ≠ t.ac.supervisor → takeCommand p c t = finish p { status := .notSupervisor } t := by
  cases i <;> simp only [supervisorOnly, Bool.false_eq_true] at h <;>
    simp only [slotLength?, Option.some.injEq] at hd <;>
    simp only [frameLayout, Option.some.injEq, Prod.mk.injEq] at hf <;> obtain ⟨rfl, rfl, -, rfl⟩ := hf <;> subst hd
  all_goals exact ⟨_, rfl, rfl, fun t ht => if_neg ht⟩

/-- A completion reaches the slot of the command that its owner is taking. -/
theorem finish_takenState (p : Port) (op : Byte) (sc : SlotCommand) (c : Completion) (s : State) :
    (finish p c (takenState p op sc s)).plu.get p =
      { (s.plu.get p).busyWith op with record := some { opcode := op, completion := c }, slot := .idle,
                                       resultReady := true } := by
  have hplu : (takenState p op sc s).plu.get p = (s.plu.get p).busyWith op := by
    unfold takenState
    split <;> simp [takenByLe, acceptedIn, servedPort]
  simp [finish, complete, hplu, Plu.holdsCommand, Plu.busyWith]

/-- Settles O26: the command's owner finishes it NOT_SUPERVISOR in the state in which it takes it. -/
theorem otherPortsAreNotSupervisor : Obligations.OtherPortsAreNotSupervisor := by
  intro i d p op ps n s hs hd hf hn hp hne
  obtain ⟨c, he, hnu, ht⟩ := exec_supervisorOnly hs hd hf s
  have hac : (takenState p op c s).ac = s.ac := by unfold takenState; split <;> rfl
  have hone : 1 ≤ n := by have := slotLength_pos hd; omega
  refine ⟨endAccepted p s [] n (finish p { status := .notSupervisor } (takenState p op c s)), ?_, ?_⟩
  · rw [he, decide_eq_true hn, slotFrame_free hp op hnu hone, ht _ (by rwa [hac])]
  · have hplu := finish_takenState p op c { status := .notSupervisor } s
    rw [endAccepted_eq]
    refine ⟨by simp [hplu], by simp [hplu], by simp [hplu], fun q hq => ?_, ?_⟩
    · rw [State.modPlu_plu, PortMap.get_modify_ne _ _ hq, finish, complete, State.modPlu_plu,
        PortMap.get_modify_ne _ _ hq]
      unfold takenState
      split
      · exact takenByLe_plu_ne op s hq
      · exact PortMap.get_modify_ne _ _ hq
    · unfold takenState
      split <;> exact ⟨rfl, rfl, rfl, rfl, rfl, rfl, rfl, rfl, rfl, rfl, rfl⟩

end Sys2Proof.Machine
end

section
/-! SUPPORT. The grant scan (R50, R51): a grant removes no lease and weakens no mode, so what blocks a parked entry goes on
blocking it while later entries are granted. -/

namespace Sys2Proof.Machine

/-- Every lease of `s` is in `t`, with its id and range, in its mode or in EXCLUSIVE. -/
def LeasesKept (s t : State) : Prop :=
  ∀ x ∈ leases s, ∃ y ∈ leases t, y.1 = x.1 ∧ y.2.range = x.2.range ∧ (y.2.mode = x.2.mode ∨ y.2.mode = .exclusive)

namespace LeasesKept

theorem ofTable {s t : State} (h : t.le.table = s.le.table) : LeasesKept s t :=
  fun x hx => ⟨x, by rw [leases, h]; exact hx, rfl, rfl, .inl rfl⟩

theorem trans {s t u : State} (h : LeasesKept s t) (k : LeasesKept t u) : LeasesKept s u := by
  intro x hx
  obtain ⟨y, hy, hi, hr, hm⟩ := h x hx
  obtain ⟨z, hz, ki, kr, km⟩ := k y hy
  refine ⟨z, hz, ki.trans hi, kr.trans hr, ?_⟩
  rcases km with km | km
  · rwa [km]
  · exact .inr km

/-- A change of one lease that keeps its range and does not weaken its mode. -/
theorem updateLease {f : Lease → Option Lease} (hf : ∀ l, ∃ k, f l = some k ∧ k.range = l.range ∧
    (k.mode = l.mode ∨ k.mode = .exclusive)) (id : Nat) (s : State) : LeasesKept s (Machine.updateLease id f s) := by
  intro x hx
  obtain ⟨j, y, hj, hy, hid⟩ := (mem_leasesFrom _ 0 x).mp hx
  obtain ⟨k, hk, hr, hm⟩ := hf x.2
  have hget : (tableUpdate s.le.table id f)[j]? = some
      (if id % 64 = j then (if y.tag.toNat = id / 64 then { y with lease := y.lease.bind f } else y) else y) := by
    rw [tableUpdate, List.getElem?_modify, hj]
    rfl
  by_cases hc : id % 64 = j ∧ y.tag.toNat = id / 64
  · refine ⟨(x.1, k), (mem_leasesFrom _ 0 _).mpr ⟨j, { y with lease := some k }, ?_, rfl, hid⟩, rfl, hr, hm⟩
    exact hget.trans (by rw [if_pos hc.1, if_pos hc.2, hy, Option.bind_some, hk])
  · refine ⟨x, (mem_leasesFrom _ 0 _).mpr ⟨j, y, ?_, hy, hid⟩, rfl, rfl, .inl rfl⟩
    rw [not_and'] at hc
    refine hget.trans (congrArg some ?_)
    split
    next h1 => exact if_neg fun h2 => hc h2 h1
    next => rfl

/-- A lease put into an empty slot. -/
theorem fillSlot (l : Lease) (s : State) :
    LeasesKept s (s.modLe (fun x => { x with table := (Machine.fillSlot s.le.table l).1 })) := by
  unfold Machine.fillSlot
  split
  next => exact ofTable rfl
  next i hi =>
    split
    next => exact ofTable rfl
    next z hz =>
      obtain ⟨hlt, he, -⟩ := List.findIdx?_eq_some_iff_getElem.mp hi
      have hnone : z.lease = none := by
        rw [List.getElem?_eq_getElem hlt, Option.some.injEq] at hz
        rw [← hz]
        simpa using he
      intro x hx
      obtain ⟨j, y, hj, hy, hid⟩ := (mem_leasesFrom _ 0 x).mp hx
      have hij : i ≠ j := fun h => by
        subst h
        rw [hz, Option.some.injEq] at hj
        rw [← hj, hnone] at hy
        exact absurd hy (by simp)
      exact ⟨x, (mem_leasesFrom _ 0 x).mpr ⟨j, y, by simp [List.getElem?_set_ne hij, hj], hy, hid⟩, rfl, rfl, .inl rfl⟩

theorem setLeaseMode_exclusive (id : Nat) (s : State) : LeasesKept s (setLeaseMode id .exclusive s) :=
  updateLease (f := fun l => some { l with mode := .exclusive }) (fun _ => ⟨_, rfl, rfl, .inr rfl⟩) id s

theorem renewLease (id : Nat) (s : State) : LeasesKept s (Machine.renewLease id s) := by
  refine updateLease (fun l => ⟨_, rfl, ?_⟩) id s
  split <;> exact ⟨rfl, .inl rfl⟩

theorem grant (e : WaitEntry) (s : State) : LeasesKept s (Machine.grant e s) := by
  unfold Machine.grant
  split
  · exact trans (fillSlot (e.newLease s) s) (ofTable rfl)
  · exact trans (setLeaseMode_exclusive _ s) (trans (renewLease _ _) (ofTable rfl))

end LeasesKept

/-- What a request meets in the leases, it goes on meeting. -/
theorem meetsLease_mono {e : WaitEntry} {x y : Nat × Lease} (h : e.meetsLease y = false) (hi : y.1 = x.1)
    (hr : y.2.range = x.2.range) (hm : y.2.mode = x.2.mode ∨ y.2.mode = .exclusive) : e.meetsLease x = false := by
  rw [meetsLease_eq_false] at h ⊢
  intro hn ho
  obtain ⟨he, hy⟩ := h (by rwa [hi]) (by rwa [hr])
  refine ⟨he, ?_⟩
  rcases hm with hm | hm
  · rwa [← hm]
  · exact absurd (hm.symm.trans hy) (by simp)

theorem blockerOf_isSome_mono {e : WaitEntry} {l : List WaitEntry} {s t : State} (h : LeasesKept s t)
    (hb : (blockerOf e l s).isSome = true) : (blockerOf e l t).isSome = true := by
  rw [Option.isSome_iff_ne_none] at hb ⊢
  refine fun hn => hb ?_
  rw [blockerOf_eq_none] at hn ⊢
  obtain ⟨h1, h2⟩ := hn
  refine ⟨fun x hx => ?_, h2⟩
  obtain ⟨y, hy, hi, hr, hm⟩ := h x hx
  exact meetsLease_mono (h1 y hy) hi hr hm

/-- Each entry of a list meets a lease or an entry before it. -/
def AllBlocked (l : List WaitEntry) (s : State) : Prop :=
  ∀ earlier e later, l = earlier ++ e :: later → (blockerOf e earlier s).isSome = true

theorem AllBlocked.mono {l : List WaitEntry} {s t : State} (h : AllBlocked l s) (k : LeasesKept s t) : AllBlocked l t :=
  fun a e b he => blockerOf_isSome_mono k (h a e b he)

theorem AllBlocked.append {l : List WaitEntry} {s : State} {e : WaitEntry} (h : AllBlocked l s)
    (he : (blockerOf e l s).isSome = true) : AllBlocked (l ++ [e]) s := by
  intro a x b hx
  rcases List.eq_nil_or_concat' b with rfl | ⟨b', y, rfl⟩
  · obtain ⟨rfl, hex⟩ := List.append_inj' hx rfl
    rw [List.cons.injEq] at hex
    rw [← hex.1]
    exact he
  · rw [← List.cons_append, ← List.append_assoc] at hx
    exact h a x b' (List.append_inj' hx rfl).1

/-- The walk leaves only entries that are blocked. -/
theorem scanWalk_allBlocked (todo parked : List WaitEntry) (s : State) (h : AllBlocked parked s) :
    AllBlocked (scanWalk parked todo s).le.queue (scanWalk parked todo s) := by
  induction todo generalizing parked s with
  | nil => exact h.mono (LeasesKept.ofTable rfl)
  | cons e t ih =>
    unfold scanWalk
    split
    next b hb => exact ih _ _ (h.append (by rw [hb]; rfl))
    next => exact ih _ _ (h.mono (LeasesKept.grant e s))

/-- The walk leaves entries in their order. -/
theorem scanWalk_sublist (todo parked : List WaitEntry) (s : State) :
    (scanWalk parked todo s).le.queue.Sublist (parked ++ todo) := by
  induction todo generalizing parked s with
  | nil => simp [scanWalk]
  | cons e t ih =>
    unfold scanWalk
    split
    · simpa using ih (parked ++ [e]) s
    · exact (ih parked (grant e s)).trans ((List.sublist_cons_self e t).append_left parked)

/-- Settles O25: the walk's invariants, its branches, what blocks an entry, and the two grants. -/
theorem grantScanLeavesNoneGrantable : Obligations.GrantScanLeavesNoneGrantable := by
  refine ⟨fun s earlier later e h => ?_, fun s => ⟨rfl, scanWalk_sublist s.le.queue [] s⟩, fun parked rest e s =>
    ⟨rfl, fun hb => ?_, fun hb => ?_, ?_⟩, fun e s done hdone => ⟨fun i x hk hi hx => ?_, fun id l hk hf hs => ⟨?_, ?_⟩⟩⟩
  · exact scanWalk_allBlocked s.le.queue [] s (fun a e b he => absurd he (by simp)) earlier e later h
  · obtain ⟨b, hb⟩ := Option.isSome_iff_exists.mp hb
    rw [scanWalk, hb]
  · rw [scanWalk, hb]
  · rw [blockerOf_eq_none]
    simp only [meetsLease_eq_false, meetsEntry_eq_false, namedId_ne_some]
  · subst hdone
    exact grant_acquire hk hi hx
  · subst hdone
    exact grant_upgrade hk s
  · exact findLease_renewLease_setLeaseMode hf hs _

end Sys2Proof.Machine
end

section
/-! SUPPORT. BREAK (R58, R75 to R78): the parked UPGRADE of the lease, the command bound to it, and the two together with the
lease's end. -/

namespace Sys2Proof.Machine

/-! ### The parked UPGRADE (R58) -/

theorem upgradeOf_none {id : Nat} {s : State} (h : ∀ e ∈ s.le.queue, e.kind ≠ .upgrade id) : upgradeOf id s = none := by
  rw [upgradeOf, List.find?_eq_none]
  simpa using h

section
variable {id : Nat} {s : State} {earlier later : List WaitEntry} {e : WaitEntry}

theorem upgradeOf_some (hq : s.le.queue = earlier ++ e :: later) (hk : e.kind = .upgrade id)
    (ho : ∀ f ∈ earlier ++ later, f.kind ≠ .upgrade id) : upgradeOf id s = some e := by
  have hn : earlier.find? (fun f => decide (f.kind = .upgrade id)) = none := by
    rw [List.find?_eq_none]
    intro f hf
    simpa using ho f (List.mem_append_left _ hf)
  rw [upgradeOf, hq, List.find?_append, hn, Option.none_or, List.find?_cons_of_pos (by simp [hk])]

/-- The entry leaves the queue, and no other does. -/
theorem queue_without (hk : e.kind = .upgrade id) (ho : ∀ f ∈ earlier ++ later, f.kind ≠ .upgrade id) :
    (earlier ++ e :: later).filter (fun f => decide (f ≠ e)) = earlier ++ later := by
  have hne : ∀ f ∈ earlier ++ later, f ≠ e := fun f hf h => ho f hf (by rw [h, hk])
  have hkeep : (earlier ++ later).filter (fun f => decide (f ≠ e)) = earlier ++ later :=
    List.filter_eq_self.mpr fun f hf => by simpa using hne f hf
  rw [List.filter_append, List.filter_cons_of_neg (by simp), ← List.filter_append, hkeep]

end

/-! ### The bound command (R76 to R78) -/

theorem boundCommand_none {q : Port} {id : Nat} {s : State}
    (h : ∀ c, (s.pwu.get q).command = some c → id ∉ c.bound ∨ (s.plu.get q).holdsCommand c.serial = false) :
    boundCommand q id s = none := by
  unfold boundCommand
  cases hc : (s.pwu.get q).command with
  | none => rfl
  | some c =>
    rcases h c hc with hb | hb
    · simp [Option.filter, hb]
    · simp [Option.filter, hb]

theorem boundCommand_some {q : Port} {id : Nat} {s : State} {c : PwuCommand} (hc : (s.pwu.get q).command = some c)
    (hb : id ∈ c.bound) (hs : (s.plu.get q).slot ≠ .idle) (hn : (s.plu.get q).serial = c.serial) :
    boundCommand q id s = some c := by
  simp [boundCommand, hc, Option.filter, hb, Plu.holdsCommand, hs, hn]

/-! ### The branches of a break -/

/-- BREAK's completion; `bound` says whether a command was bound. -/
def breakCompletion (id : Nat) (l : Lease) (bound : Bool) (s : State) : Completion :=
  { status := .done, leaseId := some id, lastSector := some l.range.last, count := l.count,
    detail := breakDetail l ((s.pwu.get l.holder).drainingUnder id) ((s.pwu.get l.holder).stagedCount id) bound }

section
variable {p : Port} {id : Nat} {l : Lease} {s : State}

/-- No UPGRADE of the lease is parked and no command is bound to it. -/
theorem breakLease_alone (hu : upgradeOf id s = none) (hb : boundCommand l.holder id s = none) :
    breakLease p id l s = grantScan (finish p (breakCompletion id l false s) (endLease id .broken s)) := by
  rw [breakLease, hu, hb]
  rfl

/-- An UPGRADE of the lease is parked. -/
theorem breakLease_parked {e : WaitEntry} (hu : upgradeOf id s = some e) (hb : boundCommand l.holder id s = none) :
    breakLease p id l s = grantScan (finish p (breakCompletion id l (e.inFlight s) s)
      (complete e.port e.serial { status := .leaseLost, leaseId := some id }
        (endLease id .broken (s.modLe (fun x => { x with queue := x.queue.filter (fun f => decide (f ≠ e)) }))))) := by
  rw [breakLease, hu, hb]
  simp only [Option.any_some, Option.isSome_none, Bool.or_false]
  rfl

/-- A command is bound to the lease. -/
theorem breakLease_bound {c : PwuCommand} (hu : upgradeOf id s = none) (hb : boundCommand l.holder id s = some c) :
    breakLease p id l s = grantScan (finish p (breakCompletion id l true s)
      (breakCommand l.holder id c (endLease id .broken s))) := by
  rw [breakLease, hu, hb]
  rfl

end

/-- What a break leaves of a write unit's command when none is bound: all of it, with the hold list. -/
theorem breakLease_unbound {p : Port} {id : Nat} {l : Lease} {s : State} (hb : boundCommand l.holder id s = none) :
    ((breakLease p id l s).pwu.get l.holder).command = (s.pwu.get l.holder).command ∧
      (breakLease p id l s).holdList = s.holdList := by
  cases hu : upgradeOf id s with
  | none =>
    rw [breakLease_alone hu hb, (grantScan_pwu _).1, (grantScan_pwu _).2]
    exact endLease_command id .broken s l.holder
  | some e =>
    rw [breakLease_parked hu hb, (grantScan_pwu _).1, (grantScan_pwu _).2]
    exact endLease_command id .broken _ l.holder

/-! ### BREAK's frame -/

section
variable {p : Port} {id : Byte} {len : Nat} {s : State}

/-- BREAK of an id that names no HELD lease. -/
theorem exec_break_gone (hp : freePort p s = true) (hs : p = s.ac.supervisor) (hl : 3 ≤ len)
    (h : ∀ l, findLease s id.toNat = some l → l.state ≠ .held) :
    exec (.breakLease p id len) s = .next (endAccepted p s [] len (finish p
      { status := .noLease, leaseId := some id.toNat } (takenByLe p 0x65#8 s))) := by
  refine slotFrame_takenByLe hp hl (by omega) rfl ?_
  have hn : (findLease s id.toNat).filter (fun l => decide (l.state = .held)) = none := by
    rw [Option.filter_eq_none_iff]
    simpa using h
  simp [takeCommand, takeBreak, asSupervisor, ← hs, hn]

/-- BREAK of a HELD lease. -/
theorem exec_break_held {l : Lease} (hp : freePort p s = true) (hs : p = s.ac.supervisor) (hl : 3 ≤ len)
    (h : findLease s id.toNat = some l) (hh : l.state = .held) :
    exec (.breakLease p id len) s =
      .next (endAccepted p s [] len (breakLease p id.toNat l (takenByLe p 0x65#8 s))) := by
  refine slotFrame_takenByLe hp hl (by omega) rfl ?_
  simp [takeCommand, takeBreak, asSupervisor, ← hs, h, hh, Option.filter]

end

/-- A port whose slot is not IDLE is not the free port that sends the frame. -/
theorem ne_of_slot {p q : Port} {s : State} (hp : freePort p s = true) (hq : (s.plu.get q).slot ≠ .idle) : q ≠ p := by
  rintro rfl
  simp only [freePort, Bool.and_eq_true, decide_eq_true_eq] at hp
  exact hq hp.1.2

/-- Settles O22: which of the lease's parked UPGRADE and bound command are there, in the state in which BREAK is taken. -/
theorem breakEndsTheLease : Obligations.BreakEndsTheLease := by
  refine ⟨fun p id l s hi => breakLease_unbound (boundCommand_none fun c _ => .inr (by simp [Plu.holdsCommand, hi])),
    fun p id len s hp hs hl => ⟨exec_break_gone hp hs hl, fun l done hf hh hd => ?_⟩⟩
  have hdone : ∀ b t, t.pwu = s.pwu → breakCompletion id.toNat l b t = done b := by
    intro b t ht
    rw [hd, breakCompletion, ht, breakDetail, boolItem_eq]
    simp only [byteItem, Lease.range, Range.last, List.cons_append, List.nil_append]
    split <;> rfl
  rw [exec_break_held hp hs hl hf hh]
  have hunbound : (∀ c, (s.pwu.get l.holder).command = some c → id.toNat ∉ c.bound) →
      boundCommand l.holder id.toNat (takenByLe p 0x65#8 s) = none :=
    fun h => boundCommand_none fun c hc => .inl (h c hc)
  have hbound : ∀ c, (s.pwu.get l.holder).command = some c → id.toNat ∈ c.bound → (s.plu.get l.holder).slot ≠ .idle →
      (s.plu.get l.holder).serial = c.serial → boundCommand l.holder id.toNat (takenByLe p 0x65#8 s) = some c :=
    fun c hc hb hs1 hs2 => boundCommand_some hc hb (by rwa [takenByLe_plu_ne _ _ (ne_of_slot hp hs1)])
      (by rwa [takenByLe_plu_ne _ _ (ne_of_slot hp hs1)])
  refine ⟨fun hu hb => ?_, fun earlier later e hq hk ho hs1 hs2 hb => ?_, fun earlier later e hq hk ho hs1 hs2 hb => ?_,
    fun c hu hc hb hs1 hs2 => ⟨fun hst => ?_, fun hst => ?_⟩⟩
  · rw [breakLease_alone (upgradeOf_none (s := takenByLe p 0x65#8 s) hu) (hunbound hb), hdone _ _ (takenByLe_pwu ..)]
  · have hin : e.inFlight (takenByLe p 0x65#8 s) = true := by
      have hne : e.port ≠ p := ne_of_slot hp (by simp [hs1])
      simp [WaitEntry.inFlight, takenByLe_plu_ne _ _ hne, Plu.holdsCommand, hs1, hs2]
    rw [breakLease_parked (upgradeOf_some (s := takenByLe p 0x65#8 s) hq hk ho) (hunbound hb), hin,
      hdone _ _ (takenByLe_pwu ..), ← queue_without hk ho, ← hq]
    rfl
  · have hgone : ((takenByLe p 0x65#8 s).plu.get e.port).holdsCommand e.serial = false := by
      rcases eq_or_ne e.port p with rfl | hne
      · simp [Plu.holdsCommand, nextSerial]
        omega
      · simp [takenByLe_plu_ne _ _ hne, Plu.holdsCommand, hs1]
    have hout : e.inFlight (takenByLe p 0x65#8 s) = false := hgone
    rw [breakLease_parked (upgradeOf_some (s := takenByLe p 0x65#8 s) hq hk ho) (hunbound hb), hout,
      hdone _ _ (takenByLe_pwu ..), complete_gone, ← queue_without hk ho, ← hq]
    · rfl
    · obtain ⟨hsl, hse⟩ := endLease_slot id.toNat .broken ((takenByLe p 0x65#8 s).modLe (fun x =>
        { x with queue := x.queue.filter (fun f => decide (f ≠ e)) })) e.port
      rw [Plu.holdsCommand, hsl, hse]
      exact hgone
  · rw [breakLease_bound (upgradeOf_none (s := takenByLe p 0x65#8 s) hu) (hbound c hc hb hs1 hs2),
      hdone _ _ (takenByLe_pwu ..), breakCommand, if_neg hst, dropHold]
    simp only [setCommand, lostAtOnce, State.modPwu_holdList, (endLease_command _ _ _ p).2]
    rfl
  · rw [breakLease_bound (upgradeOf_none (s := takenByLe p 0x65#8 s) hu) (hbound c hc hb hs1 hs2),
      hdone _ _ (takenByLe_pwu ..), breakCommand, if_pos hst]
    rfl

end Sys2Proof.Machine
end

section
/-! SUPPORT. The data commands as the write unit takes them: the checks of R5, and READ, COMMIT and CLEAR (R91, R94, R125 to
R130) with their jobs issued at once. -/

namespace Sys2Proof.Machine

/-! ### The check of a range (R5) -/

theorem mem_sectors {r : Range} {n : Nat} : n ∈ r.sectors ↔ r.first ≤ n ∧ n < r.first + r.count := List.mem_range'_1

/-- The lowest sector of a range with a property. -/
theorem find_sectors {r : Range} {f : Nat → Bool} {n : Nat} (h1 : r.first ≤ n) (h2 : n < r.first + r.count)
    (hn : f n = true) (hlow : ∀ m, r.first ≤ m → m < n → f m = false) : r.sectors.find? f = some n := by
  rw [Range.sectors, List.find?_range'_eq_some]
  exact ⟨hn, List.mem_range'_1.mpr ⟨h1, h2⟩, fun j hj hjn => by simp [hlow j hj hjn]⟩

theorem find_sectors_none {r : Range} {f : Nat → Bool} (h : ∀ m, r.first ≤ m → m < r.first + r.count → f m = false) :
    r.sectors.find? f = none := by
  rw [List.find?_eq_none]
  intro m hm
  obtain ⟨h1, h2⟩ := mem_sectors.mp hm
  simp [h m h1 h2]

/-- DENIED goes before NOT_COVERED, and each names the lowest sector that fails its check. -/
theorem dataCheck_refused {p : Port} {w : Bool} {r : Range} {s : State} {st : Status} {n : Nat} (h1 : r.first ≤ n)
    (h2 : n < r.first + r.count)
    (h : st = .denied ∧ accessFails p w s n = true ∧ (∀ m, r.first ≤ m → m < n → accessFails p w s m = false) ∨
      st = .notCovered ∧ (∀ m, r.first ≤ m → m < r.first + r.count → accessFails p w s m = false) ∧
        leaseFails p w s n = true ∧ (∀ m, r.first ≤ m → m < n → leaseFails p w s m = false)) :
    dataCheck p w r s = some (st, n) := by
  unfold dataCheck
  rcases h with ⟨rfl, hn, hlow⟩ | ⟨rfl, hacc, hn, hlow⟩
  · rw [find_sectors h1 h2 hn hlow]
  · rw [find_sectors_none hacc, find_sectors h1 h2 hn hlow]

/-- A range passes the check when every sector of it does. -/
theorem covered_of_dataCheck {p : Port} {w : Bool} {r : Range} {s : State} (h : dataCheck p w r s = none) :
    Covered p w r s := by
  unfold dataCheck at h
  split at h
  next => exact absurd h (by simp)
  next ha =>
    split at h
    next => exact absurd h (by simp)
    next hl =>
      rw [List.find?_eq_none] at ha hl
      exact fun n hn => ⟨by simpa using ha n hn, by simpa using hl n hn⟩

/-- What a WRITE or CLEAR keeps of a range that begins inside the user sectors. -/
theorem truncateRange_fst {first count : Nat} (h : first < 32768) :
    (truncateRange { first := first, count := count }).1 =
      { first := first, count := min count (32768 - first) } := by
  unfold truncateRange
  split
  next hle =>
    have hle' : first + count ≤ 32768 := hle
    rw [Nat.min_eq_left (by omega)]
  next hle =>
    have hle' : ¬ first + count ≤ 32768 := hle
    rw [Nat.min_eq_right (by omega)]
    rfl

/-! ### The frames of READ, WRITE and CLEAR at a free port -/

section
variable {p : Port} {len : Nat} {s t : State}

theorem exec_read_free {first : Word16} {count : Byte} (hp : freePort p s = true) (hl : 5 ≤ len)
    (hb : readParams first count = true) (h : takeRead p first count (takenByLe p 0x20#8 s) = t) :
    exec (.read p first count len) s = .next (endAccepted p s [] len t) :=
  slotFrame_takenByLe hp hl (by omega) hb h

theorem exec_write_free {first : Word16} {count : Byte} {payload : List Byte} (hp : freePort p s = true)
    (hl : 5 + 512 * count.toNat ≤ len) (hpl : 512 * count.toNat ≤ payload.length)
    (hb : writeParams first count = true) (h : takeWrite p first count payload (takenByLe p 0x21#8 s) = t) :
    exec (.write p first count payload len) s = .next (endAccepted p s [] len t) := by
  obtain ⟨h1, h2, -⟩ := (writeParams_iff first count).mp hb
  have hpay : payloadLength count = 512 * count.toNat := by
    rw [payloadLength, if_pos ⟨h1, h2⟩, Nat.mul_comm]
    rfl
  have hw : writeWhole count payload len = decide (5 + 512 * count.toNat ≤ len) := by simp [writeWhole, hpay, hpl]
  show Host.Outcome.next (slotFrame p 0x21#8 (writeWhole count payload len) _ len s) = _
  rw [hw]
  exact slotFrame_takenByLe hp hl (by omega) hb h

theorem exec_clear_free {first count : Word16} (hp : freePort p s = true) (hl : 6 ≤ len)
    (hb : clearParams first count = true) (h : takeClear p first count (takenByLe p 0x23#8 s) = t) :
    exec (.clear p first count len) s = .next (endAccepted p s [] len t) :=
  slotFrame_takenByLe hp hl (by omega) hb h

end

/-! ### Their branches -/

section
variable {p : Port} {s : State} {st : Status} {n : Nat}

theorem takeRead_refused {first : Word16} {count : Byte} (hb : readParams first count = true)
    (hc : dataCheck p false { first := first.toNat, count := count.toNat } s = some (st, n)) :
    takeRead p first count s = finish p { status := st, lastSector := some n } s := by
  simp only [takeRead, hb, if_true, hc]
  rfl

theorem takeRead_accepted {first : Word16} {count : Byte} {r : Range} (hb : readParams first count = true)
    (hr : r = { first := first.toNat, count := count.toNat }) (hc : dataCheck p false r s = none) :
    takeRead p first count s = acceptRead p r s := by
  subst hr
  simp only [takeRead, hb, if_true, hc]

theorem takeWrite_refused {first : Word16} {count : Byte} {payload : List Byte} (hb : writeParams first count = true)
    (hc : dataCheck p true (truncateRange { first := first.toNat, count := count.toNat }).1 s = some (st, n)) :
    takeWrite p first count payload s = finish p { status := st, lastSector := some n } s := by
  simp only [takeWrite, hb, if_true, hc]
  rfl

theorem takeWrite_accepted {first : Word16} {count : Byte} {payload : List Byte} {r : Range} {cut : Bool}
    (hb : writeParams first count = true) (hk : KeptRange first.toNat count.toNat r cut)
    (hc : dataCheck p true r s = none) : takeWrite p first count payload s = acceptWrite p r cut payload s := by
  simp only [takeWrite, hb, if_true, truncateRange_kept hk, hc]

theorem takeClear_refused {first count : Word16} (hb : clearParams first count = true)
    (hc : dataCheck p true (truncateRange { first := first.toNat, count := count.toNat }).1 s = some (st, n)) :
    takeClear p first count s = finish p { status := st, lastSector := some n } s := by
  simp only [takeClear, hb, if_true, hc]
  rfl

theorem takeClear_accepted {first count : Word16} {cmd : Range} {cut : Bool} (hb : clearParams first count = true)
    (hk : KeptRange first.toNat count.toNat cmd cut) (hc : dataCheck p true cmd s = none) :
    takeClear p first count s = acceptClear p cmd cut s := by
  simp only [takeClear, hb, if_true, truncateRange_kept hk, hc]

end

/-- Settles O27: each command's check of its range, in the state in which its owner takes it. -/
theorem dataCommandsAreChecked : Obligations.DataCommandsAreChecked := by
  intro p i op w r len s st n hp hi h1 h2 h
  have hc := dataCheck_refused h1 h2 h
  rcases hi with ⟨first, count, rfl, rfl, rfl, hl, hn1, hn2, hn3, rfl⟩ |
    ⟨first, count, payload, rfl, rfl, rfl, hl, hpl, hn1, hn2, hf, rfl⟩ | ⟨first, count, rfl, rfl, rfl, hl, hn1, hn2, hf, rfl⟩
  · have hb := (readParams_iff first count).mpr ⟨hn1, hn2, hn3⟩
    exact exec_read_free hp hl hb (takeRead_refused hb (by simpa using hc))
  · have hb := (writeParams_iff first count).mpr ⟨hn1, hn2, hf⟩
    exact exec_write_free hp hl hpl hb (takeWrite_refused hb (by rw [truncateRange_fst hf]; simpa using hc))
  · have hb := (clearParams_iff first count).mpr ⟨hn1, hn2, hf⟩
    exact exec_clear_free hp hl hb (takeClear_refused hb (by rw [truncateRange_fst hf]; simpa using hc))

/-! ### A job issued at once, and a job held (R82, R83, R151) -/

section
variable {p : Port} {len : Nat} {s t : State} {i : Instr} {a : PwuAction} {bound : List Nat}

/-- A command with a READ job or a META job, and no earlier job. -/
theorem exec_hasJob_plain {w : JobWork} (h : HasJob p len s i a bound t) (hp : freePort p s = true)
    (hj : noJob p s = true) (hw : (∃ r l, a = .read r l ∧ w = .read l) ∨ (a = .saveConfig ∧ w = .metadata)) :
    exec i s = .next (endAccepted p s [] len
      (enqueueJob (.port { issuer := p, serial := nextSerial p s, abandoned := false } w)
        (t.modPwu p (fun u =>
          { u with command := some { serial := nextSerial p s, action := a, bound := bound, stage := .issued,
                                     holdExpired := false, broken := [] } })))) := by
  obtain ⟨hme, -, -, ht, -, -⟩ := hasJob_fields h
  rw [exec_hasJob h hp, startCommand_plain (by rw [noJob_congr hme]; exact hj)
    (by rw [ht]; exact teardown_of_freePort hp p) hw]
  rfl

/-- A CLEAR with whole blocks, no earlier job and no hold. -/
theorem exec_hasJob_clear {blocks : List Nat} {cut : Bool} {formed : Option Range} (h : HasJob p len s i a bound t)
    (hp : freePort p s = true) (hj : noJob p s = true) (ha : a = .clear blocks cut formed)
    (hb : blocked p .cleared (blocks.map blockRange) s = false) :
    exec i s = .next (endAccepted p s [] len
      (enqueueJob (.port { issuer := p, serial := nextSerial p s, abandoned := false } (.clear blocks))
        (t.modPwu p (fun u =>
          { u with slots := u.slots.filter (fun x => !(decide (x.state = .staged) && blocks.contains (x.sector / 32))),
                   command := some { serial := nextSerial p s, action := a, bound := bound, stage := .issued,
                                     holdExpired := false, broken := [] } })))) := by
  obtain ⟨hme, hnu, -, ht, -, -⟩ := hasJob_fields h
  rw [exec_hasJob h hp, startCommand_clear (by rw [noJob_congr hme]; exact hj)
    (by rw [ht]; exact teardown_of_freePort hp p) ha (by rw [blocked_congr hnu]; exact hb), State.modPwu_modPwu]
  rfl

end

/-! ### READ (R91) -/

/-- Settles O29: the sectors that are not STAGED, and READ's job when there are any. -/
theorem readCopiesStagedAndReadsTheRest : Obligations.ReadCopiesStagedAndReadsTheRest := by
  intro p first count len s r t hp hl hr h1 h2 h3 hc ht
  have hb : readParams first count = true := by
    subst hr
    exact (readParams_iff first count).mpr ⟨h1, h2, h3⟩
  refine ⟨fun hs => ?_, fun rest hrest hne hj => ?_⟩
  · have hrest : (unstagedSectors (s.pwu.get p) r).isEmpty = true := by
      rw [List.isEmpty_iff, unstagedSectors, List.filter_eq_nil_iff]
      intro n hn
      simp [hs n hn]
    refine exec_read_free hp hl hb ((takeRead_accepted hb hr (by simpa using dataCheck_none hc)).trans ?_)
    simp only [acceptRead, takenByLe_pwu, hrest, if_true, takenByLe_coveringLeases, takenByLe_serial]
    rw [ht]
    rfl
  · rw [exec_hasJob_plain (HasJob.read first count r rest hl hr h1 h2 h3 hc hrest hne) hp hj (.inl ⟨r, rest, rfl, rfl⟩), ht]

/-! ### COMMIT (R94) -/

/-- The items of a write unit's slots stand in ascending order (R80). -/
theorem items_of_slotsSound {u : WriteUnit} (h : u.slotsSound = true) (f : StagingSlot → Bool) :
    ((u.slots.filter f).map (fun x => { sector := x.sector, data := x.data : SectorItem })).Pairwise
        (fun x y => x.sector < y.sector) ∧
      ((u.slots.filter f).map (fun x => { sector := x.sector, data := x.data : SectorItem })).length ≤ 8 := by
  simp only [WriteUnit.slotsSound, Bool.and_eq_true, decide_eq_true_eq] at h
  obtain ⟨hlen, hpair⟩ := h
  refine ⟨List.pairwise_map.mpr (hpair.sublist List.filter_sublist), ?_⟩
  rw [List.length_map]
  exact (List.length_filter_le _ _).trans hlen

/-- COMMIT, of one lease or of all, with no slot to take. -/
theorem acceptCommit_nothing {p : Port} {id : Option Nat} {s : State} (taken : List Nat)
    (h : (s.pwu.get p).slots.filter (PwuAction.commit id).takes = []) :
    acceptCommit p id taken s = finish p { status := .done, leaseId := id } s := by
  rw [acceptCommit, h]
  rfl

/-- Settles O31: the slots that COMMIT takes, and its drain when there are any. -/
theorem commitDrainsTheStagedSlots : Obligations.CommitDrainsTheStagedSlots := by
  intro p i id? bound renewed len s hp hl hi
  have hpwu : ((renewLeases renewed (takenByLe p 0x22#8 s)).pwu.get p) = s.pwu.get p := by
    rw [(renewLeases_fields _ _).1, takenByLe_pwu]
  have hjob : (s.pwu.get p).slots.filter (PwuAction.commit id?).takes ≠ [] →
      HasJob p len s i (.commit id?) bound (renewLeases renewed (takenByLe p 0x22#8 s)) := by
    intro hne
    rcases hi with ⟨id, l, rfl, rfl, rfl, rfl, ho⟩ | ⟨selector, rfl, rfl, rfl, rfl⟩
    · exact HasJob.commit id l hl ho hne
    · exact HasJob.commitAll selector hl hne
  refine ⟨fun hnone => ?_, fun items hit => ⟨fun hsound => hit ▸ items_of_slotsSound hsound _, fun hne hj hb => ?_⟩⟩
  · have hnone' := acceptCommit_nothing (s := renewLeases renewed (takenByLe p 0x22#8 s)) (p := p) bound
      (by rw [hpwu]; exact hnone)
    rcases hi with ⟨id, l, rfl, rfl, rfl, rfl, ho⟩ | ⟨selector, rfl, rfl, rfl, rfl⟩
    · refine slotFrame_takenByLe hp hl (by omega) rfl (Eq.trans ?_ hnone')
      simp only [takeCommand, takeCommit, takenByLe_ownHeldLease, ho]
      rfl
    · refine slotFrame_takenByLe hp hl (by omega) rfl (Eq.trans ?_ hnone')
      simp only [takeCommand, takeCommitAll, takenByLe_pwu, takenByLe_heldLeases]
  · have hne' : (s.pwu.get p).slots.filter (PwuAction.commit id?).takes ≠ [] := fun h0 => hne (by rw [hit, h0]; rfl)
    rw [exec_hasJob_drain (hjob hne') hp rfl hit hne hj hb]
    rfl

/-! ### CLEAR (R125 to R130) -/

/-- A pending range that overlaps or adjoins the command's is joined with it; one apart from it is not (R127). -/
theorem effectiveRange_some {cmd q : Range} (hc : 1 ≤ cmd.count) (hq : 1 ≤ q.count) :
    (q.first ≤ cmd.first + cmd.count → cmd.first ≤ q.first + q.count →
      effectiveRange cmd (some q) = { first := min q.first cmd.first,
                                      count := max (q.first + q.count) (cmd.first + cmd.count) - min q.first cmd.first }) ∧
    (cmd.first + cmd.count < q.first ∨ q.first + q.count < cmd.first → effectiveRange cmd (some q) = cmd) := by
  have hiff : (q.overlaps cmd || q.adjoins cmd) = true ↔
      q.first ≤ cmd.first + cmd.count ∧ cmd.first ≤ q.first + q.count := by
    simp only [Range.overlaps, Range.adjoins, Bool.or_eq_true, decide_eq_true_eq]
    omega
  refine ⟨fun h1 h2 => ?_, fun h => ?_⟩
  · simp only [effectiveRange, hiff.mpr ⟨h1, h2⟩, if_true]
    rfl
  · have hn : (q.overlaps cmd || q.adjoins cmd) = false := Bool.eq_false_iff.mpr fun ht => by
      obtain ⟨h1, h2⟩ := hiff.mp ht
      omega
    simp [effectiveRange, hn]

/-- Settles O32: the effective range, its whole blocks, and CLEAR's job when there are any. -/
theorem clearFormsItsRanges : Obligations.ClearFormsItsRanges := by
  intro p first count len s cmd eff cut t hp hl h1 h2 hf hk hc he ht
  have hb := (clearParams_iff first count).mpr ⟨h1, h2, hf⟩
  have hcmd : 1 ≤ cmd.count := by
    rcases hk with ⟨-, -, rfl⟩ | ⟨-, -, rfl⟩
    · exact h1
    · exact Nat.sub_pos_of_lt hf
  refine ⟨fun hw => ?_, fun hw hj hblk => ?_, fun hq => by rw [he, hq]; rfl, fun q hq hq1 => ?_⟩
  · refine exec_clear_free hp hl hb ((takeClear_accepted hb hk (by simpa using hc)).trans ?_)
    simp only [acceptClear, takenByLe_pwu, ← he, hw, List.isEmpty_nil, if_true, takenByLe_coveringLeases]
    rw [ht]
  · have hjob := HasJob.clear first count cmd eff cut hl h1 h2 hf hk (covered_of_dataCheck hc) he hw
    rw [exec_hasJob_clear hjob hp hj rfl hblk, ht]
  · rw [he, hq]
    exact effectiveRange_some hcmd hq1

/-! ### Whole blocks (R128) -/

theorem mem_wholeBlocks {r : Range} (h : 1 ≤ r.count) (b : Nat) :
    b ∈ wholeBlocks r ↔ r.first ≤ 32 * b ∧ 32 * b + 31 ≤ r.first + r.count - 1 := by
  simp only [wholeBlocks, Config.blockSectors, List.mem_range'_1]
  omega

/-- The last whole block of a range that has one. -/
theorem getLast_wholeBlocks {r : Range} {m : Nat} (h : (wholeBlocks r).getLast? = some m) :
    m + 1 = (r.first + r.count) / 32 := by
  have hlast : ∀ a n : Nat, (List.range' a n).getLast? = if n = 0 then none else some (a + n - 1) := by
    intro a n
    cases n with
    | zero => rfl
    | succ k => simp [List.range'_concat]
  simp only [wholeBlocks, Config.blockSectors, hlast] at h
  split at h
  · exact absurd h (by simp)
  · simp only [Option.some.injEq] at h
    omega

/-- Settles O34: the bounds of the whole blocks, and the tail after the last. -/
theorem wholeBlocksAndPendingRange : Obligations.WholeBlocksAndPendingRange := by
  refine fun r hr => ⟨mem_wholeBlocks hr, List.pairwise_lt_range', fun h => ⟨by rw [pendingAfter, h]; rfl, ?_⟩,
    fun m hm => ?_⟩
  · simp only [wholeBlocks, Config.blockSectors, List.range'_eq_nil_iff] at h
    omega
  · have hlast := getLast_wholeBlocks hm
    have htail : 32 * (m + 1) = 32 * m + 32 := rfl
    have hp : pendingAfter r = if 32 * (m + 1) < r.first + r.count
        then some { first := 32 * (m + 1), count := r.first + r.count - 32 * (m + 1) } else none := by
      rw [pendingAfter, hm]
      rfl
    refine ⟨fun h => ⟨?_, by omega⟩, fun h => ?_⟩
    · rw [hp, if_pos (by omega), htail]
    · rw [hp, if_neg (by omega)]

end Sys2Proof.Machine
end

section
/-! SUPPORT. WRITE (R84 to R88): its leased and its open sectors, the staging of a sector, and the drain of a WRITE that has
one. -/

namespace Sys2Proof.Machine

/-! ### The sectors of a WRITE (R84) -/

theorem mem_writeItems {r : Range} {payload : List Byte} {y : SectorItem} : y ∈ writeItems r payload ↔
    ∃ i, i < r.count ∧ y = { sector := r.first + i, data := (payload.drop (512 * i)).take 512 } := by
  simp only [writeItems, List.mem_map, List.mem_range, payloadSector, Config.sectorBytes, Nat.mul_comm 512, eq_comm (a := y)]

/-- A leased sector of a WRITE is one of its sectors in a LEASED region, with its data and its covering lease. -/
theorem mem_leasedItems {p : Port} {r : Range} {payload : List Byte} {s : State} {x : LeasedSector} :
    x ∈ leasedItems p (writeItems r payload) s ↔
      ∃ i, i < r.count ∧ inMode .leased s (r.first + i) = true ∧ x.sector = r.first + i ∧
        x.data = (payload.drop (512 * i)).take 512 ∧ coveringLease p true s (r.first + i) = some x.leaseId := by
  simp only [leasedItems, List.mem_filterMap, mem_writeItems]
  constructor
  · rintro ⟨y, ⟨i, hi, rfl⟩, h⟩
    split at h
    next hm =>
      obtain ⟨id, hid, rfl⟩ := Option.map_eq_some_iff.mp h
      exact ⟨i, hi, hm, rfl, rfl, hid⟩
    next => exact absurd h (by simp)
  · rintro ⟨i, hi, hm, hs, hd, hc⟩
    refine ⟨_, ⟨i, hi, rfl⟩, ?_⟩
    dsimp only
    rw [if_pos hm, hc, Option.map_some, ← hs, ← hd]

/-- The leased sectors stand in ascending order. -/
theorem pairwise_leasedItems (p : Port) (r : Range) (payload : List Byte) (s : State) :
    (leasedItems p (writeItems r payload) s).Pairwise (fun x y => x.sector < y.sector) := by
  have hsector : ∀ (y : SectorItem) (x : LeasedSector), (if inMode .leased s y.sector then
      (coveringLease p true s y.sector).map (fun id => { sector := y.sector, data := y.data, leaseId := id : LeasedSector })
      else none) = some x → x.sector = y.sector := by
    intro y x h
    split at h
    · obtain ⟨id, -, rfl⟩ := Option.map_eq_some_iff.mp h
      rfl
    · exact absurd h (by simp)
  have hitems : (writeItems r payload).Pairwise (fun x y => x.sector < y.sector) := by
    rw [writeItems, List.pairwise_map]
    exact List.pairwise_lt_range.imp (fun h => Nat.add_lt_add_left h r.first)
  rw [leasedItems, List.pairwise_filterMap]
  exact hitems.imp fun hab x hx y hy => by rw [hsector _ _ hx, hsector _ _ hy]; exact hab

/-- With no sector in an OPEN region there is no open sector. -/
theorem openItemsOf_nil {r : Range} {payload : List Byte} {s : State} (h : ∀ n ∈ r.sectors, inMode .opened s n = false) :
    openItemsOf (writeItems r payload) s = [] := by
  rw [openItemsOf, List.filter_eq_nil_iff]
  intro y hy
  obtain ⟨i, hi, rfl⟩ := mem_writeItems.mp hy
  simp [h (r.first + i) (mem_sectors.mpr ⟨by omega, by omega⟩)]

/-! ### Staging (R86) -/

/-- A sector with a STAGED slot: its slot takes the new data, and one STAGE_MERGE is counted. -/
theorem stageSector_merge {p : Port} {x : LeasedSector} {t : State}
    (h : ∃ y ∈ (t.pwu.get p).slots, y.sector = x.sector ∧ y.state = .staged) :
    stageSector p t x = countEvent .stageMerge (some p) (t.modPwu p (fun u =>
      { u with slots := u.slots.map (fun y =>
          if y.sector = x.sector ∧ y.state = .staged then { y with data := x.data } else y) })) := by
  have hs : (t.pwu.get p).hasStaged x.sector = true := by
    simpa [WriteUnit.hasStaged] using h
  rw [stageSector, if_pos hs]
  rfl

/-- The slot put in its place, for a sector that no slot holds. -/
theorem mem_insertSlot_iff {x : StagingSlot} {l : List StagingSlot} (h : ∀ y ∈ l, y.sector ≠ x.sector) (z : StagingSlot) :
    z ∈ insertSlot x l ↔ z ∈ l ∨ z = x := by
  induction l with
  | nil => simp [insertSlot]
  | cons y t ih =>
    have hy : ¬ x.sector = y.sector := fun he => h y (List.mem_cons_self ..) he.symm
    unfold insertSlot
    split
    · simp only [List.mem_cons]
      tauto
    · rw [List.mem_cons, List.mem_cons, ih fun w hw => h w (List.mem_cons_of_mem _ hw), or_assoc]

theorem length_insertSlot_new {x : StagingSlot} {l : List StagingSlot} (h : ∀ y ∈ l, y.sector ≠ x.sector) :
    (insertSlot x l).length = l.length + 1 := by
  induction l with
  | nil => rfl
  | cons y t ih =>
    have hy : ¬ x.sector = y.sector := fun he => h y (List.mem_cons_self ..) he.symm
    unfold insertSlot
    split
    · rfl
    · rw [List.length_cons, ih fun w hw => h w (List.mem_cons_of_mem _ hw), List.length_cons]

/-- A sector with no slot, with room: a STAGED slot of it is filled. -/
theorem stageSector_fill {p : Port} {x : LeasedSector} {t : State} (h : ∀ y ∈ (t.pwu.get p).slots, y.sector ≠ x.sector)
    (hroom : (t.pwu.get p).slots.length < 8) :
    stageSector p t x = t.modPwu p (fun u =>
      { u with slots := insertSlot { sector := x.sector, data := x.data, leaseId := x.leaseId, state := .staged }
                 (t.pwu.get p).slots }) := by
  have hs : (t.pwu.get p).hasStaged x.sector = false := by
    simp only [WriteUnit.hasStaged, List.any_eq_false, Bool.and_eq_true, decide_eq_true_eq, not_and]
    exact fun y hy he => absurd he (h y hy)
  have hfill : (t.pwu.get p).fill { sector := x.sector, data := x.data, leaseId := x.leaseId, state := .staged } =
      { t.pwu.get p with
        slots := insertSlot { sector := x.sector, data := x.data, leaseId := x.leaseId, state := .staged }
                   (t.pwu.get p).slots } := if_pos hroom
  rw [stageSector, hs, if_neg Bool.false_ne_true]
  simp [State.modPwu, PortMap.modify, hfill]

/-! ### WRITE's plan (R85, R87) -/

/-- Items inserted one by one keep the ascending order. -/
theorem foldl_insertItem_sorted (l items : List SectorItem) (h : items.Pairwise (fun x y => x.sector < y.sector)) :
    (l.foldl (fun l x => insertItem x l) items).Pairwise (fun x y => x.sector < y.sector) := by
  induction l generalizing items with
  | nil => exact h
  | cons x t ih => exact ih _ (insertItem_sorted h)

/-- The items of a WRITE's drain: its open sectors, and for a flush every STAGED slot. -/
theorem drainItems_write (r : Range) (cut flush : Bool) (leased : List LeasedSector) (opens : List SectorItem)
    (u : WriteUnit) : drainItems (.write r cut flush leased opens) u = opens.foldl (fun l x => insertItem x l)
      (if flush then (u.slots.filter (fun x => decide (x.state = .staged))).map
        (fun x => { sector := x.sector, data := x.data : SectorItem }) else []) := by
  have ht : ∀ x, (PwuAction.write r cut flush leased opens).takes x = (decide (x.state = .staged) && flush) := fun _ => rfl
  unfold drainItems
  cases flush <;> simp [PwuAction.openItems, funext ht]

/-- A WRITE with no open sector and with room stages at once. -/
theorem acceptWrite_staged {p : Port} {r : Range} {cut : Bool} {payload : List Byte} {s : State}
    (ho : openItemsOf (writeItems r payload) s = [])
    (hn : newSlots (s.pwu.get p) (leasedItems p (writeItems r payload) s) ≤ 8 - (s.pwu.get p).slots.length) :
    acceptWrite p r cut payload s = finish p
      { status := if cut then .overflow else .done, flags := { staged := true },
        lastSector := some (r.first + r.count - 1), count := r.count }
      (stageSectors p (leasedItems p (writeItems r payload) s)
        ((renewLeases (coveringLeases p true r s) s).modPwu p (fun u => { u with pendingClear := none }))) := by
  have hflush : decide (freeSlots (s.pwu.get p) < newSlots (s.pwu.get p) (leasedItems p (writeItems r payload) s)) = false :=
    decide_eq_false (Nat.not_lt.mpr hn)
  unfold acceptWrite
  simp only [ho, hflush]
  rfl

/-- Settles O30: WRITE's two plans, its leased sectors, and the staging of one. -/
theorem writeStagesAtOnce : Obligations.WriteStagesAtOnce := by
  intro p first count payload len s r cut hp h1 h2 hl hpl hf hk hc
  have hb := (writeParams_iff first count).mpr ⟨h1, h2, hf⟩
  refine ⟨fun ho hn => ?_, fun flush leased opens items hle ho hfl hj hit => ⟨fun hsound => ?_, fun hne hnj hblk => ?_⟩,
    fun x => mem_leasedItems, pairwise_leasedItems p r payload s, fun xs x t => ⟨rfl, rfl⟩,
    fun x t => ⟨stageSector_merge, fun hn hroom => ⟨_, stageSector_fill hn hroom, length_insertSlot_new hn,
      mem_insertSlot_iff hn⟩⟩⟩
  · refine exec_write_free hp hl hpl hb ((takeWrite_accepted hb hk (by simpa using dataCheck_none hc)).trans ?_)
    refine (acceptWrite_staged (openItemsOf_nil (s := takenByLe p 0x21#8 s) ho) hn).trans ?_
    rw [takenByLe_coveringLeases]
    rfl
  · rw [hit]
    refine foldl_insertItem_sorted _ _ ?_
    split
    · exact (items_of_slotsSound hsound _).1
    · exact List.Pairwise.nil
  · have hjob := HasJob.write first count payload r cut flush leased opens h1 h2 hl hpl hf hk hc hle ho hfl hj
    rw [exec_hasJob_drain hjob hp rfl (by rw [hit, drainItems_write]) hne hnj hblk]
    simp only [endingAtIssue, State.modPwu_modPwu]
    rfl

end Sys2Proof.Machine
end

section
/-! SUPPORT. The hold check (R150), a command's job held in the step of its frame (R83, R151), and the re-examination of the
hold list (R152). -/

namespace Sys2Proof.Machine

/-! ### The hold check (R150) -/

/-- A watch that holds jobs of a kind over the changed sectors. -/
theorem holds_iff (w : Watch) (k : ChangeKind) (changed : List Range) : w.holds k changed = true ↔
    ∃ (r : Range) (kinds : WatchKinds) (self : Bool), w = .sectors r kinds self true ∧
      (k = .committed ∧ kinds.committed = true ∨ k = .cleared ∧ kinds.cleared = true) ∧
      ∃ c ∈ changed, c.overlaps r = true := by
  cases w with
  | sectors r kinds self hold =>
    simp only [Watch.holds, Bool.and_eq_true, List.any_eq_true, Watch.sectors.injEq]
    constructor
    · rintro ⟨⟨hh, hk⟩, hc⟩
      refine ⟨r, kinds, self, ⟨rfl, rfl, rfl, hh⟩, ?_, hc⟩
      cases k
      · exact .inl ⟨rfl, hk⟩
      · exact .inr ⟨rfl, hk⟩
    · rintro ⟨_, _, _, ⟨rfl, rfl, rfl, hh⟩, hk, hc⟩
      refine ⟨⟨hh, ?_⟩, hc⟩
      rcases hk with ⟨rfl, hk⟩ | ⟨rfl, hk⟩ <;> exact hk
  | signals words self => simp [Watch.holds]
  | media => simp [Watch.holds]

theorem blocked_iff (p : Port) (k : ChangeKind) (changed : List Range) (s : State) : blocked p k changed s = true ↔
    ∃ (q : Port) (i : Nat) (r : Range) (kinds : WatchKinds) (self : Bool), q ≠ p ∧ (s.nu.get q).congested = true ∧
      (s.nu.get q).watches[i]? = some (some (.sectors r kinds self true)) ∧
      (k = .committed ∧ kinds.committed = true ∨ k = .cleared ∧ kinds.cleared = true) ∧
      ∃ c ∈ changed, c.overlaps r = true := by
  simp only [blocked, List.any_eq_true, Bool.and_eq_true, decide_eq_true_eq, holds_iff]
  constructor
  · rintro ⟨q, -, ⟨hq, hc⟩, ⟨i, w⟩, hw, r, kinds, self, rfl, hk, ho⟩
    exact ⟨q, i, r, kinds, self, hq, hc, (mem_watchesOf q s i _).mp hw, hk, ho⟩
  · rintro ⟨q, i, r, kinds, self, hq, hc, hw, hk, ho⟩
    exact ⟨q, Port.mem_all q, ⟨hq, hc⟩, (i, _), (mem_watchesOf q s i _).mpr hw, r, kinds, self, rfl, hk, ho⟩

/-! ### A held job (R151) -/

/-- What the hold check is given for a command's job. -/
theorem holdQuestion_eq {a : PwuAction} {u : WriteUnit} {k : ChangeKind} {changed : List Range}
    (h : AsksHold a u k changed) : holdQuestion a u = some (k, changed) := by
  rcases h with ⟨hd, rfl, rfl⟩ | ⟨blocks, cut, formed, rfl, rfl, rfl⟩
  · cases a <;> first | rfl | exact absurd hd Bool.false_ne_true
  · rfl

/-- A command whose job is blocked goes on the hold list, and its slot becomes HELD. -/
theorem exec_hasJob_held {p : Port} {len : Nat} {s t : State} {i : Instr} {a : PwuAction} {bound : List Nat}
    {k : ChangeKind} {changed : List Range} (hp : freePort p s = true) (hj : noJob p s = true)
    (h : HasJob p len s i a bound t) (ha : AsksHold a (s.pwu.get p) k changed) (hb : blocked p k changed s = true) :
    exec i s = .next (endAccepted p s [] len (setSlot p (nextSerial p s) .held
      ((t.modPwu p (fun u =>
        { u with command := some { serial := nextSerial p s, action := a, bound := bound, stage := .onHold,
                                   holdExpired := false, broken := [] } })).setHoldList
        (s.holdList ++ [{ port := p, kind := k, sectors := changed, holdMs := s.ac.holdLimit,
                          serial := nextSerial p s }])))) := by
  obtain ⟨hme, hnu, hhl, ht, hac, hs⟩ := hasJob_fields h
  have hask : ∀ c : Option PwuCommand, holdQuestion a ((setCommand p c t).pwu.get p) = some (k, changed) := by
    intro c
    rw [← holdQuestion_eq ha]
    cases a <;> simp [holdQuestion, drainItems, setCommand, hs]
  have hb' : ∀ c : Option PwuCommand, blocked p k changed (setCommand p c t) = true := fun c =>
    (blocked_congr (show (setCommand p c t).nu = s.nu from hnu) ..).trans hb
  rw [exec_hasJob h hp, startCommand_free (by rw [noJob_congr hme]; exact hj) (by rw [ht]; exact teardown_of_freePort hp p),
    holdOrIssue, hask]
  dsimp only
  rw [if_pos (hb' _)]
  simp only [setCommand, State.modPwu_modPwu, State.modPwu_holdList, State.modPwu_ac, hhl, hac]

/-- Settles O33: the hold check, the held job of each command, and the re-examination's lists and released commands. -/
theorem blockedJobsAreHeld : Obligations.BlockedJobsAreHeld := by
  refine ⟨blocked_iff, fun p id len s l changed hp hl ho hj hch hb => ?_,
    fun p first count len s cmd eff hp hl hcmd h1 h2 hc he hw hj hb => ?_,
    fun p i a bound len s t k changed hp hj h ha hb => exec_hasJob_held hp hj h ha hb, fun s => ?_⟩
  · have hne : (s.pwu.get p).slots.filter (PwuAction.commit (some id.toNat)).takes ≠ [] := by
      intro h0
      rw [blocked_iff] at hb
      obtain ⟨-, -, -, -, -, -, -, -, -, c, hcm, -⟩ := hb
      rw [hch, h0] at hcm
      exact absurd hcm (List.not_mem_nil)
    have hchanged : changed = (drainItems (.commit (some id.toNat)) (s.pwu.get p)).map (fun x => Range.single x.sector) := by
      rw [hch, drainItems]
      simp [PwuAction.openItems]
    exact exec_hasJob_held hp hj (HasJob.commit id l hl ho hne) (.inl ⟨rfl, rfl, hchanged⟩) hb
  · subst hcmd
    have hf : first.toNat < 32768 := by
      have : 1 ≤ count.toNat := h1
      have : first.toNat + count.toNat ≤ 32768 := h2
      omega
    have hcount : count.toNat ≤ 32768 := (Nat.le_add_left _ _).trans h2
    rw [exec_hasJob_held hp hj (HasJob.clear first count _ eff false hl h1 hcount hf (.inl ⟨rfl, h2, rfl⟩)
      (covered_of_dataCheck hc) he hw) (.inr ⟨_, _, _, rfl, rfl, rfl⟩) hb, State.modPwu_modPwu]
  · obtain ⟨hlist, -, hnu, hle, hme⟩ := reexamineFrom_lists s.holdList [] [] _ s rfl
    refine ⟨hlist, fun gone hg => (reexamineFrom_lists s.holdList [] [] gone s (by rw [hg]; rfl)).2.1, hnu, hle, hme,
      fun h c hm hb hu hc hs hst hsl hse => reexamineFrom_released s.holdList [] [] s h c hm hb hu hc hs hst hsl hse⟩

end Sys2Proof.Machine
end

section
/-! SUPPORT. QUERY SECTOR and QUERY LEASE (R19, R35): the lease reported, and the items of each detail. -/

namespace Sys2Proof.Machine

/-! ### The lease that QUERY SECTOR reports (R19) -/

section
variable {p : Port} {n : Nat} {s : State}

theorem reportedLease_eq_none : reportedLease p n s = none ↔ ∀ x ∈ leases s, x.2.range.contains n = false := by
  unfold reportedLease
  split
  next x hx =>
    have hm := List.mem_of_find?_eq_some hx
    have hp := List.find?_some hx
    simp only [Bool.and_eq_true] at hp
    simp only [reduceCtorEq, false_iff]
    intro h
    rw [h x hm] at hp
    exact Bool.false_ne_true hp.2
  next => simp [List.find?_eq_none]

/-- The port's own lease if it has one, otherwise another's; the first in slot order. -/
theorem reportedLease_eq_some {x : Nat × Lease} (h : reportedLease p n s = some x) : x.2.range.contains n = true ∧
    ∃ before after, leases s = before ++ x :: after ∧
      (x.2.holder = p → ∀ y ∈ before, y.2.holder = p → y.2.range.contains n = false) ∧
      (x.2.holder ≠ p → (∀ y ∈ before, y.2.range.contains n = false) ∧
        (∀ y ∈ leases s, y.2.holder = p → y.2.range.contains n = false)) := by
  unfold reportedLease at h
  split at h
  next z hz =>
    cases h
    obtain ⟨hx, before, after, hl, hb⟩ := List.find?_eq_some_iff_append.mp hz
    simp only [Bool.and_eq_true, decide_eq_true_eq] at hx
    exact ⟨hx.2, before, after, hl, fun _ y hy hq => by simpa [hq] using hb y hy, fun hne => absurd hx.1 hne⟩
  next hz =>
    obtain ⟨hx, before, after, hl, hb⟩ := List.find?_eq_some_iff_append.mp h
    have hown : ∀ y ∈ leases s, y.2.holder = p → y.2.range.contains n = false := fun y hy hq => by
      simpa [hq] using List.find?_eq_none.mp hz y hy
    have hbefore : ∀ y ∈ before, y.2.range.contains n = false := fun y hy => by simpa using hb y hy
    exact ⟨hx, before, after, hl, fun _ y hy _ => hbefore y hy, fun _ => ⟨hbefore, hown⟩⟩

end

@[simp] theorem takenByLe_reportedLease (p q : Port) (op : Byte) (n : Nat) (s : State) :
    reportedLease q n (takenByLe p op s) = reportedLease q n s := rfl

/-! ### The items (R19, R35, R178) -/

/-- The byte of an item that is absent with its region. -/
theorem byteItem?_region (f : Nat × Region → Nat) (o : Option (Nat × Region)) :
    byteItem? (o.map f) = [match o with | some x => BitVec.ofNat 8 (f x) | none => 0xFF#8] := by cases o <;> rfl

/-- The byte of an item that is absent with its lease. -/
theorem byteItem?_lease (f : Nat × Lease → Nat) (o : Option (Nat × Lease)) :
    byteItem? (o.map f) = [match o with | some x => BitVec.ofNat 8 (f x) | none => 0xFF#8] := by cases o <;> rfl

/-- Does the port's pending clear range contain the sector (R19)? -/
def clearPendingAt (u : WriteUnit) (n : Nat) : Bool :=
  match u.pendingClear with
  | some q => q.contains n
  | none => false

theorem clearPendingAt_item (u : WriteUnit) (n : Nat) : boolItem (clearPendingAt u n) =
    [match u.pendingClear with
      | some q => if q.first ≤ n ∧ n < q.first + q.count then 1#8 else 0#8
      | none => 0#8] := by
  rw [clearPendingAt]
  cases u.pendingClear with
  | none => rfl
  | some q => simp [boolItem_eq, Range.contains]

theorem stagingCode_item (u : WriteUnit) (n : Nat) : byteItem (stagingCode u n) =
    [match u.slots.find? (fun x => decide (x.sector = n)) with
      | some x => match x.state with | .staged => 1#8 | .draining => 2#8
      | none => 0#8] := by
  rw [stagingCode]
  cases u.slots.find? (fun x => decide (x.sector = n)) with
  | none => rfl
  | some x => cases h : x.state <;> simp [h, byteItem]

/-- QUERY SECTOR's detail, item by item; `pending` is the item of the pending clear range. -/
theorem querySectorDetail_eq {p : Port} {n : Nat} {s : State} {pending : Byte}
    (h : boolItem (clearPendingAt (s.pwu.get p) n) = [pending]) (region : Option (Nat × Region))
    (lease : Option (Nat × Lease)) : region = regionIn s.ac.regions n → lease = reportedLease p n s →
    querySectorDetail p n s =
      [match region with | some x => BitVec.ofNat 8 x.1 | none => 0xFF#8,
       match region with | some x => BitVec.ofNat 8 (x.2.access.get p).code | none => 0#8,
       match region with | some x => BitVec.ofNat 8 x.2.mode.code | none => 0xFF#8,
       match lease with | some x => BitVec.ofNat 8 x.1 | none => 0xFF#8,
       match lease with | some x => BitVec.ofNat 8 x.2.holder.num | none => 0xFF#8,
       match lease with | some x => BitVec.ofNat 8 x.2.mode.code | none => 0xFF#8,
       match lease with | some x => BitVec.ofNat 8 x.2.state.code | none => 0xFF#8,
       BitVec.ofNat 8 ((leases s).filter (fun x => x.2.range.contains n)).length,
       match (s.pwu.get p).slots.find? (fun x => decide (x.sector = n)) with
         | some x => match x.state with | .staged => 1#8 | .draining => 2#8
         | none => 0#8,
       pending, BitVec.ofNat 8 (servingBlock s.me (n / 32) / 256), BitVec.ofNat 8 (servingBlock s.me (n / 32))] := by
  intro hr hl
  unfold querySectorDetail
  dsimp only
  rw [← hr, ← hl, stagingCode_item, byteItem?_region, byteItem?_region, byteItem?_lease, byteItem?_lease,
    byteItem?_lease, byteItem?_lease]
  show _ ++ boolItem (clearPendingAt (s.pwu.get p) n) ++ wordItem (servingBlock s.me (n / 32)) = _
  rw [h]
  cases region <;> rfl

/-- QUERY SECTOR of a user sector. -/
theorem takeQuerySector_valid {p : Port} {sector : Word16} (h : querySectorParams sector = true) (s : State) :
    takeQuerySector p sector s = finish p
      { status := .done, leaseId := (reportedLease p sector.toNat s).map Prod.fst, lastSector := some sector.toNat,
        detail := querySectorDetail p sector.toNat s } s := by
  simp only [takeQuerySector, h, if_true]

/-- QUERY LEASE's detail, item by item. -/
theorem queryLeaseDetail_eq (l : Lease) (s : State) : queryLeaseDetail l s =
    [BitVec.ofNat 8 l.holder.num, BitVec.ofNat 8 l.mode.code, BitVec.ofNat 8 l.state.code,
     match l.state with | .held => 0xFF#8 | .ending c => BitVec.ofNat 8 c.code,
     BitVec.ofNat 8 (l.first / 256), BitVec.ofNat 8 l.first, BitVec.ofNat 8 l.stamp.toNat,
     BitVec.ofNat 8 (s.eu.epoch - l.stamp).toNat] := by
  have hcause : byteItem? l.state.causeCode? =
      [match l.state with | .held => 0xFF#8 | .ending c => BitVec.ofNat 8 c.code] := by cases l.state <;> rfl
  rw [queryLeaseDetail, hcause]
  rfl

/-- Settles O35: the two queries' items in the state in which they are taken, and a sector out of range refused at once. -/
theorem queriesReport : Obligations.QueriesReport := by
  refine ⟨fun p sector len s hp hl region lease hs hr hle => ?_, fun p sector len s ho hi hrel hl hs => ?_,
    fun p n s => ⟨reportedLease_eq_none, fun x => reportedLease_eq_some⟩,
    fun p id len s hp hl => ⟨fun l hf => ?_, fun hf => ?_⟩⟩
  · have hb : querySectorParams sector = true := (querySectorParams_iff sector).mpr (by omega)
    refine slotFrame_takenByLe hp hl (by omega) hb ((takeQuerySector_valid hb _).trans ?_)
    rw [querySectorDetail_eq (s := takenByLe p 0x24#8 s) (clearPendingAt_item ..) region lease hr hle, takenByLe_reportedLease,
      ← hle]
    rfl
  · have hb : (SlotCommand.querySector sector).paramsRefused = true := decide_eq_true (by omega)
    have hn : querySectorParams sector = false := Bool.eq_false_iff.mpr fun ht => by
      have := (querySectorParams_iff sector).mp ht
      omega
    rw [← slotFrame_refused ho hi hrel (by omega) hb (.inl hn), ← decide_eq_true hl]
    rfl
  · refine slotFrame_takenByLe hp hl (by omega) rfl ?_
    simp only [takeCommand, takeQueryLease, takenByLe_findLease, hf, queryLeaseDetail_eq]
    rfl
  · refine slotFrame_takenByLe hp hl (by omega) rfl ?_
    simp only [takeCommand, takeQueryLease, takenByLe_findLease, hf]

end Sys2Proof.Machine
end

section
/-! SUPPORT. The notice unit's records (R139 to R145): one record placed, and for each event the records that every port
gets. -/

namespace Sys2Proof.Machine

/-- A record for a queue with room. -/
theorem placeNotice_room {p : Port} {s : State} (n : Notice) (h : (s.nu.get p).queue.length < 16) :
    placeNotice p s n = s.modNu p (fun u =>
      { u with queue := u.queue ++ [n], congested := u.congested || decide (u.high ≤ u.queue.length + 1) }) := if_pos h

/-- A record for a full queue is dropped. -/
theorem placeNotice_full {p : Port} {s : State} (n : Notice) (h : 16 ≤ (s.nu.get p).queue.length) :
    placeNotice p s n = countEvent .noticeDrop (some p) (s.modNu p (fun u => { u with overrun := true })) :=
  if_neg (Nat.not_lt.mpr h)

/-- The records of a port that gets none while it is fenced. -/
theorem mem_unlessFenced {fenced : Bool} {l : List Notice} {x : Notice} :
    x ∈ (if fenced then [] else l) ↔ fenced = false ∧ x ∈ l := by cases fenced <;> simp

theorem pairwise_unlessFenced {fenced : Bool} {l : List Notice} {r : Notice → Notice → Prop} (h : l.Pairwise r) :
    (if fenced then [] else l).Pairwise r := by cases fenced <;> simp [h]

section
variable (source : Port) (s : State)

/-- What a COMMITTED event gives each port (R140). -/
theorem committedEvent_records (sectors : List Nat) : ∃ records : Port → List Notice,
    committedEvent source sectors s = deliver records s ∧
    ∀ q, (records q).Pairwise (fun x y => x.watch.getD 0 < y.watch.getD 0) ∧ ∀ x, x ∈ records q ↔
      (s.plu.get q).fenced = false ∧ ∃ (i : Nat) (r : Range) (k : WatchKinds) (self hold : Bool) (a b : Nat),
        (s.nu.get q).watches[i]? = some (some (.sectors r k self hold)) ∧ k.committed = true ∧
        (q ≠ source ∨ self = true) ∧ a ∈ sectors ∧ b ∈ sectors ∧ r.contains a = true ∧ r.contains b = true ∧
        (∀ n ∈ sectors, r.contains n = true → a ≤ n ∧ n ≤ b) ∧
        x = { body := .committed source { first := a, count := b + 1 - a }, watch := some i } := by
  refine ⟨_, rfl, fun q => ⟨pairwise_unlessFenced (pairwise_sectorRecords ..), fun x => ?_⟩⟩
  rw [mem_unlessFenced, mem_sectorRecords]
  simp only [changedWithin_singles]
  refine and_congr_right fun _ => ⟨?_, ?_⟩
  · rintro ⟨i, r, k, self, hold, d, hw, hk, hs, ⟨a, b, ha, hb, hra, hrb, hab, rfl⟩, rfl⟩
    exact ⟨i, r, k, self, hold, a, b, hw, hk, hs, ha, hb, hra, hrb, hab, rfl⟩
  · rintro ⟨i, r, k, self, hold, a, b, hw, hk, hs, ha, hb, hra, hrb, hab, rfl⟩
    exact ⟨i, r, k, self, hold, _, hw, hk, hs, ⟨a, b, ha, hb, hra, hrb, hab, rfl⟩, rfl⟩

/-- What a CLEARED event gives each port (R131, R140). -/
theorem clearedEvent_records (c : Range) : ∃ records : Port → List Notice, clearedEvent source c s = deliver records s ∧
    ∀ q, (records q).Pairwise (fun x y => x.watch.getD 0 < y.watch.getD 0) ∧ ∀ x, x ∈ records q ↔
      (s.plu.get q).fenced = false ∧ ∃ (i : Nat) (r : Range) (k : WatchKinds) (self hold : Bool) (d : Range),
        (s.nu.get q).watches[i]? = some (some (.sectors r k self hold)) ∧ k.cleared = true ∧
        (q ≠ source ∨ self = true) ∧ c.common r = some d ∧ x = { body := .cleared source d, watch := some i } := by
  refine ⟨_, rfl, fun q => ⟨pairwise_unlessFenced (pairwise_sectorRecords ..), fun x => ?_⟩⟩
  rw [mem_unlessFenced, mem_sectorRecords]
  simp only [changedWithin_one]

/-- What a FREED event gives each port, fenced or not (R141). -/
theorem freedEvent_records (id : Nat) (l : Lease) : ∃ records : Port → List Notice, freedEvent id l s = deliver records s ∧
    ∀ q, (records q).Pairwise (fun x y => x.watch.getD 0 < y.watch.getD 0) ∧ ∀ x, x ∈ records q ↔
      ∃ (i : Nat) (r : Range) (k : WatchKinds) (self hold : Bool) (d : Range),
        (s.nu.get q).watches[i]? = some (some (.sectors r k self hold)) ∧ k.freed = true ∧
        (q ≠ l.holder ∨ self = true) ∧ l.range.common r = some d ∧
        x = { body := .freed l.holder id d, watch := some i } := by
  refine ⟨_, rfl, fun q => ⟨pairwise_sectorRecords .., fun x => ?_⟩⟩
  rw [mem_sectorRecords]
  simp only [changedWithin_one]

/-- What a SIGNAL event gives each port (R143). -/
theorem signalEvent_records (word : Nat) (value : Word16) : ∃ records : Port → List Notice,
    signalEvent source word value s = deliver records s ∧
    ∀ q, (records q).Pairwise (fun x y => x.watch.getD 0 < y.watch.getD 0) ∧ ∀ x, x ∈ records q ↔
      (s.plu.get q).fenced = false ∧ ∃ (i : Nat) (words : Word16) (self : Bool),
        (s.nu.get q).watches[i]? = some (some (.signals words self)) ∧ words.getLsbD word = true ∧
        (q ≠ source ∨ self = true) ∧ x = { body := .signal source word value, watch := some i } := by
  refine ⟨_, rfl, fun q => ⟨pairwise_unlessFenced (pairwise_signalRecords ..), fun x => ?_⟩⟩
  rw [mem_unlessFenced, mem_signalRecords]

end

/-- The record of a media event at a port: one, for its lowest MEDIA entry, unless it is fenced or has none (R144). -/
def mediaRecords (k : MediaKind) (block : Nat) (s : State) (q : Port) : List Notice :=
  if (s.plu.get q).fenced then [] else
    match (watchesOf q s).find? (fun x => x.2.isMedia) with
    | some (i, _) => [{ body := .media k block, watch := some i }]
    | none => []

theorem mediaEvent_eq (k : MediaKind) (block : Nat) (s : State) :
    mediaEvent k block s = deliver (mediaRecords k block s) s := rfl

theorem mediaRecords_nil {q : Port} {s : State} (k : MediaKind) (block : Nat)
    (h : (s.plu.get q).fenced = true ∨ ∀ i : Nat, (s.nu.get q).watches[i]? ≠ some (some Watch.media)) :
    mediaRecords k block s q = [] := by
  rcases h with h | h
  · rw [mediaRecords, if_pos h]
  · have hn : (watchesOf q s).find? (fun x => x.2.isMedia) = none := by
      rw [List.find?_eq_none]
      rintro ⟨i, w⟩ hm hw
      cases w with
      | media => exact h i ((mem_watchesOf ..).mp hm)
      | sectors => exact Bool.false_ne_true hw
      | signals => exact Bool.false_ne_true hw
    rw [mediaRecords, hn]
    exact ite_self _

theorem mediaRecords_one {q : Port} {s : State} {i : Nat} (k : MediaKind) (block : Nat) (hf : (s.plu.get q).fenced = false)
    (hi : (s.nu.get q).watches[i]? = some (some Watch.media))
    (hj : ∀ j, j < i → (s.nu.get q).watches[j]? ≠ some (some Watch.media)) :
    mediaRecords k block s q = [{ body := .media k block, watch := some i }] := by
  rw [mediaRecords, if_neg (by simp [hf]), find_media hi hj]

/-- Settles O37: the record placed, the delivery port by port, and each event's records. -/
theorem noticePlacement : Obligations.NoticePlacement :=
  ⟨fun _ _ n => ⟨placeNotice_room n, placeNotice_full n⟩, deliver_nu,
    fun source sectors s => committedEvent_records source s sectors, fun source c s => clearedEvent_records source s c,
    fun id l s => freedEvent_records s id l, fun _ _ _ => rfl,
    fun source word value s => signalEvent_records source s word value,
    fun k block s => ⟨mediaRecords k block s, mediaEvent_eq k block s, fun _ =>
      ⟨mediaRecords_nil k block, fun _ => mediaRecords_one k block⟩⟩⟩

end Sys2Proof.Machine
end

section
/-! SUPPORT. The commands that the port link unit completes itself (R174, R185, R186), and one occurrence of a counter's event
(R187). -/

namespace Sys2Proof.Machine

/-! ### DEVICE INFO and SET ATTN MASK (R174, R185) -/

theorem deviceInfoDetail_eq (s : State) : deviceInfoDetail s =
    [65#8, 1#8, BitVec.ofNat 8 s.ac.supervisor.num, BitVec.ofNat 8 s.eu.epoch.toNat, BitVec.ofNat 8 s.me.pool.length,
     BitVec.ofNat 8 s.me.remap.length, BitVec.ofNat 8 s.me.retired.length, if s.ac.metaInvalid then 1#8 else 0#8,
     if s.ac.metaFault then 1#8 else 0#8, BitVec.ofNat 8 s.eu.period, BitVec.ofNat 8 s.ac.holdLimit,
     BitVec.ofNat 8 s.ac.quota] := by
  rw [deviceInfoDetail, boolItem_eq, boolItem_eq]
  rfl

theorem takeSetAttnMask_valid {p : Port} {mask : Byte} (h : mask.toNat < 16) (s : State) :
    takeSetAttnMask p mask s = finish p { status := .done, detail := [mask] }
      (s.modPlu p (fun u => { u with mask := BitVec.ofNat 4 mask.toNat })) := by
  have hm : mask.extractLsb' 0 4 = BitVec.ofNat 4 mask.toNat := by
    simp [BitVec.extractLsb', Nat.shiftRight_zero]
  rw [takeSetAttnMask, if_pos h, hm]

theorem takeSetAttnMask_refused {p : Port} {mask : Byte} (h : 16 ≤ mask.toNat) (s : State) :
    takeSetAttnMask p mask s = finish p { status := .badParam } s := if_neg (Nat.not_lt.mpr h)

/-- Settles O39: the port link unit takes each frame at once. -/
theorem portLinkUnitAnswersAtOnce : Obligations.PortLinkUnitAnswersAtOnce := by
  refine ⟨fun p len s hp hl => ?_, fun p mask len s hp hl => ⟨fun hm => ?_, fun hm => ?_⟩⟩
  · refine slotFrame_acceptedIn hp hl (by omega) rfl rfl ?_
    simp only [takeCommand, takeDeviceInfo, deviceInfoDetail_eq]
    rfl
  · exact slotFrame_acceptedIn hp hl (by omega) rfl rfl (takeSetAttnMask_valid hm _)
  · exact slotFrame_acceptedIn hp hl (by omega) rfl rfl (takeSetAttnMask_refused hm _)

/-! ### COUNTER SETUP and COUNTER READ (R186) -/

/-- An event byte that names a selection is its code. -/
theorem counterEventCode_of {b : Byte} {e : Option CounterEvent} (h : counterEventOf b = some e) :
    counterEventCode e = b.toNat := by
  unfold counterEventOf at h
  split at h <;> first | cases h; symm; assumption | exact absurd h (by simp)

theorem qualifierCode_of {b : Byte} {q : Qualifier} (h : qualifierOf b = some q) : q.code = b.toNat := by
  unfold qualifierOf at h
  split at h <;> first | cases h; symm; assumption | exact absurd h (by simp)

/-- A code above the list's last is no event. -/
theorem counterEventOf_none {b : Byte} (h : 11 < b.toNat) : counterEventOf b = none := by
  unfold counterEventOf
  split <;> first | omega | rfl

theorem qualifierOf_none {b : Byte} (h : 1 < b.toNat) : qualifierOf b = none := by
  unfold qualifierOf
  split <;> first | omega | rfl

theorem counterSelection_some {event qualifier : Byte} {e : Option CounterEvent} {q : Qualifier}
    (he : counterEventOf event = some e) (hq : qualifierOf qualifier = some q)
    (h : ¬ (q = .self ∧ (e = some .relocation ∨ e = some .relocDropped))) :
    counterSelection event qualifier = some (e, q) := by
  unfold counterSelection
  rw [he, hq]
  refine if_neg fun ⟨hs, hu⟩ => h ⟨hs, ?_⟩
  cases e with
  | none => exact absurd hu Bool.false_ne_true
  | some x => cases x <;> first | exact .inl rfl | exact .inr rfl | exact absurd hu Bool.false_ne_true

/-- A selection that R186 refuses: no event, no qualifier, or an unattributed event under SELF. -/
theorem counterSelection_none {event qualifier : Byte}
    (h : 11 < event.toNat ∨ 1 < qualifier.toNat ∨ (qualifier = 0#8 ∧ 10 ≤ event.toNat)) :
    counterSelection event qualifier = none := by
  unfold counterSelection
  rcases h with h | h | ⟨rfl, h⟩
  · rw [counterEventOf_none h]
  · rw [qualifierOf_none h]
    split <;> first | rfl | simp_all
  · split
    next e q he hq =>
      have hs : q = .self := by cases hq; rfl
      have hc := counterEventCode_of he
      refine if_pos ⟨hs, ?_⟩
      cases e with
      | none =>
        have : (0 : Nat) = event.toNat := hc
        omega
      | some x => cases x <;> first | rfl | (simp only [counterEventCode] at hc; omega)
    next => rfl

theorem takeCounterSetup_refused {p : Port} {counter event qualifier : Byte}
    (h : 1 < counter.toNat ∨ 11 < event.toNat ∨ 1 < qualifier.toNat ∨ (qualifier = 0#8 ∧ 10 ≤ event.toNat)) (s : State) :
    takeCounterSetup p counter event qualifier s = finish p { status := .badParam } s := by
  unfold takeCounterSetup
  rcases h with h | h
  · split
    next => exact if_neg (Nat.not_le.mpr h)
    next => rfl
  · rw [counterSelection_none h]

theorem takeCounterRead_refused {p : Port} {counter : Byte} (h : 1 < counter.toNat) (s : State) :
    takeCounterRead p counter s = finish p { status := .badParam } s := if_neg (Nat.not_le.mpr h)

/-- COUNTER SETUP of a selection that R186 admits, for either counter. -/
theorem takeCounterSetup_valid {p : Port} {counter event qualifier : Byte} {e : Option CounterEvent} {q : Qualifier}
    (he : counterEventOf event = some e) (hq : qualifierOf qualifier = some q)
    (h : ¬ (q = .self ∧ (e = some .relocation ∨ e = some .relocDropped))) (hc : counter = 0#8 ∨ counter = 1#8)
    (s : State) :
    takeCounterSetup p counter event qualifier s = finish p { status := .done, detail := [counter, event, qualifier] }
      (s.modPlu p (fun u =>
        if counter = 0#8 then { u with counter0 := { event := e, qualifier := q, value := 0#32 } }
        else { u with counter1 := { event := e, qualifier := q, value := 0#32 } })) := by
  have hitems : counterItems counter.toNat (setupCounter e q) = [counter, event, qualifier] := by
    simp [counterItems, setupCounter, counterEventCode_of he, qualifierCode_of hq]
  unfold takeCounterSetup
  rw [counterSelection_some he hq h]
  dsimp only
  rw [hitems]
  rcases hc with rfl | rfl <;> rfl

/-- COUNTER READ of either counter. -/
theorem takeCounterRead_valid {p : Port} {counter : Byte} {s : State} {c : Counter}
    (h : counter = 0#8 ∧ c = (s.plu.get p).counter0 ∨ counter = 1#8 ∧ c = (s.plu.get p).counter1) :
    takeCounterRead p counter s = finish p
      { status := .done,
        detail := [counter, BitVec.ofNat 8 (counterEventCode c.event), BitVec.ofNat 8 c.qualifier.code,
                   c.value.extractLsb' 24 8, c.value.extractLsb' 16 8, c.value.extractLsb' 8 8,
                   c.value.extractLsb' 0 8] } s := by
  rcases h with ⟨rfl, rfl⟩ | ⟨rfl, rfl⟩ <;> rfl

/-! ### One occurrence of an event (R187) -/

/-- What an occurrence adds to a port's counters. -/
def Plu.counted (u : Plu) (q : Port) (e : CounterEvent) (attr : Option Port) : Plu :=
  { u with counter0 := u.counter0.count q e attr, counter1 := u.counter1.count q e attr }

/-- A counter that selects the event goes on by one, and another keeps its value. -/
theorem Counter.count_eq (c : Counter) (q : Port) (e : CounterEvent) (attr : Option Port) :
    c.count q e attr = { c with value := c.value +
      (if c.event = some e ∧ (c.qualifier = .any ∨ attr = some q) then 1#32 else 0#32) } := by
  unfold Counter.count
  split
  · rfl
  · rw [BitVec.add_zero]

/-- Every port's counters count the occurrence, once. -/
theorem countEvent_plu (e : CounterEvent) (attr : Option Port) (s : State) (q : Port) :
    (countEvent e attr s).plu.get q = (s.plu.get q).counted q e attr := by
  have hall : ∀ (l : List Port) (t : State), l.Nodup →
      (l.foldl (fun t q => t.modPlu q (fun u => u.counted q e attr)) t).plu.get q =
        if q ∈ l then (t.plu.get q).counted q e attr else t.plu.get q := by
    intro l
    induction l with
    | nil => intro t _; simp
    | cons a l ih =>
      intro t hn
      obtain ⟨ha, hn⟩ := List.nodup_cons.mp hn
      rw [List.foldl_cons, ih _ hn, State.modPlu_plu]
      rcases eq_or_ne q a with rfl | hq
      · simp [ha]
      · simp [PortMap.get_modify_ne _ _ hq, hq]
  have h := hall Port.all s (by decide)
  rwa [if_pos (Port.mem_all q)] at h

/-- Settles O40: the two commands at the port link unit, and one occurrence counted. -/
theorem countersCount : Obligations.CountersCount := by
  refine ⟨fun p counter event qualifier len s e q hp hl he hq hn hc => ?_, fun p counter len s c hp hl hc => ?_,
    fun e attr s => ⟨rfl, fun q => ?_⟩⟩
  · exact slotFrame_acceptedIn hp hl (by omega) rfl rfl (takeCounterSetup_valid he hq hn hc _)
  · have hc' : counter = 0#8 ∧ c = ((acceptedIn p 0x52#8 s).plu.get p).counter0 ∨
        counter = 1#8 ∧ c = ((acceptedIn p 0x52#8 s).plu.get p).counter1 := by
      simpa [acceptedIn, Plu.busyWith] using hc
    exact slotFrame_acceptedIn hp hl (by omega) rfl rfl (takeCounterRead_valid hc')
  · rw [countEvent_plu, Plu.counted, Counter.count_eq, Counter.count_eq]

end Sys2Proof.Machine
end

section
/-! SUPPORT. The supervisor port's commands by the branches of their rules: SET REGION (R14, R15), the settings (R16, R17), SAVE
CONFIG (R18), FENCE and UNFENCE (R181, R182, R184); the commands whose parameters are refused. -/

namespace Sys2Proof.Machine

/-- The supervisor's command passes the check of R13. -/
theorem asSupervisor_self {p : Port} {s : State} (h : p = s.ac.supervisor) (f : State → State) : asSupervisor p f s = f s :=
  if_pos h

/-! ### SET REGION (R14, R15) -/

section
variable {p : Port} {index : Byte} {s : State}

theorem takeSetRegion_valid {first last : Word16} {access mode : Byte} {g : Region} (hp : p = s.ac.supervisor)
    (hi : index.toNat < 8) (hg : regionOf first last access mode = some g) (ho : overlapsOther index.toNat g s = false) :
    takeSetRegion p index first last access mode s = changeRegion p index.toNat (some g) s := by
  simp [takeSetRegion, asSupervisor_self hp, hg, hi, ho]

theorem takeSetRegion_refused {first last : Word16} {access mode : Byte} (hp : p = s.ac.supervisor)
    (h : 8 ≤ index.toNat ∨ regionOf first last access mode = none ∨
      ∃ g, regionOf first last access mode = some g ∧ overlapsOther index.toNat g s = true) :
    takeSetRegion p index first last access mode s = finish p { status := .badParam, detail := [index] } s := by
  have hbad : badRegion p index s = finish p { status := .badParam, detail := [index] } s := by
    simp [badRegion]
  rw [takeSetRegion, asSupervisor_self hp, hbad]
  split
  next g hg =>
    refine if_neg fun ⟨hi, ho⟩ => ?_
    rcases h with h | h | ⟨k, hk, ho'⟩
    · exact absurd hi (Nat.not_lt.mpr h)
    · exact absurd (hg.symm.trans h) (by simp)
    · cases hg.symm.trans hk
      exact absurd (ho.symm.trans ho') (by simp)
  next => rfl

theorem takeSetRegionUndefine_valid (hp : p = s.ac.supervisor) (hi : index.toNat < 8) :
    takeSetRegionUndefine p index s = changeRegion p index.toNat none s := by
  simp [takeSetRegionUndefine, asSupervisor_self hp, hi]

theorem takeSetRegionUndefine_refused (hp : p = s.ac.supervisor) (hi : 8 ≤ index.toNat) :
    takeSetRegionUndefine p index s = finish p { status := .badParam, detail := [index] } s := by
  simp [takeSetRegionUndefine, asSupervisor_self hp, Nat.not_lt.mpr hi, badRegion]

end

section
variable {index : Nat} {ranges : List Range} {s : State}

/-- No lease and no waiter overlaps the ranges. -/
theorem regionBusy_none (hl : ∀ y ∈ leases s, ∀ r ∈ ranges, r.overlaps y.2.range = false)
    (hq : ∀ e ∈ s.le.queue, ∀ r ∈ ranges, r.overlaps e.range = false) : regionBusy index ranges s = none := by
  have h1 : (leases s).find? (fun x => ranges.any (fun q => q.overlaps x.2.range)) = none := by
    rw [List.find?_eq_none]
    intro y hy
    simpa using hl y hy
  have h2 : s.le.queue.find? (fun e => ranges.any (fun q => q.overlaps e.range)) = none := by
    rw [List.find?_eq_none]
    intro e he
    simpa using hq e he
  simp only [regionBusy, h1, h2]

/-- The lowest-slot lease that overlaps a range is named. -/
theorem regionBusy_lease {before after : List (Nat × Lease)} {x : Nat × Lease} {r : Range}
    (hl : leases s = before ++ x :: after) (hr : r ∈ ranges) (ho : r.overlaps x.2.range = true)
    (hb : ∀ y ∈ before, ∀ q ∈ ranges, q.overlaps y.2.range = false) :
    regionBusy index ranges s = some [BitVec.ofNat 8 index, 0#8, BitVec.ofNat 8 x.1, 0xFF#8] := by
  have h1 : (leases s).find? (fun x => ranges.any (fun q => q.overlaps x.2.range)) = some x := by
    rw [List.find?_eq_some_iff_append]
    refine ⟨List.any_eq_true.mpr ⟨r, hr, ho⟩, before, after, hl, fun y hy => ?_⟩
    simpa using hb y hy
  simp only [regionBusy, h1]
  rfl

/-- With no such lease, the earliest waiter that overlaps a range is named by its port. -/
theorem regionBusy_waiter {before after : List WaitEntry} {e : WaitEntry} {r : Range}
    (hl : ∀ y ∈ leases s, ∀ q ∈ ranges, q.overlaps y.2.range = false) (hq : s.le.queue = before ++ e :: after)
    (hr : r ∈ ranges) (ho : r.overlaps e.range = true) (hb : ∀ f ∈ before, ∀ q ∈ ranges, q.overlaps f.range = false) :
    regionBusy index ranges s = some [BitVec.ofNat 8 index, 1#8, 0xFF#8, BitVec.ofNat 8 e.port.num] := by
  have h1 : (leases s).find? (fun x => ranges.any (fun q => q.overlaps x.2.range)) = none := by
    rw [List.find?_eq_none]
    intro y hy
    simpa using hl y hy
  have h2 : s.le.queue.find? (fun e => ranges.any (fun q => q.overlaps e.range)) = some e := by
    rw [List.find?_eq_some_iff_append]
    refine ⟨List.any_eq_true.mpr ⟨r, hr, ho⟩, before, after, hq, fun f hf => ?_⟩
    simpa using hb f hf
  simp only [regionBusy, h1, h2]
  rfl

end

/-- The change of a region entry, by the answer of the REGION_BUSY check. -/
theorem changeRegion_eq {p : Port} {index : Nat} {new : Option Region} {s : State} {ranges : List Range}
    (hr : ranges = ((regionEntry index s).toList ++ new.toList).map Region.range) : changeRegion p index new s =
      match regionBusy index ranges s with
      | some d => finish p { status := .regionBusy, detail := d } s
      | none => finish p { status := .done }
          (dropPendings ranges (s.modAc (fun a => { a with regions := a.regions.set index new }))) := by
  subst hr
  rfl

/-- Settles O41: the lease engine takes either form at once, and the REGION_BUSY check has three answers. -/
theorem setRegionReplacesTheEntry : Obligations.SetRegionReplacesTheEntry := by
  intro p i index new len s ranges hp hs hl hidx hi hr
  have hexec : exec i s = .next (endAccepted p s [] len (changeRegion p index.toNat new (takenByLe p 0x60#8 s))) := by
    rcases hi with ⟨first, last, access, mode, g, rfl, hg, ho, rfl⟩ | ⟨action, rfl, rfl⟩
    · exact slotFrame_takenByLe hp hl (by omega) rfl (takeSetRegion_valid hs hidx hg ho)
    · exact slotFrame_takenByLe hp hl (by omega) rfl (takeSetRegionUndefine_valid hs hidx)
  rw [hexec, changeRegion_eq (s := takenByLe p 0x60#8 s) hr]
  refine ⟨fun h1 h2 => ?_, fun before after x r hle hm ho hb => ?_, fun before after e r h1 hq hm ho hb => ?_⟩
  · rw [regionBusy_none (s := takenByLe p 0x60#8 s) h1 h2]
  · rw [regionBusy_lease (s := takenByLe p 0x60#8 s) hle hm ho hb]
    simp
  · rw [regionBusy_waiter (s := takenByLe p 0x60#8 s) h1 hq hm ho hb]
    simp

/-! ### FENCE and UNFENCE (R181, R182, R184) -/

theorem ofNum?_none {n : Nat} (h : 4 ≤ n) : Port.ofNum? n = none := by
  unfold Port.ofNum?
  split <;> first | omega | rfl

/-- A number that is the port's names the port. -/
theorem ofNum?_toNat {b : Byte} {q : Port} (h : b.toNat = q.num) : Port.ofNum? b.toNat = some q := by
  rw [h, Port.ofNum?_num]

section
variable {p target : Port} {b : Byte} {s : State}

theorem takeFence_refused (hp : p = s.ac.supervisor) (h : 4 ≤ b.toNat ∨ b.toNat = p.num) :
    takeFence p b s = finish p { status := .badParam } s := by
  rw [takeFence, asSupervisor_self hp]
  rcases h with h | h
  · rw [ofNum?_none h]
  · rw [ofNum?_toNat h]
    exact if_pos hp

theorem takeFence_fenced (hp : p = s.ac.supervisor) (hb : b.toNat = target.num) (ht : target ≠ p)
    (hf : (s.plu.get target).fenced = true) : takeFence p b s = finish p
      { status := .done, detail := [BitVec.ofNat 8 target.num, 0#8, 0#8,
          BitVec.ofNat 8 (endingLeases target s).length] } s := by
  rw [takeFence, asSupervisor_self hp, ofNum?_toNat hb]
  dsimp only
  rw [if_neg (fun h => ht (h.trans hp.symm)), if_pos hf]
  rfl

theorem takeUnfence_refused (hp : p = s.ac.supervisor) (h : 4 ≤ b.toNat) :
    takeUnfence p b s = finish p { status := .badParam } s := by
  rw [takeUnfence, asSupervisor_self hp, ofNum?_none h]

theorem takeUnfence_fenced (hp : p = s.ac.supervisor) (hb : b.toNat = target.num)
    (hf : (s.plu.get target).fenced = true) : takeUnfence p b s = finish p
      { status := .done, detail := [BitVec.ofNat 8 target.num, 1#8] }
      (s.modPlu target (fun u => { u with fenced := false, rejected := false, reason := .none })) := by
  rw [takeUnfence, asSupervisor_self hp, ofNum?_toNat hb]
  simp only [hf]
  rfl

theorem takeUnfence_open (hp : p = s.ac.supervisor) (hb : b.toNat = target.num)
    (hf : (s.plu.get target).fenced = false) : takeUnfence p b s = finish p
      { status := .done, detail := [BitVec.ofNat 8 target.num, 0#8] } s := by
  rw [takeUnfence, asSupervisor_self hp, ofNum?_toNat hb]
  simp only [hf]
  rfl

end

/-- The acceptance of a command leaves every port's fence flag. -/
theorem takenByLe_fenced (p q : Port) (op : Byte) (s : State) :
    ((takenByLe p op s).plu.get q).fenced = (s.plu.get q).fenced := by
  rcases eq_or_ne q p with rfl | h
  · simp [takenByLe, acceptedIn, servedPort, Plu.busyWith]
  · rw [takenByLe_plu_ne _ _ h]

/-- Settles O43: FENCE's two branches for another port and UNFENCE's two. -/
theorem fenceAndUnfence : Obligations.FenceAndUnfence := by
  intro p target b len s hp hs hl hb
  refine ⟨fun u ht hf hu => ?_, fun ht hf => ?_, fun hf => ?_, fun hf => ?_⟩
  · rw [exec_fence_free hp hs hl hb ht hf, carryOutFence, takenByLe_serial, takenByLe_plu_ne _ _ ht]
    subst hu
    rfl
  · exact slotFrame_takenByLe hp hl (by omega) rfl (takeFence_fenced hs hb ht (by rwa [takenByLe_fenced]))
  · exact slotFrame_takenByLe hp hl (by omega) rfl (takeUnfence_fenced hs hb (by rwa [takenByLe_fenced]))
  · exact slotFrame_takenByLe hp hl (by omega) rfl (takeUnfence_open hs hb (by rwa [takenByLe_fenced]))

/-! ### Parameters that are refused (R1, R14, R29, R31, R84, R91, R125, R186) -/

/-- Settles O28: a refused data command is no request at the lease engine (`slotFrame_refused`), and each other command's own
branch. -/
theorem badParametersAreRefused : Obligations.BadParametersAreRefused := by
  refine ⟨fun p len s ho hi hr ht => ⟨fun first count hl h => ?_, fun first count payload hpl hl h => ?_,
    fun first count hl h => ?_⟩, fun p len s hp => ⟨fun id wait l hown => ⟨fun hl hm => ?_, fun hl hm => ?_⟩,
    fun counter event qualifier hl h => ?_, fun counter hl h => ?_, fun hs => ⟨fun index first last access mode hl h => ?_,
      fun index action hl h => ?_, fun target hl h => ?_, fun target hl h => ?_⟩⟩⟩
  · have hc : (SlotCommand.read first count).paramsRefused = true := by
      simpa [SlotCommand.paramsRefused, or_assoc] using h
    rw [← slotFrame_refused ho hi hr (by omega) hc (.inr ht), ← decide_eq_true hl]
    rfl
  · have hc : (SlotCommand.write first count payload).paramsRefused = true := by
      simpa [SlotCommand.paramsRefused, or_assoc] using h
    have hw : writeWhole count payload len = true := by simp [writeWhole, hpl, hl]
    rw [← slotFrame_refused ho hi hr (by omega) hc (.inr ht), ← hw]
    rfl
  · have hc : (SlotCommand.clear first count).paramsRefused = true := by
      simpa [SlotCommand.paramsRefused, or_assoc] using h
    rw [← slotFrame_refused ho hi hr (by omega) hc (.inr ht), ← decide_eq_true hl]
    rfl
  · exact slotFrame_takenByLe hp hl (by omega) rfl (takeUpgrade_exclusive (l := l) (by simpa using hown) hm)
  · exact slotFrame_takenByLe hp hl (by omega) rfl (takeDowngrade_shared (l := l) (by simpa using hown) hm)
  · exact slotFrame_acceptedIn hp hl (by omega) rfl rfl (takeCounterSetup_refused h _)
  · exact slotFrame_acceptedIn hp hl (by omega) rfl rfl (takeCounterRead_refused h _)
  · exact slotFrame_takenByLe hp hl (by omega) rfl (takeSetRegion_refused hs h)
  · exact slotFrame_takenByLe hp hl (by omega) rfl (takeSetRegionUndefine_refused hs h)
  · exact slotFrame_takenByLe hp hl (by omega) rfl (takeFence_refused hs h)
  · exact slotFrame_takenByLe hp hl (by omega) rfl (takeUnfence_refused hs h)

end Sys2Proof.Machine
end

section
/-! SUPPORT. The live settings and the saved image (R8, R16 to R18): the values in range, SAVE CONFIG's copy at its acceptance,
and its META job, issued at once or behind the port's teardown at the write unit. -/

namespace Sys2Proof.Machine

/-! ### P, H and Q (R16, R17) -/

/-- A value of at least 1 is one that is not 00h. -/
theorem one_le_toNat (v : Byte) : 1 ≤ v.toNat ↔ v ≠ 0#8 := by
  have : v.toNat = 0 ↔ v = 0#8 := ⟨fun h => BitVec.eq_of_toNat_eq h, fun h => by rw [h]; rfl⟩
  rw [ne_eq, ← this]
  omega

section
variable {p : Port} {v : Byte} {s : State}

theorem takeSetLeasePeriod_eq (hp : p = s.ac.supervisor) : takeSetLeasePeriod p v s =
    if v = 0#8 then finish p { status := .badParam } s
    else finish p { status := .done } (s.modEu (fun e => { e with period := v.toNat })) := by
  rw [takeSetLeasePeriod, asSupervisor_self hp]
  by_cases h : v = 0#8 <;> simp [one_le_toNat, h]

theorem takeSetHoldLimit_eq (hp : p = s.ac.supervisor) : takeSetHoldLimit p v s =
    if v = 0#8 then finish p { status := .badParam } s
    else finish p { status := .done } (s.modAc (fun a => { a with holdLimit := v.toNat })) := by
  rw [takeSetHoldLimit, asSupervisor_self hp]
  by_cases h : v = 0#8 <;> simp [one_le_toNat, h]

theorem takeSetQuota_eq (hp : p = s.ac.supervisor) : takeSetQuota p v s =
    if 1 ≤ v.toNat ∧ v.toNat ≤ 64 then finish p { status := .done } (s.modAc (fun a => { a with quota := v.toNat }))
    else finish p { status := .badParam } s := by
  rw [takeSetQuota, asSupervisor_self hp]

end

/-! ### SAVE CONFIG (R8, R18, R167) -/

/-- Behind the port's teardown at the write unit the image is copied, and the META job alone waits (log 33). -/
theorem takeSaveConfig_behind {p : Port} {s : State} (hp : p = s.ac.supervisor) (ht : (s.teardown.get p).pwu = true) :
    takeSaveConfig p s = (s.modAc (fun a =>
      { a with image := { regions := s.ac.regions, period := s.eu.period, hold := s.ac.holdLimit,
                          quota := s.ac.quota } })).modPlu p (fun u => { u with waiting := some .metaJob }) := by
  rw [takeSaveConfig, asSupervisor_self hp, handMetaJob, State.modAc_teardown, if_pos ht]
  rfl

theorem takeSaveConfig_other {p : Port} {s : State} (hp : p ≠ s.ac.supervisor) :
    takeSaveConfig p s = finish p { status := .notSupervisor } s := if_neg hp

/-- A META job that nothing keeps: no earlier job of the port, no teardown at its write unit or at the media engine. -/
theorem takeMetaJob_issued {p : Port} {s : State} (hj : noJob p s = true) (hw : (s.teardown.get p).pwu = false)
    (hm : (s.teardown.get p).me = false) : takeMetaJob p s = enqueueJob
      (.port { issuer := p, serial := (s.plu.get p).serial, abandoned := false } .metadata)
      (s.modPwu p (fun u =>
        { u with command := some { serial := (s.plu.get p).serial, action := .saveConfig, bound := [], stage := .issued,
                                   holdExpired := false, broken := [] } })) := by
  have hjob : jobAtMe p s = false := by simpa [noJob] using hj
  rw [takeMetaJob, startCommand, if_neg (by simp [jobWaits, hjob, hw, hm, PwuAction.asksHold])]
  simp only [holdOrIssue, holdQuestion, issueJob, setCommand, State.modPwu_modPwu]
  rfl

/-- A META job that waits behind the port's teardown at the write unit is issued in the step that takes that teardown. -/
theorem passCommand_metaJob {p : Port} {t : State} (hw : (t.plu.get p).waiting = some .metaJob) (hr : t.released = [])
    (hj : noJob p t = true) (hp : (t.teardown.get p).pwu = false) (hm : (t.teardown.get p).me = false) :
    passCommand p t = enqueueJob (.port { issuer := p, serial := (t.plu.get p).serial, abandoned := false } .metadata)
      ((t.modPlu p (fun u => { u with waiting := none })).modPwu p (fun u =>
        { u with command := some { serial := (t.plu.get p).serial, action := .saveConfig, bound := [], stage := .issued,
                                   holdExpired := false, broken := [] } })) := by
  have hb : SlotCommand.metaJob.behindTeardown (t.teardown.get p) = false := by
    simp [SlotCommand.behindTeardown, SlotCommand.owners, hp]
  have hs : ((t.modPlu p (fun u => { u with waiting := none })).plu.get p).serial = (t.plu.get p).serial := by
    rw [State.modPlu_plu, PortMap.get_modify_same]
  have htake : takeCommand p .metaJob (t.modPlu p (fun u => { u with waiting := none })) =
      takeMetaJob p (t.modPlu p (fun u => { u with waiting := none })) := rfl
  rw [passCommand_taken hw hb rfl, htake, takeMetaJob_issued (s := t.modPlu p (fun u => { u with waiting := none }))
    hj hp hm, hs, goOn_idle]
  rw [(Keeps.enqueueJob _ _).released]
  exact hr

/-- The write unit's teardown of a port with no job at the media engine, up to the commands that it lets go on (R99, R182). -/
theorem takePwuTeardown_noJob {p : Port} {s : State} (hj : noJob p s = true) : takePwuTeardown p s =
    passCommand p (finishFences (((s.modTeardown p (fun t => { t with pwu := false })).modPwu p (fun u =>
      { u with slots := u.slots.filter (fun x => decide (x.state = .draining)), pendingClear := none,
               command := none })).setHoldList (s.holdList.filter (fun h => decide (h.port ≠ p))))) := by
  rw [takePwuTeardown, withdrawJobs_none (.inr hj)]
  rfl

/-- SAVE CONFIG at an open port with an IDLE slot is taken by the access checker at once, whatever waits at the write
unit. -/
theorem exec_saveConfig_open {p : Port} {len : Nat} {s t : State} (ho : openPort p s = true)
    (hi : (s.plu.get p).slot = .idle) (hr : s.released = []) (hl : 2 ≤ len)
    (h : takeSaveConfig p (acceptedIn p 0x64#8 s) = t) : exec (.saveConfig p len) s = .next (endAccepted p s [] len t) := by
  have hframe : exec (.saveConfig p len) s = .next (slotFrame p 0x64#8 (decide (2 ≤ len)) .saveConfig len s) := rfl
  rw [hframe, decide_eq_true hl, slotFrame_atOnce ho hi hr (by omega) rfl rfl rfl, ← h]
  rfl

/-- Settles O42: the three values, SAVE CONFIG at a free port and behind the teardown, and the META job that waited there. -/
theorem settingsAreSetAndSaved : Obligations.SettingsAreSetAndSaved := by
  refine ⟨fun p v len s hp hs hl => ⟨?_, ?_, ?_⟩, fun p len s hp hs hl hj => ?_,
    fun p len s ho hi hr hl ht => ⟨fun hs => ?_, fun hs => ?_⟩, fun p s t hw hp hm hj hr ht => ?_,
    fun p n s ho hn => ⟨_, exec_portReset_open ho hn, rfl, rfl, ?_⟩⟩
  · exact slotFrame_acceptedIn hp hl (by omega) rfl rfl (takeSetLeasePeriod_eq hs)
  · exact slotFrame_acceptedIn hp hl (by omega) rfl rfl (takeSetHoldLimit_eq hs)
  · exact slotFrame_acceptedIn hp hl (by omega) rfl rfl (takeSetQuota_eq hs)
  · exact exec_hasJob_plain (HasJob.saveConfig hl hs) hp hj (.inr ⟨rfl, rfl⟩)
  · exact exec_saveConfig_open ho hi hr hl (takeSaveConfig_behind hs ht)
  · exact exec_saveConfig_open ho hi hr hl (takeSaveConfig_other hs)
  · obtain ⟨hme, -, htd, hrel, hserial⟩ := finishFences_fields (((s.modTeardown p (fun t => { t with pwu := false })).modPwu p
      (fun u => { u with slots := u.slots.filter (fun x => decide (x.state = .draining)), pendingClear := none,
                         command := none })).setHoldList (s.holdList.filter (fun h => decide (h.port ≠ p))))
    have hwait := (SameWork.finishFences (((s.modTeardown p (fun t => { t with pwu := false })).modPwu p (fun u =>
      { u with slots := u.slots.filter (fun x => decide (x.state = .draining)), pendingClear := none,
               command := none })).setHoldList (s.holdList.filter (fun h => decide (h.port ≠ p))))).waiting p
    rw [← ht] at hme htd hrel hserial hwait
    have hexec : exec (.pwuTeardown p) s = .next (takePwuTeardown p s) := by
      simp only [exec, execPwuTeardown, ifTeardown, hp, if_true]
    rw [hexec, takePwuTeardown_noJob hj, ← ht, passCommand_metaJob (hwait.trans hw) (hrel.trans hr)
      (by rw [noJob_congr hme]; exact hj) (by rw [htd]; simp) (by rw [htd]; simpa using hm), hserial p]
    rfl
  · simp [portResetEffect, withdrawCommand, handRequest, endAccepted, Plu.portReset]

end Sys2Proof.Machine
end

section
/-! SUPPORT. The sweep as a step: what it takes, and what waits behind a pending one (R24, R65 to R68, R167). -/

namespace Sys2Proof.Machine

/-! ### What the lease engine takes -/

/-- An idle lease engine takes nothing. -/
theorem serveWaiting_idle {s : State} (h : engineIdle s = true) : serveWaiting s = s := by
  obtain ⟨hr, hq⟩ := (engineIdle_iff s).mp h
  rw [serveWaiting, issueReleased_nil hr, serveUpTo_none _ (serveOne_empty hq)]

theorem engineIdle_congr {s t : State} (hq : t.le.requests = s.le.requests) (hr : t.released = s.released) :
    engineIdle t = engineIdle s := by
  simp only [engineIdle, hq, hr]

/-- The first port in the round-robin's order that has a request is served (R24). -/
theorem serveOne_first {p : Port} {r : LeRequest} {rest : List LeRequest} {before after : List Port} {s : State}
    (h0 : s.le.sweepsAsked = 0) (ho : servingOrder s.le.rrNext = before ++ p :: after)
    (hb : ∀ q ∈ before, s.le.requests.get q = []) (hp : s.le.requests.get p = r :: rest) :
    serveOne s = some (takeRequest p r (popRequest p rest s)) := by
  have hnone : before.findSome? (fun q => servePort q s) = none := by
    rw [List.findSome?_eq_none_iff]
    intro q hq
    simp [servePort, hb q hq]
  rw [serveOne, if_pos h0, ho, List.findSome?_append, hnone]
  simp [servePort, hp]

/-! ### The sweep -/

/-- One sweep fewer is asked, and the sweep's three steps and its grant scan are made (R66 to R68). -/
def sweptState (s : State) : State :=
  sweepLeases (s.modLe (fun x => { x with sweepsAsked := x.sweepsAsked - 1 }))

theorem exec_sweep_pending {s : State} (h : s.le.sweepsAsked ≠ 0) :
    exec .sweep s = .next (serveWaiting (sweptState s)) := by
  rw [exec_sweep, takeSweep, if_neg h, sweptState]

theorem sweptState_requests (s : State) : (sweptState s).le.requests = s.le.requests :=
  (SameWork.sweepLeases _).requests

theorem sweptState_released (s : State) : (sweptState s).released = s.released := (Keeps.sweepLeases _).released

theorem sweptState_sweepsAsked (s : State) : (sweptState s).le.sweepsAsked = s.le.sweepsAsked - 1 :=
  (Keeps.sweepLeases _).sweepsAsked

/-- The sweep's steps in the statement's words: the HELD leases of occupied ports renewed, those of age 3 ended EXPIRED. -/
theorem sweptState_eq {s s1 : State} {expired : List (Nat × Port)}
    (h1 : s1 = renewLeases (((leases s).filter (fun x => decide ((s.plu.get x.2.holder).slot ≠ .idle) &&
        decide (x.2.state = .held))).map Prod.fst)
      ((s.modLe (fun e => { e with sweepsAsked := e.sweepsAsked - 1 })).modEu (fun e =>
        { e with epoch := e.epoch + 1#2 })))
    (h2 : expired = ((leases s1).filter (fun x => decide (x.2.state = .held) &&
      decide (s1.eu.epoch - x.2.stamp = 3#2))).map (fun x => (x.1, x.2.holder))) :
    sweptState s = grantScan (expired.foldl (fun t x =>
      countEvent .expire (some x.2) (endLease x.1 .expired t)) s1) := by
  subst h1 h2
  rfl

/-! ### A command behind a pending sweep (R65, R167) -/

/-- A command that is a request at the lease engine waits there behind the sweep. -/
theorem passCommand_behindSweep {p : Port} {c : SlotCommand} {s : State} (hw : (s.plu.get p).waiting = some c)
    (hb : c.behindTeardown (s.teardown.get p) = false) (hl : c.owners.le = true) (hs : s.le.sweepsAsked ≠ 0)
    (hr : s.released = []) :
    passCommand p s = handRequest p (.command c) (s.modPlu p (fun u => { u with waiting := none })) := by
  rw [passCommand_handed hw hb hl]
  exact serveWaiting_sweep hs hr

theorem accept_taken (p : Port) (op : Byte) (c : SlotCommand) (s : State) :
    (s.modPlu p (fun u => u.accept op c)).modPlu p (fun u => { u with waiting := none }) = acceptedIn p op s := by
  simp [acceptedIn, Plu.accept, Plu.busyWith]

/-- Settles O44: the sweep's steps, then what `serveWaiting` takes behind it; and the round-robin's next request. -/
theorem sweepsAdvanceTheEpoch : Obligations.SweepsAdvanceTheEpoch := by
  refine ⟨fun s h => congrArg Host.Outcome.next (if_pos h), fun s s1 expired hs h1 h2 => ⟨fun hi => ?_, ?_⟩,
    fun i c d p op ps n s hc hd hf hw hn ho hi hr hs hl hb => ?_, fun s hs => if_neg hs,
    fun p r rest before after s h0 hord hb hp => serveOne_first h0 hord hb hp,
    fun s hi => ⟨serveOne_empty ((engineIdle_iff s).mp hi).2, serveWaiting_idle hi⟩⟩
  · have hidle : engineIdle (sweptState s) = true :=
      (engineIdle_congr (sweptState_requests s) (sweptState_released s)).trans hi
    rw [exec_sweep_pending hs, serveWaiting_idle hidle, sweptState_eq h1 h2]
  · intro p c hone hr hp hq hn
    have honly : onlyRequest p (.command c) (sweptState s) = true := by
      rw [onlyRequest_iff, sweptState_requests, sweptState_released, sweptState_sweepsAsked]
      exact ⟨by omega, hr, hp, hq⟩
    have hnu : ∀ k, LeRequest.command c = .command k → k.owners.nu = false := by
      rintro _ ⟨⟩
      exact hn
    rw [exec_sweep_pending hs, serveWaiting_onlyRequest honly hnu, sweptState_eq h1 h2]
    rfl
  · have hpos : 1 ≤ n := (Nat.le_of_lt (slotLength_pos hd)).trans hn
    have hwait : ((s.modPlu p (fun u => u.accept op c)).plu.get p).waiting = some c := by simp [Plu.accept]
    rw [exec_slotFrame hc hd hf hw hn, slotFrame_accept ho hi hpos, passCommand_behindSweep hwait hb hl hs hr,
      accept_taken]
    rfl

end Sys2Proof.Machine
end

section
/-! SUPPORT. The deadlines' expiries and the CANCELs as they are taken (R24, R55, R57, R83, R153, R154). -/

namespace Sys2Proof.Machine

/-! ### A parked entry leaves the wait queue (R55, R57) -/

section
variable {p : Port} {s : State} {earlier later : List WaitEntry} {e : WaitEntry}

/-- The port's own entry of the wait queue. -/
theorem find_ownEntry (hq : s.le.queue = earlier ++ e :: later) (hp : e.port = p)
    (ho : ∀ f ∈ earlier ++ later, f.port ≠ p) : s.le.queue.find? (fun f => decide (f.port = p)) = some e := by
  have hnone : earlier.find? (fun f => decide (f.port = p)) = none := by
    rw [List.find?_eq_none]
    intro f hf
    simpa using ho f (List.mem_append_left _ hf)
  rw [hq, List.find?_append, hnone]
  simp [hp]

theorem takeExpiry_found (hq : s.le.queue = earlier ++ e :: later) (hp : e.port = p)
    (ho : ∀ f ∈ earlier ++ later, f.port ≠ p) :
    takeExpiry p e.serial s = grantScan (complete p e.serial (timeoutCompletion e earlier s)
      (s.modLe (fun x => { x with queue := earlier ++ later }))) := by
  rw [takeExpiry, hq, entryOf_found hp ho]
  dsimp only
  rw [removeEntry_found hq hp ho]
  rfl

theorem takeCancelParked_found (hq : s.le.queue = earlier ++ e :: later) (hp : e.port = p)
    (ho : ∀ f ∈ earlier ++ later, f.port ≠ p) :
    takeCancelParked p e.serial s = grantScan (complete p e.serial (cancelledCompletion e.namedId false)
      (s.modLe (fun x => { x with queue := earlier ++ later }))) := by
  rw [takeCancelParked, hq, entryOf_found hp ho]
  dsimp only
  rw [removeEntry_found hq hp ho]

theorem takeCancelParked_none {n : Nat} (h : ∀ f ∈ s.le.queue, f.port ≠ p) : takeCancelParked p n s = s := by
  rw [takeCancelParked, entryOf_none h]

end

/-! ### A request handed over by a deadline -/

theorem handOnce_idle {p : Port} {r : LeRequest} {s : State} (h : engineIdle s = true) :
    handOnce p r s = handRequest p r s := handOnce_none (((engineIdle_iff s).mp h).2 p)

/-- The lease engine, idle and with no sweep pending, takes at once what is handed to it (R24). -/
theorem serveWaiting_handOnce {p : Port} {r : LeRequest} {s : State} (h0 : s.le.sweepsAsked = 0)
    (hi : engineIdle s = true) (hr : r.isCommand = false) :
    serveWaiting (handOnce p r s) = takeRequest p r (servedPort p s) := by
  rw [handOnce_idle hi]
  refine serveWaiting_handRequest h0 hi fun c hc => ?_
  subst hc
  exact absurd hr Bool.noConfusion

theorem handRequest_alone {p : Port} {r : LeRequest} {s : State} (h : s.le.requests.get p = []) :
    handRequest p r s = s.modLe (fun x => { x with requests := x.requests.set p [r] }) := by
  simp [handRequest, State.modLe, PortMap.modify, h]

/-! ### The hold deadline (R83, R153) -/

section
variable {p : Port} {s : State} {h : HoldEntry} {c : PwuCommand}

/-- The only entry of the hold list is taken off it. -/
theorem holdDeadline_only (hl : s.holdList = [h]) (hp : h.port = p) :
    holdDeadline p s = issueEnded p h.serial (endHold p h.serial true (s.setHoldList [])) := by
  simp [holdDeadline, dropHold, hl, hp]

theorem endHold_onHold {expired : Bool} (hc : (s.pwu.get p).command = some c) (hs : c.stage = .onHold) :
    endHold p c.serial expired s =
      setSlot p c.serial .busy (setCommand p (some { c with stage := .holdEnded, holdExpired := expired }) s) := by
  simp [endHold, hc, hs]

/-- The command after its hold has ended at the deadline. -/
def PwuCommand.expired (c : PwuCommand) : PwuCommand := { c with stage := .holdEnded, holdExpired := true }

/-- A state in which the hold of the port's command has just ended at its deadline. -/
def holdExpiredState (p : Port) (c : PwuCommand) (s : State) : State :=
  setCommand p (some c.expired) (setSlot p c.serial .busy (s.setHoldList []))

theorem holdExpiredState_command : ((holdExpiredState p c s).pwu.get p).command = some c.expired := by
  simp [holdExpiredState, setCommand]

/-- The lease engine issues the drain of a command whose hold has ended (R83). -/
theorem takeIssue_holdExpired : takeIssue p c.serial (servedPort p (holdExpiredState p c s)) =
    issueJob p c.expired (servedPort p (holdExpiredState p c s)) := by
  have hc : (((servedPort p (holdExpiredState p c s)).pwu.get p).command.filter
      (fun x => decide (x.serial = c.serial))) = some c.expired := by
    rw [show ((servedPort p (holdExpiredState p c s)).pwu.get p).command = _ from holdExpiredState_command]
    simp [PwuCommand.expired]
  rw [takeIssue, hc]
  rfl

/-- The list of a drain depends on the write unit's slots alone. -/
theorem drainItems_congr {a : PwuAction} {u v : WriteUnit} (h : u.slots = v.slots) : drainItems a u = drainItems a v := by
  rw [drainItems, drainItems, h]

theorem exec_holdDeadline (hl : s.holdList = [h]) (hp : h.port = p) (hc : (s.pwu.get p).command = some c)
    (hn : c.serial = h.serial) (hs : c.stage = .onHold) :
    exec (.holdDeadlineExpiry p) s = .next (if c.action.isDrain
      then serveWaiting (handOnce p (.issue c.serial) (holdExpiredState p c s))
      else issueJob p c.expired (holdExpiredState p c s)) := by
  have hend : endHold p c.serial true (s.setHoldList []) = holdExpiredState p c s := endHold_onHold hc hs
  have hcommand : endedCommand p c.serial (holdExpiredState p c s) = some c.expired := by
    rw [endedCommand, holdExpiredState_command]
    simp [PwuCommand.expired]
  change Host.Outcome.next (holdDeadline p s) = _
  rw [holdDeadline_only hl hp, ← hn, hend, issueEnded, hcommand]
  rfl

end

/-- Settles O45: the expiry's request taken by the idle lease engine; the hold's job issued as its command's kind says. -/
theorem deadlinesExpire : Obligations.DeadlinesExpire := by
  refine ⟨fun p s earlier later e hq hp ho hi => ?_, fun p s h c hl hp hc hn hs =>
    ⟨fun blocks cut formed ha => ?_, fun items t hd h0 hi hitems hne ht => ?_⟩⟩
  · have hexec : exec (.waitDeadlineExpiry p) s = .next (serveWaiting (handOnce p (.expiry e.serial) s)) := by
      change Host.Outcome.next (waitDeadline p s) = _
      rw [waitDeadline, find_ownEntry hq hp ho]
    refine ⟨fun h0 => ?_, fun h0 => ?_⟩
    · rw [hexec, serveWaiting_handOnce h0 hi rfl, takeRequest, takeExpiry_found (s := servedPort p s) hq hp ho]
      rfl
    · obtain ⟨hr, hreq⟩ := (engineIdle_iff s).mp hi
      have hkept := serveWaiting_sweep (s := handRequest p (.expiry e.serial) s) h0 hr
      rw [hexec, handOnce_idle hi, hkept, handRequest_alone (hreq p)]
  · rw [exec_holdDeadline hl hp hc hn hs]
    simp only [ha, PwuAction.isDrain, Bool.false_eq_true, if_false, issueJob, PwuCommand.expired]
    simp only [holdExpiredState, setCommand, State.modPwu_modPwu]
    simp [discardInBlocks, ownerOf, blockOf, Config.blockSectors]
  · have hidle : engineIdle (holdExpiredState p c s) = true := hi
    rw [exec_holdDeadline hl hp hc hn hs, if_pos hd,
      serveWaiting_handOnce (r := .issue c.serial) (s := holdExpiredState p c s) h0 hidle rfl]
    refine congrArg Host.Outcome.next (takeIssue_holdExpired.trans (issueJob_drain hd ?_ hne ?_))
    · rw [hitems]
      exact drainItems_congr (by simp [holdExpiredState, servedPort, setCommand, setSlot])
    · have hserved : servedPort p (holdExpiredState p c s) =
          setCommand p (some c.expired) (setSlot p c.serial .busy ((servedPort p s).setHoldList [])) := rfl
      rw [ht, hserved, setCommand, State.modPwu_modPwu]
      rfl

/-! ### CANCELs (R57, R83, R154) -/

/-- A lease engine's step for the port takes its only request, if it is of the step's kind. -/
theorem takeWaiting_only {p : Port} {kind : LeRequest → Bool} {r : LeRequest} {s : State}
    (h : onlyRequest p r s = true) (hk : kind r = true) (hr : r.isCommand = false) :
    takeWaiting p kind s = takeRequest p r (tookRequest p s) := by
  obtain ⟨-, -, hp, -⟩ := (onlyRequest_iff p r s).mp h
  have hany : (s.le.requests.get p).any kind = true := by simp [hp, hk]
  rw [takeWaiting, if_pos hany]
  refine serveWaiting_onlyRequest h fun c hc => ?_
  subst hc
  exact absurd hr Bool.noConfusion

theorem takeCancelHeld_found {p : Port} {c : PwuCommand} {s : State} (hc : (s.pwu.get p).command = some c)
    (hh : ∃ h ∈ s.holdList, h.port = p ∧ h.serial = c.serial) :
    takeCancelHeld p c.serial s = complete p c.serial (cancelledCompletion c.action.namedId c.action.isFlush)
      (setCommand p none (dropHold p (s.modNu p (fun u => { u with cancel := none })))) := by
  have hany : s.holdList.any (fun e => decide (e.port = p) && decide (e.serial = c.serial)) = true := by
    simpa [List.any_eq_true] using hh
  simp [takeCancelHeld, hc, hany]

theorem exec_cancelHeld_some {p : Port} {n : Nat} {s : State} (h : (s.nu.get p).cancel = some n) :
    exec (.cancelHeld p) s = .next (takeCancelHeld p n s) := by
  change Host.Outcome.next (cancelHeld p s) = _
  rw [cancelHeld, h]

/-- Settles O46: the branches of `takeCancelParked` and `takeCancelHeld`. -/
theorem cancelsAreTaken : Obligations.CancelsAreTaken := by
  refine ⟨fun p s earlier later e h hq hp ho => ?_, fun p s n h hnone => ?_, fun p s c hn hc hh => ?_,
    fun p s n hn hh => ?_, fun p s hn => congrArg Host.Outcome.next (cancelHeld_none hn)⟩
  · change Host.Outcome.next (cancelParked p s) = _
    rw [cancelParked, takeWaiting_only h rfl rfl, takeRequest,
      takeCancelParked_found (s := tookRequest p s) hq hp ho]
    rfl
  · change Host.Outcome.next (cancelParked p s) = _
    rw [cancelParked, takeWaiting_only h rfl rfl, takeRequest, takeCancelParked_none (s := tookRequest p s) hnone]
    rfl
  · rw [exec_cancelHeld_some hn, takeCancelHeld_found hc hh]
    rfl
  · rw [exec_cancelHeld_some hn, takeCancelHeld_none hh]

end Sys2Proof.Machine
end

section
/-! SUPPORT. Each block's teardown of a port as a step, and the slot command that waits behind it (R44, R99, R108, R149, R161,
R167, R176, R182). -/

namespace Sys2Proof.Machine

/-! ### The steps -/

/-- The state after the write unit's part of the port's teardown (R18, R99). -/
def pwuTornDown (p : Port) (s : State) : State :=
  finishFences (dropHold p (((withdrawJobs p s).modTeardown p (fun t => { t with pwu := false })).modPwu p
    WriteUnit.teardown))

/-- The state after the notice unit's part, behind a CANCEL of the port (R149, R154). -/
def nuTornDown (p : Port) (s : State) : State :=
  finishFences (noticeTeardown p ((cancelHeld p s).modTeardown p (fun t => { t with nu := false })))

/-- The state after the signal word bank's part (R161). -/
def swbTornDown (p : Port) (s : State) : State := finishFences (s.modTeardown p (fun t => { t with swb := false }))

section
variable {p : Port} {s : State}

theorem exec_pwuTeardown (h : (s.teardown.get p).pwu = true) :
    exec (.pwuTeardown p) s = .next (passCommand p (pwuTornDown p s)) := congrArg Host.Outcome.next (if_pos h)

theorem exec_nuTeardown (h : (s.teardown.get p).nu = true) :
    exec (.nuTeardown p) s = .next (passCommand p (nuTornDown p s)) := congrArg Host.Outcome.next (if_pos h)

theorem exec_swbTeardown (h : (s.teardown.get p).swb = true) :
    exec (.swbTeardown p) s = .next (passCommand p (swbTornDown p s)) := congrArg Host.Outcome.next (if_pos h)

theorem exec_meTeardown (h : (s.teardown.get p).me = true) : exec (.meTeardown p) s = .next (takeMeTeardown p s) :=
  congrArg Host.Outcome.next (if_pos h)

end

section
variable (p : Port) (s : State) (q : Port)

theorem pwuTornDown_waiting : ((pwuTornDown p s).plu.get q).waiting = (s.plu.get q).waiting :=
  ((SameWork.finishFences _).waiting q).trans (congrArg (fun m => (PortMap.get m q).waiting) (withdrawJobs_fields p s).1)

theorem nuTornDown_waiting : ((nuTornDown p s).plu.get q).waiting = (s.plu.get q).waiting := by
  obtain ⟨-, -, -, -, -, hplu⟩ := cancelHeld_fields p s
  exact ((SameWork.finishFences _).waiting q).trans (((SameWork.reexamine _).waiting q).trans (hplu q).1)

theorem swbTornDown_waiting : ((swbTornDown p s).plu.get q).waiting = (s.plu.get q).waiting :=
  (SameWork.finishFences _).waiting q

end

/-- With no slot command kept back at the port, its released jobs go on, and nothing else. -/
theorem passCommand_none {p : Port} {s : State} (h : (s.plu.get p).waiting = none) : passCommand p s = goOn s := by
  simp [passCommand, h]

/-! ### Their states in the statement's words -/

section
variable {p : Port} {s u : State}

/-- What the write unit's teardown does at the media engine, by whether that has yet to take its own (R108). -/
theorem withdrawJobs_of (h : (s.teardown.get p).me = true ∧ u = s ∨ (s.teardown.get p).me = false ∧ u = s.modMe (fun m =>
    { m with queue := m.queue.filterMap (Job.tornDown p), running := m.running.map (Running.tornDown p) })) :
    withdrawJobs p s = u := by
  rcases h with ⟨hm, rfl⟩ | ⟨hm, rfl⟩
  · exact if_pos hm
  · exact if_neg (by simp [hm])

theorem pwuTornDown_eq (h : withdrawJobs p s = u) : pwuTornDown p s =
    finishFences (((u.modTeardown p (fun t => { t with pwu := false })).modPwu p (fun u =>
      { u with slots := u.slots.filter (fun x => decide (x.state = .draining)), pendingClear := none,
               command := none })).setHoldList (s.holdList.filter (fun h => decide (h.port ≠ p)))) := by
  have hlist : s.holdList = u.holdList := by
    obtain ⟨-, -, -, -, -, hl⟩ := withdrawJobs_fields p s
    rw [← h, hl]
  rw [pwuTornDown, h, hlist]
  rfl

end

/-! ### FENCEs that wait for the teardowns (R182) -/

section
variable {f : FenceRecord} {s : State}

theorem finishFences_waits (hf : s.le.fences = [f]) (h : (s.teardown.get f.target).fourTaken = false) :
    finishFences s = s := by
  have hleft : (s.modLe (fun x => { x with fences := [f] })) = s := by simp [State.modLe, ← hf]
  simp [finishFences, hf, h, hleft]

theorem FenceRecord.detail_eq (f : FenceRecord) : f.detail = [BitVec.ofNat 8 f.target.num,
    if f.abandoned then 1#8 else 0#8, BitVec.ofNat 8 f.ended, BitVec.ofNat 8 f.ending] := by
  unfold FenceRecord.detail boolItem
  split <;> rfl

theorem finishFences_done (hf : s.le.fences = [f]) (h : s.teardown.get f.target = Teardowns.clear) :
    finishFences s = complete s.ac.supervisor f.serial { status := .done, detail := f.detail }
      (s.modLe (fun x => { x with fences := [] })) := by
  have hfour : Teardowns.clear.fourTaken = true := rfl
  simp [finishFences, hf, h, hfour]

end

/-! ### The lease engine's teardown (R44, R59) -/

theorem pairwise_heldLeases {p : Port} {s : State} (h : s.le.table.length = 64) :
    (heldLeases p s).Pairwise (fun a b => a % 64 < b % 64) := by
  have hall : (leases s).Pairwise (fun a b => a.1 % 64 < b.1 % 64) := pairwise_leasesFrom _ 0 (by omega)
  exact List.pairwise_map.mpr (hall.sublist List.filter_sublist)

theorem mem_heldLeases {p : Port} {s : State} (h : s.le.table.length = 64) (id : Nat) :
    id ∈ heldLeases p s ↔ ∃ l, findLease s id = some l ∧ l.holder = p ∧ l.state = .held := by
  simp only [heldLeases, List.mem_map, List.mem_filter, Bool.and_eq_true, decide_eq_true_eq]
  constructor
  · rintro ⟨⟨_, l⟩, ⟨hm, hl⟩, rfl⟩
    exact ⟨l, (mem_leases h _ l).mp hm, hl⟩
  · rintro ⟨l, hf, hl⟩
    exact ⟨(id, l), ⟨(mem_leases h id l).mpr hf, hl⟩, rfl⟩

/-! ### Jobs after their port's teardown (R108) -/

theorem abandonIf_of {p : Port} {o a : JobOwner}
    (h : o.issuer ≠ p ∧ a = o ∨ o.issuer = p ∧ a = { issuer := p, serial := o.serial, abandoned := true }) :
    o.abandonIf p = a := by
  rcases h with ⟨hn, rfl⟩ | ⟨rfl, rfl⟩
  · exact if_neg hn
  · exact if_pos rfl

theorem tornDown_drain (p : Port) (o : JobOwner) (l : List SectorItem) :
    Job.tornDown p (.port o (.drain l)) = some (.port (o.abandonIf p) (.drain l)) := by
  unfold Job.tornDown JobOwner.abandonIf
  dsimp only
  split <;> rfl

theorem tornDown_other {p : Port} {o : JobOwner} (h : o.issuer ≠ p) (w : JobWork) :
    Job.tornDown p (.port o w) = some (.port o w) := if_neg h

theorem tornDown_own {p : Port} {o : JobOwner} (h : o.issuer = p) {w : JobWork} (hw : ∀ l, w ≠ .drain l) :
    Job.tornDown p (.port o w) = none := by
  cases w with
  | drain l => exact absurd rfl (hw l)
  | read l => exact if_pos h
  | clear l => exact if_pos h
  | metadata => exact if_pos h

/-! ### The blocks that a slot command's opcode names (R167, R176) -/

section
variable {i : Instr} {c : SlotCommand} {d : Nat} {p : Port} {op : Byte} {ps : List Byte} {n : Nat}

/-- A READ, WRITE, CLEAR or QUERY SECTOR is a request at the lease engine just when its rule does not refuse its parameters. -/
theorem readParams_eq (f : Word16) (k : Byte) : readParams f k = !(SlotCommand.read f k).paramsRefused := by
  rw [Bool.eq_iff_iff, readParams_iff]
  simp only [SlotCommand.paramsRefused, Bool.not_eq_true', Bool.or_eq_false_iff, decide_eq_false_iff_not, ← BitVec.toNat_inj]
  simp
  omega

theorem writeParams_eq (f : Word16) (k : Byte) (l : List Byte) :
    writeParams f k = !(SlotCommand.write f k l).paramsRefused := by
  rw [Bool.eq_iff_iff, writeParams_iff]
  simp only [SlotCommand.paramsRefused, Bool.not_eq_true', Bool.or_eq_false_iff, decide_eq_false_iff_not, ← BitVec.toNat_inj]
  simp
  omega

theorem clearParams_eq (f k : Word16) : clearParams f k = !(SlotCommand.clear f k).paramsRefused := by
  rw [Bool.eq_iff_iff, clearParams_iff]
  simp only [SlotCommand.paramsRefused, Bool.not_eq_true', Bool.or_eq_false_iff, decide_eq_false_iff_not, ← BitVec.toNat_inj]
  simp
  omega

theorem querySectorParams_eq (n : Word16) : querySectorParams n = !(SlotCommand.querySector n).paramsRefused := by
  rw [Bool.eq_iff_iff, querySectorParams_iff]
  simp [SlotCommand.paramsRefused]

theorem owners_opcode (hc : slotCommand? i = some c) (hf : frameLayout i = some (p, op, ps, n)) :
    (c.owners.le = true ↔ op ∈ [0x10#8, 0x11#8, 0x12#8, 0x13#8, 0x14#8, 0x15#8, 0x20#8, 0x21#8, 0x22#8, 0x23#8, 0x24#8,
      0x60#8, 0x65#8, 0x66#8, 0x67#8] ∧ c.paramsRefused = false) ∧
    (c.owners.pwu = true ↔ op ∈ [0x12#8, 0x14#8, 0x20#8, 0x21#8, 0x22#8, 0x23#8] ∨
      op = 0x24#8 ∧ c.paramsRefused = false) ∧
    (c.owners.nu = true ↔ op ∈ [0x30#8, 0x31#8, 0x32#8]) ∧ (c.owners.swb = true ↔ op ∈ [0x40#8, 0x41#8]) := by
  cases i <;> simp only [slotCommand?, reduceCtorEq, Option.some.injEq] at hc <;> subst hc <;>
    simp only [frameLayout, Option.some.injEq, Prod.mk.injEq] at hf <;> obtain ⟨-, rfl, -, -⟩ := hf
  case read f k _ => simp [SlotCommand.owners, readParams_eq]
  case write f k l _ => simp [SlotCommand.owners, writeParams_eq f k l]
  case clear f k _ => simp [SlotCommand.owners, clearParams_eq]
  case querySector f _ => simp [SlotCommand.owners, querySectorParams_eq]
  all_goals simp [SlotCommand.owners, SlotCommand.paramsRefused]

/-- A slot command accepted behind a teardown of its port stays at the port (R167, R176). -/
theorem slotFrame_behindTeardown {s : State} (ho : openPort p s = true) (hi : (s.plu.get p).slot = .idle)
    (hr : s.released = []) (hn : 1 ≤ n) (hb : c.behindTeardown (s.teardown.get p) = true) :
    slotFrame p op true c n s =
      endAccepted p s [] n ((acceptedIn p op s).modPlu p (fun u => { u with waiting := some c })) := by
  have hwait : ((s.modPlu p (fun u => u.accept op c)).plu.get p).waiting = some c := by simp [Plu.accept]
  have hstate : s.modPlu p (fun u => u.accept op c) =
      (acceptedIn p op s).modPlu p (fun u => { u with waiting := some c }) := by
    simp [acceptedIn, Plu.accept, Plu.busyWith]
  rw [slotFrame_accept ho hi hn, passCommand_kept hwait hb, goOn_idle (s := s.modPlu p _) hr, hstate]

end

/-- What a block's teardown does with the slot command that waits behind it: it stays behind another block's, or its owner
takes it, or it is handed to the lease engine (R167, R176). -/
theorem passCommand_behind {p : Port} {c : SlotCommand} {t w : State} (hc : (t.plu.get p).waiting = some c)
    (hw : w = t.modPlu p (fun u => { u with waiting := none })) :
    (c.behindTeardown (t.teardown.get p) = true → passCommand p t = goOn t) ∧
    (c.behindTeardown (t.teardown.get p) = false →
      (c.owners.le = false → passCommand p t = goOn (takeCommand p c w)) ∧
      (c.owners.le = true → t.le.sweepsAsked = 0 → engineIdle t = true →
        passCommand p t = takeCommand p c (servedPort p w)) ∧
      (c.owners.le = true → t.le.sweepsAsked ≠ 0 → t.released = [] → passCommand p t = handRequest p (.command c) w)) := by
  subst hw
  refine ⟨fun hb => passCommand_kept hc hb, fun hb => ⟨fun hl => passCommand_taken hc hb hl, fun hl h0 hi => ?_,
    fun hl h0 hr => passCommand_behindSweep hc hb hl h0 hr⟩⟩
  rw [passCommand_handed hc hb hl]
  refine serveWaiting_handRequest (s := t.modPlu p (fun u => { u with waiting := none })) h0 hi ?_
  rintro _ ⟨⟩
  exact owners_nu hl

/-- Settles O47: each step passes the port's command on behind its block's part of the teardown. -/
theorem teardownsAreTaken : Obligations.TeardownsAreTaken := by
  refine ⟨fun p s h => ?_, fun p s hw => ⟨fun u ht hu => ?_, fun u ht hu => ?_, fun ht => ?_⟩,
    fun p s => ⟨rfl, exec_meTeardown⟩, fun i c d p op ps n s hc hd hf => ?_, fun p c i s u t w hc hu ht hw => ?_,
    fun f s hf => ⟨finishFences_waits hf, fun h => ?_⟩, fun s hr => goOn_idle hr,
    fun p cause s => ⟨rfl, fun h => ⟨pairwise_heldLeases h, mem_heldLeases h⟩⟩, fun p o a ha => ?_⟩
  · exact congrArg Host.Outcome.next (takeWaiting_only h rfl rfl)
  · rw [exec_pwuTeardown ht, passCommand_none ((pwuTornDown_waiting p s p).trans hw), pwuTornDown_eq (withdrawJobs_of hu)]
  · rw [exec_nuTeardown ht, passCommand_none ((nuTornDown_waiting p s p).trans hw), hu]
    rfl
  · rw [exec_swbTeardown ht, passCommand_none ((swbTornDown_waiting p s p).trans hw)]
    rfl
  · obtain ⟨hle, hpwu, hnu, hswb⟩ := owners_opcode hc hf
    refine ⟨hle, hpwu, hnu, hswb, fun hwf hn ho hi hr hb => ?_⟩
    have hpos : 1 ≤ n := (Nat.le_of_lt (slotLength_pos hd)).trans hn
    rw [exec_slotFrame hc hd hf hwf hn, slotFrame_behindTeardown ho hi hr hpos hb]
  · obtain ⟨hexec, hwait⟩ : exec i s = .next (passCommand p t) ∧ (t.plu.get p).waiting = some c := by
      rw [← hc]
      rcases ht with ⟨rfl, ht, rfl⟩ | ⟨rfl, ht, rfl⟩ | ⟨rfl, ht, rfl⟩
      · rw [← pwuTornDown_eq (withdrawJobs_of hu)]
        exact ⟨exec_pwuTeardown ht, pwuTornDown_waiting p s p⟩
      · exact ⟨exec_nuTeardown ht, nuTornDown_waiting p s p⟩
      · exact ⟨exec_swbTeardown ht, swbTornDown_waiting p s p⟩
    obtain ⟨hkept, hpassed⟩ := passCommand_behind hwait hw
    rw [hexec]
    refine ⟨fun hb => congrArg _ (hkept hb), fun hb => ?_⟩
    obtain ⟨htaken, hserved, hsweep⟩ := hpassed hb
    exact ⟨fun hl => congrArg _ (htaken hl), fun hl h0 hi => congrArg _ (hserved hl h0 hi),
      fun hl h0 hr => congrArg _ (hsweep hl h0 hr)⟩
  · rw [finishFences_done hf h, FenceRecord.detail_eq]
  · have hown := abandonIf_of ha
    refine ⟨fun w hn => tornDown_other hn w, fun hp => ⟨fun l => tornDown_own hp (by simp), fun l => tornDown_own hp (by simp),
      tornDown_own hp (by simp)⟩, fun l => ?_, fun b => rfl, fun l d k r => ?_, fun l d f r => ?_, fun l d r => ?_,
      fun r => ?_, fun b x st => rfl⟩
    · rw [tornDown_drain, hown]
    all_goals rw [Running.tornDown, hown]

end Sys2Proof.Machine
end

section
/-! SUPPORT. A command that waits for its port's earlier job goes on (R82, R83), and so do the jobs that the hold list's
re-examinations release, in the order of each release (R24, R65, R152). -/

namespace Sys2Proof.Machine

/-! ### Waiting for the port's earlier job (R82) -/

section
variable {p : Port} {c : PwuCommand} {s : State}

theorem jobWaits_job (h : noJob p s = false) (c : PwuCommand) : jobWaits p c s = true := by
  have hj : jobAtMe p s = true := by simpa [noJob] using h
  simp [jobWaits, hj]

theorem jobIssue_waits (hc : (s.pwu.get p).command = some c) (hs : c.stage = .waiting) (h : jobWaits p c s = true) :
    jobIssue p s = s := by
  simp [jobIssue, hc, hs, h]

theorem jobIssue_goesOn (hc : (s.pwu.get p).command = some c) (hs : c.stage = .waiting) (h : jobWaits p c s = false) :
    jobIssue p s = if c.action.isDrain then serveWaiting (handOnce p (.issue c.serial) s) else holdOrIssue p c s := by
  simp [jobIssue, hc, hs, h]

theorem jobIssue_holdEnded (hc : (s.pwu.get p).command = some c) (hs : c.stage = .holdEnded) :
    jobIssue p s = serveWaiting s := by
  simp [jobIssue, hc, hs]

theorem takeIssue_waiting (hc : (s.pwu.get p).command = some c) (hs : c.stage = .waiting) (h : jobWaits p c s = false) :
    takeIssue p c.serial s = holdOrIssue p c s := by
  simp [takeIssue, hc, hs, h, Option.filter]

theorem takeIssue_holdEnded (hc : (s.pwu.get p).command = some c) (hs : c.stage = .holdEnded) :
    takeIssue p c.serial s = issueJob p c s := by
  simp [takeIssue, hc, hs, Option.filter]

/-! ### The hold check passed (R83, R150) -/

theorem holdOrIssue_notAsked (h : holdQuestion c.action (s.pwu.get p) = none) : holdOrIssue p c s = issueJob p c s := by
  rw [holdOrIssue, h]

theorem holdOrIssue_unblocked {k : ChangeKind} {changed : List Range} (h : AsksHold c.action (s.pwu.get p) k changed)
    (hb : blocked p k changed s = false) : holdOrIssue p c s = issueJob p c s := by
  rw [holdOrIssue, holdQuestion_eq h]
  exact if_neg (by simp [hb])

/-- A CLEAR's job issued: the STAGED slots of its blocks are discarded (R130). -/
theorem issueJob_clear {blocks : List Nat} {cut : Bool} {formed : Option Range}
    (ha : c.action = .clear blocks cut formed) : issueJob p c s =
      enqueueJob (.port { issuer := p, serial := c.serial, abandoned := false } (.clear blocks))
        (s.modPwu p (fun u =>
          { u with slots := u.slots.filter (fun x => !(decide (x.state = .staged) && blocks.contains (x.sector / 32))),
                   command := some { c with stage := .issued } })) := by
  simp only [issueJob, ha, setCommand, State.modPwu_modPwu]
  rfl

theorem issueJob_read {r : Range} {rest : List Nat} (ha : c.action = .read r rest) : issueJob p c s =
    enqueueJob (.port { issuer := p, serial := c.serial, abandoned := false } (.read rest))
      (s.modPwu p (fun u => { u with command := some { c with stage := .issued } })) := by
  simp only [issueJob, ha]
  rfl

theorem issueJob_saveConfig (ha : c.action = .saveConfig) : issueJob p c s =
    enqueueJob (.port { issuer := p, serial := c.serial, abandoned := false } .metadata)
      (s.modPwu p (fun u => { u with command := some { c with stage := .issued } })) := by
  simp only [issueJob, ha]
  rfl

end

/-! ### Released jobs (R152) -/

theorem issueReleased_one {l : List (Port × Nat)} {s : State} (h : s.released = [l]) : issueReleased s =
    (issueInOrder l s).2.setReleased (if (issueInOrder l s).1.isEmpty then [] else [(issueInOrder l s).1]) := by
  rw [issueReleased, h]
  rfl

theorem issueReleased_two {l m : List (Port × Nat)} {s t : State} {kept : List (List (Port × Nat))}
    (h : s.released = [l, m]) (hl : issueInOrder l s = (l, t)) (hne : l ≠ []) (hk : kept = [l]) : issueReleased s =
      (issueInOrder m t).2.setReleased (if (issueInOrder m t).1.isEmpty then kept else kept ++ [(issueInOrder m t).1]) := by
  have he : l.isEmpty = false := List.isEmpty_eq_false_iff.mpr hne
  subst hk
  simp only [issueReleased, h, issueEach, hl, he, Bool.false_eq_true, if_false, List.nil_append]

theorem goOn_released {s : State} (h : s.released ≠ []) : goOn s = serveWaiting s :=
  if_neg (by simpa using h)

/-- Released jobs go on as far as they can; with a sweep pending the lease engine takes nothing behind them (R65). -/
theorem goOn_sweep {s t : State} (hr : s.released ≠ []) (h : issueReleased s = t) (h0 : t.le.sweepsAsked ≠ 0) :
    goOn s = t := by
  rw [goOn_released hr, serveWaiting, h, serveUpTo_none _ (if_neg h0)]

theorem goOn_noRequest {s t : State} (hr : s.released ≠ []) (h : issueReleased s = t)
    (hq : ∀ q, t.le.requests.get q = []) : goOn s = t := by
  rw [goOn_released hr, serveWaiting, h, serveUpTo_none _ (serveOne_empty hq)]

theorem serveUpTo_next {n : Nat} {s t : State} (h : serveOne s = some t) :
    serveUpTo (n + 1) s = serveUpTo n (issueReleased t) := by
  rw [serveUpTo, h]

/-- The number of requests that the lease engine may take behind one that has just been handed to it. -/
theorem serveWaiting_handed {p : Port} {r : LeRequest} {s t : State} {l : List (Port × Nat)}
    (h : issueReleased s = handRequest p r t) (hr : t.released = [l]) (hq : ∀ q, t.le.requests.get q = []) :
    serveWaiting s = serveUpTo (1 + l.length) (handRequest p r t) := by
  have hcount : requestCount (handRequest p r t) = 1 := by
    rw [requestCount_only (p := p)]
    · simp [handRequest, hq]
    · intro q e
      simp [handRequest, PortMap.get_modify_ne, e, hq]
  have hlen : (handRequest p r t).released.flatten.length = l.length := by
    change t.released.flatten.length = l.length
    simp [hr]
  rw [serveWaiting, h, hcount, hlen]

theorem issueJob_requests {p : Port} {c : PwuCommand} {s : State} (hq : ∀ q, s.le.requests.get q = []) (q : Port) :
    (issueJob p c s).le.requests.get q = [] :=
  List.eq_nil_of_sublist_nil (hq q ▸ (Keeps.issueJob p c s).requests q)

section
variable {p : Port} {c : PwuCommand} {s : State}

theorem endedCommand_of (hc : (s.pwu.get p).command = some c) (hs : c.stage = .holdEnded) :
    endedCommand p c.serial s = some c := by
  simp [endedCommand, hc, hs, Option.filter]

/-- The first of an event's jobs, a DRAIN, is handed to the lease engine, and the others wait for it. -/
theorem issueReleased_hand {n : Nat} {rest : List (Port × Nat)} (hr : s.released = [(p, n) :: rest])
    (hc : endedCommand p n s = some c) (hd : c.action.isDrain = true) (hq : s.le.requests.get p = []) :
    issueReleased s = handRequest p (.issue n) s := by
  rw [issueReleased_one hr, issueInOrder_hand hc hd hq]
  simp [handRequest, State.setReleased, State.modLe, ← hr]

/-- A released DRAIN whose request the lease engine has taken: the jobs released behind it go on. -/
theorem issueReleased_issued {n : Nat} {rest : List (Port × Nat)} (hr : s.released = [(p, n) :: rest])
    (hd : c.action.isDrain = true) (hne : drainItems c.action (s.pwu.get p) ≠ []) :
    issueReleased (issueJob p c s) = (issueInOrder rest (issueJob p c s)).2.setReleased
      (if (issueInOrder rest (issueJob p c s)).1.isEmpty then [] else [(issueInOrder rest (issueJob p c s)).1]) := by
  rw [issueReleased_one ((Keeps.issueJob p c s).released.trans hr), issueInOrder_gone (endedCommand_issued hd hne)]

/-- The last of an event's jobs, a DRAIN handed to the lease engine, is issued, and nothing else happens. -/
theorem serveUpTo_lastIssue {n k : Nat} (hr : s.released = [[(p, n)]]) (hc : endedCommand p n s = some c)
    (hd : c.action.isDrain = true) (hne : drainItems c.action (s.pwu.get p) ≠ []) (h0 : s.le.sweepsAsked = 0)
    (hq : ∀ q, s.le.requests.get q = []) :
    serveUpTo (k + 1) (handRequest p (.issue n) s) = (issueJob p c (servedPort p s)).setReleased [] := by
  have hnext : issueReleased (issueJob p c (servedPort p s)) = (issueJob p c (servedPort p s)).setReleased [] :=
    issueReleased_issued (s := servedPort p s) hr hd hne
  have hempty := issueJob_requests (p := p) (c := c) (s := servedPort p s) hq
  rw [serveUpTo_next (serveOne_issue hc h0 hq), hnext]
  exact serveUpTo_none k (serveOne_empty hempty)

end

/-! ### Two released jobs (R65, R152) -/

section
variable {p q : Port} {c d : PwuCommand} {s : State}

theorem issueReleased_clear {blocks : List Nat} {cut : Bool} {formed : Option Range}
    (hr : s.released = [[(p, c.serial)]]) (hc : endedCommand p c.serial s = some c)
    (ha : c.action = .clear blocks cut formed) : issueReleased s = (issueJob p c s).setReleased [] := by
  rw [issueReleased_one hr, issueInOrder_clear hc (by rw [ha]; rfl)]
  rfl

/-- A DRAIN that a pending sweep keeps back keeps back no CLEAR of a later event. -/
theorem issueReleased_laterClear {blocks : List Nat} {cut : Bool} {formed : Option Range}
    (hr : s.released = [[(q, d.serial)], [(p, c.serial)]]) (hd : endedCommand q d.serial s = some d)
    (hdd : d.action.isDrain = true) (hq : s.le.requests.get q = []) (hc : endedCommand p c.serial s = some c)
    (ha : c.action = .clear blocks cut formed) : issueReleased s =
      (issueJob p c (handRequest q (.issue d.serial) s)).setReleased [[(q, d.serial)]] := by
  have hclear : c.action.isDrain = false := by rw [ha]; rfl
  rw [issueReleased_two hr (issueInOrder_hand hd hdd hq) (by simp) rfl,
    issueInOrder_clear (s := handRequest q (.issue d.serial) s) hc hclear]
  rfl

/-- Nor does it keep back the request of a DRAIN of a later event. -/
theorem issueReleased_laterDrain (hpq : p ≠ q) (hr : s.released = [[(q, d.serial)], [(p, c.serial)]])
    (hd : endedCommand q d.serial s = some d) (hdd : d.action.isDrain = true) (hreq : ∀ x, s.le.requests.get x = [])
    (hc : endedCommand p c.serial s = some c) (hcd : c.action.isDrain = true) : issueReleased s =
      handRequest p (.issue c.serial) (handRequest q (.issue d.serial) s) := by
  have hfree : (handRequest q (.issue d.serial) s).le.requests.get p = [] := by
    simp [handRequest, PortMap.get_modify_ne, hpq, hreq]
  rw [issueReleased_two hr (issueInOrder_hand hd hdd (hreq q)) (by simp) rfl,
    issueInOrder_hand (s := handRequest q (.issue d.serial) s) hc hcd hfree]
  simp [handRequest, State.setReleased, State.modLe, ← hr]

end

/-- Two DRAINs that one event released are issued in its order, whatever port the lease engine examines first. -/
theorem goOn_twoDrains {p q : Port} {c d : PwuCommand} {s : State} (hne : p ≠ q)
    (hc : endedCommand p c.serial s = some c) (hcd : c.action.isDrain = true)
    (hd : endedCommand q d.serial s = some d) (hdd : d.action.isDrain = true) (hreq : ∀ x, s.le.requests.get x = [])
    (h0 : s.le.sweepsAsked = 0) (hr : s.released = [[(q, d.serial), (p, c.serial)]])
    (hfirst : drainItems d.action (s.pwu.get q) ≠ []) (hsecond : drainItems c.action (s.pwu.get p) ≠ []) :
    goOn s = issueJob p c ((servedPort p (issueJob q d (servedPort q s))).setReleased []) := by
  obtain ⟨mid, hmid⟩ : ∃ mid, mid = issueJob q d (servedPort q s) := ⟨_, rfl⟩
  have hreqMid : ∀ x, mid.le.requests.get x = [] := by
    rw [hmid]
    exact issueJob_requests (s := servedPort q s) hreq
  have hsweeps : mid.le.sweepsAsked = 0 := by
    rw [hmid]
    exact (Keeps.issueJob q d (servedPort q s)).sweepsAsked.trans h0
  have hunit : mid.pwu.get p = s.pwu.get p := by
    rw [hmid]
    exact issueJob_drain_other (s := servedPort q s) hdd hfirst hne
  have hcMid : endedCommand p c.serial mid = some c := by rw [endedCommand, hunit]; exact hc
  have hbehind : issueReleased mid = handRequest p (.issue c.serial) (mid.setReleased [[(p, c.serial)]]) := by
    rw [hmid, issueReleased_issued (s := servedPort q s) hr hdd hfirst, ← hmid, issueInOrder_hand hcMid hcd (hreqMid p)]
    rfl
  have hnext := serveUpTo_next (n := 2) (serveOne_issue hd h0 hreq)
  have hlast := serveUpTo_lastIssue (p := p) (c := c) (s := mid.setReleased [[(p, c.serial)]]) (k := 1) rfl hcMid hcd
    (by rw [State.setReleased_pwu, hunit]; exact hsecond) hsweeps hreqMid
  have hserved : drainItems c.action ((servedPort p mid).pwu.get p) ≠ [] := by
    change drainItems c.action (mid.pwu.get p) ≠ []
    rw [hunit]
    exact hsecond
  rw [goOn_released (by simp [hr]), serveWaiting_handed (issueReleased_hand hr hd hdd (hreq q)) hr hreq]
  rw [← hmid, hbehind] at hnext
  rw [← hmid]
  calc serveUpTo 3 (handRequest q (.issue d.serial) s)
      = (issueJob p c (servedPort p (mid.setReleased [[(p, c.serial)]]))).setReleased [] := hnext.trans hlast
    _ = issueJob p c ((servedPort p mid).setReleased []) := by
        rw [show servedPort p (mid.setReleased [[(p, c.serial)]]) = (servedPort p mid).setReleased [[(p, c.serial)]]
          from rfl, issueJob_setReleased _ hcd hserved, issueJob_setReleased _ hcd hserved]
        rfl

/-- Settles O48: a waiting command goes on to its hold check and its issue; released jobs are handed in their order. -/
theorem waitingCommandGoesOn : Obligations.WaitingCommandGoesOn := by
  refine ⟨fun p i a bound len s t hp hj h => ?_, fun p s c hc hs hj => ?_, fun p s c hc hs ht => ⟨?_, fun ho => ?_⟩,
    fun p s c hc hs hj ht => ⟨fun r rest ha => ?_, fun ha => ?_, fun blocks cut formed ha hb => ?_,
      fun items t hd h0 hi hitems hne hb ht' => ?_⟩,
    fun p s t c items hc hs hd ho hitems hne ht => ?_,
    fun p s c hc hs hr hreq => ⟨fun blocks cut formed ha => ?_, fun items t hd h0 hitems hne ht => ?_, fun hd h0 => ?_⟩,
    fun p q s t c d blocks cut formed hpq hc hs ha hd hds hdd h0 hreq ht => ⟨fun hr => ?_, fun hr => ?_⟩,
    fun p q s c d hpq hc hs hcd hd hds hdd hreq => ⟨fun h0 => ⟨fun hr => ?_, fun hr => ?_⟩,
      fun first second t mid v h0 hr hfirst hne1 hsecond hne2 ht hmid hv => ?_⟩⟩
  · obtain ⟨hme, -⟩ := hasJob_fields h
    rw [exec_hasJob h hp, startCommand, if_pos (jobWaits_job ((noJob_congr hme).trans hj) _)]
    rfl
  · exact congrArg Host.Outcome.next (jobIssue_waits hc hs (jobWaits_job hj c))
  · exact congrArg Host.Outcome.next (abandoned_waits hc hs ht 0).1
  · rw [serveWaiting_onlyRequest ho (by rintro _ ⟨⟩)]
    exact (abandoned_waits (s := tookRequest p s) hc hs ht c.serial).2
  · have hgo := jobIssue_goesOn hc hs (jobWaits_false hj ht c)
    rw [if_neg (by simp [ha, PwuAction.isDrain]), holdOrIssue_notAsked (by rw [ha]; rfl), issueJob_read ha] at hgo
    exact congrArg Host.Outcome.next hgo
  · have hgo := jobIssue_goesOn hc hs (jobWaits_false hj ht c)
    rw [if_neg (by simp [ha, PwuAction.isDrain]), holdOrIssue_notAsked (by rw [ha]; rfl), issueJob_saveConfig ha] at hgo
    exact congrArg Host.Outcome.next hgo
  · have hgo := jobIssue_goesOn hc hs (jobWaits_false hj ht c)
    rw [if_neg (by simp [ha, PwuAction.isDrain]), holdOrIssue_unblocked (.inr ⟨_, _, _, ha, rfl, rfl⟩) hb,
      issueJob_clear ha] at hgo
    exact congrArg Host.Outcome.next hgo
  · subst hitems
    have hgo := jobIssue_goesOn hc hs (jobWaits_false hj ht c)
    rw [if_pos hd, serveWaiting_handOnce h0 hi rfl] at hgo
    have htake := takeIssue_waiting (s := servedPort p s) hc hs (jobWaits_false hj ht c)
    rw [holdOrIssue_unblocked (s := servedPort p s) (.inl ⟨hd, rfl, rfl⟩) hb,
      issueJob_drain (s := servedPort p s) hd rfl hne ht'] at htake
    exact congrArg Host.Outcome.next (hgo.trans htake)
  · have htake := takeIssue_holdEnded (s := tookRequest p s) hc hs
    rw [issueJob_drain (s := tookRequest p s) hd hitems hne ht] at htake
    have hserve := serveWaiting_onlyRequest ho (by rintro _ ⟨⟩)
    exact congrArg Host.Outcome.next ((jobIssue_holdEnded hc hs).trans (hserve.trans htake))
  · rw [goOn_noRequest (by simp [hr]) (issueReleased_clear hr (endedCommand_of hc hs) ha)
      (fun q => issueJob_requests hreq q), issueJob_clear ha, ← enqueueJob_setReleased]
    rfl
  · subst hitems
    have hended := endedCommand_of hc hs
    rw [goOn_released (by simp [hr]), serveWaiting_handed (issueReleased_hand hr hended hd (hreq p)) hr hreq,
      Nat.add_comm, serveUpTo_lastIssue hr hended hd hne h0 hreq, ← issueJob_setReleased (s := servedPort p s) _ hd hne,
      issueJob_drain (s := (servedPort p s).setReleased []) hd rfl hne ht]
    rfl
  · rw [goOn_sweep (by simp [hr]) (issueReleased_hand hr (endedCommand_of hc hs) hd (hreq p)) h0,
      handRequest_alone (hreq p)]
  · have hsweep : (issueJob p c (handRequest q (.issue d.serial) s)).le.sweepsAsked ≠ 0 := by
      rw [(Keeps.issueJob p c _).sweepsAsked]
      exact h0
    rw [goOn_sweep (by simp [hr]) (issueReleased_laterClear hr (endedCommand_of hd hds) hdd (hreq q)
      (endedCommand_of hc hs) ha) hsweep, issueJob_clear ha, ← enqueueJob_setReleased, handRequest_alone (hreq q), ← ht]
    rfl
  · rw [ht, goOn_sweep (by simp [hr]) (issueReleased_hand hr (endedCommand_of hd hds) hdd (hreq q)) h0,
      handRequest_alone (hreq q)]
  · rw [goOn_sweep (by simp [hr]) (issueReleased_hand hr (endedCommand_of hd hds) hdd (hreq q)) h0,
      handRequest_alone (hreq q)]
  · have hfree : (s.modLe (fun x => { x with requests := x.requests.set q [.issue d.serial] })).le.requests.get p = [] := by
      simp [PortMap.get_set_ne, hpq, hreq]
    rw [goOn_sweep (by simp [hr]) (issueReleased_laterDrain hpq hr (endedCommand_of hd hds) hdd hreq
      (endedCommand_of hc hs) hcd) h0, handRequest_alone (s := s) (hreq q), handRequest_alone hfree]
    rfl
  · subst hfirst hsecond
    have hmid' : mid = issueJob q d (servedPort q s) := by
      rw [hmid, issueJob_drain (s := servedPort q s) hdd rfl hne1 ht]
      rfl
    have hunit : mid.pwu.get p = s.pwu.get p := by
      rw [hmid']
      exact issueJob_drain_other (s := servedPort q s) hdd hne1 hpq
    have hitems : drainItems c.action (s.pwu.get p) = drainItems c.action (((servedPort p mid).setReleased []).pwu.get p) :=
      congrArg (drainItems c.action) hunit.symm
    have htwo := goOn_twoDrains hpq (endedCommand_of hc hs) hcd (endedCommand_of hd hds) hdd hreq h0 hr hne1 hne2
    rw [← hmid'] at htwo
    exact htwo.trans (issueJob_drain hcd hitems hne2 hv)

end Sys2Proof.Machine
end

section
/-! SUPPORT. The drain-end report, taken by the lease engine as one request: what it does for the command that the write unit
still holds, and the ENDING leases that it frees (R32, R37, R41, R78, R89, R95, R98). -/

namespace Sys2Proof.Machine

/-! ### The ENDING leases that a report frees (R98) -/

theorem endingLeases_eq_nil {p : Port} {s : State} :
    endingLeases p s = [] ↔ ∀ l ∈ filled s, l.holder = p → l.state = .held := by
  simp only [endingLeases, List.map_eq_nil_iff, List.filter_eq_nil_iff, mem_filled, Bool.and_eq_true, decide_eq_true_eq]
  constructor
  · rintro h l ⟨id, hm⟩ hp
    by_contra hs
    exact h (id, l) hm ⟨hp, hs⟩
  · rintro h x hm ⟨hp, hs⟩
    exact hs (h x.2 ⟨x.1, hm⟩ hp)

/-- A change that leaves each lease's holder and state makes none ENDING. -/
theorem endingLeases_updateLease {p : Port} {id : Nat} {f : Lease → Option Lease} {s : State}
    (hf : ∀ k l, f k = some l → l.holder = k.holder ∧ l.state = k.state) (h : endingLeases p s = []) :
    endingLeases p (updateLease id f s) = [] := by
  rw [endingLeases_eq_nil] at h ⊢
  intro l hl hp
  rcases mem_filled_updateLease hl with ho | ⟨k, hk, hfk⟩
  · exact h l ho hp
  · obtain ⟨hh, hs⟩ := hf k l hfk
    rw [hs]
    exact h k hk (hh ▸ hp)

theorem endingLeases_downgrade {p : Port} {id : Nat} {s : State} (h : endingLeases p s = []) :
    endingLeases p (renewLease id (setLeaseMode id .shared s)) = [] := by
  refine endingLeases_updateLease ?_ (endingLeases_updateLease ?_ h)
  · rintro k l ⟨⟩
    split <;> exact ⟨rfl, rfl⟩
  · rintro k l ⟨⟩
    exact ⟨rfl, rfl⟩

/-- The write unit's record of the slots that have drained is emptied by the report (R98). -/
def reportTaken (p : Port) (s : State) : State :=
  (tookRequest p s).modPwu p (fun u => { u with drained := [] })

section
variable {p : Port} {s : State}

theorem drainedLeases_nil {t : State} (h : endingLeases p t = []) : drainedLeases p t = [] := by
  rw [drainedLeases, h]
  rfl

theorem drainedLeases_reportTaken (p : Port) (s : State) : drainedLeases p (reportTaken p s) = (endingLeases p s).filter
    (fun id => !(s.pwu.get p).slots.any (fun x => decide (x.state = .draining) && decide (x.leaseId = id))) := by
  simp [drainedLeases, reportTaken, WriteUnit.drainingUnder, tookRequest, endingLeases, leases]

theorem drainedLeases_one {id : Nat} (h : endingLeases p s = [id])
    (hx : ∀ x ∈ (s.pwu.get p).slots, x.state = .draining → x.leaseId ≠ id) : drainedLeases p (reportTaken p s) = [id] := by
  have hany : (s.pwu.get p).slots.any (fun x => decide (x.state = .draining) && decide (x.leaseId = id)) = false := by
    simpa using hx
  simp [drainedLeases_reportTaken, h, hany]

end

/-! ### The report taken -/

/-- Does the WRITE that the report ends stage a sector (R89)? -/
def stagedAtReport (p : Port) (c : PwuCommand) (t : State) : Bool :=
  match c.action with
  | .write _ _ _ leased _ => !leased.isEmpty && stagesAtEnd p c leased t
  | _ => false

section
variable {p : Port} {s : State} {r : DrainReport} {c : PwuCommand}

theorem exec_drainEndReport (h : onlyRequest p (.report r) s = true) :
    exec (.drainEndReport p) s = .next (drainEnd p r (tookRequest p s)) :=
  congrArg Host.Outcome.next (takeWaiting_only h rfl rfl)

theorem reportedCommand_some {u : WriteUnit} (hc : u.command = some c) (hs : c.serial = r.serial)
    (hst : c.stage = .issued) : reportedCommand u r = some c := by
  simp [reportedCommand, hc, hs, hst, Option.filter]

theorem reportedCommand_none {u : WriteUnit}
    (h : ∀ c, u.command = some c → c.serial = r.serial → c.stage ≠ .issued) : reportedCommand u r = none := by
  rw [reportedCommand, Option.filter_eq_none_iff]
  intro c hc
  simpa using h c hc

theorem exec_report_none (ho : onlyRequest p (.report r) s = true)
    (h : ∀ c, (s.pwu.get p).command = some c → c.serial = r.serial → c.stage ≠ .issued) :
    exec (.drainEndReport p) s = .next (grantScanIf (!(drainedLeases p (reportTaken p s)).isEmpty)
      (removeLeases (drainedLeases p (reportTaken p s)) (reportTaken p s))) := by
  have hnone : reportedCommand ((tookRequest p s).pwu.get p) r = none := reportedCommand_none h
  rw [exec_drainEndReport ho, drainEnd, hnone]
  simp only [Bool.or_false]
  rfl

/-- The report of the drain of a command that the write unit still holds: its step, the leases freed, its completion. -/
theorem exec_report_some {u : State} {shared : Bool} {gone : List Nat} (ho : onlyRequest p (.report r) s = true)
    (hc : (s.pwu.get p).command = some c) (hs : c.serial = r.serial) (hst : c.stage = .issued)
    (heffect : drainEndEffect p c (reportTaken p s) = (u, shared)) (hgone : drainedLeases p u = gone) :
    exec (.drainEndReport p) s = .next (grantScanIf (!gone.isEmpty || shared) (complete p c.serial
      (drainCompletion c r (stagedAtReport p c (reportTaken p s))) (setCommand p none (removeLeases gone u)))) := by
  have hsome : reportedCommand ((tookRequest p s).pwu.get p) r = some c := reportedCommand_some hc hs hst
  rw [exec_drainEndReport ho, drainEnd, hsome]
  change drainEndEffect p c ((tookRequest p s).modPwu p (fun u => { u with drained := [] })) = _ at heffect
  simp only [heffect, hgone]
  rfl

/-- A broken lease's command takes no step at its drain's end (R78). -/
theorem drainEndEffect_broken (hb : c.broken ≠ []) (t : State) : drainEndEffect p c t = (t, false) := by
  have he : c.broken.isEmpty = false := List.isEmpty_eq_false_iff.mpr hb
  unfold drainEndEffect
  split
  · simp [stagesAtEnd, he]
  · split
    · simp [he]
    · rfl
  · rfl

theorem stagedAtReport_broken (hb : c.broken ≠ []) (t : State) : stagedAtReport p c t = false := by
  have he : c.broken.isEmpty = false := List.isEmpty_eq_false_iff.mpr hb
  unfold stagedAtReport
  split
  · simp [stagesAtEnd, he]
  · rfl

end

/-! ### The completions (R32, R37, R78, R88, R89, R95) -/

section
variable {c : PwuCommand} (r : DrainReport)

/-- The completion of a COMMIT, RELEASE or DOWNGRADE whose leases are all live. -/
def namedCompletion (c : PwuCommand) (r : DrainReport) (named : Option Nat) (detail : List Byte) : Completion :=
  { status := if r.firstFault = none then .done else .writeFault, flags := { holdExpired := c.holdExpired },
    leaseId := named, lastSector := r.firstFault, count := r.okCount, detail := detail }

theorem drainCompletion_commit {id? : Option Nat} (hb : c.broken = []) (ha : c.action = .commit id?) :
    drainCompletion c r false = namedCompletion c r id? [] := by
  cases hf : r.firstFault <;> simp [drainCompletion, namedCompletion, hb, ha, hf, PwuAction.isFlush]

theorem drainCompletion_release {id : Nat} (hb : c.broken = []) (ha : c.action = .release id) :
    drainCompletion c r false = namedCompletion c r (some id) [0#8] := by
  cases hf : r.firstFault <;> simp [drainCompletion, namedCompletion, hb, ha, hf, PwuAction.isFlush, byteItem]

theorem drainCompletion_downgrade {id : Nat} (hb : c.broken = []) (ha : c.action = .downgrade id) :
    drainCompletion c r false = namedCompletion c r (some id) [] := by
  cases hf : r.firstFault <;> simp [drainCompletion, namedCompletion, hb, ha, hf, PwuAction.isFlush]

theorem drainCompletion_write {kept : Range} {cut flush : Bool} {leased : List LeasedSector} {opens : List SectorItem}
    (hb : c.broken = []) (ha : c.action = .write kept cut flush leased opens) (staged : Bool) :
    drainCompletion c r staged =
      match r.firstFault with
      | none => { status := if cut then .overflow else .done,
                  flags := { staged := staged, flushed := flush, holdExpired := c.holdExpired },
                  lastSector := some (kept.first + kept.count - 1), count := kept.count }
      | some n => { status := .writeFault,
                    flags := { staged := staged, flushed := flush, holdExpired := c.holdExpired },
                    lastSector := some n, count := r.okCount } := by
  cases hf : r.firstFault <;> cases cut <;> simp [drainCompletion, hb, ha, hf, PwuAction.isFlush, Range.last]

/-- The completion of a command whose one lease was broken after the issue (R78). -/
theorem drainCompletion_lost {id : Nat} {lost : Completion} (hb : c.broken = [id]) (hd : c.action.isDrain = true)
    (hl : lost = (match c.action, r.firstFault with
        | .write kept _ flush _ _, none =>
          { status := .leaseLost, flags := { flushed := flush, holdExpired := c.holdExpired }, leaseId := some id,
            lastSector := some (kept.first + kept.count - 1), count := kept.count : Completion }
        | .write _ _ flush _ _, some n =>
          { status := .leaseLost, flags := { flushed := flush, holdExpired := c.holdExpired }, leaseId := some id,
            lastSector := some n, count := r.okCount }
        | _, fault =>
          { status := .leaseLost, flags := { holdExpired := c.holdExpired }, leaseId := some id, lastSector := fault,
            count := r.okCount })) : drainCompletion c r false = lost := by
  subst hl
  cases ha : c.action with
  | read => simp [ha, PwuAction.isDrain] at hd
  | clear => simp [ha, PwuAction.isDrain] at hd
  | saveConfig => simp [ha, PwuAction.isDrain] at hd
  | write kept cut flush leased opens =>
    cases hf : r.firstFault <;> simp [drainCompletion, lostLease, hb, ha, hf, PwuAction.isFlush, Range.last]
  | commit id? => cases hf : r.firstFault <;> simp [drainCompletion, lostLease, hb, ha, hf, PwuAction.isFlush]
  | release id' => cases hf : r.firstFault <;> simp [drainCompletion, lostLease, hb, ha, hf, PwuAction.isFlush]
  | downgrade id' => cases hf : r.firstFault <;> simp [drainCompletion, lostLease, hb, ha, hf, PwuAction.isFlush]

end

/-! ### The commands' steps at their drains' ends -/

section
variable {p : Port} {c : PwuCommand} {s : State}

/-- A COMMIT or a RELEASE takes no step of its own. -/
theorem drainEndEffect_none (h : (∃ id?, c.action = .commit id?) ∨ ∃ id, c.action = .release id) (t : State) :
    drainEndEffect p c t = (t, false) ∧ stagedAtReport p c t = false := by
  rcases h with ⟨_, h⟩ | ⟨_, h⟩ <;> simp [drainEndEffect, stagedAtReport, h]

theorem drainEndEffect_downgrade {id : Nat} {l : Lease} {t : State} (hb : c.broken = []) (ha : c.action = .downgrade id)
    (hf : findLease t id = some l) (hp : l.holder = p) (hh : l.state = .held) :
    drainEndEffect p c t = (renewLease id (setLeaseMode id .shared t), true) := by
  simp [drainEndEffect, ha, hf, hb, hp, hh]

/-- A WRITE in flight whose leases are all live stages its leased sectors (R89). -/
theorem stagesAtEnd_live {leased : List LeasedSector} {t : State} (hb : c.broken = [])
    (hslot : (t.plu.get p).slot ≠ .idle) (hserial : (t.plu.get p).serial = c.serial)
    (hl : ∀ x ∈ leased, ∃ l, findLease t x.leaseId = some l ∧ l.holder = p ∧ l.state = .held) :
    stagesAtEnd p c leased t = true := by
  have hlive : leasesLive p leased t = true := by
    rw [leasesLive, List.all_eq_true]
    intro x hx
    obtain ⟨l, hf, hp, hh⟩ := hl x hx
    simp [hf, hp, hh]
  simp [stagesAtEnd, Plu.holdsCommand, hb, hslot, hserial, hlive]

end

/-- Settles O49: the report's step, its leases and its completion, for each command that a drain can end. -/
theorem commitCompletesAtItsReport : Obligations.CommitCompletesAtItsReport := by
  refine ⟨fun p s t r gone ho hc ht hg => ?_, fun id l more t => ⟨rfl, rfl, removeLeases_one⟩,
    fun p s t r c ho hc hs hst ht => ⟨fun hb he => ⟨fun id? ha => ?_,
      fun kept cut flush leased opens ha hslot hserial hl => ?_, fun id l ha hf hp hh => ?_⟩,
      fun kept cut flush leased opens gone ha hslot hg => ?_,
      fun id l he hf hx => ⟨fun hb ha => ?_, fun id? hb ha => ?_⟩,
      fun id lost hb hd hlost => ⟨fun he => ?_, fun l he hf hx => ?_⟩⟩⟩
  · change t = reportTaken p s at ht
    subst ht
    rw [exec_report_none ho hc, drainedLeases_reportTaken, ← hg]
    cases gone <;> rfl
  all_goals
    change t = reportTaken p s at ht
    subst ht
  · obtain ⟨heffect, hstaged⟩ := drainEndEffect_none (p := p) (.inl ⟨id?, ha⟩) (reportTaken p s)
    rw [exec_report_some ho hc hs hst heffect (drainedLeases_nil he), hstaged, drainCompletion_commit r hb ha]
    rfl
  · have hstages : stagesAtEnd p c leased (reportTaken p s) = true := stagesAtEnd_live hb hslot hserial hl
    have heffect : drainEndEffect p c (reportTaken p s) = (stageSectors p leased (reportTaken p s), false) := by
      simp [drainEndEffect, ha, hstages]
    have hstaged : stagedAtReport p c (reportTaken p s) = !leased.isEmpty := by simp [stagedAtReport, ha, hstages]
    have hgone : drainedLeases p (stageSectors p leased (reportTaken p s)) = [] :=
      drainedLeases_nil ((endingLeases_congr (congrArg LeaseEngine.table (stageSectors_le p leased _))).trans he)
    rw [exec_report_some ho hc hs hst heffect hgone, hstaged, drainCompletion_write r hb ha]
    cases r.firstFault <;> rfl
  · have heffect := drainEndEffect_downgrade (t := reportTaken p s) hb ha hf hp hh
    have hstaged : stagedAtReport p c (reportTaken p s) = false := by simp [stagedAtReport, ha]
    have hgone : drainedLeases p (renewLease id (setLeaseMode id .shared (reportTaken p s))) = [] :=
      drainedLeases_nil (endingLeases_downgrade he)
    rw [exec_report_some ho hc hs hst heffect hgone, hstaged, drainCompletion_downgrade r hb ha]
    rfl
  · have hholds : (s.plu.get p).holdsCommand c.serial = false := by
      rcases hslot with h | h <;> simp [Plu.holdsCommand, h]
    have hsome : reportedCommand ((tookRequest p s).pwu.get p) r = some c := reportedCommand_some hc hs hst
    rw [exec_drainEndReport ho, drainEnd_abandonedWrite (s := tookRequest p s) hsome ha hholds rfl]
    change Host.Outcome.next (grantScanIf (!(drainedLeases p (reportTaken p s)).isEmpty)
      (setCommand p none (removeLeases (drainedLeases p (reportTaken p s)) (reportTaken p s)))) = _
    rw [drainedLeases_reportTaken, ← hg]
    cases gone <;> rfl
  · obtain ⟨heffect, hstaged⟩ := drainEndEffect_none (p := p) (.inr ⟨id, ha⟩) (reportTaken p s)
    rw [exec_report_some ho hc hs hst heffect (drainedLeases_one he hx), hstaged, drainCompletion_release r hb ha,
      removeLeases_one (t := reportTaken p s) hf]
    rfl
  · obtain ⟨heffect, hstaged⟩ := drainEndEffect_none (p := p) (.inl ⟨id?, ha⟩) (reportTaken p s)
    rw [exec_report_some ho hc hs hst heffect (drainedLeases_one he hx), hstaged, drainCompletion_commit r hb ha,
      removeLeases_one (t := reportTaken p s) hf]
    rfl
  all_goals have hbroken : c.broken ≠ [] := by simp [hb]
  · rw [exec_report_some ho hc hs hst (drainEndEffect_broken hbroken _) (drainedLeases_nil he),
      stagedAtReport_broken hbroken, drainCompletion_lost r hb hd hlost]
    rfl
  · rw [exec_report_some ho hc hs hst (drainEndEffect_broken hbroken _) (drainedLeases_one he hx),
      stagedAtReport_broken hbroken, drainCompletion_lost r hb hd hlost, removeLeases_one (t := reportTaken p s) hf]
    rfl

end Sys2Proof.Machine
end

section
/-! SUPPORT. The array's outcomes for the RELOCATE and META jobs, the job that ends one and the next one's selection (R101,
R104, R106, R114, R118 to R123). -/

namespace Sys2Proof.Machine

/-! ### An operation in the array, and the command that issued the running job -/

/-- An outcome of an operation inside the array has its effect. -/
theorem arrayOutcome_inside {effect : State → State} {s : State} {b : Nat} (ho : operationBlock s = some b)
    (hb : b < 1041) : arrayOutcome effect s = .next (effect s) := by
  have hin : operationInArray s = true := by
    rw [operationInArray, ho]
    exact decide_eq_true hb
  exact if_pos hin

theorem issuingCommand_some {o : JobOwner} {c : PwuCommand} {s : State} (ha : o.abandoned = false)
    (hc : (s.pwu.get o.issuer).command = some c) (hs : c.serial = o.serial) (hst : c.stage = .issued) :
    issuingCommand o s = some c := by
  simp [issuingCommand, ha, hc, hs, hst, Option.filter]

/-- The issuing command is the write unit's. -/
theorem issuingCommand_congr {o : JobOwner} {s t : State} (h : t.pwu = s.pwu) : issuingCommand o t = issuingCommand o s := by
  simp only [issuingCommand, h]

/-- The outcome that the array gives a read: UNCORRECTABLE of an unreadable sector, the command's of a readable one (R101,
R103). -/
theorem readOutcomeAt_unreadable {me : MediaEngine} {ps : Nat} (h : ps ∈ me.unreadable) (out : ReadOutcome) :
    readOutcomeAt me ps out = some .uncorrectable := by simp [readOutcomeAt, h]

theorem readOutcomeAt_readable {me : MediaEngine} {ps : Nat} {out : ReadOutcome} (h : ps ∉ me.unreadable)
    (ho : out ≠ .uncorrectable) : readOutcomeAt me ps out = some out := by simp [readOutcomeAt, h, ho]

/-! ### The end of a RELOCATE job (R122, R123) -/

section
variable {s : State}

theorem releaseLatch_none (h : s.me.latch = none) : releaseLatch s = s := by rw [releaseLatch, h]

theorem releaseLatch_queued {c : Nat} (h : s.me.latch = some c) (hp : s.me.pool ≠ []) : releaseLatch s =
    s.modMe (fun m => { m with latch := none, queue := m.queue ++ [.relocate c] }) := by
  simp [releaseLatch, h, hp]

theorem releaseLatch_dropped {c : Nat} (h : s.me.latch = some c) (hp : s.me.pool = []) : releaseLatch s =
    sparesOutRule c (countEvent .relocDropped none (s.modMe (fun m => { m with latch := none }))) := by
  simp [releaseLatch, h, hp, dropCandidate]

end

/-! ### The steps of a RELOCATE job (R118 to R121) -/

section
variable {s : State} {b x : Nat}

theorem exec_relocateSpareClear (hr : s.me.running = some (.relocate b x .clearSpare)) (hx : x < 1041) (out : OpOutcome) :
    exec (.relocateSpareClearOutcome out) s = .next (relocateSpareClear out s) :=
  arrayOutcome_inside (by rw [operationBlock, hr]) hx

theorem relocateSpareClear_ok (hr : s.me.running = some (.relocate b x .clearSpare)) : relocateSpareClear .ok s =
    setRunning (.relocate b x (.copyRead 0)) (s.modMe (fun m => m.clearOk x)) := by
  simp only [relocateSpareClear, hr]

theorem relocateSpareClear_fault (hr : s.me.running = some (.relocate b x .clearSpare)) :
    relocateSpareClear .fault s = endRelocate .relocateFailed b (retireSpare x s) := by
  simp only [relocateSpareClear, hr]

section
variable {i : Nat} (hr : s.me.running = some (.relocate b x (.copyRead i))) (hb : servingBlock s.me b < 1041)
include hr hb

theorem exec_relocateCopyRead (out : ReadOutcome) :
    exec (.relocateCopyReadOutcome out) s = .next (relocateCopyRead out s) :=
  arrayOutcome_inside (by rw [operationBlock, hr]) hb

theorem exec_relocateCopyRead_readable (hu : physicalSector (servingBlock s.me b) i ∉ s.me.unreadable) {out : ReadOutcome}
    (ho : out ≠ .uncorrectable) : exec (.relocateCopyReadOutcome out) s = .next (setRunning
      (.relocate b x (.copyProgram i (readSectorData s.me.array (physicalSector (servingBlock s.me b) i)))) s) := by
  rw [exec_relocateCopyRead hr hb, relocateCopyRead, hr]
  simp only [readOutcomeAt_readable hu ho]

theorem exec_relocateCopyRead_unreadable (hu : physicalSector (servingBlock s.me b) i ∈ s.me.unreadable)
    (out : ReadOutcome) :
    exec (.relocateCopyReadOutcome out) s = .next (endRelocate .relocateFailed b s) := by
  rw [exec_relocateCopyRead hr hb, relocateCopyRead, hr]
  simp only [readOutcomeAt_unreadable hu]

theorem exec_relocateCopyRead_noOutcome (hu : physicalSector (servingBlock s.me b) i ∉ s.me.unreadable) :
    exec (.relocateCopyReadOutcome .uncorrectable) s = .next s := by
  rw [exec_relocateCopyRead hr hb, relocateCopyRead, hr]
  simp only [readOutcomeAt_none hu]

end

section
variable {i : Nat} {data : SectorData} (hr : s.me.running = some (.relocate b x (.copyProgram i data)))
include hr

theorem exec_relocateCopyProgram (hx : x < 1041) (out : OpOutcome) :
    exec (.relocateCopyProgramOutcome out) s = .next (relocateCopyProgram out s) :=
  arrayOutcome_inside (by rw [operationBlock, hr]) hx

theorem relocateCopyProgram_ok : relocateCopyProgram .ok s =
    setRunning (.relocate b x (stepAfterCopy b x i (s.modMe (fun m => m.programOk (physicalSector x i) data))))
      (s.modMe (fun m => m.programOk (physicalSector x i) data)) := by
  simp only [relocateCopyProgram, hr]

theorem relocateCopyProgram_fault :
    relocateCopyProgram .fault s = endRelocate .relocateFailed b (retireSpare x s) := by
  simp only [relocateCopyProgram, hr]

end

section
variable {r : MetaRecord} (hr : s.me.running = some (.relocate b x (.writeRecord r)))
include hr

theorem exec_relocateMetadata (out : OpOutcome) :
    exec (.relocateMetadataOutcome out) s = .next (relocateMetadata out s) :=
  arrayOutcome_inside (b := 1040) (by rw [operationBlock, hr]; rfl) (by omega)

theorem relocateMetadata_ok :
    relocateMetadata .ok s = endRelocate .relocated b (switchRemap b x (recordResult r .ok s)) := by
  simp only [relocateMetadata, hr]

theorem relocateMetadata_fault :
    relocateMetadata .fault s = endRelocate .relocateFailed b (recordResult r .fault s) := by
  simp only [relocateMetadata, hr]

end

end

/-- Settles O54: the RELOCATE job's end, and each of its steps by the outcome of its operation. -/
theorem relocationSteps : Obligations.RelocationSteps := by
  refine ⟨fun k b s t ht => ⟨fun hl => ?_, fun c hl hp => ?_, fun c hl hp => ?_⟩, fun s b x hx hb =>
    ⟨fun hr => ⟨?_, ?_⟩,
      fun i hr => ⟨fun hu out ho => exec_relocateCopyRead_readable hr hb hu ho,
        fun hu out => exec_relocateCopyRead_unreadable hr hb hu out, exec_relocateCopyRead_noOutcome hr hb⟩,
      fun i data hr => ⟨fun hi => ?_, fun hi => ?_, ?_⟩, fun r hr => ⟨?_, ?_⟩⟩⟩
  · rw [endRelocate, ← ht, releaseLatch_none hl]
  · rw [endRelocate, ← ht, releaseLatch_queued hl hp]
  · rw [endRelocate, ← ht, releaseLatch_dropped hl hp]
  · rw [exec_relocateSpareClear hr hx, relocateSpareClear_ok hr]
  · exact (exec_relocateSpareClear hr hx _).trans (congrArg _ (relocateSpareClear_fault hr))
  · have hstep : ∀ t : State, stepAfterCopy b x i t = .copyRead (i + 1) := fun t => if_pos (Nat.succ_lt_succ hi)
    refine (exec_relocateCopyProgram hr hx _).trans (congrArg _ ?_)
    rw [relocateCopyProgram_ok hr, hstep]
    rfl
  · subst hi
    exact (exec_relocateCopyProgram hr hx _).trans (congrArg _ (relocateCopyProgram_ok hr))
  · exact (exec_relocateCopyProgram hr hx _).trans (congrArg _ (relocateCopyProgram_fault hr))
  · exact (exec_relocateMetadata hr _).trans (congrArg _ (relocateMetadata_ok hr))
  · exact (exec_relocateMetadata hr _).trans (congrArg _ (relocateMetadata_fault hr))

/-! ### META jobs and the next job (R104, R106, R114, R118) -/

section
variable {s : State} {o : JobOwner} {r : MetaRecord}

theorem exec_metaProgram (hr : s.me.running = some (.metadata o r)) (out : OpOutcome) :
    exec (.metaProgramOutcome out) s = .next (metaProgramOutcome out s) :=
  arrayOutcome_inside (b := 1040) (by rw [operationBlock, hr]; rfl) (by omega)

theorem recordResult_pwu (r : MetaRecord) (out : OpOutcome) (s : State) : (recordResult r out s).pwu = s.pwu := by
  cases out <;> rfl

theorem metaProgramOutcome_command {c : PwuCommand} (hr : s.me.running = some (.metadata o r))
    (hc : issuingCommand o s = some c) (out : OpOutcome) : metaProgramOutcome out s =
      endRunning (complete o.issuer c.serial (metaCompletion out) (setCommand o.issuer none (recordResult r out s))) := by
  simp only [metaProgramOutcome, hr, issuingCommand_congr (recordResult_pwu r out s), hc]

theorem metaProgramOutcome_abandoned (hr : s.me.running = some (.metadata o r)) (hc : issuingCommand o s = none)
    (out : OpOutcome) : metaProgramOutcome out s = endRunning (recordResult r out s) := by
  simp only [metaProgramOutcome, hr, issuingCommand_congr (recordResult_pwu r out s), hc]

theorem selectJob_stays (h : s.device = .starting ∨ s.me.running ≠ none) : selectJob s = s := by
  unfold selectJob
  split
  · rfl
  · rfl
  next hd hn => exact absurd h (by simp [hd, hn])

theorem selectJob_picked {j : Job} {rest : List Job} (hd : s.device = .ready) (hn : s.me.running = none)
    (hp : pickJob s.me.queue = some (j, rest)) :
    selectJob s = s.modMe (fun m => { m with queue := rest, running := startedJob j s }) := by
  simp only [selectJob, hd, hn, hp]

/-- The first RELOCATE job goes ahead of the older jobs (R106). -/
theorem pickJob_relocate {before after : List Job} {b : Nat} (h : ∀ a, Job.relocate a ∉ before) :
    pickJob (before ++ .relocate b :: after) = some (.relocate b, before ++ after) := by
  simp only [pickJob, takeRelocate_some h]

theorem pickJob_oldest {j : Job} {rest : List Job} (h : ∀ a, Job.relocate a ∉ j :: rest) :
    pickJob (j :: rest) = some (j, rest) := by
  simp only [pickJob, takeRelocate_none h]

end

/-- Settles O53: the record and the flags by the outcome, the command if the job still has one; and the next job. -/
theorem metaProgramEnds : Obligations.MetaProgramEnds := by
  refine ⟨fun s o r c hr ha hc hs hst => ?_, fun s o r hr ha => ?_, fun s => rfl, fun s hd hn =>
    ⟨fun before b after x rest hq hb hp => ?_, fun o work rest hq hrest => ?_, fun hq => ?_⟩, fun s h => selectJob_stays h⟩
  · have hi := issuingCommand_some ha hc hs hst
    have hend : ∀ out, exec (.metaProgramOutcome out) s = _ := fun out =>
      (exec_metaProgram hr out).trans (congrArg Host.Outcome.next (metaProgramOutcome_command hr hi out))
    rw [← hs]
    exact ⟨hend .ok, hend .fault⟩
  · have hi := issuingCommand_none ha
    have hend : ∀ out, exec (.metaProgramOutcome out) s = _ := fun out =>
      (exec_metaProgram hr out).trans (congrArg Host.Outcome.next (metaProgramOutcome_abandoned hr hi out))
    exact ⟨hend .ok, hend .fault⟩
  · rw [selectJob_picked hd hn (hq ▸ pickJob_relocate hb), startedJob, hp]
  · have hnone : ∀ a, Job.relocate a ∉ Job.port o work :: rest := fun a hm => by simp [hrest a] at hm
    rw [selectJob_picked hd hn (hq ▸ pickJob_oldest hnone)]
    cases work <;> rfl
  · have hpick : pickJob s.me.queue = none := by rw [hq]; rfl
    simp only [selectJob, hd, hn, hpick]

end Sys2Proof.Machine
end

section
/-! SUPPORT. A block clear of a CLEAR job: what it does to the array, and the end of the job with its CLEARED event and its
completion (R78, R101, R108, R113, R131). -/

namespace Sys2Proof.Machine

/-! ### The array behind a block clear (R101, R113) -/

section
variable {s : State} {o : JobOwner} {b : Nat} {todo done raised : List Nat}

theorem exec_clearBlock (hr : s.me.running = some (.clear o (b :: todo) done raised)) (hb : servingBlock s.me b < 1041)
    (out : OpOutcome) : exec (.clearBlockOutcome out) s = .next (clearBlockOutcome out s) :=
  arrayOutcome_inside (by rw [operationBlock, hr]) hb

/-- The block that serves logical block `b` cleared OK. -/
def blockCleared (b : Nat) (s : State) : State := s.modMe (fun m => m.clearOk (servingBlock m b))

theorem clearBlockOutcome_next (hr : s.me.running = some (.clear o (b :: todo) done raised)) (ht : todo ≠ []) :
    clearBlockOutcome .ok s = setRunning (.clear o todo (done ++ [b]) raised) (blockCleared b s) := by
  simp [clearBlockOutcome, hr, ht, blockCleared]

theorem clearBlockOutcome_last (hr : s.me.running = some (.clear o [b] done raised)) :
    clearBlockOutcome .ok s = endClear o (done ++ [b]) none (blockCleared b s) := by
  simp [clearBlockOutcome, hr, blockCleared]

theorem clearBlockOutcome_fault (hr : s.me.running = some (.clear o (b :: todo) done raised)) :
    clearBlockOutcome .fault s = endClear o done (some b) (raiseOnce raised b s) := by
  simp only [clearBlockOutcome, hr]

/-- The end of a CLEAR job leaves the array's bytes alone. -/
theorem endClear_array (o : JobOwner) (done : List Nat) (failed : Option Nat) (s : State) :
    (endClear o done failed s).me.array = s.me.array := (Sound.endClear o done failed s).array

theorem clearBlockOutcome_ok_array (hr : s.me.running = some (.clear o (b :: todo) done raised)) :
    (clearBlockOutcome .ok s).me.array = (blockCleared b s).me.array := by
  cases todo with
  | nil => rw [clearBlockOutcome_last hr, endClear_array]
  | cons c t => rw [clearBlockOutcome_next hr (by simp)]; rfl

theorem clearBlockOutcome_fault_array (hr : s.me.running = some (.clear o (b :: todo) done raised)) :
    (clearBlockOutcome .fault s).me.array = s.me.array := by
  rw [clearBlockOutcome_fault hr, endClear_array]
  exact (Keeps.raiseOnce raised b s).array

/-- The bytes of the block, and only they, read FFh. -/
theorem read_blockCleared {base : Nat} (hbase : base = 32 * servingBlock s.me b * 512) :
    (∀ a, base ≤ a ∧ a < base + 32 * 512 → Memory.read (blockCleared b s).me.array a = 0xFF#8) ∧
      ∀ a, a < base ∨ base + 32 * 512 ≤ a → Memory.read (blockCleared b s).me.array a = Memory.read s.me.array a := by
  have harray : (blockCleared b s).me.array = Memory.clear s.me.array base (32 * 512) := by
    rw [hbase]
    rfl
  rw [harray]
  exact ⟨fun a ha => read_clear_inside _ _ _ a ha, fun a ha => read_clear_outside _ _ _ a ha⟩

end

/-! ### The end of a CLEAR job (R108, R131) -/

/-- The CLEARED event of a CLEAR job's end, if a block was cleared. -/
def clearedPart (o : JobOwner) (done : List Nat) (s : State) : State :=
  match clearedRange done with
  | some r => clearedEvent o.issuer r s
  | none => s

section
variable {o : JobOwner} {done : List Nat} {s : State}

theorem clearedPart_none : clearedPart o [] s = s := rfl

theorem clearedPart_some {first last : Nat} (hd : done.Pairwise (· < ·)) (h1 : done.head? = some first)
    (h2 : done.getLast? = some last) :
    clearedPart o done s = clearedEvent o.issuer { first := 32 * first, count := 32 * last + 32 - 32 * first } s := by
  rw [clearedPart, clearedRange_ascending hd h1 h2]

theorem clearedPart_pwu : (clearedPart o done s).pwu = s.pwu := by
  unfold clearedPart
  split
  · exact (NoticesOnly.deliver _ _).pwu
  · rfl

theorem endClear_abandoned {failed : Option Nat} (hi : issuingCommand o s = none) :
    endClear o done failed s = endRunning (clearedPart o done s) := by
  have hi' : issuingCommand o (clearedPart o done s) = none := (issuingCommand_congr clearedPart_pwu).trans hi
  change endRunning (match issuingCommand o (clearedPart o done s) with | some c => _ | none => _) = _
  rw [hi']
  rfl

/-- The pending clear range that the CLEAR's completion carries: the one formed at its acceptance, if it still exists. -/
theorem pending_eq (pending formed : Option Range) :
    pending.filter (fun q => decide (some q = formed)) = if pending = formed then formed else none := by
  cases pending with
  | none => simp
  | some q =>
    rcases Decidable.em (some q = formed) with h | h
    · simp [h.symm]
    · simp [h]

theorem endClear_command {failed : Option Nat} {c : PwuCommand} {blocks : List Nat} {cut : Bool} {formed : Option Range}
    (hi : issuingCommand o s = some c) (ha : c.action = .clear blocks cut formed) :
    endClear o done failed s = endRunning (complete o.issuer c.serial
      (clearCompletion c cut done failed (if (s.pwu.get o.issuer).pendingClear = formed then formed else none))
      (setCommand o.issuer none (clearedPart o done s))) := by
  have hi' : issuingCommand o (clearedPart o done s) = some c := (issuingCommand_congr clearedPart_pwu).trans hi
  have hpending : (((clearedPart o done s).pwu.get o.issuer).pendingClear.filter (fun q => decide (some q = formed))) =
      if (s.pwu.get o.issuer).pendingClear = formed then formed else none := by
    rw [clearedPart_pwu]
    exact pending_eq _ _
  rw [← hpending]
  change endRunning (match issuingCommand o (clearedPart o done s) with | some c => _ | none => _) = _
  rw [hi']
  simp only [ha]
  rfl

end

/-! ### A CLEAR's completion (R78, R131, R178) -/

theorem head_le_getLast {l : List Nat} (hl : l.Pairwise (· < ·)) {a b : Nat} (h1 : l.head? = some a)
    (h2 : l.getLast? = some b) : a ≤ b := by
  cases l with
  | nil => simp at h1
  | cons x t =>
    obtain rfl : x = a := by simpa using h1
    rcases List.mem_cons.mp (List.mem_of_getLast? h2) with e | e
    · exact e.ge
    · exact ((List.pairwise_cons.mp hl).1 b e).le

/-- The last sector of the blocks cleared. -/
theorem clearedRange_last {l : List Nat} (hl : l.Pairwise (· < ·)) {a b : Nat} (h1 : l.head? = some a)
    (h2 : l.getLast? = some b) : (clearedRange l).map Range.last = some (32 * b + 31) := by
  have hab := head_le_getLast hl h1 h2
  rw [clearedRange_ascending hl h1 h2]
  simp only [Option.map_some, Range.last, Option.some.injEq]
  omega

section
variable {c : PwuCommand} {cut : Bool} {done : List Nat} {pend : Option Range}

/-- The two words of a pending range, or what stands for an absent one. -/
def pendingWords (pend : Option Range) (absent : List Byte) : List Byte :=
  match pend with
  | some q => [BitVec.ofNat 8 (q.first / 256), BitVec.ofNat 8 q.first, BitVec.ofNat 8 (q.count / 256),
               BitVec.ofNat 8 q.count]
  | none => absent

theorem clearCompletion_ok (hb : c.broken = []) : clearCompletion c cut done none pend =
    { status := if cut then .overflow else .done, flags := { holdExpired := c.holdExpired, pending := pend.isSome },
      lastSector := (clearedRange done).map Range.last, count := 32 * done.length, detail := pendingWords pend [] } := by
  cases pend <;> simp [clearCompletion, hb, clearDetail, pendingDetail, wordItem, pendingWords, Config.blockSectors]

theorem clearCompletion_fault (hb : c.broken = []) (b : Nat) : clearCompletion c cut done (some b) pend =
    { status := .writeFault, flags := { holdExpired := c.holdExpired, pending := pend.isSome },
      lastSector := (clearedRange done).map Range.last, count := 32 * done.length,
      detail := pendingWords pend [0xFF#8, 0xFF#8, 0xFF#8, 0xFF#8] ++ [BitVec.ofNat 8 (b / 256), BitVec.ofNat 8 b] } := by
  cases pend <;> simp [clearCompletion, hb, clearDetail, wordItem, absentWord, pendingWords, Config.blockSectors]

theorem clearCompletion_lost {id : Nat} (hb : c.broken = [id]) (failed : Option Nat) :
    clearCompletion c cut done failed pend =
      { status := .leaseLost, flags := { holdExpired := c.holdExpired }, leaseId := some id,
        lastSector := (clearedRange done).map Range.last, count := 32 * done.length } := by
  simp [clearCompletion, hb, lostLease, Config.blockSectors]

end

/-- Settles O52: the array behind one block's clear, and the job's next step or its end by its outcome. -/
theorem clearBlanksItsBlockOnly : Obligations.ClearBlanksItsBlockOnly := by
  intro s o b todo done raised base hr hb hbase
  have hexec := exec_clearBlock hr hb
  have hpwuOk : (blockCleared b s).pwu = s.pwu := rfl
  have hpwuFault : (raiseOnce raised b s).pwu = s.pwu := (CandidateOnly.raiseOnce raised b s).pwu
  refine ⟨⟨_, hexec .ok, ?_⟩, ⟨_, hexec .fault, clearBlockOutcome_fault_array hr⟩, fun ht => ?_, fun ha => ⟨?_, ?_, ?_⟩,
    fun c blocks cut formed pend ha hc hs hst hact hpend => ⟨fun first ht hd hf => ⟨fun hbr => ?_, fun id hbr => ?_⟩,
      fun faulted hfaulted => ⟨fun hd => ?_, fun first last hd hf hl => ?_⟩⟩⟩
  · rw [clearBlockOutcome_ok_array hr]
    exact read_blockCleared hbase
  · exact (hexec .ok).trans (congrArg _ (clearBlockOutcome_next hr ht))
  · intro first ht hd hf
    subst ht
    have hi : issuingCommand o (blockCleared b s) = none := (issuingCommand_congr hpwuOk).trans (issuingCommand_none ha)
    rw [hexec, clearBlockOutcome_last hr, endClear_abandoned hi, clearedPart_some hd hf List.getLast?_concat]
    rfl
  · rintro rfl
    have hi := (issuingCommand_congr hpwuFault).trans (issuingCommand_none ha)
    rw [hexec, clearBlockOutcome_fault hr, endClear_abandoned hi, clearedPart_none]
  · intro first last hd hf hl
    have hi := (issuingCommand_congr hpwuFault).trans (issuingCommand_none ha)
    rw [hexec, clearBlockOutcome_fault hr, endClear_abandoned hi, clearedPart_some hd hf hl]
  all_goals
    have hi := issuingCommand_some ha hc hs hst
    subst hpend
    rw [← hs]
  · subst ht
    have hi : issuingCommand o (blockCleared b s) = some c := (issuingCommand_congr hpwuOk).trans hi
    rw [hexec, clearBlockOutcome_last hr, endClear_command hi hact, clearCompletion_ok hbr,
      clearedPart_some hd hf List.getLast?_concat, clearedRange_last hd hf List.getLast?_concat, List.length_append]
    rfl
  · subst ht
    have hi : issuingCommand o (blockCleared b s) = some c := (issuingCommand_congr hpwuOk).trans hi
    rw [hexec, clearBlockOutcome_last hr, endClear_command hi hact, clearCompletion_lost hbr,
      clearedPart_some hd hf List.getLast?_concat, clearedRange_last hd hf List.getLast?_concat, List.length_append]
    rfl
  all_goals
    have hi := (issuingCommand_congr hpwuFault).trans hi
    have hcompletion : clearCompletion c cut done (some b)
        (if (s.pwu.get o.issuer).pendingClear = formed then formed else none) =
          faulted ((clearedRange done).map Range.last) := by
      rcases hfaulted with ⟨hbr, rfl⟩ | ⟨id, hbr, rfl⟩
      · exact clearCompletion_fault hbr b
      · exact clearCompletion_lost hbr (some b)
    rw [hexec, clearBlockOutcome_fault hr, endClear_command hi hact, hpwuFault, hcompletion]
  · subst hd
    rfl
  · rw [clearedPart_some hd hf hl, clearedRange_last hd hf hl]
    rfl

end Sys2Proof.Machine
end

section
/-! SUPPORT. A program of a DRAIN job: what it does to the array and at the write unit, and the end of the job with its
COMMITTED event and its report (R87, R89, R95, R98, R101, R111, R112, R116). -/

namespace Sys2Proof.Machine

/-! ### What the end of a job leaves alone (R106) -/

theorem selectJob_me (s : State) : ∃ q r, selectJob s = s.modMe (fun m => { m with queue := q, running := r }) := by
  unfold selectJob
  split
  · exact ⟨_, _, rfl⟩
  · exact ⟨_, _, rfl⟩
  · split <;> exact ⟨_, _, rfl⟩

theorem endRunning_me (s : State) : ∃ q r, endRunning s = s.modMe (fun m => { m with queue := q, running := r }) := by
  obtain ⟨q, r, h⟩ := selectJob_me (s.modMe (fun m => { m with running := none }))
  exact ⟨q, r, h⟩

/-- The COMMITTED event of a DRAIN job's end, if a sector was programmed OK. -/
def committedPart (o : JobOwner) (done : List Nat) (s : State) : State :=
  if done = [] then s else committedEvent o.issuer done s

theorem committedPart_notices (o : JobOwner) (done : List Nat) (s : State) : NoticesOnly s (committedPart o done s) := by
  unfold committedPart
  split
  · exact NoticesOnly.refl s
  · exact NoticesOnly.deliver _ _

theorem endDrain_eq (o : JobOwner) (done : List Nat) (fault : Option Nat) (s : State) : endDrain o done fault s =
    endRunning (handRequest o.issuer (.report { serial := o.serial, okCount := done.length, firstFault := fault })
      (committedPart o done s)) := by
  unfold endDrain committedPart
  simp only [List.isEmpty_iff]

/-- The end of a DRAIN job changes the notices, the lease engine's requests and the media engine's jobs. -/
theorem endDrain_fields (o : JobOwner) (done : List Nat) (fault : Option Nat) (s : State) :
    (endDrain o done fault s).pwu = s.pwu ∧ (endDrain o done fault s).ac = s.ac ∧
    (endDrain o done fault s).le = { s.le with requests := s.le.requests.modify o.issuer (fun l => l ++
      [.report { serial := o.serial, okCount := done.length, firstFault := fault }]) } ∧
    (endDrain o done fault s).me.array = s.me.array ∧ (endDrain o done fault s).me.unreadable = s.me.unreadable := by
  have hn := committedPart_notices o done s
  obtain ⟨q, r, h⟩ := endRunning_me (handRequest o.issuer
    (.report { serial := o.serial, okCount := done.length, firstFault := fault }) (committedPart o done s))
  have harray : (committedPart o done s).me.array = s.me.array := by rw [hn.me]
  have hunreadable : (committedPart o done s).me.unreadable = s.me.unreadable := by rw [hn.me]
  rw [endDrain_eq, h]
  exact ⟨hn.pwu, hn.ac, congrArg (fun e : LeaseEngine => { e with requests := e.requests.modify o.issuer (fun l => l ++
    [LeRequest.report { serial := o.serial, okCount := done.length, firstFault := fault }]) }) hn.le, harray, hunreadable⟩

/-! ### One program (R101, R102, R111, R116) -/

theorem programResult_fields (o : JobOwner) (x : SectorItem) (raised : List Nat) (out : OpOutcome) (s : State) :
    (programResult o x raised out s).pwu = s.pwu ∧ (programResult o x raised out s).ac = s.ac ∧
    (programResult o x raised out s).le = s.le := by
  cases out with
  | ok => exact ⟨rfl, rfl, rfl⟩
  | fault =>
    have h := CandidateOnly.raiseOnce raised (blockOf x.sector) s
    refine ⟨h.pwu, ?_, h.le⟩
    change (raiseOnce raised (blockOf x.sector) s).ac = s.ac
    rw [h.eq]

/-- The state behind a program at the array and at the write unit. -/
def programmed (o : JobOwner) (x : SectorItem) (raised : List Nat) (out : OpOutcome) (s : State) : State :=
  programEnds o x.sector (programResult o x raised out s)

/-- The write unit behind a program's end: the slot has left, and `release` frees the sector's part of the payload. -/
def slotProgrammed (o : JobOwner) (n : Nat) (release : PwuAction → PwuAction) (w : WriteUnit) : WriteUnit :=
  { w.slotLeaves n with
    command := w.command.map (fun c =>
      if o.abandoned = false ∧ c.serial = o.serial ∧ c.stage = .issued then { c with action := release c.action } else c) }

theorem programmed_eq {o : JobOwner} {x : SectorItem} {raised : List Nat} {out : OpOutcome} {s : State}
    {release : PwuAction → PwuAction} (h : ∀ a : PwuAction, a.releaseOpen x.sector = release a) :
    programmed o x raised out s =
      (programResult o x raised out s).modPwu o.issuer (slotProgrammed o x.sector release) := by
  have hrelease : (fun a : PwuAction => a.releaseOpen x.sector) = release := funext h
  rw [programmed, programEnds_eq, ← hrelease]
  rfl

/-- The sectors of the job programmed OK, with this program's end. -/
def programsOk (done : List Nat) (x : SectorItem) (out : OpOutcome) : List Nat :=
  if out = .ok then done ++ [x.sector] else done

/-- The first faulty sector of the job, with this program's end. -/
def firstFaulty (f : Option Nat) (x : SectorItem) (out : OpOutcome) : Option Nat :=
  if out = .fault then some (f.getD x.sector) else f

section
variable {s : State} {o : JobOwner} {x : SectorItem} {todo : List SectorItem} {done : List Nat} {f : Option Nat}
  {raised : List Nat}

theorem exec_programSector (hr : s.me.running = some (.drain o (x :: todo) done f raised))
    (hb : servingBlock s.me (x.sector / 32) < 1041) (out : OpOutcome) :
    exec (.programSectorOutcome out) s = .next (programSectorOutcome out s) :=
  arrayOutcome_inside (b := servingBlock s.me (x.sector / 32)) (by rw [operationBlock, hr]; rfl) hb

theorem programSectorOutcome_next (hr : s.me.running = some (.drain o (x :: todo) done f raised)) (ht : todo ≠ [])
    (out : OpOutcome) : programSectorOutcome out s = setRunning (.drain o todo (programsOk done x out) (firstFaulty f x out)
      (if out = .fault then raisedWith raised (x.sector / 32) else raised)) (programmed o x raised out s) := by
  have he : todo.isEmpty = false := List.isEmpty_eq_false_iff.mpr ht
  simp only [programSectorOutcome, hr, he, Bool.false_eq_true, if_false]
  rfl

theorem programSectorOutcome_last (hr : s.me.running = some (.drain o [x] done f raised)) (out : OpOutcome) :
    programSectorOutcome out s = endDrain o (programsOk done x out) (firstFaulty f x out) (programmed o x raised out s) := by
  simp only [programSectorOutcome, hr]
  rfl

end

section
variable (o : JobOwner) (x : SectorItem) (raised : List Nat) (out : OpOutcome) (s : State)

/-- The slot that carried the sector leaves its write unit, and no other unit changes (R87). -/
theorem programmed_pwu : ((programmed o x raised out s).pwu.get o.issuer).slots =
      (s.pwu.get o.issuer).slots.filter (fun z => !(decide (z.sector = x.sector) && decide (z.state = .draining))) ∧
    ∀ q, q ≠ o.issuer → (programmed o x raised out s).pwu.get q = s.pwu.get q := by
  obtain ⟨hpwu, -, -⟩ := programResult_fields o x raised out s
  rw [programmed, programEnds_eq]
  refine ⟨?_, fun q hq => ?_⟩
  · simp [hpwu, WriteUnit.slotLeaves]
  · simp [hpwu, PortMap.get_modify_ne, hq]

theorem programmed_fields : (programmed o x raised out s).ac = s.ac ∧ (programmed o x raised out s).le = s.le ∧
    (programmed o x raised out s).me = (programResult o x raised out s).me := by
  obtain ⟨-, hac, hle⟩ := programResult_fields o x raised out s
  rw [programmed, programEnds_eq]
  exact ⟨hac, hle, rfl⟩

end

/-- Whatever becomes of the job, the array and its readable sectors are those behind the program. -/
theorem programSectorOutcome_array {s : State} {o : JobOwner} {x : SectorItem} {todo : List SectorItem} {done : List Nat}
    {f : Option Nat} {raised : List Nat} (hr : s.me.running = some (.drain o (x :: todo) done f raised)) (out : OpOutcome) :
    (programSectorOutcome out s).me.array = (programResult o x raised out s).me.array ∧
      (programSectorOutcome out s).me.unreadable = (programResult o x raised out s).me.unreadable := by
  obtain ⟨-, -, hme⟩ := programmed_fields o x raised out s
  rw [← hme]
  cases todo with
  | nil =>
    rw [programSectorOutcome_last hr]
    obtain ⟨-, -, -, harray, hunreadable⟩ := endDrain_fields o (programsOk done x out) (firstFaulty f x out)
      (programmed o x raised out s)
    exact ⟨harray, hunreadable⟩
  | cons y t =>
    rw [programSectorOutcome_next hr (by simp)]
    exact ⟨rfl, rfl⟩

theorem not_mem_eraseNat (n : Nat) (l : List Nat) : n ∉ eraseNat n l := by
  simp [eraseNat]

/-- Settles O51: the array behind one program, the write unit behind it, and the job's next step or its end. -/
theorem programStoresItsSectorOnly : Obligations.ProgramStoresItsSectorOnly := by
  refine ⟨fun s o x todo done f raised base hr hlen hb hbase => ⟨⟨_, exec_programSector hr hb .ok, ?_⟩,
      ⟨_, exec_programSector hr hb .fault, ?_⟩⟩,
    fun s o x todo done f raised out hr hb => ⟨_, exec_programSector hr hb out, ?_⟩,
    fun s ended u o x todo done f raised out ok fault hr hb hok hfault hended hu => ?_⟩
  · obtain ⟨harray, hunreadable⟩ := programSectorOutcome_array hr .ok
    have hwrite : (programResult o x raised .ok s).me.array = Memory.write s.me.array base x.data := by
      change Memory.write s.me.array (servingSector s.me x.sector * 512) (x.data.take 512) = _
      rw [hbase, List.take_of_length_le hlen.le]
      rfl
    rw [harray, hunreadable, hwrite]
    refine ⟨fun j hj => read_write_inside _ _ _ _ (hlen ▸ hj), fun a ha => read_write_outside _ _ _ _ (hlen ▸ ha),
      not_mem_eraseNat _ _⟩
  · obtain ⟨harray, hunreadable⟩ := programSectorOutcome_array hr .fault
    have hme := (CandidateOnly.raiseOnce raised (blockOf x.sector) s).me
    rw [harray, hunreadable]
    change (raiseOnce raised (blockOf x.sector) s).me.array = _ ∧ (raiseOnce raised (blockOf x.sector) s).me.unreadable = _
    rw [hme]
    exact ⟨rfl, rfl⟩
  · obtain ⟨hslots, hother⟩ := programmed_pwu o x raised out s
    obtain ⟨hac, hle, -⟩ := programmed_fields o x raised out s
    cases todo with
    | nil =>
      obtain ⟨hpwu, hac', hle', -⟩ := endDrain_fields o (programsOk done x out) (firstFaulty f x out)
        (programmed o x raised out s)
      rw [programSectorOutcome_last hr, hpwu, hac', hle', hle]
      refine ⟨hslots, hother, hac, fun h => absurd rfl h, fun _ => ?_⟩
      cases out <;> simp [programsOk, firstFaulty]
    | cons y t =>
      rw [programSectorOutcome_next hr (by simp)]
      exact ⟨hslots, hother, hac, fun _ => ⟨hle, rfl⟩, fun h => absurd h (by simp)⟩
  · have hresult : programResult o x raised out s = ended := by
      rw [hended]
      cases out <;> rfl
    have hprogrammed : programmed o x raised out s = u := by
      refine (programmed_eq (release := fun a => match a with
        | .write kept cut flush leased opens =>
          .write kept cut flush leased (opens.filter (fun z => decide (z.sector ≠ x.sector)))
        | a => a) fun a => by cases a <;> rfl).trans ?_
      rw [hresult, hu]
      rfl
    rw [exec_programSector hr hb]
    refine ⟨fun ht => ?_, fun ht => ?_⟩
    · rw [programSectorOutcome_next hr ht, hprogrammed, hok, hfault]
      rfl
    · subst ht
      rw [programSectorOutcome_last hr, hprogrammed, endDrain_eq, hok, hfault]
      rfl

end Sys2Proof.Machine
end

section
/-! SUPPORT. A read of a READ job, the end of the job with its completion, and the candidates that a CORRECTED read raises (R78,
R92, R101, R103, R108, R110, R116, R117, R123). -/

namespace Sys2Proof.Machine

/-! ### Candidates (R116, R117, R123) -/

section
variable {b : Nat} {s : State}

theorem raiseOnce_eq (raised : List Nat) (b : Nat) (s : State) :
    raiseOnce raised b s = (if b ∈ raised then s else candidate b s) ∧
      raisedWith raised b = (if b ∈ raised then raised else raised ++ [b]) := by
  simp [raiseOnce, raisedWith]

theorem queuedRelocate_none {q : List Job} (h : ∀ a, Job.relocate a ∉ q) : queuedRelocate q = none := by
  simp only [queuedRelocate, takeRelocate_none h]

theorem queuedRelocate_only {q : List Job} {a : Nat} (h : Job.relocate a ∈ q) (hu : ∀ x, Job.relocate x ∈ q → x = a) :
    queuedRelocate q = some a := by
  obtain ⟨before, x, after, hq, hb⟩ := first_relocate h
  have hx : x = a := hu x (by simp [hq])
  simp only [queuedRelocate, hq, takeRelocate_some hb, hx]

theorem candidate_emptyPool (hp : s.me.pool = []) :
    candidate b s = sparesOutRule b (countEvent .relocDropped none s) := by
  simp [candidate, hp, dropCandidate]

theorem candidate_queued (hp : s.me.pool ≠ []) (h : ∀ a, Job.relocate a ∉ s.me.queue) :
    candidate b s = s.modMe (fun m => { m with queue := m.queue ++ [.relocate b] }) := by
  simp [candidate, hp, queuedRelocate_none h]

section
variable {a : Nat} (hp : s.me.pool ≠ []) (h : Job.relocate a ∈ s.me.queue)
  (hu : ∀ x, Job.relocate x ∈ s.me.queue → x = a)
include hp h hu

theorem candidate_known (e : a = b) : candidate b s = countEvent .relocDropped none s := by
  simp [candidate, hp, queuedRelocate_only h hu, e, dropCandidate]

theorem candidate_latched (e : a ≠ b) (hl : s.me.latch = none) :
    candidate b s = s.modMe (fun m => { m with latch := some b }) := by
  simp [candidate, hp, queuedRelocate_only h hu, e, hl]

theorem candidate_latchTaken (e : a ≠ b) (hl : s.me.latch ≠ none) :
    candidate b s = countEvent .relocDropped none s := by
  obtain ⟨c, hc⟩ := Option.ne_none_iff_exists'.mp hl
  simp [candidate, hp, queuedRelocate_only h hu, e, hc, dropCandidate]

end

theorem sparesOutRule_applies (hp : s.me.pool = []) (hm : s.me.sparesOut = false) :
    sparesOutRule b s = mediaEvent .sparesOut b (s.modMe (fun m => { m with sparesOut := true })) := by
  simp [sparesOutRule, hp, hm]

theorem sparesOutRule_idle (h : s.me.pool ≠ [] ∨ s.me.sparesOut = true) : sparesOutRule b s = s := by
  rcases h with h | h <;> simp [sparesOutRule, h]

end

/-! ### One read (R101, R103, R110) -/

/-- The state behind a read that delivered its sector. -/
def sectorRead (o : JobOwner) (n : Nat) (raised : List Nat) (weak : Bool) (s : State) : State :=
  readEvents o weak raised (blockOf n) (deliverSector o n (readSectorData s.me.array (servingSector s.me n)) s)

section
variable {s : State} {o : JobOwner} {n : Nat} {todo : List Nat} {d : Nat} {k : Bool} {raised : List Nat}
  (hr : s.me.running = some (.read o (n :: todo) d k raised))
include hr

theorem exec_readSector (hb : servingBlock s.me (n / 32) < 1041) (out : ReadOutcome) :
    exec (.readSectorOutcome out) s = .next (readSectorOutcome out s) :=
  arrayOutcome_inside (b := servingBlock s.me (n / 32)) (by rw [operationBlock, hr]; rfl) hb

theorem readSectorOutcome_unreadable (hu : servingSector s.me n ∈ s.me.unreadable) (out : ReadOutcome) :
    readSectorOutcome out s = endRead o k (some n) s := by
  simp only [readSectorOutcome, hr, readOutcomeAt_unreadable hu]

section
variable (hu : servingSector s.me n ∉ s.me.unreadable)
include hu

theorem readSectorOutcome_noOutcome : readSectorOutcome .uncorrectable s = s := by
  simp only [readSectorOutcome, hr, readOutcomeAt_none hu]

theorem readSectorOutcome_clean : readSectorOutcome .clean s =
    if todo = [] then endRead o k none (sectorRead o n raised false s)
    else setRunning (.read o todo (d + 1) k raised) (sectorRead o n raised false s) := by
  have ho : readOutcomeAt s.me (servingSector s.me n) .clean = some .clean := readOutcomeAt_readable hu (by decide)
  simp [readSectorOutcome, hr, ho, sectorRead]

theorem readSectorOutcome_corrected : readSectorOutcome .corrected s =
    if todo = [] then endRead o true none (sectorRead o n raised true s)
    else setRunning (.read o todo (d + 1) true (raisedWith raised (n / 32))) (sectorRead o n raised true s) := by
  have ho : readOutcomeAt s.me (servingSector s.me n) .corrected = some .corrected := readOutcomeAt_readable hu (by decide)
  simp [readSectorOutcome, hr, ho, sectorRead, blockOf, Config.blockSectors]

end

end

section
variable {s : State} {o : JobOwner} {n : Nat} {raised : List Nat}

theorem sectorRead_clean : sectorRead o n raised false s = countEvent .readSector (some o.issuer)
    (deliverSector o n (readSectorData s.me.array (servingSector s.me n)) s) := rfl

theorem sectorRead_corrected : sectorRead o n raised true s = raiseOnce raised (n / 32)
    (countEvent .corrected (some o.issuer) (sectorRead o n raised false s)) := rfl

theorem sectorRead_pwu (weak : Bool) : (sectorRead o n raised weak s).pwu = s.pwu :=
  ((CandidateOnly.deliverSector ..).trans (CandidateOnly.readEvents ..)).pwu

theorem deliverSector_abandoned (hi : issuingCommand o s = none) (data : SectorData) : deliverSector o n data s = s := by
  simp only [deliverSector, hi]

/-- A READ in flight has the sector in its place in the port's buffer (R91, R92). -/
theorem deliverSector_command {c : PwuCommand} {r : Range} {rest : List Nat} (hi : issuingCommand o s = some c)
    (ha : c.action = .read r rest) (hslot : (s.plu.get o.issuer).slot = .busy)
    (hserial : (s.plu.get o.issuer).serial = o.serial) (data : SectorData) :
    deliverSector o n data s = s.modPlu o.issuer (fun u => { u with buffer := u.buffer.set (n - r.first) data }) := by
  have hholds : (s.plu.get o.issuer).holdsCommand o.serial = true := by simp [Plu.holdsCommand, hslot, hserial]
  simp only [deliverSector, hi, ha]
  exact modPlu_congr (if_pos hholds)

/-! ### The end of a READ job (R78, R92, R106) -/

theorem endRead_abandoned {k : Bool} {failed : Option Nat} (hi : issuingCommand o s = none) :
    endRead o k failed s = endRunning s := by
  simp only [endRead, hi]

theorem endRead_command {k : Bool} {failed : Option Nat} {c : PwuCommand} {r : Range} {rest : List Nat}
    (hi : issuingCommand o s = some c) (ha : c.action = .read r rest) : endRead o k failed s =
      endRunning (completeRead o.issuer c.serial (readCompletion c r rest k failed)
        (s.modPwu o.issuer (fun u => { u with command := none }))) := by
  simp only [endRead, hi, ha]
  rfl

end

/-- At most one lease of the READ has been broken since its issue, and it is `lost` (R78, R93). -/
def LostOf (c : PwuCommand) (lost : Option Nat) : Prop :=
  c.broken = [] ∧ lost = none ∨ ∃ id, c.broken = [id] ∧ lost = some id

theorem readCompletion_done {c : PwuCommand} {lost : Option Nat} (h : LostOf c lost) (r : Range) (rest : List Nat)
    (k : Bool) : readCompletion c r rest k none =
      { status := if lost = none then .done else .leaseLost,
        flags := { corrected := k, staged := decide (lost = none ∧ rest.length < r.count) }, leaseId := lost,
        lastSector := some (r.first + r.count - 1), count := r.count } := by
  rcases h with ⟨hb, rfl⟩ | ⟨id, hb, rfl⟩ <;> simp [readCompletion, hb, lostLease, Range.last]

theorem readCompletion_failed {c : PwuCommand} {lost : Option Nat} (h : LostOf c lost) (r : Range) (rest : List Nat)
    (k : Bool) (n : Nat) : readCompletion c r rest k (some n) =
      { status := if lost = none then .uncorrectable else .leaseLost,
        flags := { corrected := k, staged := decide (lost = none ∧ rest.length < r.count) }, leaseId := lost,
        lastSector := some n, count := n - r.first } := by
  rcases h with ⟨hb, rfl⟩ | ⟨id, hb, rfl⟩ <;> simp [readCompletion, hb, lostLease]

/-- Settles O50: each read by the array's outcome, for a READ in flight and for an abandoned one; and R117's table. -/
theorem readSectorIsDelivered : Obligations.ReadSectorIsDelivered := by
  refine ⟨fun s o n todo d k raised c r rest read lost hr ha hc hs hst hact hlost hslot hserial hb hread => ?_,
    fun s read o n todo d k raised hr hb ha hread => ?_, raiseOnce_eq,
    fun b s => ⟨candidate_emptyPool, candidate_queued, fun a hp hm hu => ⟨candidate_known hp hm hu,
      candidate_latched hp hm hu, candidate_latchTaken hp hm hu⟩, sparesOutRule_applies, sparesOutRule_idle⟩⟩
  · have hi := issuingCommand_some ha hc hs hst
    have hi' : ∀ weak, issuingCommand o (sectorRead o n raised weak s) = some c := fun weak =>
      (issuingCommand_congr (sectorRead_pwu weak)).trans hi
    have hclean : sectorRead o n raised false s = read := by
      rw [hread, sectorRead_clean, deliverSector_command hi hact hslot hserial]
    have hcorrected : sectorRead o n raised true s =
        raiseOnce raised (n / 32) (countEvent .corrected (some o.issuer) read) := by
      rw [sectorRead_corrected, hclean]
    have hexec := exec_readSector hr hb
    refine ⟨fun hu => ⟨fun ht => ⟨?_, ?_⟩, fun ht => ⟨?_, ?_⟩⟩, fun hu => ?_, fun hu out => ?_⟩
    · rw [hexec, readSectorOutcome_clean hr hu, if_neg ht, hclean]
    · rw [hexec, readSectorOutcome_corrected hr hu, if_neg ht, hcorrected]
    · rw [hexec, readSectorOutcome_clean hr hu, if_pos ht, endRead_command (hi' false) hact, hclean,
        readCompletion_done hlost, hs]
    · rw [hexec, readSectorOutcome_corrected hr hu, if_pos ht, endRead_command (hi' true) hact, hcorrected,
        readCompletion_done hlost, hs]
    · rw [hexec, readSectorOutcome_noOutcome hr hu]
    · rw [hexec, readSectorOutcome_unreadable hr hu, endRead_command hi hact, readCompletion_failed hlost, hs]
  · have hi := issuingCommand_none ha
    have hi' : ∀ weak, issuingCommand o (sectorRead o n raised weak s) = none := fun weak =>
      (issuingCommand_congr (sectorRead_pwu weak)).trans hi
    have hclean : sectorRead o n raised false s = read := by
      rw [hread, sectorRead_clean, deliverSector_abandoned hi]
    have hcorrected : sectorRead o n raised true s =
        raiseOnce raised (n / 32) (countEvent .corrected (some o.issuer) read) := by
      rw [sectorRead_corrected, hclean]
    have hexec := exec_readSector hr hb
    refine ⟨fun hu => ⟨?_, ?_⟩, fun hu out => ?_⟩
    · rw [hexec, readSectorOutcome_clean hr hu, endRead_abandoned (hi' false), hclean]
    · rw [hexec, readSectorOutcome_corrected hr hu, endRead_abandoned (hi' true), hcorrected]
    · rw [hexec, readSectorOutcome_unreadable hr hu, endRead_abandoned hi]

end Sys2Proof.Machine
end
